-- ==== Sys2Proof/Word.lean ====
section
/-! DEFINITION. The word types of the part and their plainest arithmetic. -/

namespace Sys2Proof

/-- A scalar register, a lane of a vector register, a generic virtual address (R92, R222, R248). -/
abbrev Word := BitVec 64

/-- A lane mask or a status word of 32 bits (R17, R236). -/
abbrev W32 := BitVec 32

/-- The smallest addressable unit of device memory and scratchpad (R5). -/
abbrev Byte := BitVec 8

/-- A Boolean as the number 0 or 1. -/
def Word.ofBool (b : Bool) : Word := if b then 1 else 0

end Sys2Proof
end

