-- ==== Sys2Proof/Refs.lean ====
section
/-! DEFINITION. The names by which a step of the part refers to what it acts on: waves, teams, barriers,
operations, packets, management sources, and what the world outside the part reports to it. -/

namespace Sys2Proof

/-- A wave: its launch, its team id and its number in the team (R15). -/
structure WaveRef where
  lid : Nat
  team : Nat
  wave : Nat
  deriving DecidableEq, Repr

/-- A team: its launch and its team id (R15). -/
structure TeamRef where
  lid : Nat
  team : Nat
  deriving DecidableEq, Repr

/-- The team of a wave. -/
def WaveRef.teamRef (w : WaveRef) : TeamRef := ⟨w.lid, w.team⟩

/-- What can be parked beyond the park limit: a path of a wave (slot or berm), or an engine operation of a quad (R26, R162). -/
inductive ParkRef where
  | slot (w : WaveRef) (slot1 : Bool)
  | berm (w : WaveRef) (entry : Nat)
  | engine (quad : Nat)
  deriving DecidableEq, Repr

/-- One barrier instance: of a team, or of a cohort of a launch (R27). -/
inductive BarRef where
  | team (t : TeamRef) (n : BitVec 4)
  | cohort (lid : Nat) (cohort : Nat) (n : BitVec 4)
  deriving DecidableEq, Repr

/-- A det operation: an outstanding operation of a wave (a `det` atomic, `ecl` or `edrop`), or a cohort barrier phase (R345). -/
inductive DetRef where
  | op (w : WaveRef) (op : Nat)
  | phase (lid : Nat) (cohort : Nat) (n : BitVec 4)
  deriving DecidableEq, Repr

/-- What the engine's checks report of the operation that completes: nothing, or a residue mismatch on a K-step of a row,
once (cured by the retry) or twice (R166, R374). -/
inductive EngineReport where
  | clean
  | retried
  | residue (row : Nat)
  deriving DecidableEq, Repr

/-- Where a management access comes from: a node over the fabric's management class, or the I3C sideband (R308). -/
inductive MgmtSrc where
  | node (n : BitVec 16)
  | sideband
  deriving DecidableEq, Repr

/-- What a handle notice reports (R398). -/
inductive NoticeEvent where
  | location (node : BitVec 16)
  | placed (lid : Nat)
  | resolved
  | broken (reason : Nat) (status : Nat)
  deriving DecidableEq, Repr

/-- The payload of an ordered or culvert packet, by KIND (R175, R177, R180, R388, R398). -/
inductive Payload where
  /-- KIND 0, `osend`: target context, mailbox, payload bytes and their poison. -/
  | osend (ctx : Nat) (mbox : Nat) (bytes : List Byte)
  /-- KIND 1, `oatom`: the physical address at its home, the operation, its width and operands, the issuing wave and operation. -/
  | oatom (pa : Nat) (op : BitVec 4) (wide : Bool) (val cmp : Word) (ctx : Nat) (w : WaveRef) (ref : Nat)
  /-- KIND 2, INVOKE: target context (for `invk`), the record's fields, the argument block, the handle, the parent handle (0 for `invk`). -/
  | invoke (ctx : Nat) (kernel : Word) (items : Nat) (fmode : W32) (estate : Bool) (args : List Byte) (handle parent : Word)
  /-- KIND 3, a notice to the home of a handle. -/
  | notice (slot gen : Nat) (ev : NoticeEvent)
  deriving DecidableEq, Repr

/-- An ordered-class packet, or a culvert packet that keeps its key (R388). -/
structure Packet where
  stamp : Nat
  src : BitVec 16
  seq : BitVec 16
  dst : BitVec 16
  late : Bool
  body : Payload
  deriving DecidableEq, Repr

/-- How a bring-up phase ended: complete, with the units that self-test fenced and the ports that trained, or failed with a FAILCODE (R405). -/
structure PhaseReport where
  /-- a FAILCODE, or 0 when the phase completed -/
  code : BitVec 8
  /-- cores fenced by self-test -/
  cores : List Nat
  /-- quads whose matrix engine is fenced by self-test -/
  quads : List Nat
  /-- clusters fenced by self-test -/
  clusters : List Nat
  deriving DecidableEq, Repr

/-- A request of another node to physical memory of this one (R360). -/
inductive FabAccess where
  | load (pa : Nat) (bytes : Nat)
  | store (pa : Nat) (bytes : List Byte)
  | atomic (pa : Nat) (op : BitVec 4) (wide : Bool) (val cmp : Word)
  deriving DecidableEq, Repr

/-- An IEEE 1588 message (R390): an announcement with the data set of its grandmaster, folded into a number of which the least is best; `sync`, with its
origin time in ticks or, in two-step transmission, without; what follows a two-step `sync`; a delay request; its response with the time at which
the request was received. -/
inductive PtpMsg where
  | announce (rank : Nat)
  | sync (origin : Option Nat)
  | followUp (origin : Nat)
  | delayReq
  | delayResp (received : Nat)
  deriving DecidableEq, Repr

/-- A message of IEEE 1588 that arrives on a port (R390). -/
structure PtpArrival where
  port : BitVec 4
  msg : PtpMsg
  deriving DecidableEq, Repr

end Sys2Proof
end

