-- ==== Sys2Proof/Syntax.lean ====
section
/-! DEFINITION. The instructions and steps of the part: one constructor for each row of spec/opcode_table.json.
The first 174 are instruction words; `x` is their switch marker S (R192), and every other field has the width of its encoding.
The other 84 are whole steps of the part's units, of the command front end, of the privileged space, of the fabric and of bring-up. -/

namespace Sys2Proof

/-- One instruction word of Shosere, or one indivisible step of the part (opcode_table.json). -/
inductive Instr where
  -- Control flow (R213 to R221)
  /-- R213. Does nothing except count in ICOUNT. -/
  | nop (x : Bool)
  /-- R214. Branches the path unconditionally to the target clause header. -/
  | jmp (x : Bool) (o : BitVec 20)
  /-- R214. Branches when any lane of the path is set in mask mK. -/
  | bany (x : Bool) (k : BitVec 3) (o : BitVec 20)
  /-- R214. Branches when every lane of the path is set in mask mK. -/
  | ball (x : Bool) (k : BitVec 3) (o : BitVec 20)
  /-- R214. Branches when no lane of the path is set in mask mK. -/
  | bnone (x : Bool) (k : BitVec 3) (o : BitVec 20)
  /-- R20. Divides the current path by a mask and pushes a split record when both sides hold lanes. -/
  | split (x : Bool) (k : BitVec 3) (o : BitVec 20)
  /-- R21. Ends the current path at its innermost split record and merges when the last side arrives. -/
  | join (x : Bool)
  /-- R215. Writes the next clause offset into a scalar register and branches to the target. -/
  | call (x : Bool) (d : BitVec 6) (o : BitVec 18)
  /-- R216. Continues the path at the image offset held in a scalar register. -/
  | jind (x : Bool) (a : BitVec 6)
  /-- R217. Activates a loop record on a loop counter or skips the body when the counter is zero. -/
  | loop (x : Bool) (n : BitVec 2) (o : BitVec 20)
  /-- R219. Deactivates a loop record and branches out of the body. -/
  | loopx (x : Bool) (n : BitVec 2) (o : BitVec 20)
  /-- R32. Ends the active lanes of the path, bequeathing marked registers, and ends the wave when all live lanes have exited. -/
  | exit (x : Bool)
  /-- R27. Arrives at a team barrier and parks until the phase completes. -/
  | bar (x : Bool) (n : BitVec 4)
  /-- R27. Arrives at a cohort barrier and parks until the phase completes. -/
  | barCohort (x : Bool) (n : BitVec 4)
  /-- R29. Parks the path until ticket counter kN equals the team id. -/
  | tkwait (x : Bool) (n : BitVec 3)
  /-- R30. Marks the team's ticket on kN taken, a device-scope release. -/
  | tktake (x : Bool) (n : BitVec 3)
  /-- R221. Holds the path until every named outstanding-work counter reads zero. -/
  | wait (x : Bool) (w : BitVec 8)
  -- Scalar arithmetic and scalar memory (R222 to R232), status registers (R235)
  /-- R223. Adds two scalar registers modulo 2^64. -/
  | sadd (x : Bool) (d : BitVec 6) (a : BitVec 6) (b : BitVec 6)
  /-- R223. Subtracts two scalar registers modulo 2^64. -/
  | ssub (x : Bool) (d : BitVec 6) (a : BitVec 6) (b : BitVec 6)
  /-- R223. Bitwise AND of two scalar registers. -/
  | sand (x : Bool) (d : BitVec 6) (a : BitVec 6) (b : BitVec 6)
  /-- R223. Bitwise OR of two scalar registers. -/
  | sor (x : Bool) (d : BitVec 6) (a : BitVec 6) (b : BitVec 6)
  /-- R223. Bitwise XOR of two scalar registers. -/
  | sxor (x : Bool) (d : BitVec 6) (a : BitVec 6) (b : BitVec 6)
  /-- R223. Shifts a scalar left by a register count. -/
  | sshl (x : Bool) (d : BitVec 6) (a : BitVec 6) (b : BitVec 6)
  /-- R223. Shifts a scalar right logically by a register count. -/
  | sshr (x : Bool) (d : BitVec 6) (a : BitVec 6) (b : BitVec 6)
  /-- R223. Shifts a scalar right arithmetically by a register count. -/
  | ssra (x : Bool) (d : BitVec 6) (a : BitVec 6) (b : BitVec 6)
  /-- R224. Writes the low 64 bits of a scalar product. -/
  | smul (x : Bool) (d : BitVec 6) (a : BitVec 6) (b : BitVec 6)
  /-- R224. Writes the high 64 bits of the signed scalar product. -/
  | smulh (x : Bool) (d : BitVec 6) (a : BitVec 6) (b : BitVec 6)
  /-- R224. Writes the high 64 bits of the unsigned scalar product. -/
  | smulhw (x : Bool) (d : BitVec 6) (a : BitVec 6) (b : BitVec 6)
  /-- R224. Signed scalar division, holding the core's issue slot for 40 cycles. -/
  | sdiv (x : Bool) (d : BitVec 6) (a : BitVec 6) (b : BitVec 6)
  /-- R224. Unsigned scalar division. -/
  | sdivw (x : Bool) (d : BitVec 6) (a : BitVec 6) (b : BitVec 6)
  /-- R224. Signed scalar remainder. -/
  | srem (x : Bool) (d : BitVec 6) (a : BitVec 6) (b : BitVec 6)
  /-- R224. Unsigned scalar remainder. -/
  | sremw (x : Bool) (d : BitVec 6) (a : BitVec 6) (b : BitVec 6)
  /-- R225. Adds a sign-extended 12-bit immediate to a scalar. -/
  | saddi (x : Bool) (d : BitVec 6) (a : BitVec 6) (i : BitVec 12)
  /-- R225. ANDs a sign-extended 12-bit immediate into a scalar. -/
  | sandi (x : Bool) (d : BitVec 6) (a : BitVec 6) (i : BitVec 12)
  /-- R225. ORs a sign-extended 12-bit immediate into a scalar. -/
  | sori (x : Bool) (d : BitVec 6) (a : BitVec 6) (i : BitVec 12)
  /-- R225. XORs a sign-extended 12-bit immediate into a scalar. -/
  | sxori (x : Bool) (d : BitVec 6) (a : BitVec 6) (i : BitVec 12)
  /-- R226. Shifts a scalar left by an immediate count. -/
  | sshli (x : Bool) (d : BitVec 6) (a : BitVec 6) (c : BitVec 6)
  /-- R226. Shifts a scalar right logically by an immediate count. -/
  | sshri (x : Bool) (d : BitVec 6) (a : BitVec 6) (c : BitVec 6)
  /-- R226. Shifts a scalar right arithmetically by an immediate count. -/
  | ssrai (x : Bool) (d : BitVec 6) (a : BitVec 6) (c : BitVec 6)
  /-- R227. Loads a sign-extended 18-bit immediate into a scalar. -/
  | smovi (x : Bool) (d : BitVec 6) (i : BitVec 18)
  /-- R227. Loads a sign-extended 32-bit immediate into a scalar. -/
  | smovl (x : Bool) (d : BitVec 6) (i : BitVec 32)
  /-- R227. Writes a 32-bit immediate into the high half of a scalar. -/
  | smovh (x : Bool) (d : BitVec 6) (i : BitVec 32)
  /-- R228. Writes 1 or 0 to a scalar according to the selected comparison. -/
  | scmp (x : Bool) (f : BitVec 3) (d : BitVec 6) (a : BitVec 6) (b : BitVec 6)
  /-- R229. Signed scalar minimum. -/
  | smin (x : Bool) (d : BitVec 6) (a : BitVec 6) (b : BitVec 6)
  /-- R229. Signed scalar maximum. -/
  | smax (x : Bool) (d : BitVec 6) (a : BitVec 6) (b : BitVec 6)
  /-- R229. Unsigned scalar minimum. -/
  | sminw (x : Bool) (d : BitVec 6) (a : BitVec 6) (b : BitVec 6)
  /-- R229. Unsigned scalar maximum. -/
  | smaxw (x : Bool) (d : BitVec 6) (a : BitVec 6) (b : BitVec 6)
  /-- R230. Counts the one bits of a scalar. -/
  | spopc (x : Bool) (d : BitVec 6) (a : BitVec 6)
  /-- R230. Counts the leading zero bits of a scalar. -/
  | sclz (x : Bool) (d : BitVec 6) (a : BitVec 6)
  /-- R230. Counts the trailing zero bits of a scalar. -/
  | sctz (x : Bool) (d : BitVec 6) (a : BitVec 6)
  /-- R231. Loads 8 bytes of device memory into a scalar, counting on LD. -/
  | sld (x : Bool) (d : BitVec 6) (a : BitVec 6) (i : BitVec 12)
  /-- R231. Stores a scalar to 8 bytes of device memory, counting on ST. -/
  | sst (x : Bool) (d : BitVec 6) (a : BitVec 6) (i : BitVec 12)
  /-- R232. Loads a doubleword of the on-chip argument block into a scalar. -/
  | sldk (x : Bool) (d : BitVec 6) (i : BitVec 12)
  /-- R235. Reads a status register into a scalar. -/
  | rdsr (x : Bool) (d : BitVec 6) (i : BitVec 12)
  /-- R235. Writes a scalar into a status register under its access code. -/
  | wrsr (x : Bool) (a : BitVec 6) (i : BitVec 12)
  -- Masks (R233)
  /-- R233. ANDs two lane masks. -/
  | mand (x : Bool) (d : BitVec 3) (a : BitVec 3) (b : BitVec 3)
  /-- R233. ORs two lane masks. -/
  | mor (x : Bool) (d : BitVec 3) (a : BitVec 3) (b : BitVec 3)
  /-- R233. XORs two lane masks. -/
  | mxor (x : Bool) (d : BitVec 3) (a : BitVec 3) (b : BitVec 3)
  /-- R233. ANDs a mask with the complement of another. -/
  | mandn (x : Bool) (d : BitVec 3) (a : BitVec 3) (b : BitVec 3)
  /-- R233. Complements a lane mask. -/
  | mnot (x : Bool) (d : BitVec 3) (a : BitVec 3)
  /-- R233. Copies a lane mask. -/
  | mmov (x : Bool) (d : BitVec 3) (a : BitVec 3)
  /-- R233. Sets a mask from the low 32 bits of a scalar. -/
  | mfroms (x : Bool) (d : BitVec 3) (r : BitVec 6)
  /-- R233. Writes a mask zero-extended into a scalar. -/
  | mtos (x : Bool) (a : BitVec 3) (r : BitVec 6)
  /-- R233. Counts the set bits of a mask into a scalar. -/
  | mpopc (x : Bool) (a : BitVec 3) (r : BitVec 6)
  /-- R233. Writes the index of a mask's lowest set bit into a scalar. -/
  | mffs (x : Bool) (a : BitVec 3) (r : BitVec 6)
  /-- R233. Writes the index of a mask's highest set bit into a scalar. -/
  | mfls (x : Bool) (a : BitVec 3) (r : BitVec 6)
  -- Vector arithmetic (R253 to R257), logic (R258), compares (R259 to R261)
  /-- R253. Element-wise addition of two vector operands. -/
  | vadd (x : Bool) (t : BitVec 3) (d : BitVec 7) (a : BitVec 7) (b : BitVec 7)
  /-- R253. Element-wise subtraction. -/
  | vsub (x : Bool) (t : BitVec 3) (d : BitVec 7) (a : BitVec 7) (b : BitVec 7)
  /-- R253. Element-wise multiplication. -/
  | vmul (x : Bool) (t : BitVec 3) (d : BitVec 7) (a : BitVec 7) (b : BitVec 7)
  /-- R253. High half of the signed element product. -/
  | vmulh (x : Bool) (t : BitVec 3) (d : BitVec 7) (a : BitVec 7) (b : BitVec 7)
  /-- R253. High half of the unsigned element product. -/
  | vmulhw (x : Bool) (t : BitVec 3) (d : BitVec 7) (a : BitVec 7) (b : BitVec 7)
  /-- R253. Fused multiply-add into the destination. -/
  | vfma (x : Bool) (t : BitVec 3) (d : BitVec 7) (a : BitVec 7) (b : BitVec 7)
  /-- R253. Fused negative multiply-add into the destination. -/
  | vfnma (x : Bool) (t : BitVec 3) (d : BitVec 7) (a : BitVec 7) (b : BitVec 7)
  /-- R253. Element-wise signed or float minimum. -/
  | vmin (x : Bool) (t : BitVec 3) (d : BitVec 7) (a : BitVec 7) (b : BitVec 7)
  /-- R253. Element-wise signed or float maximum. -/
  | vmax (x : Bool) (t : BitVec 3) (d : BitVec 7) (a : BitVec 7) (b : BitVec 7)
  /-- R253. Element-wise unsigned minimum. -/
  | vminw (x : Bool) (t : BitVec 3) (d : BitVec 7) (a : BitVec 7) (b : BitVec 7)
  /-- R253. Element-wise unsigned maximum. -/
  | vmaxw (x : Bool) (t : BitVec 3) (d : BitVec 7) (a : BitVec 7) (b : BitVec 7)
  /-- R253. Element-wise absolute value. -/
  | vabs (x : Bool) (t : BitVec 3) (d : BitVec 7) (a : BitVec 7)
  /-- R253. Element-wise negation. -/
  | vneg (x : Bool) (t : BitVec 3) (d : BitVec 7) (a : BitVec 7)
  /-- R255. Fused multiply-add of three operands without reading the prior destination. -/
  | vfmal (x : Bool) (t : BitVec 3) (d a b c : BitVec 7)
  /-- R256. Writes a 32-bit immediate into every sub-element of the active lanes. -/
  | vmovl (x : Bool) (t : BitVec 3) (d : BitVec 7) (i : BitVec 32)
  /-- R257. Saturating integer element addition. -/
  | vaddsat (x : Bool) (t : BitVec 3) (d : BitVec 7) (a : BitVec 7) (b : BitVec 7)
  /-- R258. Bitwise AND of vector operands. -/
  | vand (x : Bool) (t : BitVec 3) (d : BitVec 7) (a : BitVec 7) (b : BitVec 7)
  /-- R258. Bitwise OR of vector operands. -/
  | vor (x : Bool) (t : BitVec 3) (d : BitVec 7) (a : BitVec 7) (b : BitVec 7)
  /-- R258. Bitwise XOR of vector operands. -/
  | vxor (x : Bool) (t : BitVec 3) (d : BitVec 7) (a : BitVec 7) (b : BitVec 7)
  /-- R258. Bitwise complement of a vector operand. -/
  | vnot (x : Bool) (t : BitVec 3) (d : BitVec 7) (a : BitVec 7)
  /-- R258. Element-wise left shift. -/
  | vshl (x : Bool) (t : BitVec 3) (d : BitVec 7) (a : BitVec 7) (b : BitVec 7)
  /-- R258. Element-wise logical right shift. -/
  | vshr (x : Bool) (t : BitVec 3) (d : BitVec 7) (a : BitVec 7) (b : BitVec 7)
  /-- R258. Element-wise arithmetic right shift. -/
  | vsra (x : Bool) (t : BitVec 3) (d : BitVec 7) (a : BitVec 7) (b : BitVec 7)
  /-- R258. Element-wise population count. -/
  | vpopc (x : Bool) (t : BitVec 3) (d : BitVec 7) (a : BitVec 7)
  /-- R258. Element-wise leading-zero count. -/
  | vclz (x : Bool) (t : BitVec 3) (d : BitVec 7) (a : BitVec 7)
  /-- R259. Compares sub-element 0 of each active lane and writes one mask bit per lane. -/
  | vcmp (x : Bool) (t : BitVec 3) (c : BitVec 4) (m : BitVec 3) (a : BitVec 7) (b : BitVec 7)
  /-- R260. Writes all ones in each sub-element where the operands are equal. -/
  | vceq (x : Bool) (t : BitVec 3) (d : BitVec 7) (a : BitVec 7) (b : BitVec 7)
  /-- R260. Writes all ones where a is less than b, signed or float. -/
  | vclt (x : Bool) (t : BitVec 3) (d : BitVec 7) (a : BitVec 7) (b : BitVec 7)
  /-- R260. Writes all ones where a is at most b, signed or float. -/
  | vcle (x : Bool) (t : BitVec 3) (d : BitVec 7) (a : BitVec 7) (b : BitVec 7)
  /-- R260. Writes all ones where a is less than b, unsigned. -/
  | vcltw (x : Bool) (t : BitVec 3) (d : BitVec 7) (a : BitVec 7) (b : BitVec 7)
  /-- R261. Selects bits of two operands through the prior destination. -/
  | vsel (x : Bool) (t : BitVec 3) (d : BitVec 7) (a : BitVec 7) (b : BitVec 7)
  /-- R261. Copies an operand into the destination. -/
  | vmov (x : Bool) (t : BitVec 3) (d : BitVec 7) (a : BitVec 7)
  -- Division, special functions, conversion, quantisation (R262 to R268)
  /-- R262. Correctly rounded float division, counting on SFU. -/
  | vdiv (x : Bool) (t : BitVec 3) (d : BitVec 7) (a : BitVec 7) (b : BitVec 7)
  /-- R262. Correctly rounded float square root, counting on SFU. -/
  | vsqrt (x : Bool) (t : BitVec 3) (d : BitVec 7) (a : BitVec 7)
  /-- R263. Computes the selected correctly rounded special function. -/
  | vsfu (x : Bool) (t : BitVec 3) (d : BitVec 7) (a : BitVec 7) (f : BitVec 7)
  /-- R264. Rounds each float sub-element to an integral value under the selected mode. -/
  | vround (x : Bool) (t : BitVec 3) (d : BitVec 7) (a : BitVec 7) (m : BitVec 3)
  /-- R265. Converts sub-elements between format codes with part selection. -/
  | vcvt (x : Bool) (d a : BitVec 7) (h : BitVec 3) (dfmt sfmt : BitVec 4)
  /-- R266. Quantises each sub-element by a per-lane scale with one rounding. -/
  | vqnt (x : Bool) (d a b : BitVec 7) (h : BitVec 3) (k : BitVec 1) (qfmt sfmt : BitVec 4)
  /-- R267. Dequantises elements by the scale held in the destination lane. -/
  | vdqnt (x : Bool) (t : BitVec 3) (d : BitVec 7) (a : BitVec 7) (h : BitVec 3) (k : BitVec 1) (q : BitVec 3)
  /-- R268. Forms one e8m0 scale code per block of flat elements. -/
  | vamax (x : Bool) (t : BitVec 3) (d : BitVec 7) (a : BitVec 7) (l : BitVec 1) (q : BitVec 3)
  -- Cross-lane (R269 to R277)
  /-- R270. Gathers elements by flat index across the wave. -/
  | vshf (x : Bool) (t : BitVec 3) (d : BitVec 7) (a : BitVec 7) (b : BitVec 7)
  /-- R271. Broadcasts one lane's register to every active lane. -/
  | vbcst (x : Bool) (d : BitVec 7) (a : BitVec 7) (i : BitVec 7)
  /-- R272. Extracts one flat element into a scalar register. -/
  | vext (x : Bool) (t : BitVec 3) (d : BitVec 7) (a : BitVec 7) (i : BitVec 7)
  /-- R273. Inserts a scalar into one flat element of a vector register. -/
  | vins (x : Bool) (t : BitVec 3) (d : BitVec 7) (a : BitVec 7) (i : BitVec 7)
  /-- R274. Compacts the lanes selected by a mask into the lowest active lanes. -/
  | vmovm (x : Bool) (d : BitVec 7) (a : BitVec 7) (m : BitVec 3)
  /-- R275. Writes an operand plus flat index times an immediate step. -/
  | vidx (x : Bool) (t : BitVec 3) (d : BitVec 7) (a : BitVec 7) (i : BitVec 7)
  /-- R276. Reduces the active elements with the selected operation into every active sub-element. -/
  | vred (x : Bool) (t : BitVec 3) (d : BitVec 7) (a : BitVec 7) (o : BitVec 7)
  /-- R277. Writes inclusive prefix results of the selected operation. -/
  | vscan (x : Bool) (t : BitVec 3) (d : BitVec 7) (a : BitVec 7) (o : BitVec 7)
  -- Memory (R279 to R296)
  /-- R284. Loads device memory into each active lane, counting on LD. -/
  | vld (x : Bool) (t : BitVec 3) (d : BitVec 7) (a : BitVec 7) (b : BitVec 7)
  /-- R284. Stores each active lane's sub-element 0 to device memory, counting on ST. -/
  | vst (x : Bool) (t : BitVec 3) (d : BitVec 7) (a : BitVec 7) (b : BitVec 7)
  /-- R284. Loads scratchpad bytes into each active lane, parking on absent lines. -/
  | vldsp (x : Bool) (t : BitVec 3) (d : BitVec 7) (a : BitVec 7) (b : BitVec 7)
  /-- R284. Stores each active lane into scratchpad, parking on absent lines. -/
  | vstsp (x : Bool) (t : BitVec 3) (d : BitVec 7) (a : BitVec 7) (b : BitVec 7)
  /-- R286. Performs an acquire load at the named scope, optionally with promotion. -/
  | vldacq (x : Bool) (t : BitVec 3) (d a b : BitVec 7) (scope : BitVec 3) (rem sp : BitVec 1)
  /-- R286. Performs a release store at the named scope. -/
  | vstrel (x : Bool) (t : BitVec 3) (d a b : BitVec 7) (scope : BitVec 3) (sp : BitVec 1)
  /-- R288. Orders the wave's memory accesses by kind and scope, holding later memory instructions. -/
  | fence (x : Bool) (r : BitVec 1) (s : BitVec 3) (k : BitVec 2)
  /-- R289. Prefetches lines toward the core without faulting. -/
  | vprf (x : Bool) (h : BitVec 7) (a : BitVec 7) (b : BitVec 7)
  /-- R290. Performs an atomic read-modify-write per active lane at the location's home. -/
  | vatom (x : Bool) (t : BitVec 3) (d a b : BitVec 7) (op : BitVec 4) (ord : BitVec 2) (scope : BitVec 3) (rem sp det : BitVec 1)
  /-- R291. Clears the presence bits of a range of scratchpad lines. -/
  | spclr (x : Bool) (a : BitVec 6) (n : BitVec 10)
  /-- R291. Zero-fills and marks present each line of a range with no outstanding copies. -/
  | spclrFill (x : Bool) (a : BitVec 6) (n : BitVec 10)
  /-- R291. Parks until every line of a scratchpad range is present. -/
  | spwait (x : Bool) (a : BitVec 6) (n : BitVec 10)
  /-- R292. Arms a producer slot of a stage with EXPECT and RANK. -/
  | starm (x : Bool) (a : BitVec 6) (b : BitVec 6) (c : BitVec 6) (p : BitVec 3)
  /-- R293. Parks until every armed stage slot is satisfied or forfeit, then returns the forfeit mask. -/
  | stwait (x : Bool) (d : BitVec 6) (a : BitVec 6)
  /-- R294. Parks until a timeline counter reaches a value, a device-scope acquire. -/
  | tlwait (x : Bool) (c : BitVec 4) (a : BitVec 6)
  /-- R294. Reads a timeline counter into a scalar without acquiring. -/
  | tlrd (x : Bool) (d : BitVec 6) (c : BitVec 4)
  /-- R145. Issues a copy start word to a copy channel, clearing destination presence before it finishes issuing. -/
  | cpy (x : Bool) (n : BitVec 3) (a : BitVec 6)
  -- Matrix engine (R297)
  /-- R156. Joins the wave to a gang on its quad, parking at the sluice until the gang forms. -/
  | mgang (x : Bool) (n : BitVec 3) (k : BitVec 6)
  /-- R156. Leaves the wave's gang. -/
  | mgangLeave (x : Bool)
  /-- R160. Reserves an operand range with an operand record. -/
  | mres (x : Bool) (n : BitVec 3) (a : BitVec 6)
  /-- R160. Releases an operand range. -/
  | mrel (x : Bool) (n : BitVec 3)
  /-- R161. Accumulates the product of two operand ranges into a tile. -/
  | mma (x : Bool) (d : BitVec 3) (a : BitVec 3) (b : BitVec 3)
  /-- R163. Sets an accumulator tile to zero bits. -/
  | mzero (x : Bool) (d : BitVec 3)
  /-- R163. Reads one tile row into a vector register. -/
  | mrd (x : Bool) (d : BitVec 7) (s : BitVec 3) (i : BitVec 6)
  /-- R163. Writes a vector register into one tile row. -/
  | mwr (x : Bool) (d : BitVec 3) (s : BitVec 7) (i : BitVec 6)
  /-- R163. Converts and stores a tile through a tensor record. -/
  | mst (x : Bool) (c : BitVec 3) (a : BitVec 6)
  /-- R163. Preloads an operand range from a reduction index. -/
  | mld (x : Bool) (n : BitVec 3) (k : BitVec 32)
  /-- R164. Writes row maximum, sum and sum of squares of a tile into three vector registers. -/
  | rstat (x : Bool) (d : BitVec 7) (s : BitVec 3)
  /-- R165. Writes the sigmoid of a tile element by element. -/
  | gateSig (x : Bool) (d : BitVec 3) (a : BitVec 3)
  /-- R165. Writes the tanh of a tile element by element. -/
  | gateTanh (x : Bool) (d : BitVec 3) (a : BitVec 3)
  /-- R165. Multiplies two tiles element by element. -/
  | gateMul (x : Bool) (d : BitVec 3) (a : BitVec 3) (b : BitVec 3)
  /-- R165. Adds two tiles element by element. -/
  | gateAdd (x : Bool) (d : BitVec 3) (a : BitVec 3) (b : BitVec 3)
  /-- R165. Interpolates the destination toward a tile by the sigmoid of another. -/
  | gateLerp (x : Bool) (d : BitVec 3) (a : BitVec 3) (b : BitVec 3)
  /-- R165. Scales a tile by a scalar f32. -/
  | gateScale (x : Bool) (d : BitVec 3) (a : BitVec 3) (s : BitVec 6)
  /-- R158. Parks until the member's turn and takes the baton. -/
  | batonTake (x : Bool)
  /-- R158. Releases the baton and moves the turn to the next member. -/
  | batonPass (x : Bool)
  /-- R158. Reads the baton holder and turn into a scalar. -/
  | batonQuery (x : Bool) (d : BitVec 6)
  -- Estates (R239)
  /-- R36. Marks a register range of the active lanes for a bequest tag slot. -/
  | leave (x : Bool) (n : BitVec 2) (a : BitVec 7) (c : BitVec 4)
  /-- R36. Removes the active lanes from a tag slot's marks. -/
  | leaveClr (x : Bool) (n : BitVec 2)
  /-- R49. Claims estates by key at run time, consuming them. -/
  | ecl (x : Bool) (m : BitVec 3) (d : BitVec 7) (k : BitVec 7) (t : BitVec 3) (c : BitVec 3)
  /-- R49. Claims estates by key at run time without consuming them. -/
  | eclKeep (x : Bool) (m : BitVec 3) (d : BitVec 7) (k : BitVec 7) (t : BitVec 3) (c : BitVec 3)
  /-- R51. Frees every sealed estate of a tag and clears its void flag. -/
  | edrop (x : Bool) (t : BitVec 6)
  /-- R50. Sets mask bits for lanes whose keys are present, consuming nothing. -/
  | equery (x : Bool) (m : BitVec 3) (k : BitVec 7) (t : BitVec 3)
  -- System (R240 to R245), timed events (R303)
  /-- R240. Kills the launch with status TRAP and a code. -/
  | trap (x : Bool) (c : BitVec 16)
  /-- R241. With debug enabled, parks the path and writes a BREAK fault entry. -/
  | brk (x : Bool) (c : BitVec 16)
  /-- R169. Writes the current fabric time into a scalar. -/
  | tnow (x : Bool) (d : BitVec 6)
  /-- R242. Writes CYCLE into a scalar. -/
  | cyc (x : Bool) (d : BitVec 6)
  /-- R242. Writes ICOUNT into a scalar. -/
  | icount (x : Bool) (d : BitVec 6)
  /-- R243. Increments a named event count, a device-scope release that releases satisfied waiters. -/
  | evsig (x : Bool) (e : BitVec 6)
  /-- R243. Parks until a named event count reaches a value. -/
  | evwait (x : Bool) (d : BitVec 6) (e : BitVec 6) (n : BitVec 6)
  /-- R183. Parks until a handle's entry is RESOLVED or BROKEN. -/
  | hwait (x : Bool) (d : BitVec 6) (h : BitVec 6)
  /-- R183. Returns a handle entry's state without parking. -/
  | hpoll (x : Bool) (d : BitVec 6) (h : BitVec 6)
  /-- R245. Swaps with a spilled path or defers the issuing path's next issue. -/
  | yield (x : Bool)
  /-- R303. Schedules a signal of a named event on the timer wheel. -/
  | evtime (x : Bool) (d e t : BitVec 6) (after : BitVec 1)
  -- Fabric (R301)
  /-- R176. Sends an ordered message stamped with Now to a mailbox. -/
  | osend (x : Bool) (d n p : BitVec 6) (len : BitVec 11)
  /-- R176. Sends an ordered message with an explicit stamp. -/
  | osendAt (x : Bool) (d n p t : BitVec 6) (len : BitVec 11)
  /-- R177. Issues an ordered atomic applied at the location's home in key order. -/
  | oatom (x : Bool) (d a b s : BitVec 6) (op : BitVec 4) (wide : BitVec 1)
  /-- R177. Issues an ordered atomic with an explicit stamp. -/
  | oatomAt (x : Bool) (d a b s t : BitVec 6) (op : BitVec 4) (wide : BitVec 1)
  /-- R180. Invokes a kernel on a node and returns a result handle. -/
  | invk (x : Bool) (d n a : BitVec 6)
  /-- R180. Invokes a kernel on a parent handle and returns a result handle. -/
  | invh (x : Bool) (d h a : BitVec 6)
  -- Steps of the cores, the memory system, the engines and the placement logic
  /-- R23. A spilled path whose age reaches the swap threshold trades places with the youngest resident path. -/
  | bermSwap (w : WaveRef)
  /-- R245. After 64 cycles a yielded path becomes eligible again. -/
  | yieldWindowEnd (w : WaveRef) (slot : Bool)
  /-- R26. A path parked beyond the park limit kills its launch. -/
  | parkTimeout (p : ParkRef)
  /-- R28. Once all expected members arrived and their stores drained, the phase completes and releases parked waves. -/
  | barrierPhaseComplete (b : BarRef)
  /-- R30. A ticket counter advances past taken tickets after the take's stores drain, releasing tkwait. -/
  | ticketAdvance (lid : Nat) (k : BitVec 3)
  /-- R188. A load result is written to its registers and LD decrements. -/
  | loadReturn (w : WaveRef) (op : Nat)
  /-- R188. A store is acknowledged by its home, decrementing ST and any escrow slot. -/
  | storeAck (sid : Nat)
  /-- R91. A variable-latency arithmetic result is written with its flags and SFU decrements. -/
  | sfuResult (w : WaveRef) (op : Nat)
  /-- R250. A cross-lane result is written and XL decrements. -/
  | xlResult (w : WaveRef) (op : Nat)
  /-- R49. An estate instruction completes, writing its results and decrementing EC. -/
  | ecComplete (w : WaveRef) (op : Nat)
  /-- R176. A fabric instruction's packet is injected or refused, its status or handle is written and FB decrements. -/
  | fbComplete (w : WaveRef) (op : Nat)
  /-- R125. When every wave has ended and all stores and timelines are done, the launch retires, seals, resolves its handle and writes its completion record. -/
  | launchRetire (lid : Nat)
  /-- R39. Under seal=team, a retired team's granules seal once its stores are acknowledged. -/
  | teamSeal (t : TeamRef)
  /-- R331. After a launch of a repeating packet retires with SUCCESS, the prologue runs again. -/
  | prologueRepeat (pid : Nat)
  /-- R337. When a core can take a team, the part picks an account and places the next team of its launch. -/
  | teamPlace (tenant : BitVec 4) (cores : List Nat)
  /-- R54. A wave is born once all its claimed estate rows have arrived. -/
  | waveBirth (w : WaveRef)
  /-- R345. A det operation takes effect once every other wave's bound passes its logical clock. -/
  | detOpEffect (d : DetRef)
  /-- R145. A copy channel accepts a copy, checks its template and assigns its timeline number. -/
  | copyAccept (cid : Nat)
  /-- R151. A copy's bytes for a line or row are written, presence and stage counts update, and the copy may finish. -/
  | copyArrival (cid : Nat) (piece : Nat)
  /-- R163. A matrix engine operation writes its results or has its stores acknowledged and MX decrements. -/
  | engineOpComplete (quad : Nat) (report : EngineReport)
  /-- R366. A fault entry is written into its fault-queue slot once free and event 0xFFFF is signalled. -/
  | faultEntryWrite (tenant : BitVec 4)
  /-- R373. After a killed launch's stores are acknowledged, its completion record is written. -/
  | killRecordWrite (lid : Nat)
  /-- R343. A timer-wheel entry falls due and signals its event. -/
  | wheelFire (eid : Nat)
  /-- R341. A waiter held in the spillway is released after the signal that satisfies it. -/
  | spillwayRelease (tenant : BitVec 4) (wid : Nat)
  /-- R326. An EVENT_WAIT unmet for 100 µs makes its queue give up its slot. -/
  | eventWaitSlotRelease (slot : BitVec 6)
  /-- R316. A write to a queue's tail register is accepted or discarded, waking the scheduler. -/
  | tailWrite (src : BitVec 16) (q : BitVec 12) (value : BitVec 64)
  /-- R326. A resident queue is saved at its next packet boundary and gives up its slot. -/
  | queueSave (slot : BitVec 6)
  /-- R326. A queue's load into a hardware slot completes and it becomes RESIDENT. -/
  | queueLoadComplete (slot : BitVec 6)
  -- Command packets of the front end (R319)
  /-- R319. Accepts a launch of a kernel image under the checks of R327. -/
  | launch (slot : BitVec 6)
  /-- R319. Runs a prologue that sets the launch fields, then launches, cancels or repeats. -/
  | launchIndirect (slot : BitVec 6)
  /-- R319. Signals a named event with a fabric-scope release. -/
  | eventSignal (slot : BitVec 6)
  /-- R319. Holds the queue WAITING until an event count reaches a value. -/
  | eventWait (slot : BitVec 6)
  /-- R319. Schedules a timed event signal at an absolute time. -/
  | eventAt (slot : BitVec 6)
  /-- R321. Runs one copy on behalf of the context on a copy timeline. -/
  | copy (slot : BitVec 6)
  /-- R319. Frees every sealed estate of a tag as edrop does. -/
  | estateDrop (slot : BitVec 6)
  /-- R319. Invokes a kernel as invk does and returns the handle in the completion record. -/
  | invoke (slot : BitVec 6)
  /-- R319. Completes when every earlier packet of the queue has completed. -/
  | complete (slot : BitVec 6)
  /-- R380. Halts and saves every team of the named launches. -/
  | preempt (slot : BitVec 6)
  /-- R367. Resolves fault entries up to a sequence, invalidates their pages and resumes their units. -/
  | faultResolved (slot : BitVec 6)
  /-- R367. Resolves entries and kills the launch of the named entry with PAGE_FAULT. -/
  | faultResolvedKill (slot : BitVec 6)
  /-- R363. With sequence 0 invalidates every cached translation of the context. -/
  | faultResolvedInvalidate (slot : BitVec 6)
  /-- R320. Halts a queue at its next packet boundary. -/
  | queueControlHalt (slot : BitVec 6)
  /-- R320. Resumes a HALTED or ERROR queue. -/
  | queueControlResume (slot : BitVec 6)
  /-- R320. Discards unstarted packets up to TAIL. -/
  | queueControlDiscard (slot : BitVec 6)
  /-- R320. Sets a queue's base priority. -/
  | queueControlSetPrio (slot : BitVec 6)
  -- Pre-emption
  /-- R382. A halted team's save image is complete and its core resources are freed. -/
  | teamSaveComplete (t : TeamRef)
  /-- R383. A saved team is restored onto a core that can take it and its paths resume. -/
  | teamRestore (ts : List TeamRef) (cores : List Nat)
  -- The privileged register space (R308)
  /-- R310. A write of EN = 1 enables a tenant after overlap checks. -/
  | tenantEnable (src : MgmtSrc) (t : BitVec 4)
  /-- R311. A write of RESET kills the tenant's launches and destroys its queues' slots and contexts. -/
  | tenantReset (src : MgmtSrc) (t : BitVec 4)
  /-- R313. A write of EN = 1 creates a context after checks. -/
  | contextCreate (src : MgmtSrc) (c : BitVec 10)
  /-- R313. A write of EN = 0 destroys a context, killing its launches. -/
  | contextDestroy (src : MgmtSrc) (c : BitVec 10)
  /-- R320. A write of EN = 1 to a queue directory entry makes the queue PENDING or IDLE. -/
  | queueEnable (src : MgmtSrc) (q : BitVec 12)
  /-- R320. A write of EN = 0 saves a resident queue and leaves it IDLE. -/
  | queueDisable (src : MgmtSrc) (q : BitVec 12)
  /-- R395. Writing EXCISE = 1 removes a port from the weir minimum. -/
  | portExcise (src : MgmtSrc) (p : BitVec 4)
  /-- R395. Writing EXCISE = 0 is accepted only when the port's watermark lies above DLV. -/
  | portExciseClear (src : MgmtSrc) (p : BitVec 4)
  /-- R403. Setting V of an excised-node entry breaks entries located there. -/
  | nodeExcise (src : MgmtSrc) (k : BitVec 6) (node : BitVec 16)
  /-- R377. Writing 1 to V of a poisoned-frame entry clears the frame mark. -/
  | poisonFrameClear (src : MgmtSrc) (i : BitVec 10)
  /-- R408. Writing the nonce's last doubleword starts an attestation report. -/
  | attestNonceWrite (src : MgmtSrc) (k : BitVec 3) (value : BitVec 64)
  /-- R308. A management or sideband write to a privileged field with no behaviour of its own, or a refused access. -/
  | mgmtRegisterWrite (src : MgmtSrc) (off : BitVec 32) (value : BitVec 64)
  -- The fabric
  /-- R393. An ordered packet arrives at a port, raising its watermark and joining the held set or handled late. -/
  | orderedPacketArrival (port : BitVec 4) (pk : Packet)
  /-- R391. A beacon raises its port's watermark. -/
  | beaconArrival (port : BitVec 4) (wm : BitVec 64)
  /-- R392. A port idle for one beacon period sends a beacon carrying its watermark. -/
  | beaconSend (port : BitVec 4)
  /-- R392. A router port forwards ordered packets below the merged watermark in key order. -/
  | routerForward (port : BitVec 4)
  /-- R399. A forwarded invocation arrives at the location and waits for its parent's launch to retire. -/
  | culvertArrival (pk : Packet)
  /-- R394. A port whose watermark has not advanced for STALL µs sets STALLED and reports a fault. -/
  | portStall (port : BitVec 4)
  /-- R389. A flit with a bad CRC triggers a resend from the retry buffer. -/
  | flitCrcError (port : BitVec 4) (sends : Nat)
  /-- R390. An IEEE 1588 message adjusts fabric time and lock state. -/
  | ptpMessage (m : PtpArrival)
  -- Bring-up, clocks and the package
  /-- R405. A bring-up phase completes and PHASE advances, reaching READY at the end. -/
  | bringupPhaseComplete (r : PhaseReport)
  /-- R405. A phase that runs past its limit sets PHASE to FAILED with a FAILCODE. -/
  | bringupPhaseTimeout (code : BitVec 8)
  /-- R360. A load, store or atomic request from another node to a fabric-mapped page arrives on a Merien port and is performed in this node's physical memory, or refused. -/
  | fabricMappedAccess (src : BitVec 16) (r : FabAccess)
  /-- R402. A Merien port finishes training, sets UP and learns PEER and PEERKIND. -/
  | portLinkUp (port : BitVec 4) (peer : BitVec 16) (kind : BitVec 2)
  -- Steps that take nothing from outside: what they act on is in the state
  /-- R326. Every 10 µs the queue scheduler core maps PENDING queues onto hardware slots. -/
  | qschedDecision
  /-- R326. At each 50 µs multiple every PENDING queue's AGE rises, followed by a decision. -/
  | queueAgeing
  /-- R410. A write to LOCKCLK takes effect at the next 10 µs boundary. -/
  | lockclkApply
  /-- R408. The signed attestation report is written and ATRDY is set. -/
  | attestReportReady
  /-- R393. The weir delivers held packets whose stamp lies below the minimum watermark, in key order. -/
  | weirDeliver
  /-- R405. Power-on starts bring-up at the POWER phase. -/
  | powerOn
  /-- R411. A die past its trip temperature stops the whole part. -/
  | thermtrip
  /-- R410. Package power above 2,800 W in locked-clock mode sets PWREXC and reports. -/
  | powerExcursion
  /-- R411. Loss of power ends every launch and clears the part, including SYSV and a THERMTRIP wait. -/
  | powerOff
  /-- R390. At each IEEE 1588 synchronisation interval the part sends its timing messages and re-evaluates LOCKED, setting SYNCLOST when lock is lost. -/
  | ptpSyncInterval
  /-- R170. A future-stamped packet is injected when Now reaches its stamp, taking the next source sequence. -/
  | heldPacketInject
  /-- R407. Loses every launch and tenant and restarts bring-up at phase 1. -/
  | devreset
  /-- R203. A word decoded for issue whose major, sub-operation or version lies outside the opcode map raises ILLOP and kills the launch. -/
  | unassignedEncoding
  deriving DecidableEq, Repr

end Sys2Proof
end

