-- ==== Sys2Proof/Decode.lean ====
section
/-! DEFINITION. The decoder of Shosere words (R199 to R204), total on any bytes, the encoder beside it, and the check of the
fields that an instruction admits whatever launch it runs in. -/

namespace Sys2Proof

/-- Field [lo+n-1:lo] of a word. -/
def fld (n w lo : Nat) : BitVec n := BitVec.ofNat n (w >>> lo)

/-- Field [lo+n-1:lo] of a word holds the value. -/
def fixed (w lo n val : Nat) : Bool := (w >>> lo) % 2 ^ n == val

/-- Major 0x00: NOP (R213). -/
def dec00 (x : Bool) (w : Nat) : Option Instr :=
  if fixed w 0 24 0 then some (.nop x)
  else none

/-- Major 0x01: JMP (R214). -/
def dec01 (x : Bool) (w : Nat) : Option Instr :=
  if fixed w 20 4 0 then some (.jmp x (fld 20 w 0))
  else none

/-- Major 0x02: BANY (R214). -/
def dec02 (x : Bool) (w : Nat) : Option Instr :=
  if fixed w 23 1 0 then some (.bany x (fld 3 w 20) (fld 20 w 0))
  else none

/-- Major 0x03: BALL (R214). -/
def dec03 (x : Bool) (w : Nat) : Option Instr :=
  if fixed w 23 1 0 then some (.ball x (fld 3 w 20) (fld 20 w 0))
  else none

/-- Major 0x04: BNONE (R214). -/
def dec04 (x : Bool) (w : Nat) : Option Instr :=
  if fixed w 23 1 0 then some (.bnone x (fld 3 w 20) (fld 20 w 0))
  else none

/-- Major 0x05: SPLIT (R20). -/
def dec05 (x : Bool) (w : Nat) : Option Instr :=
  if fixed w 23 1 0 then some (.split x (fld 3 w 20) (fld 20 w 0))
  else none

/-- Major 0x06: JOIN (R21). -/
def dec06 (x : Bool) (w : Nat) : Option Instr :=
  if fixed w 0 24 0 then some (.join x)
  else none

/-- Major 0x07: CALL (R215). -/
def dec07 (x : Bool) (w : Nat) : Option Instr :=
  some (.call x (fld 6 w 18) (fld 18 w 0))

/-- Major 0x08: JIND (R216). -/
def dec08 (x : Bool) (w : Nat) : Option Instr :=
  if fixed w 0 18 0 then some (.jind x (fld 6 w 18))
  else none

/-- Major 0x09: LOOP (R217). -/
def dec09 (x : Bool) (w : Nat) : Option Instr :=
  if fixed w 20 2 0 then some (.loop x (fld 2 w 22) (fld 20 w 0))
  else none

/-- Major 0x0a: LOOPX (R219). -/
def dec0A (x : Bool) (w : Nat) : Option Instr :=
  if fixed w 20 2 0 then some (.loopx x (fld 2 w 22) (fld 20 w 0))
  else none

/-- Major 0x0b: EXIT (R32). -/
def dec0B (x : Bool) (w : Nat) : Option Instr :=
  if fixed w 0 24 0 then some (.exit x)
  else none

/-- Major 0x0c: BAR, BAR_COHORT (R27). -/
def dec0C (x : Bool) (w : Nat) : Option Instr :=
  if fixed w 4 20 0 then some (.bar x (fld 4 w 0))
  else if fixed w 4 20 524288 then some (.barCohort x (fld 4 w 0))
  else none

/-- Major 0x0d: TKWAIT (R29). -/
def dec0D (x : Bool) (w : Nat) : Option Instr :=
  if fixed w 3 21 0 then some (.tkwait x (fld 3 w 0))
  else none

/-- Major 0x0e: TKTAKE (R30). -/
def dec0E (x : Bool) (w : Nat) : Option Instr :=
  if fixed w 3 21 0 then some (.tktake x (fld 3 w 0))
  else none

/-- Major 0x0f: WAIT (R221). -/
def dec0F (x : Bool) (w : Nat) : Option Instr :=
  if fixed w 8 16 0 then some (.wait x (fld 8 w 0))
  else none

/-- Major 0x10: SADD, SSUB, SAND, SOR, SXOR, SSHL, SSHR, SSRA (R223). -/
def dec10 (x : Bool) (w : Nat) : Option Instr :=
  if fixed w 21 3 0 && fixed w 0 3 0 then some (.sadd x (fld 6 w 15) (fld 6 w 9) (fld 6 w 3))
  else if fixed w 21 3 1 && fixed w 0 3 0 then some (.ssub x (fld 6 w 15) (fld 6 w 9) (fld 6 w 3))
  else if fixed w 21 3 2 && fixed w 0 3 0 then some (.sand x (fld 6 w 15) (fld 6 w 9) (fld 6 w 3))
  else if fixed w 21 3 3 && fixed w 0 3 0 then some (.sor x (fld 6 w 15) (fld 6 w 9) (fld 6 w 3))
  else if fixed w 21 3 4 && fixed w 0 3 0 then some (.sxor x (fld 6 w 15) (fld 6 w 9) (fld 6 w 3))
  else if fixed w 21 3 5 && fixed w 0 3 0 then some (.sshl x (fld 6 w 15) (fld 6 w 9) (fld 6 w 3))
  else if fixed w 21 3 6 && fixed w 0 3 0 then some (.sshr x (fld 6 w 15) (fld 6 w 9) (fld 6 w 3))
  else if fixed w 21 3 7 && fixed w 0 3 0 then some (.ssra x (fld 6 w 15) (fld 6 w 9) (fld 6 w 3))
  else none

/-- Major 0x11: SMUL, SMULH, SMULHW, SDIV, SDIVW, SREM, SREMW (R224). -/
def dec11 (x : Bool) (w : Nat) : Option Instr :=
  if fixed w 21 3 0 && fixed w 0 3 0 then some (.smul x (fld 6 w 15) (fld 6 w 9) (fld 6 w 3))
  else if fixed w 21 3 1 && fixed w 0 3 0 then some (.smulh x (fld 6 w 15) (fld 6 w 9) (fld 6 w 3))
  else if fixed w 21 3 2 && fixed w 0 3 0 then some (.smulhw x (fld 6 w 15) (fld 6 w 9) (fld 6 w 3))
  else if fixed w 21 3 3 && fixed w 0 3 0 then some (.sdiv x (fld 6 w 15) (fld 6 w 9) (fld 6 w 3))
  else if fixed w 21 3 4 && fixed w 0 3 0 then some (.sdivw x (fld 6 w 15) (fld 6 w 9) (fld 6 w 3))
  else if fixed w 21 3 5 && fixed w 0 3 0 then some (.srem x (fld 6 w 15) (fld 6 w 9) (fld 6 w 3))
  else if fixed w 21 3 6 && fixed w 0 3 0 then some (.sremw x (fld 6 w 15) (fld 6 w 9) (fld 6 w 3))
  else none

/-- Major 0x12: SADDI (R225). -/
def dec12 (x : Bool) (w : Nat) : Option Instr :=
  some (.saddi x (fld 6 w 18) (fld 6 w 12) (fld 12 w 0))

/-- Major 0x13: SANDI (R225). -/
def dec13 (x : Bool) (w : Nat) : Option Instr :=
  some (.sandi x (fld 6 w 18) (fld 6 w 12) (fld 12 w 0))

/-- Major 0x14: SORI (R225). -/
def dec14 (x : Bool) (w : Nat) : Option Instr :=
  some (.sori x (fld 6 w 18) (fld 6 w 12) (fld 12 w 0))

/-- Major 0x15: SXORI (R225). -/
def dec15 (x : Bool) (w : Nat) : Option Instr :=
  some (.sxori x (fld 6 w 18) (fld 6 w 12) (fld 12 w 0))

/-- Major 0x16: SSHLI, SSHRI, SSRAI (R226). -/
def dec16 (x : Bool) (w : Nat) : Option Instr :=
  if fixed w 21 3 0 && fixed w 0 3 0 then some (.sshli x (fld 6 w 15) (fld 6 w 9) (fld 6 w 3))
  else if fixed w 21 3 1 && fixed w 0 3 0 then some (.sshri x (fld 6 w 15) (fld 6 w 9) (fld 6 w 3))
  else if fixed w 21 3 2 && fixed w 0 3 0 then some (.ssrai x (fld 6 w 15) (fld 6 w 9) (fld 6 w 3))
  else none

/-- Major 0x17: SMOVI (R227). -/
def dec17 (x : Bool) (w : Nat) : Option Instr :=
  some (.smovi x (fld 6 w 18) (fld 18 w 0))

/-- Major 0x18: SCMP (R228). -/
def dec18 (x : Bool) (w : Nat) : Option Instr :=
  if fixed w 0 3 0 then some (.scmp x (fld 3 w 21) (fld 6 w 15) (fld 6 w 9) (fld 6 w 3))
  else none

/-- Major 0x19: SMIN, SMAX, SMINW, SMAXW (R229). -/
def dec19 (x : Bool) (w : Nat) : Option Instr :=
  if fixed w 21 3 0 && fixed w 0 3 0 then some (.smin x (fld 6 w 15) (fld 6 w 9) (fld 6 w 3))
  else if fixed w 21 3 1 && fixed w 0 3 0 then some (.smax x (fld 6 w 15) (fld 6 w 9) (fld 6 w 3))
  else if fixed w 21 3 2 && fixed w 0 3 0 then some (.sminw x (fld 6 w 15) (fld 6 w 9) (fld 6 w 3))
  else if fixed w 21 3 3 && fixed w 0 3 0 then some (.smaxw x (fld 6 w 15) (fld 6 w 9) (fld 6 w 3))
  else none

/-- Major 0x1a: SPOPC, SCLZ, SCTZ (R230). -/
def dec1A (x : Bool) (w : Nat) : Option Instr :=
  if fixed w 21 3 0 && fixed w 0 9 0 then some (.spopc x (fld 6 w 15) (fld 6 w 9))
  else if fixed w 21 3 1 && fixed w 0 9 0 then some (.sclz x (fld 6 w 15) (fld 6 w 9))
  else if fixed w 21 3 2 && fixed w 0 9 0 then some (.sctz x (fld 6 w 15) (fld 6 w 9))
  else none

/-- Major 0x1b: SLD (R231). -/
def dec1B (x : Bool) (w : Nat) : Option Instr :=
  some (.sld x (fld 6 w 18) (fld 6 w 12) (fld 12 w 0))

/-- Major 0x1c: SST (R231). -/
def dec1C (x : Bool) (w : Nat) : Option Instr :=
  some (.sst x (fld 6 w 18) (fld 6 w 12) (fld 12 w 0))

/-- Major 0x1d: SLDK (R232). -/
def dec1D (x : Bool) (w : Nat) : Option Instr :=
  if fixed w 12 6 0 then some (.sldk x (fld 6 w 18) (fld 12 w 0))
  else none

/-- Major 0x1e: RDSR (R235). -/
def dec1E (x : Bool) (w : Nat) : Option Instr :=
  if fixed w 12 6 0 then some (.rdsr x (fld 6 w 18) (fld 12 w 0))
  else none

/-- Major 0x1f: WRSR (R235). -/
def dec1F (x : Bool) (w : Nat) : Option Instr :=
  if fixed w 18 6 0 then some (.wrsr x (fld 6 w 12) (fld 12 w 0))
  else none

/-- Major 0x20: MNOT, MMOV, MAND, MOR, MXOR, MANDN, MFROMS, MTOS (R233). -/
def dec20 (x : Bool) (w : Nat) : Option Instr :=
  if fixed w 21 3 4 && fixed w 0 15 0 then some (.mnot x (fld 3 w 18) (fld 3 w 15))
  else if fixed w 21 3 5 && fixed w 0 15 0 then some (.mmov x (fld 3 w 18) (fld 3 w 15))
  else if fixed w 21 3 0 && fixed w 0 12 0 then some (.mand x (fld 3 w 18) (fld 3 w 15) (fld 3 w 12))
  else if fixed w 21 3 1 && fixed w 0 12 0 then some (.mor x (fld 3 w 18) (fld 3 w 15) (fld 3 w 12))
  else if fixed w 21 3 2 && fixed w 0 12 0 then some (.mxor x (fld 3 w 18) (fld 3 w 15) (fld 3 w 12))
  else if fixed w 21 3 3 && fixed w 0 12 0 then some (.mandn x (fld 3 w 18) (fld 3 w 15) (fld 3 w 12))
  else if fixed w 21 3 6 && fixed w 12 6 0 && fixed w 0 6 0 then some (.mfroms x (fld 3 w 18) (fld 6 w 6))
  else if fixed w 18 6 56 && fixed w 12 3 0 && fixed w 0 6 0 then some (.mtos x (fld 3 w 15) (fld 6 w 6))
  else none

/-- Major 0x21: MPOPC, MFFS, MFLS (R233). -/
def dec21 (x : Bool) (w : Nat) : Option Instr :=
  if fixed w 18 6 0 && fixed w 12 3 0 && fixed w 0 6 0 then some (.mpopc x (fld 3 w 15) (fld 6 w 6))
  else if fixed w 18 6 8 && fixed w 12 3 0 && fixed w 0 6 0 then some (.mffs x (fld 3 w 15) (fld 6 w 6))
  else if fixed w 18 6 16 && fixed w 12 3 0 && fixed w 0 6 0 then some (.mfls x (fld 3 w 15) (fld 6 w 6))
  else none

/-- Major 0x22: VADD (R253). -/
def dec22 (x : Bool) (w : Nat) : Option Instr :=
  some (.vadd x (fld 3 w 21) (fld 7 w 14) (fld 7 w 7) (fld 7 w 0))

/-- Major 0x23: VSUB (R253). -/
def dec23 (x : Bool) (w : Nat) : Option Instr :=
  some (.vsub x (fld 3 w 21) (fld 7 w 14) (fld 7 w 7) (fld 7 w 0))

/-- Major 0x24: VMUL (R253). -/
def dec24 (x : Bool) (w : Nat) : Option Instr :=
  some (.vmul x (fld 3 w 21) (fld 7 w 14) (fld 7 w 7) (fld 7 w 0))

/-- Major 0x25: VMULH (R253). -/
def dec25 (x : Bool) (w : Nat) : Option Instr :=
  some (.vmulh x (fld 3 w 21) (fld 7 w 14) (fld 7 w 7) (fld 7 w 0))

/-- Major 0x26: VMULHW (R253). -/
def dec26 (x : Bool) (w : Nat) : Option Instr :=
  some (.vmulhw x (fld 3 w 21) (fld 7 w 14) (fld 7 w 7) (fld 7 w 0))

/-- Major 0x27: VFMA (R253). -/
def dec27 (x : Bool) (w : Nat) : Option Instr :=
  some (.vfma x (fld 3 w 21) (fld 7 w 14) (fld 7 w 7) (fld 7 w 0))

/-- Major 0x28: VFNMA (R253). -/
def dec28 (x : Bool) (w : Nat) : Option Instr :=
  some (.vfnma x (fld 3 w 21) (fld 7 w 14) (fld 7 w 7) (fld 7 w 0))

/-- Major 0x29: VMIN (R253). -/
def dec29 (x : Bool) (w : Nat) : Option Instr :=
  some (.vmin x (fld 3 w 21) (fld 7 w 14) (fld 7 w 7) (fld 7 w 0))

/-- Major 0x2a: VMAX (R253). -/
def dec2A (x : Bool) (w : Nat) : Option Instr :=
  some (.vmax x (fld 3 w 21) (fld 7 w 14) (fld 7 w 7) (fld 7 w 0))

/-- Major 0x2b: VMINW (R253). -/
def dec2B (x : Bool) (w : Nat) : Option Instr :=
  some (.vminw x (fld 3 w 21) (fld 7 w 14) (fld 7 w 7) (fld 7 w 0))

/-- Major 0x2c: VMAXW (R253). -/
def dec2C (x : Bool) (w : Nat) : Option Instr :=
  some (.vmaxw x (fld 3 w 21) (fld 7 w 14) (fld 7 w 7) (fld 7 w 0))

/-- Major 0x2d: VABS (R253). -/
def dec2D (x : Bool) (w : Nat) : Option Instr :=
  if fixed w 0 7 0 then some (.vabs x (fld 3 w 21) (fld 7 w 14) (fld 7 w 7))
  else none

/-- Major 0x2e: VNEG (R253). -/
def dec2E (x : Bool) (w : Nat) : Option Instr :=
  if fixed w 0 7 0 then some (.vneg x (fld 3 w 21) (fld 7 w 14) (fld 7 w 7))
  else none

/-- Major 0x2f: VAND (R258). -/
def dec2F (x : Bool) (w : Nat) : Option Instr :=
  some (.vand x (fld 3 w 21) (fld 7 w 14) (fld 7 w 7) (fld 7 w 0))

/-- Major 0x30: VOR (R258). -/
def dec30 (x : Bool) (w : Nat) : Option Instr :=
  some (.vor x (fld 3 w 21) (fld 7 w 14) (fld 7 w 7) (fld 7 w 0))

/-- Major 0x31: VXOR (R258). -/
def dec31 (x : Bool) (w : Nat) : Option Instr :=
  some (.vxor x (fld 3 w 21) (fld 7 w 14) (fld 7 w 7) (fld 7 w 0))

/-- Major 0x32: VNOT (R258). -/
def dec32 (x : Bool) (w : Nat) : Option Instr :=
  if fixed w 0 7 0 then some (.vnot x (fld 3 w 21) (fld 7 w 14) (fld 7 w 7))
  else none

/-- Major 0x33: VSHL (R258). -/
def dec33 (x : Bool) (w : Nat) : Option Instr :=
  some (.vshl x (fld 3 w 21) (fld 7 w 14) (fld 7 w 7) (fld 7 w 0))

/-- Major 0x34: VSHR (R258). -/
def dec34 (x : Bool) (w : Nat) : Option Instr :=
  some (.vshr x (fld 3 w 21) (fld 7 w 14) (fld 7 w 7) (fld 7 w 0))

/-- Major 0x35: VSRA (R258). -/
def dec35 (x : Bool) (w : Nat) : Option Instr :=
  some (.vsra x (fld 3 w 21) (fld 7 w 14) (fld 7 w 7) (fld 7 w 0))

/-- Major 0x36: VCMP (R259). -/
def dec36 (x : Bool) (w : Nat) : Option Instr :=
  some (.vcmp x (fld 3 w 21) (fld 4 w 17) (fld 3 w 14) (fld 7 w 7) (fld 7 w 0))

/-- Major 0x37: VCEQ (R260). -/
def dec37 (x : Bool) (w : Nat) : Option Instr :=
  some (.vceq x (fld 3 w 21) (fld 7 w 14) (fld 7 w 7) (fld 7 w 0))

/-- Major 0x38: VCLT (R260). -/
def dec38 (x : Bool) (w : Nat) : Option Instr :=
  some (.vclt x (fld 3 w 21) (fld 7 w 14) (fld 7 w 7) (fld 7 w 0))

/-- Major 0x39: VCLE (R260). -/
def dec39 (x : Bool) (w : Nat) : Option Instr :=
  some (.vcle x (fld 3 w 21) (fld 7 w 14) (fld 7 w 7) (fld 7 w 0))

/-- Major 0x3a: VCLTW (R260). -/
def dec3A (x : Bool) (w : Nat) : Option Instr :=
  some (.vcltw x (fld 3 w 21) (fld 7 w 14) (fld 7 w 7) (fld 7 w 0))

/-- Major 0x3b: VSEL (R261). -/
def dec3B (x : Bool) (w : Nat) : Option Instr :=
  some (.vsel x (fld 3 w 21) (fld 7 w 14) (fld 7 w 7) (fld 7 w 0))

/-- Major 0x3c: VMOV (R261). -/
def dec3C (x : Bool) (w : Nat) : Option Instr :=
  if fixed w 0 7 0 then some (.vmov x (fld 3 w 21) (fld 7 w 14) (fld 7 w 7))
  else none

/-- Major 0x3d: VPOPC (R258). -/
def dec3D (x : Bool) (w : Nat) : Option Instr :=
  if fixed w 0 7 0 then some (.vpopc x (fld 3 w 21) (fld 7 w 14) (fld 7 w 7))
  else none

/-- Major 0x3e: VCLZ (R258). -/
def dec3E (x : Bool) (w : Nat) : Option Instr :=
  if fixed w 0 7 0 then some (.vclz x (fld 3 w 21) (fld 7 w 14) (fld 7 w 7))
  else none

/-- Major 0x3f: VADDSAT (R257). -/
def dec3F (x : Bool) (w : Nat) : Option Instr :=
  some (.vaddsat x (fld 3 w 21) (fld 7 w 14) (fld 7 w 7) (fld 7 w 0))

/-- Major 0x40: VDIV (R262). -/
def dec40 (x : Bool) (w : Nat) : Option Instr :=
  some (.vdiv x (fld 3 w 21) (fld 7 w 14) (fld 7 w 7) (fld 7 w 0))

/-- Major 0x41: VSQRT (R262). -/
def dec41 (x : Bool) (w : Nat) : Option Instr :=
  if fixed w 0 7 0 then some (.vsqrt x (fld 3 w 21) (fld 7 w 14) (fld 7 w 7))
  else none

/-- Major 0x42: VSFU (R263). -/
def dec42 (x : Bool) (w : Nat) : Option Instr :=
  some (.vsfu x (fld 3 w 21) (fld 7 w 14) (fld 7 w 7) (fld 7 w 0))

/-- Major 0x43: VAMAX (R268). -/
def dec43 (x : Bool) (w : Nat) : Option Instr :=
  if fixed w 4 3 0 then some (.vamax x (fld 3 w 21) (fld 7 w 14) (fld 7 w 7) (fld 1 w 3) (fld 3 w 0))
  else none

/-- Major 0x44: VDQNT (R267). -/
def dec44 (x : Bool) (w : Nat) : Option Instr :=
  some (.vdqnt x (fld 3 w 21) (fld 7 w 14) (fld 7 w 7) (fld 3 w 4) (fld 1 w 3) (fld 3 w 0))

/-- Major 0x46: VSHF (R270). -/
def dec46 (x : Bool) (w : Nat) : Option Instr :=
  some (.vshf x (fld 3 w 21) (fld 7 w 14) (fld 7 w 7) (fld 7 w 0))

/-- Major 0x47: VBCST (R271). -/
def dec47 (x : Bool) (w : Nat) : Option Instr :=
  if fixed w 21 3 0 then some (.vbcst x (fld 7 w 14) (fld 7 w 7) (fld 7 w 0))
  else none

/-- Major 0x48: VRED (R276). -/
def dec48 (x : Bool) (w : Nat) : Option Instr :=
  some (.vred x (fld 3 w 21) (fld 7 w 14) (fld 7 w 7) (fld 7 w 0))

/-- Major 0x49: VSCAN (R277). -/
def dec49 (x : Bool) (w : Nat) : Option Instr :=
  some (.vscan x (fld 3 w 21) (fld 7 w 14) (fld 7 w 7) (fld 7 w 0))

/-- Major 0x4a: VEXT (R272). -/
def dec4A (x : Bool) (w : Nat) : Option Instr :=
  some (.vext x (fld 3 w 21) (fld 7 w 14) (fld 7 w 7) (fld 7 w 0))

/-- Major 0x4b: VINS (R273). -/
def dec4B (x : Bool) (w : Nat) : Option Instr :=
  some (.vins x (fld 3 w 21) (fld 7 w 14) (fld 7 w 7) (fld 7 w 0))

/-- Major 0x4c: VMOVM (R274). -/
def dec4C (x : Bool) (w : Nat) : Option Instr :=
  if fixed w 21 3 0 && fixed w 3 4 0 then some (.vmovm x (fld 7 w 14) (fld 7 w 7) (fld 3 w 0))
  else none

/-- Major 0x4d: VIDX (R275). -/
def dec4D (x : Bool) (w : Nat) : Option Instr :=
  some (.vidx x (fld 3 w 21) (fld 7 w 14) (fld 7 w 7) (fld 7 w 0))

/-- Major 0x4e: VROUND (R264). -/
def dec4E (x : Bool) (w : Nat) : Option Instr :=
  if fixed w 3 4 0 then some (.vround x (fld 3 w 21) (fld 7 w 14) (fld 7 w 7) (fld 3 w 0))
  else none

/-- Major 0x50: VLD (R284). -/
def dec50 (x : Bool) (w : Nat) : Option Instr :=
  some (.vld x (fld 3 w 21) (fld 7 w 14) (fld 7 w 7) (fld 7 w 0))

/-- Major 0x51: VST (R284). -/
def dec51 (x : Bool) (w : Nat) : Option Instr :=
  some (.vst x (fld 3 w 21) (fld 7 w 14) (fld 7 w 7) (fld 7 w 0))

/-- Major 0x52: VLDSP (R284). -/
def dec52 (x : Bool) (w : Nat) : Option Instr :=
  some (.vldsp x (fld 3 w 21) (fld 7 w 14) (fld 7 w 7) (fld 7 w 0))

/-- Major 0x53: VSTSP (R284). -/
def dec53 (x : Bool) (w : Nat) : Option Instr :=
  some (.vstsp x (fld 3 w 21) (fld 7 w 14) (fld 7 w 7) (fld 7 w 0))

/-- Major 0x54: FENCE (R288). -/
def dec54 (x : Bool) (w : Nat) : Option Instr :=
  if fixed w 8 16 0 && fixed w 2 2 0 then some (.fence x (fld 1 w 7) (fld 3 w 4) (fld 2 w 0))
  else none

/-- Major 0x55: VPRF (R289). -/
def dec55 (x : Bool) (w : Nat) : Option Instr :=
  if fixed w 21 3 0 then some (.vprf x (fld 7 w 14) (fld 7 w 7) (fld 7 w 0))
  else none

/-- Major 0x56: SPCLR, SPCLR_FILL (R291). -/
def dec56 (x : Bool) (w : Nat) : Option Instr :=
  if fixed w 23 1 0 && fixed w 10 7 0 then some (.spclr x (fld 6 w 17) (fld 10 w 0))
  else if fixed w 23 1 1 && fixed w 10 7 0 then some (.spclrFill x (fld 6 w 17) (fld 10 w 0))
  else none

/-- Major 0x57: SPWAIT (R291). -/
def dec57 (x : Bool) (w : Nat) : Option Instr :=
  if fixed w 23 1 0 && fixed w 10 7 0 then some (.spwait x (fld 6 w 17) (fld 10 w 0))
  else none

/-- Major 0x58: STARM (R292). -/
def dec58 (x : Bool) (w : Nat) : Option Instr :=
  if fixed w 3 3 0 then some (.starm x (fld 6 w 18) (fld 6 w 12) (fld 6 w 6) (fld 3 w 0))
  else none

/-- Major 0x59: STWAIT (R293). -/
def dec59 (x : Bool) (w : Nat) : Option Instr :=
  if fixed w 0 12 0 then some (.stwait x (fld 6 w 18) (fld 6 w 12))
  else none

/-- Major 0x5a: TLWAIT (R294). -/
def dec5A (x : Bool) (w : Nat) : Option Instr :=
  if fixed w 0 14 0 then some (.tlwait x (fld 4 w 20) (fld 6 w 14))
  else none

/-- Major 0x5b: TLRD (R294). -/
def dec5B (x : Bool) (w : Nat) : Option Instr :=
  if fixed w 0 14 0 then some (.tlrd x (fld 6 w 18) (fld 4 w 14))
  else none

/-- Major 0x5c: CPY (R145). -/
def dec5C (x : Bool) (w : Nat) : Option Instr :=
  if fixed w 0 15 0 then some (.cpy x (fld 3 w 21) (fld 6 w 15))
  else none

/-- Major 0x60: MGANG_LEAVE, MGANG (R156). -/
def dec60 (x : Bool) (w : Nat) : Option Instr :=
  if fixed w 0 24 0 then some (.mgangLeave x)
  else if fixed w 0 15 0 then some (.mgang x (fld 3 w 21) (fld 6 w 15))
  else none

/-- Major 0x61: MRES (R160). -/
def dec61 (x : Bool) (w : Nat) : Option Instr :=
  if fixed w 0 15 0 then some (.mres x (fld 3 w 21) (fld 6 w 15))
  else none

/-- Major 0x62: MREL (R160). -/
def dec62 (x : Bool) (w : Nat) : Option Instr :=
  if fixed w 0 21 0 then some (.mrel x (fld 3 w 21))
  else none

/-- Major 0x63: MMA (R161). -/
def dec63 (x : Bool) (w : Nat) : Option Instr :=
  if fixed w 0 15 0 then some (.mma x (fld 3 w 21) (fld 3 w 18) (fld 3 w 15))
  else none

/-- Major 0x64: MZERO (R163). -/
def dec64 (x : Bool) (w : Nat) : Option Instr :=
  if fixed w 0 21 0 then some (.mzero x (fld 3 w 21))
  else none

/-- Major 0x65: MRD (R163). -/
def dec65 (x : Bool) (w : Nat) : Option Instr :=
  if fixed w 0 8 0 then some (.mrd x (fld 7 w 17) (fld 3 w 14) (fld 6 w 8))
  else none

/-- Major 0x66: MWR (R163). -/
def dec66 (x : Bool) (w : Nat) : Option Instr :=
  if fixed w 0 8 0 then some (.mwr x (fld 3 w 21) (fld 7 w 14) (fld 6 w 8))
  else none

/-- Major 0x67: MST (R163). -/
def dec67 (x : Bool) (w : Nat) : Option Instr :=
  if fixed w 0 15 0 then some (.mst x (fld 3 w 21) (fld 6 w 15))
  else none

/-- Major 0x68: RSTAT (R164). -/
def dec68 (x : Bool) (w : Nat) : Option Instr :=
  if fixed w 0 14 0 then some (.rstat x (fld 7 w 17) (fld 3 w 14))
  else none

/-- Major 0x69: GATE_SIG, GATE_TANH, GATE_MUL, GATE_ADD, GATE_LERP, GATE_SCALE (R165). -/
def dec69 (x : Bool) (w : Nat) : Option Instr :=
  if fixed w 21 3 0 && fixed w 0 15 0 then some (.gateSig x (fld 3 w 18) (fld 3 w 15))
  else if fixed w 21 3 1 && fixed w 0 15 0 then some (.gateTanh x (fld 3 w 18) (fld 3 w 15))
  else if fixed w 21 3 2 && fixed w 0 12 0 then some (.gateMul x (fld 3 w 18) (fld 3 w 15) (fld 3 w 12))
  else if fixed w 21 3 3 && fixed w 0 12 0 then some (.gateAdd x (fld 3 w 18) (fld 3 w 15) (fld 3 w 12))
  else if fixed w 21 3 4 && fixed w 0 12 0 then some (.gateLerp x (fld 3 w 18) (fld 3 w 15) (fld 3 w 12))
  else if fixed w 21 3 5 && fixed w 0 9 0 then some (.gateScale x (fld 3 w 18) (fld 3 w 15) (fld 6 w 9))
  else none

/-- Major 0x6a: BATON_TAKE, BATON_PASS, BATON_QUERY (R158). -/
def dec6A (x : Bool) (w : Nat) : Option Instr :=
  if fixed w 0 24 0 then some (.batonTake x)
  else if fixed w 0 24 4194304 then some (.batonPass x)
  else if fixed w 22 2 2 && fixed w 0 16 0 then some (.batonQuery x (fld 6 w 16))
  else none

/-- Major 0x6b: LEAVE_CLR, LEAVE (R36). -/
def dec6B (x : Bool) (w : Nat) : Option Instr :=
  if fixed w 0 22 1024 then some (.leaveClr x (fld 2 w 22))
  else if fixed w 0 11 0 then some (.leave x (fld 2 w 22) (fld 7 w 15) (fld 4 w 11))
  else none

/-- Major 0x6c: ECL, ECL_KEEP (R49). -/
def dec6C (x : Bool) (w : Nat) : Option Instr :=
  if fixed w 0 1 0 then some (.ecl x (fld 3 w 21) (fld 7 w 14) (fld 7 w 7) (fld 3 w 4) (fld 3 w 1))
  else if fixed w 0 1 1 then some (.eclKeep x (fld 3 w 21) (fld 7 w 14) (fld 7 w 7) (fld 3 w 4) (fld 3 w 1))
  else none

/-- Major 0x6d: EDROP (R51). -/
def dec6D (x : Bool) (w : Nat) : Option Instr :=
  if fixed w 0 18 0 then some (.edrop x (fld 6 w 18))
  else none

/-- Major 0x6e: EQUERY (R50). -/
def dec6E (x : Bool) (w : Nat) : Option Instr :=
  if fixed w 0 11 0 then some (.equery x (fld 3 w 21) (fld 7 w 14) (fld 3 w 11))
  else none

/-- Major 0x6f: YIELD, TNOW, CYC, ICOUNT, EVSIG, HWAIT, HPOLL, TRAP, BRK, EVWAIT (R245). -/
def dec6F (x : Bool) (w : Nat) : Option Instr :=
  if fixed w 0 24 4718592 then some (.yield x)
  else if fixed w 19 5 2 && fixed w 0 13 0 then some (.tnow x (fld 6 w 13))
  else if fixed w 19 5 3 && fixed w 0 13 0 then some (.cyc x (fld 6 w 13))
  else if fixed w 19 5 4 && fixed w 0 13 0 then some (.icount x (fld 6 w 13))
  else if fixed w 13 11 320 && fixed w 0 7 0 then some (.evsig x (fld 6 w 7))
  else if fixed w 19 5 7 && fixed w 0 7 0 then some (.hwait x (fld 6 w 13) (fld 6 w 7))
  else if fixed w 19 5 8 && fixed w 0 7 0 then some (.hpoll x (fld 6 w 13) (fld 6 w 7))
  else if fixed w 16 8 0 then some (.trap x (fld 16 w 0))
  else if fixed w 16 8 8 then some (.brk x (fld 16 w 0))
  else if fixed w 19 5 6 && fixed w 0 1 0 then some (.evwait x (fld 6 w 13) (fld 6 w 7) (fld 6 w 1))
  else none

/-- Major 0x70: SMOVL (R227). -/
def dec70 (x : Bool) (w v : Nat) : Option Instr :=
  if fixed w 0 18 0 then some (.smovl x (fld 6 w 18) (fld 32 v 0))
  else none

/-- Major 0x71: SMOVH (R227). -/
def dec71 (x : Bool) (w v : Nat) : Option Instr :=
  if fixed w 0 18 0 then some (.smovh x (fld 6 w 18) (fld 32 v 0))
  else none

/-- Major 0x72: VCVT (R265). -/
def dec72 (x : Bool) (w v : Nat) : Option Instr :=
  if fixed w 21 3 0 && fixed w 0 7 0 && fixed v 11 21 0 then some (.vcvt x (fld 7 w 14) (fld 7 w 7) (fld 3 v 8) (fld 4 v 4) (fld 4 v 0))
  else none

/-- Major 0x73: VQNT (R266). -/
def dec73 (x : Bool) (w v : Nat) : Option Instr :=
  if fixed w 21 3 0 && fixed v 12 20 0 then some (.vqnt x (fld 7 w 14) (fld 7 w 7) (fld 7 w 0) (fld 3 v 9) (fld 1 v 8) (fld 4 v 4) (fld 4 v 0))
  else none

/-- Major 0x74: VATOM (R290). -/
def dec74 (x : Bool) (w v : Nat) : Option Instr :=
  if fixed v 14 18 0 && fixed v 0 2 0 then some (.vatom x (fld 3 w 21) (fld 7 w 14) (fld 7 w 7) (fld 7 w 0) (fld 4 v 10) (fld 2 v 8) (fld 3 v 5) (fld 1 v 4) (fld 1 v 3) (fld 1 v 2))
  else none

/-- Major 0x75: VLDACQ (R286). -/
def dec75 (x : Bool) (w v : Nat) : Option Instr :=
  if fixed v 8 24 0 && fixed v 0 3 0 then some (.vldacq x (fld 3 w 21) (fld 7 w 14) (fld 7 w 7) (fld 7 w 0) (fld 3 v 5) (fld 1 v 4) (fld 1 v 3))
  else none

/-- Major 0x76: VSTREL (R286). -/
def dec76 (x : Bool) (w v : Nat) : Option Instr :=
  if fixed v 8 24 0 && fixed v 4 1 0 && fixed v 0 3 0 then some (.vstrel x (fld 3 w 21) (fld 7 w 14) (fld 7 w 7) (fld 7 w 0) (fld 3 v 5) (fld 1 v 3))
  else none

/-- Major 0x77: OSEND, OSEND_AT (R176). -/
def dec77 (x : Bool) (w v : Nat) : Option Instr :=
  if fixed w 0 6 0 && fixed v 11 20 0 && fixed v 31 1 0 then some (.osend x (fld 6 w 18) (fld 6 w 12) (fld 6 w 6) (fld 11 v 0))
  else if fixed v 11 20 0 && fixed v 31 1 1 then some (.osendAt x (fld 6 w 18) (fld 6 w 12) (fld 6 w 6) (fld 6 w 0) (fld 11 v 0))
  else none

/-- Major 0x78: OATOM, OATOM_AT (R177). -/
def dec78 (x : Bool) (w v : Nat) : Option Instr :=
  if fixed w 0 6 0 && fixed v 28 3 0 && fixed v 6 17 0 && fixed v 31 1 0 then some (.oatom x (fld 6 w 18) (fld 6 w 12) (fld 6 w 6) (fld 6 v 0) (fld 4 v 24) (fld 1 v 23))
  else if fixed v 28 3 0 && fixed v 6 17 0 && fixed v 31 1 1 then some (.oatomAt x (fld 6 w 18) (fld 6 w 12) (fld 6 w 6) (fld 6 v 0) (fld 6 w 0) (fld 4 v 24) (fld 1 v 23))
  else none

/-- Major 0x79: INVK (R180). -/
def dec79 (x : Bool) (w v : Nat) : Option Instr :=
  if fixed w 0 6 0 && fixed v 0 32 0 then some (.invk x (fld 6 w 18) (fld 6 w 12) (fld 6 w 6))
  else none

/-- Major 0x7a: INVH (R180). -/
def dec7A (x : Bool) (w v : Nat) : Option Instr :=
  if fixed w 0 6 0 && fixed v 0 32 0 then some (.invh x (fld 6 w 18) (fld 6 w 12) (fld 6 w 6))
  else none

/-- Major 0x7b: VMOVL (R256). -/
def dec7B (x : Bool) (w v : Nat) : Option Instr :=
  if fixed w 0 14 0 then some (.vmovl x (fld 3 w 21) (fld 7 w 14) (fld 32 v 0))
  else none

/-- Major 0x7c: VFMAL (R255). -/
def dec7C (x : Bool) (w v : Nat) : Option Instr :=
  if fixed v 7 25 0 then some (.vfmal x (fld 3 w 21) (fld 7 w 14) (fld 7 w 7) (fld 7 w 0) (fld 7 v 0))
  else none

/-- Major 0x7d: MLD (R163). -/
def dec7D (x : Bool) (w v : Nat) : Option Instr :=
  if fixed w 0 21 0 then some (.mld x (fld 3 w 21) (fld 32 v 0))
  else none

/-- Major 0x7e: EVTIME (R303). -/
def dec7E (x : Bool) (w v : Nat) : Option Instr :=
  if fixed w 0 6 0 && fixed v 1 31 0 then some (.evtime x (fld 6 w 18) (fld 6 w 12) (fld 6 w 6) (fld 1 v 0))
  else none

/-- The instruction of a word `w` (and of the word `v` after it, for a long form), or none for an encoding outside the
opcode map (R202, R203). Which fields an instruction admits is `Instr.legal`. -/
def decodeWords (w v : Nat) : Option Instr :=
  let x := (w >>> 31) % 2 == 1
  match (w >>> 24) % 128 with
  | 0 => dec00 x w
  | 1 => dec01 x w
  | 2 => dec02 x w
  | 3 => dec03 x w
  | 4 => dec04 x w
  | 5 => dec05 x w
  | 6 => dec06 x w
  | 7 => dec07 x w
  | 8 => dec08 x w
  | 9 => dec09 x w
  | 10 => dec0A x w
  | 11 => dec0B x w
  | 12 => dec0C x w
  | 13 => dec0D x w
  | 14 => dec0E x w
  | 15 => dec0F x w
  | 16 => dec10 x w
  | 17 => dec11 x w
  | 18 => dec12 x w
  | 19 => dec13 x w
  | 20 => dec14 x w
  | 21 => dec15 x w
  | 22 => dec16 x w
  | 23 => dec17 x w
  | 24 => dec18 x w
  | 25 => dec19 x w
  | 26 => dec1A x w
  | 27 => dec1B x w
  | 28 => dec1C x w
  | 29 => dec1D x w
  | 30 => dec1E x w
  | 31 => dec1F x w
  | 32 => dec20 x w
  | 33 => dec21 x w
  | 34 => dec22 x w
  | 35 => dec23 x w
  | 36 => dec24 x w
  | 37 => dec25 x w
  | 38 => dec26 x w
  | 39 => dec27 x w
  | 40 => dec28 x w
  | 41 => dec29 x w
  | 42 => dec2A x w
  | 43 => dec2B x w
  | 44 => dec2C x w
  | 45 => dec2D x w
  | 46 => dec2E x w
  | 47 => dec2F x w
  | 48 => dec30 x w
  | 49 => dec31 x w
  | 50 => dec32 x w
  | 51 => dec33 x w
  | 52 => dec34 x w
  | 53 => dec35 x w
  | 54 => dec36 x w
  | 55 => dec37 x w
  | 56 => dec38 x w
  | 57 => dec39 x w
  | 58 => dec3A x w
  | 59 => dec3B x w
  | 60 => dec3C x w
  | 61 => dec3D x w
  | 62 => dec3E x w
  | 63 => dec3F x w
  | 64 => dec40 x w
  | 65 => dec41 x w
  | 66 => dec42 x w
  | 67 => dec43 x w
  | 68 => dec44 x w
  | 70 => dec46 x w
  | 71 => dec47 x w
  | 72 => dec48 x w
  | 73 => dec49 x w
  | 74 => dec4A x w
  | 75 => dec4B x w
  | 76 => dec4C x w
  | 77 => dec4D x w
  | 78 => dec4E x w
  | 80 => dec50 x w
  | 81 => dec51 x w
  | 82 => dec52 x w
  | 83 => dec53 x w
  | 84 => dec54 x w
  | 85 => dec55 x w
  | 86 => dec56 x w
  | 87 => dec57 x w
  | 88 => dec58 x w
  | 89 => dec59 x w
  | 90 => dec5A x w
  | 91 => dec5B x w
  | 92 => dec5C x w
  | 96 => dec60 x w
  | 97 => dec61 x w
  | 98 => dec62 x w
  | 99 => dec63 x w
  | 100 => dec64 x w
  | 101 => dec65 x w
  | 102 => dec66 x w
  | 103 => dec67 x w
  | 104 => dec68 x w
  | 105 => dec69 x w
  | 106 => dec6A x w
  | 107 => dec6B x w
  | 108 => dec6C x w
  | 109 => dec6D x w
  | 110 => dec6E x w
  | 111 => dec6F x w
  | 112 => dec70 x w v
  | 113 => dec71 x w v
  | 114 => dec72 x w v
  | 115 => dec73 x w v
  | 116 => dec74 x w v
  | 117 => dec75 x w v
  | 118 => dec76 x w v
  | 119 => dec77 x w v
  | 120 => dec78 x w v
  | 121 => dec79 x w v
  | 122 => dec7A x w v
  | 123 => dec7B x w v
  | 124 => dec7C x w v
  | 125 => dec7D x w v
  | 126 => dec7E x w v
  | _ => none

/-- A long form takes two words (R199): majors 0x70 to 0x7E. -/
def isLongMajor (w : Nat) : Bool := 112 ≤ (w >>> 24) % 128 && (w >>> 24) % 128 ≤ 126

/-- The bits of a word above its fields: the switch marker and the major opcode (R199). -/
def sw (x : Bool) (major : Nat) : Nat := (if x then 2147483648 else 0) + major * 16777216

/-- The words of an instruction as numbers, written from the encoding tables of the spec; a step that is no instruction word
has none. -/
def encodeWords : Instr → List Nat
  | .nop x => [sw x 0]
  | .jmp x o => [sw x 1 + o.toNat]
  | .bany x k o => [sw x 2 + k.toNat * 1048576 + o.toNat]
  | .ball x k o => [sw x 3 + k.toNat * 1048576 + o.toNat]
  | .bnone x k o => [sw x 4 + k.toNat * 1048576 + o.toNat]
  | .split x k o => [sw x 5 + k.toNat * 1048576 + o.toNat]
  | .join x => [sw x 6]
  | .call x d o => [sw x 7 + d.toNat * 262144 + o.toNat]
  | .jind x a => [sw x 8 + a.toNat * 262144]
  | .loop x n o => [sw x 9 + n.toNat * 4194304 + o.toNat]
  | .loopx x n o => [sw x 10 + n.toNat * 4194304 + o.toNat]
  | .exit x => [sw x 11]
  | .bar x n => [sw x 12 + n.toNat]
  | .barCohort x n => [sw x 12 + n.toNat + 8388608]
  | .tkwait x n => [sw x 13 + n.toNat]
  | .tktake x n => [sw x 14 + n.toNat]
  | .wait x w => [sw x 15 + w.toNat]
  | .sadd x d a b => [sw x 16 + d.toNat * 32768 + a.toNat * 512 + b.toNat * 8]
  | .ssub x d a b => [sw x 16 + d.toNat * 32768 + a.toNat * 512 + b.toNat * 8 + 2097152]
  | .sand x d a b => [sw x 16 + d.toNat * 32768 + a.toNat * 512 + b.toNat * 8 + 4194304]
  | .sor x d a b => [sw x 16 + d.toNat * 32768 + a.toNat * 512 + b.toNat * 8 + 6291456]
  | .sxor x d a b => [sw x 16 + d.toNat * 32768 + a.toNat * 512 + b.toNat * 8 + 8388608]
  | .sshl x d a b => [sw x 16 + d.toNat * 32768 + a.toNat * 512 + b.toNat * 8 + 10485760]
  | .sshr x d a b => [sw x 16 + d.toNat * 32768 + a.toNat * 512 + b.toNat * 8 + 12582912]
  | .ssra x d a b => [sw x 16 + d.toNat * 32768 + a.toNat * 512 + b.toNat * 8 + 14680064]
  | .smul x d a b => [sw x 17 + d.toNat * 32768 + a.toNat * 512 + b.toNat * 8]
  | .smulh x d a b => [sw x 17 + d.toNat * 32768 + a.toNat * 512 + b.toNat * 8 + 2097152]
  | .smulhw x d a b => [sw x 17 + d.toNat * 32768 + a.toNat * 512 + b.toNat * 8 + 4194304]
  | .sdiv x d a b => [sw x 17 + d.toNat * 32768 + a.toNat * 512 + b.toNat * 8 + 6291456]
  | .sdivw x d a b => [sw x 17 + d.toNat * 32768 + a.toNat * 512 + b.toNat * 8 + 8388608]
  | .srem x d a b => [sw x 17 + d.toNat * 32768 + a.toNat * 512 + b.toNat * 8 + 10485760]
  | .sremw x d a b => [sw x 17 + d.toNat * 32768 + a.toNat * 512 + b.toNat * 8 + 12582912]
  | .saddi x d a i => [sw x 18 + d.toNat * 262144 + a.toNat * 4096 + i.toNat]
  | .sandi x d a i => [sw x 19 + d.toNat * 262144 + a.toNat * 4096 + i.toNat]
  | .sori x d a i => [sw x 20 + d.toNat * 262144 + a.toNat * 4096 + i.toNat]
  | .sxori x d a i => [sw x 21 + d.toNat * 262144 + a.toNat * 4096 + i.toNat]
  | .sshli x d a c => [sw x 22 + d.toNat * 32768 + a.toNat * 512 + c.toNat * 8]
  | .sshri x d a c => [sw x 22 + d.toNat * 32768 + a.toNat * 512 + c.toNat * 8 + 2097152]
  | .ssrai x d a c => [sw x 22 + d.toNat * 32768 + a.toNat * 512 + c.toNat * 8 + 4194304]
  | .smovi x d i => [sw x 23 + d.toNat * 262144 + i.toNat]
  | .smovl x d i => [sw x 112 + d.toNat * 262144, i.toNat]
  | .smovh x d i => [sw x 113 + d.toNat * 262144, i.toNat]
  | .scmp x f d a b => [sw x 24 + f.toNat * 2097152 + d.toNat * 32768 + a.toNat * 512 + b.toNat * 8]
  | .smin x d a b => [sw x 25 + d.toNat * 32768 + a.toNat * 512 + b.toNat * 8]
  | .smax x d a b => [sw x 25 + d.toNat * 32768 + a.toNat * 512 + b.toNat * 8 + 2097152]
  | .sminw x d a b => [sw x 25 + d.toNat * 32768 + a.toNat * 512 + b.toNat * 8 + 4194304]
  | .smaxw x d a b => [sw x 25 + d.toNat * 32768 + a.toNat * 512 + b.toNat * 8 + 6291456]
  | .spopc x d a => [sw x 26 + d.toNat * 32768 + a.toNat * 512]
  | .sclz x d a => [sw x 26 + d.toNat * 32768 + a.toNat * 512 + 2097152]
  | .sctz x d a => [sw x 26 + d.toNat * 32768 + a.toNat * 512 + 4194304]
  | .sld x d a i => [sw x 27 + d.toNat * 262144 + a.toNat * 4096 + i.toNat]
  | .sst x d a i => [sw x 28 + d.toNat * 262144 + a.toNat * 4096 + i.toNat]
  | .sldk x d i => [sw x 29 + d.toNat * 262144 + i.toNat]
  | .rdsr x d i => [sw x 30 + d.toNat * 262144 + i.toNat]
  | .wrsr x a i => [sw x 31 + a.toNat * 4096 + i.toNat]
  | .mand x d a b => [sw x 32 + d.toNat * 262144 + a.toNat * 32768 + b.toNat * 4096]
  | .mor x d a b => [sw x 32 + d.toNat * 262144 + a.toNat * 32768 + b.toNat * 4096 + 2097152]
  | .mxor x d a b => [sw x 32 + d.toNat * 262144 + a.toNat * 32768 + b.toNat * 4096 + 4194304]
  | .mandn x d a b => [sw x 32 + d.toNat * 262144 + a.toNat * 32768 + b.toNat * 4096 + 6291456]
  | .mnot x d a => [sw x 32 + d.toNat * 262144 + a.toNat * 32768 + 8388608]
  | .mmov x d a => [sw x 32 + d.toNat * 262144 + a.toNat * 32768 + 10485760]
  | .mfroms x d r => [sw x 32 + d.toNat * 262144 + r.toNat * 64 + 12582912]
  | .mtos x a r => [sw x 32 + a.toNat * 32768 + r.toNat * 64 + 14680064]
  | .mpopc x a r => [sw x 33 + a.toNat * 32768 + r.toNat * 64]
  | .mffs x a r => [sw x 33 + a.toNat * 32768 + r.toNat * 64 + 2097152]
  | .mfls x a r => [sw x 33 + a.toNat * 32768 + r.toNat * 64 + 4194304]
  | .vadd x t d a b => [sw x 34 + t.toNat * 2097152 + d.toNat * 16384 + a.toNat * 128 + b.toNat]
  | .vsub x t d a b => [sw x 35 + t.toNat * 2097152 + d.toNat * 16384 + a.toNat * 128 + b.toNat]
  | .vmul x t d a b => [sw x 36 + t.toNat * 2097152 + d.toNat * 16384 + a.toNat * 128 + b.toNat]
  | .vmulh x t d a b => [sw x 37 + t.toNat * 2097152 + d.toNat * 16384 + a.toNat * 128 + b.toNat]
  | .vmulhw x t d a b => [sw x 38 + t.toNat * 2097152 + d.toNat * 16384 + a.toNat * 128 + b.toNat]
  | .vfma x t d a b => [sw x 39 + t.toNat * 2097152 + d.toNat * 16384 + a.toNat * 128 + b.toNat]
  | .vfnma x t d a b => [sw x 40 + t.toNat * 2097152 + d.toNat * 16384 + a.toNat * 128 + b.toNat]
  | .vmin x t d a b => [sw x 41 + t.toNat * 2097152 + d.toNat * 16384 + a.toNat * 128 + b.toNat]
  | .vmax x t d a b => [sw x 42 + t.toNat * 2097152 + d.toNat * 16384 + a.toNat * 128 + b.toNat]
  | .vminw x t d a b => [sw x 43 + t.toNat * 2097152 + d.toNat * 16384 + a.toNat * 128 + b.toNat]
  | .vmaxw x t d a b => [sw x 44 + t.toNat * 2097152 + d.toNat * 16384 + a.toNat * 128 + b.toNat]
  | .vabs x t d a => [sw x 45 + t.toNat * 2097152 + d.toNat * 16384 + a.toNat * 128]
  | .vneg x t d a => [sw x 46 + t.toNat * 2097152 + d.toNat * 16384 + a.toNat * 128]
  | .vfmal x t d a b c => [sw x 124 + t.toNat * 2097152 + d.toNat * 16384 + a.toNat * 128 + b.toNat, c.toNat]
  | .vmovl x t d i => [sw x 123 + t.toNat * 2097152 + d.toNat * 16384, i.toNat]
  | .vaddsat x t d a b => [sw x 63 + t.toNat * 2097152 + d.toNat * 16384 + a.toNat * 128 + b.toNat]
  | .vand x t d a b => [sw x 47 + t.toNat * 2097152 + d.toNat * 16384 + a.toNat * 128 + b.toNat]
  | .vor x t d a b => [sw x 48 + t.toNat * 2097152 + d.toNat * 16384 + a.toNat * 128 + b.toNat]
  | .vxor x t d a b => [sw x 49 + t.toNat * 2097152 + d.toNat * 16384 + a.toNat * 128 + b.toNat]
  | .vnot x t d a => [sw x 50 + t.toNat * 2097152 + d.toNat * 16384 + a.toNat * 128]
  | .vshl x t d a b => [sw x 51 + t.toNat * 2097152 + d.toNat * 16384 + a.toNat * 128 + b.toNat]
  | .vshr x t d a b => [sw x 52 + t.toNat * 2097152 + d.toNat * 16384 + a.toNat * 128 + b.toNat]
  | .vsra x t d a b => [sw x 53 + t.toNat * 2097152 + d.toNat * 16384 + a.toNat * 128 + b.toNat]
  | .vpopc x t d a => [sw x 61 + t.toNat * 2097152 + d.toNat * 16384 + a.toNat * 128]
  | .vclz x t d a => [sw x 62 + t.toNat * 2097152 + d.toNat * 16384 + a.toNat * 128]
  | .vcmp x t c m a b => [sw x 54 + t.toNat * 2097152 + c.toNat * 131072 + m.toNat * 16384 + a.toNat * 128 + b.toNat]
  | .vceq x t d a b => [sw x 55 + t.toNat * 2097152 + d.toNat * 16384 + a.toNat * 128 + b.toNat]
  | .vclt x t d a b => [sw x 56 + t.toNat * 2097152 + d.toNat * 16384 + a.toNat * 128 + b.toNat]
  | .vcle x t d a b => [sw x 57 + t.toNat * 2097152 + d.toNat * 16384 + a.toNat * 128 + b.toNat]
  | .vcltw x t d a b => [sw x 58 + t.toNat * 2097152 + d.toNat * 16384 + a.toNat * 128 + b.toNat]
  | .vsel x t d a b => [sw x 59 + t.toNat * 2097152 + d.toNat * 16384 + a.toNat * 128 + b.toNat]
  | .vmov x t d a => [sw x 60 + t.toNat * 2097152 + d.toNat * 16384 + a.toNat * 128]
  | .vdiv x t d a b => [sw x 64 + t.toNat * 2097152 + d.toNat * 16384 + a.toNat * 128 + b.toNat]
  | .vsqrt x t d a => [sw x 65 + t.toNat * 2097152 + d.toNat * 16384 + a.toNat * 128]
  | .vsfu x t d a f => [sw x 66 + t.toNat * 2097152 + d.toNat * 16384 + a.toNat * 128 + f.toNat]
  | .vround x t d a m => [sw x 78 + t.toNat * 2097152 + d.toNat * 16384 + a.toNat * 128 + m.toNat]
  | .vcvt x d a h dfmt sfmt => [sw x 114 + d.toNat * 16384 + a.toNat * 128, h.toNat * 256 + dfmt.toNat * 16 + sfmt.toNat]
  | .vqnt x d a b h k qfmt sfmt => [sw x 115 + d.toNat * 16384 + a.toNat * 128 + b.toNat, h.toNat * 512 + k.toNat * 256 + qfmt.toNat * 16 + sfmt.toNat]
  | .vdqnt x t d a h k q => [sw x 68 + t.toNat * 2097152 + d.toNat * 16384 + a.toNat * 128 + h.toNat * 16 + k.toNat * 8 + q.toNat]
  | .vamax x t d a l q => [sw x 67 + t.toNat * 2097152 + d.toNat * 16384 + a.toNat * 128 + l.toNat * 8 + q.toNat]
  | .vshf x t d a b => [sw x 70 + t.toNat * 2097152 + d.toNat * 16384 + a.toNat * 128 + b.toNat]
  | .vbcst x d a i => [sw x 71 + d.toNat * 16384 + a.toNat * 128 + i.toNat]
  | .vext x t d a i => [sw x 74 + t.toNat * 2097152 + d.toNat * 16384 + a.toNat * 128 + i.toNat]
  | .vins x t d a i => [sw x 75 + t.toNat * 2097152 + d.toNat * 16384 + a.toNat * 128 + i.toNat]
  | .vmovm x d a m => [sw x 76 + d.toNat * 16384 + a.toNat * 128 + m.toNat]
  | .vidx x t d a i => [sw x 77 + t.toNat * 2097152 + d.toNat * 16384 + a.toNat * 128 + i.toNat]
  | .vred x t d a o => [sw x 72 + t.toNat * 2097152 + d.toNat * 16384 + a.toNat * 128 + o.toNat]
  | .vscan x t d a o => [sw x 73 + t.toNat * 2097152 + d.toNat * 16384 + a.toNat * 128 + o.toNat]
  | .vld x t d a b => [sw x 80 + t.toNat * 2097152 + d.toNat * 16384 + a.toNat * 128 + b.toNat]
  | .vst x t d a b => [sw x 81 + t.toNat * 2097152 + d.toNat * 16384 + a.toNat * 128 + b.toNat]
  | .vldsp x t d a b => [sw x 82 + t.toNat * 2097152 + d.toNat * 16384 + a.toNat * 128 + b.toNat]
  | .vstsp x t d a b => [sw x 83 + t.toNat * 2097152 + d.toNat * 16384 + a.toNat * 128 + b.toNat]
  | .vldacq x t d a b scope rem sp => [sw x 117 + t.toNat * 2097152 + d.toNat * 16384 + a.toNat * 128 + b.toNat, scope.toNat * 32 + rem.toNat * 16 + sp.toNat * 8]
  | .vstrel x t d a b scope sp => [sw x 118 + t.toNat * 2097152 + d.toNat * 16384 + a.toNat * 128 + b.toNat, scope.toNat * 32 + sp.toNat * 8]
  | .fence x r s k => [sw x 84 + r.toNat * 128 + s.toNat * 16 + k.toNat]
  | .vprf x h a b => [sw x 85 + h.toNat * 16384 + a.toNat * 128 + b.toNat]
  | .vatom x t d a b op ord scope rem sp det => [sw x 116 + t.toNat * 2097152 + d.toNat * 16384 + a.toNat * 128 + b.toNat, op.toNat * 1024 + ord.toNat * 256 + scope.toNat * 32 + rem.toNat * 16 + sp.toNat * 8 + det.toNat * 4]
  | .spclr x a n => [sw x 86 + a.toNat * 131072 + n.toNat]
  | .spclrFill x a n => [sw x 86 + a.toNat * 131072 + n.toNat + 8388608]
  | .spwait x a n => [sw x 87 + a.toNat * 131072 + n.toNat]
  | .starm x a b c p => [sw x 88 + a.toNat * 262144 + b.toNat * 4096 + c.toNat * 64 + p.toNat]
  | .stwait x d a => [sw x 89 + d.toNat * 262144 + a.toNat * 4096]
  | .tlwait x c a => [sw x 90 + c.toNat * 1048576 + a.toNat * 16384]
  | .tlrd x d c => [sw x 91 + d.toNat * 262144 + c.toNat * 16384]
  | .cpy x n a => [sw x 92 + n.toNat * 2097152 + a.toNat * 32768]
  | .mgang x n k => [sw x 96 + n.toNat * 2097152 + k.toNat * 32768]
  | .mgangLeave x => [sw x 96]
  | .mres x n a => [sw x 97 + n.toNat * 2097152 + a.toNat * 32768]
  | .mrel x n => [sw x 98 + n.toNat * 2097152]
  | .mma x d a b => [sw x 99 + d.toNat * 2097152 + a.toNat * 262144 + b.toNat * 32768]
  | .mzero x d => [sw x 100 + d.toNat * 2097152]
  | .mrd x d s i => [sw x 101 + d.toNat * 131072 + s.toNat * 16384 + i.toNat * 256]
  | .mwr x d s i => [sw x 102 + d.toNat * 2097152 + s.toNat * 16384 + i.toNat * 256]
  | .mst x c a => [sw x 103 + c.toNat * 2097152 + a.toNat * 32768]
  | .mld x n k => [sw x 125 + n.toNat * 2097152, k.toNat]
  | .rstat x d s => [sw x 104 + d.toNat * 131072 + s.toNat * 16384]
  | .gateSig x d a => [sw x 105 + d.toNat * 262144 + a.toNat * 32768]
  | .gateTanh x d a => [sw x 105 + d.toNat * 262144 + a.toNat * 32768 + 2097152]
  | .gateMul x d a b => [sw x 105 + d.toNat * 262144 + a.toNat * 32768 + b.toNat * 4096 + 4194304]
  | .gateAdd x d a b => [sw x 105 + d.toNat * 262144 + a.toNat * 32768 + b.toNat * 4096 + 6291456]
  | .gateLerp x d a b => [sw x 105 + d.toNat * 262144 + a.toNat * 32768 + b.toNat * 4096 + 8388608]
  | .gateScale x d a s => [sw x 105 + d.toNat * 262144 + a.toNat * 32768 + s.toNat * 512 + 10485760]
  | .batonTake x => [sw x 106]
  | .batonPass x => [sw x 106 + 4194304]
  | .batonQuery x d => [sw x 106 + d.toNat * 65536 + 8388608]
  | .leave x n a c => [sw x 107 + n.toNat * 4194304 + a.toNat * 32768 + c.toNat * 2048]
  | .leaveClr x n => [sw x 107 + n.toNat * 4194304 + 1024]
  | .ecl x m d k t c => [sw x 108 + m.toNat * 2097152 + d.toNat * 16384 + k.toNat * 128 + t.toNat * 16 + c.toNat * 2]
  | .eclKeep x m d k t c => [sw x 108 + m.toNat * 2097152 + d.toNat * 16384 + k.toNat * 128 + t.toNat * 16 + c.toNat * 2 + 1]
  | .edrop x t => [sw x 109 + t.toNat * 262144]
  | .equery x m k t => [sw x 110 + m.toNat * 2097152 + k.toNat * 16384 + t.toNat * 2048]
  | .trap x c => [sw x 111 + c.toNat]
  | .brk x c => [sw x 111 + c.toNat + 524288]
  | .tnow x d => [sw x 111 + d.toNat * 8192 + 1048576]
  | .cyc x d => [sw x 111 + d.toNat * 8192 + 1572864]
  | .icount x d => [sw x 111 + d.toNat * 8192 + 2097152]
  | .evsig x e => [sw x 111 + e.toNat * 128 + 2621440]
  | .evwait x d e n => [sw x 111 + d.toNat * 8192 + e.toNat * 128 + n.toNat * 2 + 3145728]
  | .hwait x d h => [sw x 111 + d.toNat * 8192 + h.toNat * 128 + 3670016]
  | .hpoll x d h => [sw x 111 + d.toNat * 8192 + h.toNat * 128 + 4194304]
  | .yield x => [sw x 111 + 4718592]
  | .evtime x d e t after => [sw x 126 + d.toNat * 262144 + e.toNat * 4096 + t.toNat * 64, after.toNat]
  | .osend x d n p len => [sw x 119 + d.toNat * 262144 + n.toNat * 4096 + p.toNat * 64, len.toNat]
  | .osendAt x d n p t len => [sw x 119 + d.toNat * 262144 + n.toNat * 4096 + p.toNat * 64 + t.toNat, len.toNat + 2147483648]
  | .oatom x d a b s op wide => [sw x 120 + d.toNat * 262144 + a.toNat * 4096 + b.toNat * 64, s.toNat + op.toNat * 16777216 + wide.toNat * 8388608]
  | .oatomAt x d a b s t op wide => [sw x 120 + d.toNat * 262144 + a.toNat * 4096 + b.toNat * 64 + t.toNat, s.toNat + op.toNat * 16777216 + wide.toNat * 8388608 + 2147483648]
  | .invk x d n a => [sw x 121 + d.toNat * 262144 + n.toNat * 4096 + a.toNat * 64, 0]
  | .invh x d h a => [sw x 122 + d.toNat * 262144 + h.toNat * 4096 + a.toNat * 64, 0]
  | .bermSwap _ => []
  | .yieldWindowEnd _ _ => []
  | .parkTimeout _ => []
  | .barrierPhaseComplete _ => []
  | .ticketAdvance _ _ => []
  | .loadReturn _ _ => []
  | .storeAck _ => []
  | .sfuResult _ _ => []
  | .xlResult _ _ => []
  | .ecComplete _ _ => []
  | .fbComplete _ _ => []
  | .heldPacketInject => []
  | .launchRetire _ => []
  | .teamSeal _ => []
  | .prologueRepeat _ => []
  | .teamPlace _ _ => []
  | .waveBirth _ => []
  | .detOpEffect _ => []
  | .copyAccept _ => []
  | .copyArrival _ _ => []
  | .engineOpComplete _ _ => []
  | .faultEntryWrite _ => []
  | .killRecordWrite _ => []
  | .wheelFire _ => []
  | .spillwayRelease _ _ => []
  | .eventWaitSlotRelease _ => []
  | .tailWrite _ _ _ => []
  | .qschedDecision => []
  | .queueAgeing => []
  | .queueSave _ => []
  | .queueLoadComplete _ => []
  | .launch _ => []
  | .launchIndirect _ => []
  | .eventSignal _ => []
  | .eventWait _ => []
  | .eventAt _ => []
  | .copy _ => []
  | .estateDrop _ => []
  | .invoke _ => []
  | .complete _ => []
  | .preempt _ => []
  | .faultResolved _ => []
  | .faultResolvedKill _ => []
  | .faultResolvedInvalidate _ => []
  | .queueControlHalt _ => []
  | .queueControlResume _ => []
  | .queueControlDiscard _ => []
  | .queueControlSetPrio _ => []
  | .teamSaveComplete _ => []
  | .teamRestore _ _ => []
  | .tenantEnable _ _ => []
  | .tenantReset _ _ => []
  | .contextCreate _ _ => []
  | .contextDestroy _ _ => []
  | .queueEnable _ _ => []
  | .queueDisable _ _ => []
  | .portExcise _ _ => []
  | .portExciseClear _ _ => []
  | .nodeExcise _ _ _ => []
  | .poisonFrameClear _ _ => []
  | .devreset => []
  | .lockclkApply => []
  | .attestNonceWrite _ _ _ => []
  | .attestReportReady => []
  | .mgmtRegisterWrite _ _ _ => []
  | .orderedPacketArrival _ _ => []
  | .beaconArrival _ _ => []
  | .beaconSend _ => []
  | .routerForward _ => []
  | .weirDeliver => []
  | .culvertArrival _ => []
  | .portStall _ => []
  | .flitCrcError _ _ => []
  | .ptpMessage _ => []
  | .powerOn => []
  | .bringupPhaseComplete _ => []
  | .bringupPhaseTimeout _ => []
  | .thermtrip => []
  | .powerExcursion => []
  | .unassignedEncoding => []
  | .fabricMappedAccess _ _ => []
  | .portLinkUp _ _ _ => []
  | .powerOff => []
  | .ptpSyncInterval => []

/-- The words of an instruction (R199). -/
def encode (i : Instr) : List (BitVec 32) := (encodeWords i).map (BitVec.ofNat 32)

/-- A little-endian number of bytes (R5). -/
def leNat : List Byte → Nat
  | [] => 0
  | b :: bs => b.toNat + 256 * leNat bs

/-- The low `n` bytes of a number, little-endian (R5). -/
def leBytes : Nat → Nat → List Byte
  | 0, _ => []
  | n + 1, v => BitVec.ofNat 8 v :: leBytes n (v / 256)

/-- Read one instruction from the front of a list of bytes: one word, or two for a long form; the rest of the bytes follow. -/
def decode (bs : List Byte) : Option (Instr × List Byte) :=
  match bs with
  | b0 :: b1 :: b2 :: b3 :: rest =>
    let w := leNat [b0, b1, b2, b3]
    if isLongMajor w then
      match rest with
      | c0 :: c1 :: c2 :: c3 :: rest' => (decodeWords w (leNat [c0, c1, c2, c3])).map (·, rest')
      | _ => none
    else (decodeWords w 0).map (·, rest)
  | _ => none

/-- The bytes of an instruction as the part stores them: each word little-endian, the first at the lowest address. -/
def encodeBytes (i : Instr) : List Byte := (encodeWords i).flatMap (leBytes 4)

/-- The instruction the decoder reads from a word of the opcode table's numbering (bit 0 is the least significant bit of the
first word), with every bit above `nbits` zero. -/
def decodeTableWord (nbits w : Nat) : Option Instr :=
  (decode (leBytes 8 (w % 2 ^ nbits))).map (·.1)

/-! ### The fields an instruction admits -/

/-- Element width in bits of the type field T (R67). -/
def typeWidth (t : BitVec 3) : Nat :=
  match t.toNat with
  | 0 => 64 | 1 => 32 | 2 => 16 | 3 => 8 | 4 => 64 | 5 => 32 | _ => 16

/-- T is a float type (R67). -/
def isFloatType (t : BitVec 3) : Bool := 4 ≤ t.toNat

/-- Width in bits of a format code (R63, R64). -/
def formatWidth (f : Nat) : Nat :=
  match f with
  | 0 => 64 | 1 => 32 | 2 => 16 | 3 => 16 | 4 => 8 | 5 => 8 | 6 => 8 | 7 => 4
  | 8 => 64 | 9 => 32 | 10 => 16 | 11 => 8 | 12 => 32 | 13 => 16 | 14 => 8 | _ => 4

/-- Parts of a conversion from `ns` to `nd` sub-elements: ceil(ns ÷ nd) (R265). -/
def convParts (ns nd : Nat) : Nat := (ns + nd - 1) / nd

/-- A source operand code: 119 is reserved (R201). -/
def okSrc (c : BitVec 7) : Bool := c.toNat != 119

/-- A field that names a vector register (R200). -/
def okV (c : BitVec 7) : Bool := c.toNat < 96

/-- A destination and two source operands of V3 (R200, R201). -/
def okV3 (d a b : BitVec 7) : Bool := okV d && okSrc a && okSrc b

/-- Format code of QSEL and of the block target of `vamax` (R267, R268). -/
def qselFormat (target : BitVec 3) : Nat :=
  match target.toNat with
  | 0 => 2 | 1 => 3 | 2 => 4 | 3 => 5 | _ => 11

/-- A status register number that `rdsr` admits (R235, R236). -/
def okStatus (n : Nat) : Bool := n ≤ 8 || (16 ≤ n && n ≤ 19) || (32 ≤ n && n ≤ 34)

/-- A status register number that `wrsr` admits (R236). -/
def okStatusWrite (n : Nat) : Bool := n == 1 || n == 2 || n == 16 || (32 ≤ n && n ≤ 34)

/-- The remote flag with its scope and space (R115). -/
def okRemote (rem sp : BitVec 1) (scope : BitVec 3) : Bool :=
  rem == 0 || ((scope == 3 || scope == 4) && sp == 0)

/-- The field checks that hold in every launch: a field outside them raises ILLOP (R191, R199 to R203 and each entry).
Steps that are no instruction words have no fields of an encoding. -/
def Instr.legal : Instr → Bool
  | .loop _ n o => n != 3 && 0 < o.toInt
  | .loopx _ n _ => n != 3
  | .scmp _ f _ _ _ => f.toNat ≤ 5
  | .sldk _ _ i => i.toNat % 8 == 0
  | .rdsr _ _ i => okStatus i.toNat
  | .wrsr _ _ i => okStatusWrite i.toNat
  | .vadd _ _ d a b | .vsub _ _ d a b | .vmul _ _ d a b | .vfma _ _ d a b | .vfnma _ _ d a b
  | .vmin _ _ d a b | .vmax _ _ d a b | .vand _ _ d a b | .vor _ _ d a b | .vxor _ _ d a b
  | .vceq _ _ d a b | .vclt _ _ d a b | .vcle _ _ d a b | .vsel _ _ d a b
  | .vld _ _ d a b | .vst _ _ d a b | .vldsp _ _ d a b | .vstsp _ _ d a b => okV3 d a b
  | .vmulh _ t d a b | .vmulhw _ t d a b | .vminw _ t d a b | .vmaxw _ t d a b | .vaddsat _ t d a b
  | .vshl _ t d a b | .vshr _ t d a b | .vsra _ t d a b | .vcltw _ t d a b => okV3 d a b && !isFloatType t
  | .vabs _ _ d a | .vneg _ _ d a | .vnot _ _ d a | .vmov _ _ d a => okV d && okSrc a
  | .vpopc _ t d a | .vclz _ t d a => okV d && okSrc a && !isFloatType t
  | .vfmal _ _ d a b c => okV3 d a b && okSrc c
  | .vmovl _ _ d _ => okV d
  | .vcmp _ t c _ a b =>
    okSrc a && okSrc b &&
      (c.toNat ≤ 5 || (c.toNat ≤ 9 && !isFloatType t) || (c.toNat ≤ 11 && 10 ≤ c.toNat && isFloatType t))
  | .vdiv _ t d a b => okV3 d a b && isFloatType t
  | .vsqrt _ t d a => okV d && okSrc a && isFloatType t
  | .vsfu _ t d a f => okV d && okSrc a && 5 ≤ t.toNat && f.toNat ≤ 7
  | .vround _ t d a m => okV d && okSrc a && isFloatType t && m.toNat ≤ 4
  | .vcvt _ d a h df sf =>
    okV d && okSrc a && sf.toNat != 7 && sf.toNat != 15 && df.toNat != 6 && df.toNat != 7 && df.toNat != 15 &&
      h.toNat < convParts (64 / formatWidth sf.toNat) (64 / formatWidth df.toNat)
  | .vqnt _ d a b h _ qf sf =>
    okV3 d a b && sf.toNat ≤ 3 && (qf.toNat == 2 || qf.toNat == 3 || qf.toNat == 4 || qf.toNat == 5 || qf.toNat == 11) &&
      h.toNat < convParts (64 / formatWidth sf.toNat) (64 / formatWidth qf.toNat)
  | .vdqnt _ t d a h _ q =>
    okV d && okSrc a && 5 ≤ t.toNat && q.toNat ≤ 4 &&
      h.toNat < convParts (64 / formatWidth (qselFormat q)) (64 / typeWidth t)
  | .vamax _ t d a _ q => okV d && okSrc a && isFloatType t && q.toNat ≤ 4
  | .vshf _ _ d a b => okV d && okV a && okSrc b
  | .vbcst _ d a i => okV d && okV a && i.toNat < 32
  | .vext _ t d a i => d.toNat < 64 && okV a && i.toNat < 32 * (64 / typeWidth t)
  | .vins _ t d a i => okV d && a.toNat < 64 && i.toNat < 32 * (64 / typeWidth t)
  | .vmovm _ d a _ => okV d && okV a
  | .vidx _ t d a _ => okV d && okSrc a && !isFloatType t
  | .vred _ _ d a o => okV d && okSrc a && o.toNat ≤ 5
  | .vscan _ _ d a o => okV d && okSrc a && o.toNat ≤ 2
  | .vldacq _ _ d a b scope rem sp => okV3 d a b && scope.toNat ≤ 4 && okRemote rem sp scope
  | .vstrel _ _ d a b scope _ => okV3 d a b && scope.toNat ≤ 4
  | .fence _ r s k => s.toNat ≤ 4 && (r == 0 || ((s == 3 || s == 4) && k != 1))
  | .vprf _ h a b => h.toNat ≤ 1 && okSrc a && okSrc b
  | .vatom _ t d a b op ord scope rem sp _ =>
    okV3 d a b && scope.toNat ≤ 4 && okRemote rem sp scope && (rem == 0 || ord == 1 || ord == 3) &&
      ((op.toNat ≤ 9 && t.toNat ≤ 1) || (op == 10 && (t == 4 || t == 5))) && (op != 9 || b.toNat ≤ 94)
  | .mgang _ n _ => n != 7 && n != 0
  | .mrd _ d _ _ => okV d
  | .mwr _ _ s _ => okV s
  | .rstat _ d _ => okV d && d.toNat + 2 < 96
  | .leave _ _ a c => a.toNat + c.toNat < 96
  | .ecl _ _ d k _ c | .eclKeep _ _ d k _ c => d.toNat + c.toNat < 96 && okSrc k
  | .equery _ _ k _ => okSrc k
  | .osend _ _ _ _ len | .osendAt _ _ _ _ _ len => 8 ≤ len.toNat && len.toNat ≤ 1024 && len.toNat % 8 == 0
  | .oatom _ _ _ b _ op _ | .oatomAt _ _ _ b _ _ op _ => op.toNat ≤ 9 && (op != 9 || b.toNat != 63)
  | _ => true

/-- The first encoding version that holds the instruction (R202, R204). -/
def Instr.since : Instr → Nat
  | .leave .. | .leaveClr .. | .smovl .. | .smovh .. | .vcvt .. | .vqnt .. | .vatom .. | .vldacq .. | .vstrel ..
  | .vmovl .. | .vfmal .. | .mld .. | .evtime .. => 2
  | .ecl .. | .eclKeep .. | .edrop .. | .equery .. | .osend .. | .osendAt .. | .oatom .. | .oatomAt ..
  | .invk .. | .invh .. | .hwait .. | .hpoll .. => 3
  | _ => 1

/-- Words of an instruction: a long form takes two (R199). -/
def Instr.words : Instr → Nat
  | .smovl .. | .smovh .. | .vcvt .. | .vqnt .. | .vatom .. | .vldacq .. | .vstrel .. | .vmovl .. | .vfmal .. | .mld ..
  | .evtime .. | .osend .. | .osendAt .. | .oatom .. | .oatomAt .. | .invk .. | .invh .. => 2
  | _ => 1

end Sys2Proof
end

