-- ==== Sys2Proof/Machine/Flags.lean ====
section
/-! DEFINITION. The flag computations of the part: the sticky flags of FSTAT (R72), the fields of WSTAT (R237), and how they are
raised, counted and cleared. -/

namespace Sys2Proof.Machine

/-! FSTAT flags (R72). -/
def fIV : Nat := 1
def fDZ : Nat := 2
def fOF : Nat := 4
def fUF : Nat := 8
def fNX : Nat := 16
def fSCLAMP : Nat := 32
def fEZERO : Nat := 64

/-- A result: its bits and the flags it raises. -/
structure FRes where
  bits : Nat
  flags : Nat
  deriving DecidableEq, Repr

/-- The OR of the flags of several results: every active lane's event sets the wave's bit (R72, R250). -/
def orFlags (rs : List FRes) : Nat := rs.foldl (fun f r => f ||| r.flags) 0

/-- FSTAT after an event (R72). -/
def fstatRaise (f : W32) (flags : Nat) : W32 := f ||| BitVec.ofNat 32 flags

/-- FSTAT after a `wrsr`: the bits written with 1 are cleared (R72). -/
def fstatWrite (f : W32) (v : Word) : W32 := f &&& ~~~(v.setWidth 32)

/-! WSTAT (R237): ORPHAN bit 0, GANGBROKEN bit 1, FORFEIT bit 2, HAZ bits 31 to 16. -/
def wORPHAN : Word := 1
def wGANGBROKEN : Word := 2
def wFORFEIT : Word := 4

/-- WSTAT after a `wrsr`: the three W1C bits written with 1 are cleared; HAZ is read only (R237). -/
def wstatWrite (w v : Word) : Word := w &&& ~~~(v &&& 7)

/-- WSTAT after an early access: HAZ counts, and saturates (R194, R237). -/
def wstatHaz (w : Word) : Word := if w.extractLsb' 16 16 = 0xFFFF then w else w + 0x10000

end Sys2Proof.Machine
end

