-- ==== Sys2Proof/Config.lean ====
section
/-! DEFINITION. What is fixed for the part and not stated as a value by the spec: constants with no body, of which no proof can
know a value (log entry 3), and the figures of R8 to R11. -/

namespace Sys2Proof.Config

/-- The public half of the device identity key, 57 bytes (R408). -/
opaque devicePublicKey : List (BitVec 8)

/-- The Ed448 signature of a message under the device key, 114 bytes (R408). -/
opaque deviceSign : List (BitVec 8) → List (BitVec 8)

/-- SHAKE256 of the mask ROM, 64 bytes (R408). -/
opaque romMeasurement : List (BitVec 8)

/-- Whether a configuration blob's signature passes under the Ouvzia key in ROM (R409). -/
opaque blobSignatureOk : List (BitVec 8) → Bool

/-- What an i32 accumulator holds after a K-step of i8 elements whose block scales leave a product that is no integer: the spec states
no value. The old accumulator, and each pair's elements as mantissa and exponent. -/
opaque scaledI8Step : BitVec 32 → List ((Int × Int) × (Int × Int)) → BitVec 32

/-- What a byte of the on-chip map holds that the spec says nothing of: a register row or a scratchpad byte that no team has, a byte of the accumulators or the
operand buffer of an engine on which no gang has formed since READY, a byte of an operand buffer into which operands have been fetched. By address, and a number drawn
anew for each access. -/
opaque onChipByte : Nat → Nat → BitVec 8

/-- Clusters of the part: cluster k of span s is 4s + k (R8). -/
def clusters : Nat := 16
/-- Cores of a cluster (R8). -/
def coresPerCluster : Nat := 192
/-- Cores of the part: core c of cluster k is 192k + c (R8). -/
def cores : Nat := 3072
/-- Register-file rows of a core (R9). -/
def rowsPerCore : Nat := 512
/-- Scratchpad bytes of a core (R9). -/
def scratchPerCore : Nat := 131072
/-- Wave places of a core (R9). -/
def wavesPerCore : Nat := 16
/-- Hardware queue slots (R11, R324). -/
def slots : Nat := 64
/-- Fabric ticks of a microsecond (R169). -/
def ticksPerUs : Nat := 16000
/-- Bytes of an HBM stack (R357). -/
def stackBytes : Nat := 64000000000

end Sys2Proof.Config
end

