-- ==== Sys2Proof/Machine/Table.lean ====
section
/-! DEFINITION. Finite tables as lists of key and value, and memories as canonical lists of address and byte. -/

namespace Sys2Proof.Machine

/-- A finite table: each key at most once. -/
abbrev Tbl (κ α : Type) := List (κ × α)

/-- The value at a key. -/
def tget {κ α : Type} [DecidableEq κ] (k : κ) : Tbl κ α → Option α
  | [] => none
  | (k', v) :: t => if k' = k then some v else tget k t

/-- Put a value at a key: in place of the old one, or at the end. -/
def tput {κ α : Type} [DecidableEq κ] (k : κ) (v : α) : Tbl κ α → Tbl κ α
  | [] => [(k, v)]
  | (k', v') :: t => if k' = k then (k, v) :: t else (k', v') :: tput k v t

/-- Remove a key. -/
def tdel {κ α : Type} [DecidableEq κ] (k : κ) (t : Tbl κ α) : Tbl κ α := t.filter (fun p => p.1 ≠ k)

/-- Change the value at a key, where there is one. -/
def tmod {κ α : Type} [DecidableEq κ] (k : κ) (f : α → α) : Tbl κ α → Tbl κ α
  | [] => []
  | (k', v) :: t => if k' = k then (k', f v) :: t else (k', v) :: tmod k f t

/-- A byte memory: addresses strictly rising, no entry equal to what an unlisted address reads as (log entry 1). -/
abbrev Mem := List (Nat × Byte)

/-- What a byte that nothing has written reads as (log entry 1). -/
def unwritten : Byte := 0

/-- The byte at an address. -/
def mread (a : Nat) : Mem → Byte
  | [] => unwritten
  | (b, v) :: m => if a = b then v else if a < b then unwritten else mread a m

/-- Write one byte, keeping the canonical form. -/
def mwrite (a : Nat) (v : Byte) : Mem → Mem
  | [] => if v = unwritten then [] else [(a, v)]
  | (b, w) :: m =>
    if a < b then (if v = unwritten then (b, w) :: m else (a, v) :: (b, w) :: m)
    else if a = b then (if v = unwritten then m else (a, v) :: m)
    else (b, w) :: mwrite a v m

/-- Write a list of single bytes, in order. -/
def mwriteAll : List (Nat × Byte) → Mem → Mem
  | [], m => m
  | (a, v) :: l, m => mwriteAll l (mwrite a v m)

/-- The canonical form. -/
def mwf : Mem → Bool
  | [] => true
  | [(_, v)] => v != unwritten
  | (a, v) :: (b, w) :: m => v != unwritten && decide (a < b) && mwf ((b, w) :: m)

/-- `n` bytes from an address up. -/
def mreadN (a : Nat) : Nat → Mem → List Byte
  | 0, _ => []
  | n + 1, m => mread a m :: mreadN (a + 1) n m

/-- A set of numbers as a strictly rising list. -/
def sins (a : Nat) : List Nat → List Nat
  | [] => [a]
  | b :: l => if a < b then a :: b :: l else if a = b then b :: l else b :: sins a l

/-- The union with a list of numbers. -/
def sunion (xs l : List Nat) : List Nat := xs.foldl (fun acc a => sins a acc) l

/-- The difference with a list of numbers. -/
def sdiff (l xs : List Nat) : List Nat := l.filter (fun a => !xs.contains a)

end Sys2Proof.Machine
end

