-- ==== Sys2Proof/Machine/State.lean ====
section
/-! DEFINITION. The state of the whole part as plain data, the reasons a step can stop, and the state at power-on. -/

namespace Sys2Proof.Machine

/-- Why a step stops. -/
inductive Fault where
  /-- Raised by `exec` for an instruction word when no path is at its issue: `step` never calls it so. Safe: no run reaches it. -/
  | noIssuingPath
  /-- Raised by `exec` for a step of the part whose condition does not hold in this state, so that the part has no such step here
  (a return of a load that is not outstanding, a command in a slot that holds none). Safe: the run the agenda asked for is not a run of the part. -/
  | cannotOccur (step : String)
  deriving DecidableEq, Repr

/-- Why an instruction has no meaning. -/
inductive Refusal where
  /-- The instruction is not modelled. No arm of `exec` uses it. Safe: nothing is claimed of it. -/
  | notModelled (mnemonic : String)
  deriving DecidableEq, Repr

/-! ### Registers, memory operations and outstanding work of a wave -/

/-- A vector register row: 32 lanes of 64 bits, and bit 2l + h of the poison for half h of lane l (R58, R248). -/
structure VReg where
  lanes : List Word
  poison : BitVec 64
  deriving DecidableEq, Repr

/-- A register that an outstanding result will write (R194). -/
inductive Reg where
  | v (n : Nat) | s (n : Nat) | m (n : Nat)
  deriving DecidableEq, Repr

/-- Where a byte lives: device memory of this node, of another node (R360), a team's scratchpad, or nowhere (a scratchpad that
reads zero and discards writes, R95, R97). -/
inductive Loc where
  | home (pa : Nat) | node (n : Nat) (pa : Nat) | spad (t : TeamRef) (off : Nat) | void
  deriving DecidableEq, Repr

/-- What a memory instruction does at a location. -/
inductive AccOp where
  | load | store | atom (op : BitVec 4)
  deriving DecidableEq, Repr

/-- One lane of a memory instruction: its address and its data operands, as read at issue (R195). -/
structure LaneReq where
  lane : Nat
  addr : Word
  d0 : Word
  d1 : Word
  deriving DecidableEq, Repr

/-- The captured form of a memory instruction (R195): operation, space, width in bytes, float format of `fadd`, destination,
scopes of its acquire and release, remote flag, DET, path, switch marker (R371), and its lanes as they were read, from which
an image that software has written can name some again (R382). -/
structure MemReq where
  op : AccOp
  sp : Bool
  w : Nat
  fmt : Nat
  dst : Option Reg
  acq : Option Nat
  rel : Option Nat
  remote : Bool
  det : Bool
  pid : Nat
  sw : Bool
  lanes : List LaneReq := []
  deriving DecidableEq, Repr

/-- A single access of a load or atomic: lane, byte position in the lane, location, length, page attribute TSO, and the bytes
it returned, each with its poison, once it is performed. -/
structure Part where
  lane : Nat
  pos : Nat
  loc : Loc
  n : Nat
  tso : Bool
  d0 : Word
  d1 : Word
  val : Option (List (Byte × Bool))
  deriving DecidableEq, Repr

/-- A register write of an outstanding result: a scalar, a mask, lanes of a vector register with their poison halves, or sub-element `i`
of the given width in one lane, every other bit and every half it does not cover standing as it is when the write lands (R249, R273). -/
inductive RegWrite where
  | s (d : Nat) (v : Word)
  | m (d : Nat) (v : W32)
  | v (d : Nat) (lanes : List (Nat × Word × Nat))
  | e (d lane width i v : Nat)
  deriving DecidableEq, Repr

/-- A fabric instruction with the operands that it read at issue (R195): `osend` with the offset and length of its payload, `oatom` with its
address, `invk` and `invh` with the address of the record, target node and context, parent handle. -/
inductive FabOp where
  | osend (d dst ctx mbox off len : Nat) (stamp : Option Nat)
  | oatom (d s : Nat) (va : Word) (op : BitVec 4) (wide : Bool) (val cmp : Word) (stamp : Option Nat)
  | invoke (d : Nat) (addr : Word) (node ctx : Nat) (parent : Option Word)
  deriving DecidableEq, Repr

/-- A fabric instruction that waits on a line or a page, for its path (R302), or for injection or its answer (R176, R177, R180). -/
inductive FabReq where
  | parked (o : FabOp) (pid : Nat) (sw : Bool)
  | osend (d : Nat) (dst ctx mbox : Nat) (bytes : List Byte) (stamp : Option Nat)
  | oatom (d s : Nat) (node pa : Nat) (op : BitVec 4) (wide : Bool) (val cmp : Word) (stamp : Option Nat)
  | invoke (d : Nat) (node ctx : Nat) (parent : Word) (slot : Nat) (handle : Word) (kernel : Word) (items : Nat) (fmode : W32)
      (estate : Bool) (args : List Byte)
  | done (ws : List RegWrite)
  deriving DecidableEq, Repr

/-- What an outstanding operation of a wave is. -/
inductive PendKind where
  /-- a memory instruction: lanes not yet started (page fault or absent line), accesses, and store lanes not yet acknowledged -/
  | mem (r : MemReq) (todo : List LaneReq) (parts : List Part) (left : Nat)
  /-- a result already formed from the operands read at issue, and the flags it raises -/
  | result (ws : List RegWrite) (flags : Nat)
  | tlread (d ctx : Nat)
  | ecl (m d n : Nat) (keep : Bool) (tag : Nat) (keys : List (Nat × Nat))
  | equery (m : Nat) (tag : Nat) (keys : List (Nat × Nat))
  | edrop (tag : Nat)
  | fab (q : FabReq) (sent : Bool)
  | engine (quad : Nat)
  | copy (cid : Nat)
  /-- a `loop` with a zero counter whose path still needs the header of the body's last clause (R217) -/
  | skip (pid last : Nat) (sw : Bool)
  deriving DecidableEq, Repr

/-- An outstanding operation: number in issue order, WAIT counter it holds (R188), image offset of its word, destinations,
LCLK at issue and whether it is a det operation still held (R345). -/
structure Pend where
  id : Nat
  ctr : Nat
  off : Nat
  dests : List Reg
  kind : PendKind
  clk : Nat
  held : Bool
  deriving DecidableEq, Repr

/-! ### Paths and waves -/

/-- What a path is parked on (R25, R382); `past`, the ticket counter had passed the team's id when the path parked (R29). -/
inductive Park where
  | none
  | line (op : Nat)
  | payload (op : Nat)
  | lines (first n : Nat)
  | bar (cohort : Bool) (n : Nat)
  | ticket (k : Nat) (past : Bool)
  | stage (d : Nat) (off : Nat)
  | timeline (ctx : Nat) (n : Word)
  | baton
  | event (wid : Nat) (d : Nat)
  | handle (d : Nat) (h : Word)
  | fault (fid : Nat)
  | sluice
  | mgang
  deriving DecidableEq, Repr

/-- A path (R19): its own number within the wave, program counter, mask, age in cycles, split record, clause header, class and
COUNT of the clause it is in, whether it has entered that clause, the counters it still waits for before it issues (R187, R221), its park and the fabric ticks it has been parked, the cycles left of a `yield` exclusion and the paths still
owed an opportunity (R245), and the image offset of the instruction it is parked on (R417). -/
structure Path where
  pid : Nat
  pc : Nat
  mask : W32
  age : Nat
  srec : Option Nat
  hdr : Nat
  cls : Nat
  count : Nat
  inClause : Bool
  waits : Nat
  park : Park
  since : Nat
  yielded : Option Nat
  owed : List (WaveRef × Nat)
  parkOff : Nat
  deriving DecidableEq, Repr

/-- A split record of the berm (R20, R21); `resume` with the clause of the `join` executed last, its class and COUNT. -/
structure SplitRec where
  rid : Nat
  parent : Option Nat
  pending : Nat
  merged : W32
  resume : Nat
  hdr : Nat
  cls : Nat
  count : Nat
  deriving DecidableEq, Repr

/-- A loop record (R217). -/
structure LoopRec where
  start : Nat
  last : Nat
  active : Bool
  order : Nat
  deriving DecidableEq, Repr

/-- A `leave` slot: first register, count, lane mask (R36). -/
structure LeaveSlot where
  first : Nat
  count : Nat
  mask : W32
  deriving DecidableEq, Repr

/-- A fence whose conditions are not yet met (R288): whether earlier loads must still be performed, and whether earlier stores
must still reach the point of its scope. -/
structure Fence where
  id : Nat
  kind : Nat
  scope : Nat
  remote : Bool
  needLoads : Bool
  needStores : Bool
  deriving DecidableEq, Repr

/-- A wave (R9, R18, R19, R188, R212, R236); `bufs` gives the loop buffer of a loop record's body (R196). Of the model: `seen`, loads and atomics
that may have seen stores on their way, with the number that those stores are below (R117); `endAt`, the next number when the wave ended; `newF`,
`newW`, `newE`, the bits of FSTAT and WSTAT set and the ELOG entries added in this cycle (R247). -/
structure Wave where
  live : W32
  exited : W32
  born : Bool
  ended : Bool
  sregs : List Word
  masks : List W32
  lc : List W32
  loops : List LoopRec
  loopOrder : Nat
  fstat : W32
  wstat : Word
  icount : Word
  cycle : Word
  lskip : Word
  elog : List Word
  ctr : List Nat
  vregs : List VReg
  slot0 : Option Path
  slot1 : Option Path
  recs : List SplitRec
  spilled : List Path
  nextId : Nat
  leave : List LeaveSlot
  pend : List Pend
  switchWait : Bool
  fences : List Fence
  bufs : Tbl Nat Nat
  seen : Tbl Nat Nat
  endAt : Nat
  newF : Nat
  newW : Word
  newE : List Word
  deriving DecidableEq, Repr

/-! ### Teams and launches -/

/-- Where a team stands (R333, R380 to R383). -/
inductive TeamSt where
  | placed | resident | halting | saved | retired
  deriving DecidableEq, Repr

/-- Arrivals at one barrier instance of a team (R27): lanes of each wave that have executed it, and the arrived waves with their
clock and the number of the last operation issued before the arrival. -/
structure BarState where
  cohort : Bool
  n : Nat
  lanes : Tbl Nat W32
  arrived : List (Nat × Nat × Nat)
  deriving DecidableEq, Repr

/-- The escrow slot of a halted team: span, slot, stores unacknowledged (R384). -/
structure Escrow where
  span : Nat
  slot : Nat
  count : Nat
  deriving DecidableEq, Repr

/-- A team on a core or saved out: core, wave places, state, cycle of placement (of retirement, once it is over) and cycles resident before, cohort and rank, its
scratchpad with absent lines, outstanding-copy counts and poisoned halves (R99, R375), its barriers, the stages armed or waited for in it (R103), taken tickets, private-memory
blocks (R382), escrow slot, whether its granules are sealed, the fabric time of its halt, the key under which `quads` holds the engine
state saved with it, its image as the part last wrote it, the stores that its waves had before them on cores that it has left (R127), and its
escrow slot as it stood at its halt (R382). -/
structure Team where
  core : Nat
  places : List Nat
  st : TeamSt
  placedAt : Nat
  charged : Nat
  cohort : Nat
  rank : Nat
  spad : Mem
  absent : List Nat
  counts : Tbl Nat Nat
  spoison : List Nat
  bars : List BarState
  stages : List Nat
  taken : BitVec 8
  bermBlocks : List Nat
  imgBlocks : List Nat
  escrow : Option Escrow
  isSealed : Bool
  haltTime : Nat
  gangAt : Option Nat
  image : List Byte
  carry : List Nat
  haltEsc : Option Escrow
  deriving DecidableEq, Repr

/-- The kernel header's fields (R206). -/
structure Header where
  enc : Nat
  vregs : Nat
  sregs : Nat
  waves : Nat
  spad : Nat
  cohort : Nat
  det : Bool
  strict : Bool
  args : Nat
  entry : Nat
  codelen : Nat
  tags : List Nat
  seals : List Bool
  itag : Nat
  ika : Nat
  ikb : Int
  isecond : Bool
  isec : Int
  ikeep : Bool
  istrict : Bool
  iva : Nat
  ivb : Nat
  inum : Nat
  deriving DecidableEq, Repr

/-- A timeline (R124, R151): numbers issued, numbers finished above the counter, the counter. -/
structure Timeline where
  issued : Nat
  finished : List Nat
  value : Nat
  deriving DecidableEq, Repr

/-- Where a launch stands: started and waiting for its heir dependence or a fault of its start; running; killed and waiting for
its stores; closed. -/
inductive LaunchSt where
  | starting | running | killed | closed
  deriving DecidableEq, Repr

/-- A launch (R327, R328): context, queue (none for a delivered INVOKE), packet, kernel image and header, launch fields, argument
block, next id of its team counter, ids handed back to its head, the batch of each span's dispatcher (R334; ids of cohorts in a launch with
cohorts), signature, first kill with its OFFSET and CODE, ticket counters and the marked tickets, timelines, the handle it resolves, the
parent that an `invh` gives it (R181), whether its teams are saved so that others start (R348), its place in the order of acceptance, which LAUNCHIDs
lose when they wrap (R42, R328). -/
structure Launch where
  ctx : Nat
  queue : Option Nat
  packet : Option Nat
  kernel : Word
  hdr : Header
  items : Nat
  fmode : W32
  batch : Nat
  args : List Byte
  tmplAddr : Word
  ntempl : Nat
  homeSpan : Nat
  nteams : Nat
  nextTeam : Nat
  handed : List Nat
  batches : List (List Nat)
  st : LaunchSt
  sig : Word
  kill : Option (Nat × Nat × Nat)
  tickets : List Nat
  marked : List (Nat × Nat)
  timelines : List Timeline
  handle : Word
  parent : Option Nat
  detSaved : Bool
  order : Nat
  deriving DecidableEq, Repr

/-! ### Estates -/

/-- A granule (R38): context, bequeathing launch and team, SEQ, lanes held and by which launch, VALID, tag, REGIDX, REGCNT,
sealed, KEYBASE, the core whose row it occupies or none when it is in the reserve, whether that row still counts as its team's, the team that has taken the row
over in place (R53), its place in the reserve, its row, whether its launch was killed (STATE 3, R61). -/
structure Granule where
  gid : Nat
  ctx : Nat
  lid : Nat
  team : Nat
  seq : Nat
  heldBy : List (Nat × Nat)
  valid : W32
  tag : Nat
  regidx : Nat
  regcnt : Nat
  isSealed : Bool
  keybase : Nat
  core : Option Nat
  inTeam : Bool
  takenBy : Option TeamRef
  rslot : Nat
  row : VReg
  void : Bool
  deriving DecidableEq, Repr

/-! ### Stores on their way, and other delayed effects -/

/-- A store lane on its way to its home: number, operation of the wave, its lane, wave, core, location, bytes, release scope, TSO page,
whether its release conditions still hold it, whether its acknowledgement counts in the team's escrow slot (R113, R384), whether the lanes of
its instruction together write the whole protection unit that it lies in (R375). -/
structure StoreRec where
  sid : Nat
  op : Nat
  lane : Nat
  w : WaveRef
  core : Nat
  loc : Loc
  bytes : List Byte
  rel : Option Nat
  tso : Bool
  held : Bool
  escrowed : Bool
  whole : Bool
  deriving DecidableEq, Repr

/-- A signal whose release is not yet complete (R123, R243, R303): tenant, event, wave, operation number. -/
structure PendSignal where
  gid : Nat
  tenant : Nat
  ev : Nat
  w : WaveRef
  op : Nat
  deriving DecidableEq, Repr

/-- A ticket take whose release is not yet complete: counter, wave and operation, or every wave of a retired team (R30, R31). -/
structure PendTake where
  k : Nat
  w : WaveRef
  op : Nat
  whole : Bool
  deriving DecidableEq, Repr

/-- Who waits for an event (R340). -/
inductive WaitWho where
  | path (w : WaveRef) (pid : Nat)
  | queue (q pid : Nat)
  deriving DecidableEq, Repr

/-- A waiter of an event: in-line or in the spillway, and whether a signal has satisfied it (R341). -/
structure Waiter where
  wid : Nat
  tenant : Nat
  ev : Nat
  value : Nat
  who : WaitWho
  inl : Bool
  ready : Option Nat
  deriving DecidableEq, Repr

/-- A timer-wheel entry (R343), with the wave and operation whose release it carries. -/
structure WheelEnt where
  eid : Nat
  tenant : Nat
  ev : Nat
  time : Nat
  rel : Option (WaveRef × Nat)
  deriving DecidableEq, Repr

/-! ### Engines -/

/-- A copy template (R147). -/
structure Template where
  tlctx : Nat
  prod : Nat
  sten : Bool
  dkind : Nat
  pdim : Nat
  stage : Nat
  idxcount : Nat
  dpitch : Int
  rows : Nat
  cols : Nat
  idxaddr : Word
  dest : Word
  coord : List Nat
  srcrec : Word
  deriving DecidableEq, Repr

/-- A tensor record (R153). -/
structure TensorRec where
  cbaddr : Word
  scaleaddr : Word
  blk : Nat
  fmt : Nat
  stride : List Int
  dim : List Nat
  base : Word
  deriving DecidableEq, Repr

/-- A copy (R145): cluster and channel, launch or COPY packet, context, wave and operation, start word, whether it is accepted,
template and record, number on its timeline, pieces (destination lines or rows) not yet delivered, lines still to be counted
under the limit of 15 (R99), the page fault that stalls it, the status that a COPY packet will complete with (R321). -/
structure Copy where
  cid : Nat
  cluster : Nat
  chan : Nat
  lid : Option Nat
  packet : Option Nat
  ctx : Nat
  w : WaveRef
  op : Nat
  off : Nat
  param : Int
  index : Nat
  accepted : Bool
  tmpl : Template
  trec : TensorRec
  num : Nat
  tl : Nat
  pieces : List Nat
  uncounted : List Nat
  stall : Option Nat
  status : Nat
  deriving DecidableEq, Repr

/-- An operand record in the engine (R159), with the team whose scratchpad SPACE 1 names. -/
structure OperRec where
  roleB : Bool
  space : Bool
  blk : Nat
  fmt : Nat
  nb : Nat
  k : Nat
  stride : Int
  cbaddr : Word
  scaleaddr : Word
  addr : Word
  team : TeamRef
  deriving DecidableEq, Repr

/-- An engine operation in the order of the sluice (R163): the instruction, the members that issued it with their operation
numbers and words' offsets in gang order, the scalar that it read at issue, rows committed, fault that stalls
it, the fabric ticks it has been stalled, the data it carries, the flags of its committed rows, the errors that its members' ELOGs already have, each
with whether it is of the B operand (R167). -/
structure EngOp where
  instr : Instr
  members : List (WaveRef × Nat × Nat)
  scalar : Word
  row : Nat
  stall : Option Nat
  stalled : Nat
  data : List (Nat × Word)
  flags : Nat
  noted : List (Bool × Word)
  deriving DecidableEq, Repr

/-- A gang on a quad (R156, R158): launch, key, size, members in order with whether each is still expected, turn, holder. -/
structure Gang where
  lid : Nat
  key : Nat
  n : Nat
  members : List (WaveRef × Bool)
  turn : Nat
  holder : Option Nat
  deriving DecidableEq, Repr

/-- An arrival at the sluice: wave, path, instruction, scalar read, word offset, operation number, LCLK. -/
structure Arrival where
  w : WaveRef
  pid : Nat
  instr : Instr
  scalar : Word
  off : Nat
  op : Nat
  clk : Nat
  deriving DecidableEq, Repr

/-- A join waiting for its gang: wave, path, key, n, core in the quad, LCLK. -/
structure Join where
  w : WaveRef
  pid : Nat
  key : Nat
  n : Nat
  clk : Nat
  deriving DecidableEq, Repr

/-- A quad's matrix engine (R156 to R167): gang, accumulator rows (tile × 64 + row, 32 doublewords each), format tags (0 f32,
1 f64, 2 i32), reserved ranges, launch that last used it, operations in order, sluice arrivals, waiting joins, poisoned halves (row × 64 + half) and poisoned
reservation records (R383); what was written to the operand buffer through the on-chip map, zeros included once operands have been fetched, and whether they have been
since it read zero (R110, R156). -/
structure Quad where
  gang : Option Gang
  acc : Tbl Nat (List Word)
  tags : List Nat
  ranges : Tbl Nat OperRec
  lastLid : Option Nat
  ops : List EngOp
  arrivals : List Arrival
  joins : List Join
  bad : List Nat
  badRanges : List Nat
  obuf : Mem
  fetched : Bool
  deriving DecidableEq, Repr

/-! ### Faults -/

/-- What a page fault or `brk` holds (R364). -/
inductive Holder where
  | path (w : WaveRef) (pid : Nat) (op : Option Nat)
  | brk (w : WaveRef) (pid : Nat)
  | copy (cid : Nat)
  | engine (quad : Nat)
  | launch (lid : Nat)
  | nothing
  deriving DecidableEq, Repr

/-- A fault entry (R365): its own number, tenant, SEQ, the core and the cycle of its walk's failure (R370), whether it is written and resolved, its
fields, what it holds. -/
structure FaultRec where
  fid : Nat
  tenant : Nat
  seq : Nat
  core : Nat
  cycle : Nat
  written : Bool
  resolved : Bool
  va : Word
  lid : Nat
  lanes : Nat
  off : Nat
  ctx : Nat
  unit : Nat
  cause : Nat
  wr : Bool
  level : Nat
  holder : Holder
  deriving DecidableEq, Repr

/-- A cached translation (R361): core TLB (true) of a core or walk-ahead TLB (false) of a cluster, context, page address and size,
leaf entry. -/
structure TlbEnt where
  ofCore : Bool
  unit : Nat
  ctx : Nat
  page : Nat
  size : Nat
  leaf : Word
  deriving DecidableEq, Repr

/-- A directory or region entry in the walk cache of a cluster (R361): context, level, the address bits above what it covers, the entry. -/
structure WalkEnt where
  cluster : Nat
  ctx : Nat
  level : Nat
  index : Nat
  entry : Word
  deriving DecidableEq, Repr

/-! ### Tenants, contexts, queues -/

/-- A tenant (R309): its block as written, enabled, STATE, event counts (R339), last fault SEQ, invocation account (R336). -/
structure Tenant where
  raw : BitVec 256
  en : Bool
  st : Nat
  events : Tbl Nat Nat
  faultSeq : Nat
  deficit : Int
  deriving DecidableEq, Repr

/-- A context (R312): its block as written, enabled, void flags with the place of the last killed launch that set each (R42), granule sequence, copy
timelines (R321). -/
structure Ctx where
  raw : BitVec 512
  en : Bool
  voids : Tbl Nat Nat
  seq : Nat
  copyTl : List Timeline
  deriving DecidableEq, Repr

/-- A queue's STATE (R315). -/
inductive QueueSt where
  | idle | pending | resident | waiting | halted | error
  deriving DecidableEq, Repr

/-- A user queue (R314, R315): directory entry and QCB, hardware slot that it holds or is being loaded into, whether its load is still under way,
fabric time its residence counts from, whether it is to be saved at its next packet boundary, whether its directory entry has been disabled since,
time its EVENT_WAIT began, TAIL before the first tail write accepted in a cycle, with that cycle's number (R316). -/
structure Queue where
  qcbAddr : Nat
  tenant : Nat
  en : Bool
  ringBase : Word
  tail : Nat
  head : Nat
  deficit : Int
  waitVal : Nat
  waitEv : Nat
  feeder : Nat
  quantum : Nat
  ctx : Nat
  ringLog : Nat
  st : QueueSt
  age : Nat
  prio : Nat
  badTail : Nat
  slot : Option Nat
  loading : Bool
  since : Nat
  saveReq : Bool
  wasOff : Bool
  waitSince : Nat
  tailWas : Nat × Nat
  deriving DecidableEq, Repr

/-- A prologue (R329): its registers, its words, runs made, launch last made. -/
structure Prologue where
  regs : List Word
  words : List Nat
  rep : Nat
  rerun : Bool
  deriving DecidableEq, Repr

/-- A packet of a queue that the front end has taken and that has not completed (R317, R322): queue, context it runs in, place in it, COMPL, UTAG, fields of
unit 0, prologue, launch last made, PREEMPT targets still to be saved and the highest saved, whether it has started, so that HEAD has passed
it. -/
structure Packet0 where
  pid : Nat
  q : Nat
  ctx : Nat
  order : Nat
  compl : Word
  utag : Nat
  body : BitVec 512
  prologue : Option Prologue
  lid : Nat
  saving : List TeamRef
  savedLid : Nat
  started : Bool
  deriving DecidableEq, Repr

/-! ### Fabric -/

/-- A handle table entry (R397), with the model's number at which its slot was taken. -/
structure HandleEnt where
  parent : Word
  lid : Nat
  status : Nat
  location : Nat
  ctx : Nat
  lfinal : Bool
  gen : Nat
  flags : Nat
  reason : Nat
  st : Nat
  doneTime : Nat
  order : Nat
  deriving DecidableEq, Repr

/-- What IEEE 1588 keeps at a port (R390): the data set of the grandmaster announced on it; origin and arrival times of the last `sync`; the time
of the delay request that is not answered. -/
structure PtpPort where
  announced : Option Nat
  origin : Option Nat
  arrived : Option Nat
  asked : Option Nat
  deriving DecidableEq, Repr

/-- A Merien port (R402) with the time from which it has kept back a held packet (R394), its merge (R392), its count of beacons, the time of its
last sending, its retry buffer, whether its link is in the routing set (R379), the input ports that its routing set feeds to it, the greatest
watermark that it has promised by a beacon or by a packet (R392), and its IEEE 1588 data. -/
structure Port where
  wm : Nat
  lastAdv : Nat
  crcErr : Nat
  resends : Nat
  lateCnt : Nat
  dropCnt : Nat
  peer : Nat
  peerKind : Nat
  stalled : Bool
  rearm : Nat
  blocked : Option Nat
  excise : Bool
  up : Bool
  merge : List Packet
  outSeq : Nat
  lastSent : Nat
  retry : List Packet
  routable : Bool
  feeds : BitVec 16
  sentWM : Nat
  ptp : PtpPort
  deriving DecidableEq, Repr

/-- A packet held for a future stamp (R170), with the wave and operation it belongs to. -/
structure Future where
  pid : Nat
  stamp : Nat
  dst : Nat
  body : Payload
  w : WaveRef
  op : Nat
  deriving DecidableEq, Repr

/-- What the part has sent to the world outside: packets on a port, beacons, management events, in-band interrupts (R377, R390,
R394, R407, R410), IEEE 1588 messages, answers to other nodes' accesses, each byte with its poison (R375). -/
inductive Output where
  | packet (port : Nat) (p : Packet)
  | culvert (dst : Nat) (p : Packet)
  | beacon (port : Nat) (kind wm count : Nat)
  | frame (entry : Word) (index : Nat)
  | stalledPort (port : Nat)
  | syncLost
  | powerExcursion
  | refusal (src : MgmtSrc)
  | inBand
  | ptp (port : Nat) (m : PtpMsg)
  | answer (dst : Nat) (ok : Bool) (bytes : List (Byte × Bool))
  | map (status : Nat) (bytes : List Byte)
  deriving DecidableEq, Repr

/-- The fabric state of this node (R401): time in ticks and fifths of a tick, the correction under
way in fifths of a tick, offset, lock and its history, limits, NODE, key of the last delivery, the injector's floor as it was latched, greatest stamp,
sequence and counts per stamp, whether the timing input is used (R16), the weir's held
packets, packets held for future stamps, ports, routes (the ports that lead to a node, that tried first at the head), excised nodes, the handle table. `remoteHandles`: what another node's table answers for a
handle whose home it is (R183), reported from outside. `waitingInv`: invocations that wait here for their parents' launches (R181); `heldInv`:
invocations that wait here, their parents' home, for a LOCATION (R399); `refuses`: 16 KiB frames of other nodes that these refuse (R360), reported
from outside; `deadHandles`: handles whose invocations this node refused, each with the model's number at that time; `gens`: the last generation given
in a slot of the table;
`culvertIn`: culvert packets of this node to itself; `delivered`: invocations that await the front end (R324). -/
structure Fabric where
  now : Nat
  slew : Int
  slewFrac : Nat
  offset : Int
  locked : Bool
  syncLost : Bool
  lockHist : List Bool
  stall : Nat
  beacon : Nat
  skew : Nat
  node : Nat
  dlvStamp : Nat
  dlvSrc : Nat
  dlvSeq : Nat
  dlvAny : Bool
  floor : Nat
  timing : Bool
  highest : Nat
  nextSeq : BitVec 16
  stampCount : Tbl Nat Nat
  held : List Packet
  future : List Future
  ports : List Port
  routes : Tbl Nat (List Nat)
  excised : Tbl Nat (BitVec 17)
  htBase : Nat
  htEn : Bool
  handles : Tbl Nat HandleEnt
  remoteHandles : Tbl Nat Nat
  waitingInv : List Packet
  heldInv : List Packet
  refuses : List (Nat × Nat)
  deadHandles : List (Word × Nat)
  gens : Tbl Nat Nat
  culvertIn : List Packet
  delivered : List Packet
  deriving DecidableEq, Repr

/-! ### The package -/

/-- The device block (R407) with the value that LOCKCLK takes and the boundary of 10 µs at which it does (R410), attestation with the nonce of
the report that is being made (R408), configuration window (R409), error block (R377), units fenced (R378), time since
the phase began, in fifths of a tick of the part's own clock (R405). -/
structure Device where
  powered : Bool
  phase : Nat
  failcode : Nat
  sysnode : Nat
  sysv : Bool
  thermtrip : Bool
  cfgbad : Bool
  pwrexc : Bool
  lockclk : Bool
  lockNext : Option (Bool × Nat)
  atrdy : Bool
  atNonce : Option (List Byte)
  nonce : List Byte
  report : List Byte
  blob : Mem
  blobUsed : List Byte
  ukind : Nat
  unit : Nat
  counts : Tbl (Nat × Nat) (Nat × Nat × Nat)
  frames : Tbl Nat Nat
  pfovf : Bool
  fencedCores : List Nat
  fencedQuads : List Nat
  fencedClusters : List Nat
  phaseTime : Nat
  deriving DecidableEq, Repr

/-! ### What moves next -/

/-- A `loop` that has found no buffer in the current cycle (R198): wave, loop record, START, END. -/
structure LoopWant where
  w : WaveRef
  n : Nat
  start : Nat
  last : Nat
  deriving DecidableEq, Repr

/-- What the agenda asks for next: a core issues; a step of the part or an input from outside it; time passes; a store moves into
the cluster buffer or its release is met; a single access of a load is performed; a line or a translation is cached or dropped; a
delayed signal or fence takes effect; a lasting or soft error appears; another node writes its own memory or answers for a handle of
its own; a route appears or is lost, and so does the feeding of a port; a peer acknowledges a packet; a malformed packet header arrives; the timing
input is used; a packet of no command is met; a FAULT_RESOLVED completes; teams are saved so that a deterministic launch
goes on; a tenant reset ends. -/
inductive Turn where
  | core (c : Nat)
  | event (i : Instr)
  | elapse (cycles ticks : Nat)
  | drain (sid : Nat)
  | enter (sid : Nat)
  | perform (w : WaveRef) (op part : Nat)
  | cacheFill (core pa : Nat)
  | cacheDrop (core pa : Nat)
  | tlbFill (ofCore : Bool) (unit ctx va : Nat)
  | tlbDrop (e : TlbEnt)
  | walkFill (cluster ctx lvl va : Nat)
  | walkDrop (e : WalkEnt)
  | signal (gid : Nat)
  | fenceMet (w : WaveRef) (id : Nat)
  | invokeTaken
  | copyCount (cid : Nat)
  | memError (unit : Nat) (lasting : Bool)
  | regError (w : WaveRef) (v half : Nat) (lasting : Bool)
  | spadError (t : TeamRef) (dword : Nat) (lasting : Bool)
  | logicError (kind unit : Nat) (lid : Nat)
  | corrected (kind unit : Nat)
  | rowError (gid half : Nat) (lasting : Bool)
  | hubError (lasting : Bool)
  | remote (node a : Nat) (v : Byte)
  | remoteHandle (h v : Nat)
  | remoteRefuses (node frame : Nat) (on : Bool)
  | route (node : Nat) (port : Option Nat)
  | feeds (port : Nat) (inputs : BitVec 16)
  | linkAck (port : Nat)
  | badHeader (port : Nat) (header : BitVec 128)
  | timingInput (on : Bool)
  | mapRead (pa n : Nat)
  | mapWrite (pa : Nat) (bytes : List Byte)
  | badPacket (slot : Nat)
  | resolveDone (pid : Nat)
  | detSave (lid : Nat)
  | resetDone (t : Nat)
  deriving DecidableEq, Repr

/-- The whole part. -/
structure State where
  /-- device memory by physical address, canonical (R94, R357) -/
  mem : Mem
  /-- bytes written so far in the current step, newest first; empty between steps (log entry 2) -/
  wlog : List (Nat × Byte)
  /-- 32-byte units of device memory poisoned by a copy, by address ÷ 32 (R375) -/
  mempoison : List Nat
  /-- 32-byte units whose error lasts, by address ÷ 32 (R374) -/
  lasting : List Nat
  /-- memories of other nodes (R360), outside the part -/
  nodes : Tbl Nat Mem
  /-- stores in the write queues of the cores, in issue order (R113) -/
  queue : List StoreRec
  /-- stores in the cluster buffers, in the order they entered (R113) -/
  buffer : List StoreRec
  /-- aligned doublewords in the load caches of the cores: (core, physical address ÷ 8), each byte with its poison (R93, R113) -/
  cache : Tbl (Nat × Nat) (List (Byte × Bool))
  tlb : List TlbEnt
  /-- the walk caches of the clusters (R361) -/
  walks : List WalkEnt
  waves : Tbl WaveRef Wave
  teams : Tbl TeamRef Team
  launches : Tbl Nat Launch
  granules : List Granule
  copies : List Copy
  quads : Tbl Nat Quad
  signals : List PendSignal
  takes : List PendTake
  waiters : List Waiter
  /-- the resident event entries, by tenant and event; one without a waiter is free (R341) -/
  entries : List (Nat × Nat)
  wheel : List WheelEnt
  faults : List FaultRec
  tenants : Tbl Nat Tenant
  ctxs : Tbl Nat Ctx
  queues : Tbl Nat Queue
  packets : List Packet0
  fabric : Fabric
  device : Device
  /-- cycles of the arithmetic clock since power-on -/
  cycles : Nat
  /-- cores that have issued in the current cycle (R9) -/
  issued : List Nat
  /-- how far the current cycle has come: 0 arrivals of copies, 1 issues, 2 retirements and resets, 3 placements and what else chooses
  (R62, R102, R351) -/
  beat : Nat
  /-- cycles for which a division still holds a core (R224) -/
  divHold : Tbl Nat Nat
  /-- loop buffers: (core, buffer) to launch, START, END (R196) -/
  loopBufs : Tbl (Nat × Nat) (Nat × Nat × Nat)
  /-- the loops that have found no buffer in this cycle (R198) -/
  loopWants : List LoopWant
  /-- bytes of register files and scratchpads that no team has, as the on-chip map wrote them: (core, kind, offset) (R110) -/
  chip : Tbl (Nat × Nat × Nat) Byte
  /-- the path at its issue: wave, path number -/
  cur : Option (WaveRef × Nat)
  /-- next LAUNCHID (R328) -/
  nextLid : Nat
  /-- the model's own counter of numbers given out -/
  nextId : Nat
  /-- the slots that are still to run in the front end's round (R324) -/
  round : List Nat
  /-- a decision of the queue scheduler core is due (R326) -/
  schedDue : Bool
  /-- the multiples of 10 µs and of 50 µs of fabric time up to which it has decided and aged (R326) -/
  schedTick : Nat
  ageTick : Nat
  output : List Output
  agenda : List Turn
  deriving DecidableEq, Repr

/-! ### Reset -/

/-- A port at power-on (R402). -/
def Port.reset : Port :=
  { wm := 0, lastAdv := 0, crcErr := 0, resends := 0, lateCnt := 0, dropCnt := 0, peer := 0, peerKind := 0, stalled := false,
    rearm := 0, blocked := none, excise := false, up := false, merge := [], outSeq := 0, lastSent := 0, retry := [], routable := true, feeds := 0xFFFF, sentWM := 0,
    ptp := { announced := none, origin := none, arrived := none, asked := none } }

/-- The fabric at power-on (R401, R402, R403); NOW, the injector's sequence and the key of the last delivery by log entry 4. -/
def Fabric.reset : Fabric :=
  { now := 0, slew := 0, slewFrac := 0, offset := 0, locked := false, syncLost := false, lockHist := [], stall := 40, beacon := 256,
    skew := 1600, node := 0, dlvStamp := 0, dlvSrc := 0, dlvSeq := 0, dlvAny := false, floor := 0, timing := false, highest := 0, nextSeq := 0, stampCount := [],
    held := [], future := [], ports := List.replicate 16 Port.reset, routes := [], excised := [], htBase := 0, htEn := false,
    handles := [], remoteHandles := [], waitingInv := [], heldInv := [], refuses := [], deadHandles := [], gens := [], culvertIn := [], delivered := [] }

/-- The device at power-on (R377, R405, R407, R409); the nonce and the report by log entry 4. -/
def Device.reset : Device :=
  { powered := false, phase := 0, failcode := 0, sysnode := 0, sysv := false, thermtrip := false, cfgbad := false, pwrexc := false,
    lockclk := true, lockNext := none, atrdy := false, atNonce := none, nonce := List.replicate 64 0, report := List.replicate 448 0,
    blob := [], blobUsed := [], ukind := 0, unit := 0, counts := [], frames := [], pfovf := false, fencedCores := [],
    fencedQuads := [], fencedClusters := [], phaseTime := 0 }

/-- The part before power is applied: no wave, launch, context or queue; every register block at its Reset column. -/
def State.reset : State :=
  { mem := [], wlog := [], mempoison := [], lasting := [], nodes := [], queue := [], buffer := [], cache := [], tlb := [], walks := [],
    waves := [], teams := [], launches := [], granules := [], copies := [], quads := [], signals := [], takes := [], waiters := [], entries := [],
    wheel := [], faults := [], tenants := [], ctxs := [], queues := [], packets := [], fabric := Fabric.reset, device := Device.reset,
    cycles := 0, issued := [], beat := 0, divHold := [], loopBufs := [], loopWants := [], chip := [], cur := none, nextLid := 1, nextId := 1, round := [], schedDue := false, schedTick := 0, ageTick := 0, output := [],
    agenda := [] }

end Sys2Proof.Machine
end

