-- ==== Sys2Proof/Machine/Base.lean ====
section
/-! DEFINITION. The basic operations over the state: its parts, registers, counters, paths, bytes of memory and scratchpad, numbers,
fabric time, the injection of ordered packets. -/

namespace Sys2Proof.Machine

/-! ### Ending a step -/

/-- Commit the bytes a step wrote: memory changes here and nowhere else. -/
def State.commit (s t : State) : State := { t with mem := mwriteAll t.wlog.reverse s.mem, wlog := [] }

/-- A step that began in `s` and answers the state `t`. -/
def done (s t : State) : Host.Outcome State Fault Refusal := .next (s.commit t)

/-- A step of the part that this state has only under a condition. -/
@[inline] def stepIf (name : String) (cond : Bool) (s : State) (t : State) : Host.Outcome State Fault Refusal :=
  if cond then done s t else .fault (.cannotOccur name)

/-! ### Waves, teams, launches -/

def State.wave? (s : State) (w : WaveRef) : Option Wave := tget w s.waves
def State.team? (s : State) (t : TeamRef) : Option Team := tget t s.teams
def State.launch? (s : State) (l : Nat) : Option Launch := tget l s.launches
def State.ctx? (s : State) (c : Nat) : Option Ctx := tget c s.ctxs
def State.tenant? (s : State) (t : Nat) : Option Tenant := tget t s.tenants
def State.queue? (s : State) (q : Nat) : Option Queue := tget q s.queues

def State.setWave (s : State) (w : WaveRef) (v : Wave) : State := { s with waves := tput w v s.waves }
def State.modWave (s : State) (w : WaveRef) (f : Wave → Wave) : State := { s with waves := tmod w f s.waves }
def State.modTeam (s : State) (t : TeamRef) (f : Team → Team) : State := { s with teams := tmod t f s.teams }
def State.modLaunch (s : State) (l : Nat) (f : Launch → Launch) : State := { s with launches := tmod l f s.launches }
def State.modCtx (s : State) (c : Nat) (f : Ctx → Ctx) : State := { s with ctxs := tmod c f s.ctxs }
def State.modTenant (s : State) (t : Nat) (f : Tenant → Tenant) : State := { s with tenants := tmod t f s.tenants }
def State.modQueue (s : State) (q : Nat) (f : Queue → Queue) : State := { s with queues := tmod q f s.queues }
def State.modQuad (s : State) (q : Nat) (f : Quad → Quad) : State := { s with quads := tmod q f s.quads }
def State.modCopy (s : State) (c : Nat) (f : Copy → Copy) : State :=
  { s with copies := s.copies.map fun k => if k.cid = c then f k else k }
def State.modFault (s : State) (i : Nat) (f : FaultRec → FaultRec) : State :=
  { s with faults := s.faults.map fun k => if k.fid = i then f k else k }
def State.modPacket (s : State) (i : Nat) (f : Packet0 → Packet0) : State :=
  { s with packets := s.packets.map fun k => if k.pid = i then f k else k }

/-- Fields of a tenant block (R309). -/
def Tenant.clusters (t : Tenant) : BitVec 16 := t.raw.extractLsb' 16 16
def Tenant.pcgrp (t : Tenant) : BitVec 32 := t.raw.extractLsb' 32 32
def Tenant.owner (t : Tenant) : Nat := (t.raw.extractLsb' 0 16).toNat
def Tenant.slotm1 (t : Tenant) : Nat := (t.raw.extractLsb' 70 6).toNat
def Tenant.wheel (t : Tenant) : Nat := (t.raw.extractLsb' 76 12).toNat
def Tenant.hbase (t : Tenant) : Nat := (t.raw.extractLsb' 88 20).toNat
def Tenant.hcount (t : Tenant) : Nat := (t.raw.extractLsb' 108 20).toNat
def Tenant.spill (t : Tenant) : Nat := (t.raw.extractLsb' 128 46).toNat
def Tenant.fqbase (t : Tenant) : Nat := (t.raw.extractLsb' 192 46).toNat
def Tenant.fqlog (t : Tenant) : Nat := (t.raw.extractLsb' 252 4).toNat

/-- Fields of a context block (R312). -/
def Ctx.debug (c : Ctx) : Bool := c.raw.getLsbD 1
def Ctx.latepol (c : Ctx) : Bool := c.raw.getLsbD 2
def Ctx.tenant (c : Ctx) : Nat := (c.raw.extractLsb' 16 4).toNat
def Ctx.privsize (c : Ctx) : Nat := (c.raw.extractLsb' 64 64).toNat
/-- Swap threshold in cycles; 0 means 4,096 (R23, R312). -/
def Ctx.swap (c : Ctx) : Nat := let v := (c.raw.extractLsb' 128 32).toNat; if v = 0 then 4096 else v
/-- Park limit in fabric ticks; 0 means 10,000 µs (R26, R312). -/
def Ctx.parkTicks (c : Ctx) : Nat :=
  let v := (c.raw.extractLsb' 160 32).toNat; (if v = 0 then 10000 else v) * Config.ticksPerUs
def Ctx.ptroot (c : Ctx) : Nat := (c.raw.extractLsb' 192 64).toNat % 2 ^ 46 / 2 ^ 14 * 2 ^ 14
def Ctx.privbase (c : Ctx) : Word := c.raw.extractLsb' 256 64
def Ctx.ressize (c : Ctx) : Nat := (c.raw.extractLsb' 320 64).toNat
def Ctx.resbase (c : Ctx) : Word := c.raw.extractLsb' 384 64
def Ctx.mboxbase (c : Ctx) : Word := c.raw.extractLsb' 448 64

/-- The launch, team, context and tenant of a wave. -/
def State.ctxOf (s : State) (lid : Nat) : Nat := match s.launch? lid with | some l => l.ctx | none => 0
def State.tenantOfCtx (s : State) (c : Nat) : Nat := match s.ctx? c with | some k => k.tenant | none => 0
def State.tenantOf (s : State) (lid : Nat) : Nat := s.tenantOfCtx (s.ctxOf lid)
def State.coreOf (s : State) (t : TeamRef) : Nat := match s.team? t with | some k => k.core | none => 0

/-- Cluster of a core, span of a core, quad of a core (R8). -/
def clusterOf (core : Nat) : Nat := core / 192
def spanOf (core : Nat) : Nat := core / 768
def quadOf (core : Nat) : Nat := core / 4

/-- Vector registers allocated per thread (R200): VREGS rounded up to a multiple of 8. -/
def Header.alloc (h : Header) : Nat := (h.vregs + 7) / 8 * 8

/-- The least power of two ≥ n, from 128 up to 128 KiB (R95). -/
def roundPow (n : Nat) : Nat :=
  if n ≤ 128 then 128 else if n ≤ 256 then 256 else if n ≤ 512 then 512 else if n ≤ 1024 then 1024
  else if n ≤ 2048 then 2048 else if n ≤ 4096 then 4096 else if n ≤ 8192 then 8192 else if n ≤ 16384 then 16384
  else if n ≤ 32768 then 32768 else if n ≤ 65536 then 65536 else 131072

/-- P, a team's scratchpad allocation in bytes; 0 for a header that asks for none (R95). -/
def Header.spadP (h : Header) : Nat := if h.spad = 0 then 0 else roundPow h.spad

/-! ### Registers -/

def setAt {α : Type} : List α → Nat → α → List α
  | [], _, _ => []
  | _ :: l, 0, v => v :: l
  | x :: l, n + 1, v => x :: setAt l n v

/-- Sub-element `i` of a lane at width `w` (R68). -/
def elem (w : Nat) (x : Word) (i : Nat) : Nat := x.toNat / 2 ^ (w * i) % 2 ^ w
/-- The sub-elements of a lane, lowest first. -/
def elemsOf (w : Nat) (x : Word) : List Nat := (List.range (64 / w)).map (elem w x)
/-- A lane from its sub-elements, lowest first. -/
def packNat (w : Nat) : List Nat → Nat
  | [] => 0
  | e :: l => e % 2 ^ w + 2 ^ w * packNat w l
def packElems (w : Nat) (l : List Nat) : Word := BitVec.ofNat 64 (packNat w l)
/-- Replace sub-element `i` of a lane. -/
def putElem (w : Nat) (x : Word) (i v : Nat) : Word := packElems w (setAt (elemsOf w x) i (v % 2 ^ w))
/-- The halves that sub-element `i` of width `w` lies in. -/
def halfOf (w i : Nat) : Nat := if w = 64 then 3 else if w * i < 32 then 1 else 2

def Wave.sreg (w : Wave) (n : Nat) : Word := w.sregs.getD n 0
def Wave.setS (w : Wave) (n : Nat) (v : Word) : Wave := { w with sregs := setAt w.sregs n v }
def Wave.mask (w : Wave) (n : Nat) : W32 := w.masks.getD n 0
def Wave.setM (w : Wave) (n : Nat) (v : W32) : Wave := { w with masks := setAt w.masks n v }
def Wave.loopc (w : Wave) (n : Nat) : W32 := w.lc.getD n 0
def Wave.setLc (w : Wave) (n : Nat) (v : W32) : Wave := { w with lc := setAt w.lc n v }

/-- A row of zeros (R18). -/
def VReg.zero : VReg := { lanes := List.replicate 32 0, poison := 0 }
def Wave.vreg (w : Wave) (n : Nat) : VReg := w.vregs.getD n VReg.zero
def VReg.lane (v : VReg) (l : Nat) : Word := v.lanes.getD l 0
/-- The two poison bits of a lane: bit 0 the low half, bit 1 the high half. -/
def VReg.pois (v : VReg) (l : Nat) : Nat := (v.poison >>> (2 * l)).toNat % 4
/-- Write a whole lane with its poison. -/
def VReg.setLane (v : VReg) (l : Nat) (x : Word) (p : Nat) : VReg :=
  { lanes := setAt v.lanes l x,
    poison := (v.poison &&& ~~~(3#64 <<< (2 * l))) ||| (BitVec.ofNat 64 (p % 4) <<< (2 * l)) }
def Wave.setV (w : Wave) (n : Nat) (v : VReg) : Wave := { w with vregs := setAt w.vregs n v }

/-- Set flags of FSTAT (R72). -/
def Wave.raise (w : Wave) (flags : Nat) : Wave := { w with fstat := fstatRaise w.fstat flags, newF := w.newF ||| flags }
/-- Set bits of WSTAT (R237). -/
def Wave.raiseW (w : Wave) (bits : Word) : Wave := { w with wstat := w.wstat ||| bits, newW := w.newW ||| bits }
/-- An entry enters ELOG: the first four in arrival order, any later one sets OVF in entry 3 (R167). -/
def Wave.putElog (v : Wave) (e : Word) : Wave :=
  match v.elog.findIdx? (fun x => !x.getLsbD 63) with
  | some i => { v with elog := setAt v.elog i e }
  | none => { v with elog := setAt v.elog 3 (v.elog.getD 3 0 ||| 0x4000000000000000) }
/-- An engine adds an entry (R167). -/
def Wave.addElog (v : Wave) (e : Word) : Wave := { (v.putElog e) with newE := v.newE ++ [e] }
/-- HAZ, which saturates (R194, R237). -/
def Wave.bumpHaz (w : Wave) : Wave := { w with wstat := wstatHaz w.wstat }

/-- Write one register; a lane that has exited is written by nothing (R37). -/
def Wave.applyWrite (w : Wave) : RegWrite → Wave
  | .s d v => w.setS d v
  | .m d v => w.setM d v
  | .v d lanes =>
    w.setV d ((lanes.filter fun p => !w.exited.getLsbD p.1).foldl (fun r p => r.setLane p.1 p.2.1 p.2.2) (w.vreg d))
  | .e d l width i v =>
    let r := w.vreg d
    if w.exited.getLsbD l then w.setV d r
    else w.setV d (r.setLane l (putElem width (r.lane l) i v) (if 32 ≤ width then r.pois l &&& (3 - halfOf width i) else r.pois l))
def Wave.applyWrites (w : Wave) (ws : List RegWrite) : Wave := ws.foldl Wave.applyWrite w

/-! ### WAIT counters and outstanding work (R188) -/

def Wave.counter (w : Wave) (c : Nat) : Nat := w.ctr.getD c 0
def Wave.incr (w : Wave) (c : Nat) : Wave := { w with ctr := setAt w.ctr c (w.counter c + 1) }
def Wave.decr (w : Wave) (c : Nat) : Wave := { w with ctr := setAt w.ctr c (w.counter c - 1) }
/-- Every counter named in a WAIT mask reads zero (R187). -/
def Wave.clearOf (w : Wave) (m : Nat) : Bool := (List.range 8).all fun c => !m.testBit c || w.counter c == 0
/-- Every counter but ST reads zero (R192). -/
def Wave.switchClear (w : Wave) : Bool := w.clearOf 0xFD
def Wave.addPend (w : Wave) (p : Pend) : Wave := { (w.incr p.ctr) with pend := w.pend ++ [p] }
def Wave.pend? (w : Wave) (id : Nat) : Option Pend := w.pend.find? (·.id = id)
def Wave.modPend (w : Wave) (id : Nat) (f : Pend → Pend) : Wave :=
  { w with pend := w.pend.map fun p => if p.id = id then f p else p }
/-- A path whose awaited counters all read zero waits for them no longer (R187, R221). -/
def Wave.settleWaits (w : Wave) : Wave :=
  let g := fun p : Path => if w.clearOf p.waits then { p with waits := 0 } else p
  { w with slot0 := w.slot0.map g, slot1 := w.slot1.map g, spilled := w.spilled.map g }
/-- An outstanding operation ends: it leaves the list and its counter falls. -/
def Wave.endPend (w : Wave) (id : Nat) : Wave :=
  match w.pend? id with
  | none => w
  | some p => Wave.settleWaits { (w.decr p.ctr) with pend := w.pend.filter (·.id ≠ id) }
/-- Registers with an outstanding write (R194). -/
def Wave.outstanding (w : Wave) (r : Reg) : Bool := w.pend.any fun p => p.dests.contains r
/-- LCLK (R345). -/
def Wave.lclk (w : Wave) : Nat := w.icount.toNat + w.lskip.toNat

/-! ### Paths -/

def Wave.paths (w : Wave) : List Path := w.slot0.toList ++ w.slot1.toList ++ w.spilled
def Wave.path? (w : Wave) (pid : Nat) : Option Path := w.paths.find? (·.pid = pid)
def Wave.modPath (w : Wave) (pid : Nat) (f : Path → Path) : Wave :=
  let g := fun p : Path => if p.pid = pid then f p else p
  { w with slot0 := w.slot0.map g, slot1 := w.slot1.map g, spilled := w.spilled.map g }
/-- Entries of the berm: split records and spilled paths (R22). -/
def Wave.bermDepth (w : Wave) : Nat := w.recs.length + w.spilled.length
/-- The top of the berm takes a free slot (R21, R22). -/
def Wave.refill (w : Wave) : Wave :=
  match w.spilled with
  | [] => w
  | p :: rest =>
    match w.slot0, w.slot1 with
    | none, _ => { w with slot0 := some p, spilled := rest }
    | _, none => { w with slot1 := some p, spilled := rest }
    | _, _ => w
/-- A path leaves its slot or the berm, and the top of the berm takes the slot. -/
def Wave.dropPath (w : Wave) (pid : Nat) : Wave :=
  let keep := fun (o : Option Path) => o.filter (fun p => p.pid ≠ pid)
  Wave.refill { w with slot0 := keep w.slot0, slot1 := keep w.slot1, spilled := w.spilled.filter (·.pid ≠ pid) }
/-- Park a path (R25). -/
def Wave.parkPath (w : Wave) (pid : Nat) (k : Park) (off : Nat) : Wave :=
  w.modPath pid fun p => { p with park := k, since := 0, parkOff := off }
/-- Release a parked path. -/
def Wave.unpark (w : Wave) (pid : Nat) : Wave := w.modPath pid fun p => { p with park := .none, since := 0 }

def Path.isParked (p : Path) : Bool := p.park != .none

/-! ### Device memory -/

/-- The byte at a physical address, as the step has left it so far. -/
def State.byte (s : State) (a : Nat) : Byte :=
  match s.wlog.find? (fun p => p.1 == a) with
  | some p => p.2
  | none => mread a s.mem
def State.bytes (s : State) (a n : Nat) : List Byte := (List.range n).map fun i => s.byte (a + i)
/-- Write bytes from an address up. -/
def State.putBytes (s : State) (a : Nat) (bs : List Byte) : State :=
  { s with wlog := (bs.zipIdx.map fun p => (a + p.2, p.1)).reverse ++ s.wlog }
/-- A little-endian number read from memory (R5). -/
def State.num (s : State) (a n : Nat) : Nat := leNat (s.bytes a n)

/-- A physical address in device memory (R357). -/
def isDevice (a : Nat) : Bool := a / 2 ^ 39 == 0 && a % 2 ^ 36 < Config.stackBytes
/-- `n` bytes from `a` lie wholly in device memory. -/
def rangeDevice (a n : Nat) : Bool := isDevice a && isDevice (a + n - 1) && a / 2 ^ 36 == (a + n - 1) / 2 ^ 36
/-- Pseudo-channel group of an address (R357). -/
def groupOf (a : Nat) : Nat := 4 * (a / 2 ^ 36 % 8) + a / 2 ^ 27 % 4
/-- Every group that `n` bytes from `a` touch is among the tenant's. -/
def groupsOk (g : BitVec 32) (a n : Nat) : Bool :=
  (List.range ((a + n - 1) / 2 ^ 27 - a / 2 ^ 27 + 1)).all fun i => g.getLsbD (groupOf ((a / 2 ^ 27 + i) * 2 ^ 27))

/-- The frame of an address is marked poisoned (R375, R377). -/
def State.frameMarked (s : State) (a : Nat) : Bool := s.device.frames.any fun f => f.2 == a / 2 ^ 14
/-- A read of the byte delivers poisoned data (R374, R375). -/
def State.poisonedAt (s : State) (a : Nat) : Bool :=
  s.frameMarked a || s.mempoison.contains (a / 32) || s.lasting.contains (a / 32)
def State.poisonedRange (s : State) (a n : Nat) : Bool :=
  (List.range ((a + n - 1) / 32 - a / 32 + 1)).any fun i => s.poisonedAt ((a / 32 + i) * 32)

/-- Count an error of a unit: 0 corrected, 1 soft, 2 lasting (R376, R377); each count saturates. -/
def State.countError (s : State) (kind unit which : Nat) : State :=
  let c := (tget (kind, unit) s.device.counts).getD (0, 0, 0)
  let up := fun n : Nat => if n < 0xFFFFFFFF then n + 1 else n
  let c' := match which with | 0 => (up c.1, c.2.1, c.2.2) | 1 => (c.1, up c.2.1, c.2.2) | _ => (c.1, c.2.1, up c.2.2)
  { s with device := { s.device with counts := tput (kind, unit) c' s.device.counts } }

/-- The lowest free entry of the poisoned-frame table. -/
def freeFrame (t : Tbl Nat Nat) : Option Nat := (List.range 1024).find? fun i => (tget i t).isNone
/-- Mark a frame: enter it, tell the system node, or set PFOVF when no entry is free (R377). -/
def State.markFrame (s : State) (a : Nat) : State :=
  if s.frameMarked a then s
  else match freeFrame s.device.frames with
    | none => { s with device := { s.device with pfovf := true } }
    | some i =>
      { s with device := { s.device with frames := tput i (a / 2 ^ 14) s.device.frames },
               output := s.output ++ [.frame (0x8000000000000000 + BitVec.ofNat 64 (a / 2 ^ 14 * 2 ^ 14)) i] }
/-- A read of bytes whose error lasts marks their frames and counts the error on the base die (R374 to R376). -/
def State.noteRead (s : State) (a n : Nat) : State :=
  (List.range ((a + n - 1) / 32 - a / 32 + 1)).foldl (fun s i =>
    let u := (a / 32 + i) * 32
    if s.lasting.contains (u / 32) && !s.frameMarked u then (s.markFrame u).countError 1 (u / 2 ^ 36) 2 else s) s

/-- Write good data at home: a unit written whole loses its poison (R375). -/
def State.writeHome (s : State) (a : Nat) (bs : List Byte) : State :=
  let s := s.putBytes a bs
  let whole := fun u : Nat => a ≤ u * 32 && u * 32 + 32 ≤ a + bs.length
  { s with mempoison := s.mempoison.filter (fun u => !whole u) }

/-! ### Scratchpad (R95 to R98) -/

def Team.spadByte (t : Team) (o : Nat) : Byte := mread o t.spad
def Team.setSpad (t : Team) (o : Nat) (b : Byte) : Team := { t with spad := mwrite o b t.spad }
/-- Half-doubleword unit of a scratchpad byte is poisoned (R374). -/
def Team.spadPois (t : Team) (o : Nat) : Bool := t.spoison.contains (o / 4)

/-- Whether a team still has a scratchpad: it is placed, resident, halting or saved. -/
def Team.alive (t : Team) : Bool := t.st != .retired
/-- A team that occupies a core. -/
def Team.onCore (t : Team) : Bool := t.st != .retired && t.st != .saved
/-- The team of a wave occupies a core and has not been halted: parks of a halted team are tested when it is restored (R381). -/
def State.present (s : State) (w : WaveRef) : Bool := match s.team? w.teamRef with | some t => t.onCore && t.st != .halting | none => false

/-- The location of one scratchpad byte: target team by REMOTE and RANK, offset modulo P (R96, R97). -/
def State.spadLoc (s : State) (t : TeamRef) (o : Nat) : Loc :=
  match s.launch? t.lid, s.team? t with
  | some l, some me =>
    let p := l.hdr.spadP
    if p = 0 then .void
    else
      let off := o % 2 ^ 17 % p
      if l.hdr.cohort = 0 || o / 2 ^ 31 % 2 = 0 then (if me.alive then .spad t off else .void)
      else
        let r := o / 2 ^ 23 % 256 % l.hdr.cohort
        let target : TeamRef := ⟨t.lid, me.cohort * l.hdr.cohort + r⟩
        match s.team? target with
        | some k => if k.alive then .spad target off else .void
        | none => .void
  | _, _ => .void

/-- The line of a location is absent (R99). -/
def State.lineAbsent (s : State) : Loc → Bool
  | .spad t off => match s.team? t with | some k => k.absent.contains (off / 128) | none => false
  | _ => false

/-- Read one byte of a location at its home, with its poison. -/
def State.readLoc (s : State) : Loc → Byte × Bool
  | .home a => (s.byte a, s.poisonedAt a)
  | .node n a => (match tget n s.nodes with | some m => mread a m | none => 0, false)
  | .spad t off => match s.team? t with | some k => (k.spadByte off, k.spadPois off) | none => (0, false)
  | .void => (0, false)

/-- Location `i` bytes on; a scratchpad byte wraps by itself, so only device memory runs on. -/
def Loc.plus (l : Loc) (i : Nat) : Loc :=
  match l with
  | .home a => .home (a + i) | .node n a => .node n (a + i) | .spad t o => .spad t (o + i) | .void => .void

/-- Write bytes into a scratchpad from an offset up: a doubleword written whole loses its poison (R375). -/
def Team.writeSpad (t : Team) (o : Nat) (bs : List Byte) : Team :=
  let t := bs.zipIdx.foldl (fun t p => t.setSpad (o + p.2) p.1) t
  let whole := fun u : Nat => o ≤ u / 2 * 8 && u / 2 * 8 + 8 ≤ o + bs.length
  { t with spoison := t.spoison.filter (fun u => !whole u) }

/-- A core's load cache is discarded (R113: an acquire). -/
def State.dropCache (s : State) (core : Nat) : State := { s with cache := s.cache.filter fun e => e.1.1 ≠ core }

/-! ### Numbers and fabric time -/

def State.now (s : State) : Nat := s.fabric.now
/-- A fresh number of the model. -/
def State.fresh (s : State) : Nat × State := (s.nextId, { s with nextId := s.nextId + 1 })

/-- Sign-extend a field to an integer. -/
def sx (n v : Nat) : Int := if v % 2 ^ n < 2 ^ (n - 1) then (v % 2 ^ n : Nat) else (v % 2 ^ n : Nat) - (2 ^ n : Nat)
/-- Bits [lo+n-1:lo] of a number. -/
def bits (v lo n : Nat) : Nat := v >>> lo % 2 ^ n

/-- The numbers of the lanes in a mask, ascending. -/
def lanesOf (m : W32) : List Nat := (List.range 32).filter fun l => m.getLsbD l
/-- The mask of a list of lanes. -/
def maskOf (ls : List Nat) : W32 := ls.foldl (fun m l => m ||| (1#32 <<< l)) 0
/-- One bits in a word. -/
def popc (n v : Nat) : Nat := ((List.range n).filter fun i => v.testBit i).length
/-- Leading zero bits of an n-bit number. -/
def clz (n v : Nat) : Nat := if v = 0 then n else n - 1 - Nat.log2 v
/-- Trailing zero bits of an n-bit number. -/
def ctz (n v : Nat) : Nat := ((List.range n).find? fun i => v.testBit i).getD n

/-! ### Ordered packets leaving this node (R170, R171, R392) -/

/-- The node is in the excised-node list (R403). -/
def State.excisedNode (s : State) (n : Nat) : Bool :=
  s.fabric.excised.any fun e => e.2.getLsbD 16 && (e.2.extractLsb' 0 16).toNat == n

/-- The port by which a node is reached: the first of its routes whose link is up and in the routing set (R379). -/
def State.portTo (s : State) (n : Nat) : Option Nat :=
  ((tget n s.fabric.routes).getD []).find? fun p => match s.fabric.ports[p]? with | some q => q.up && q.routable | none => false

/-- A packet can be sent to a node: one that is not excised, this node included, and that is this one or has a route (R176, R403). -/
def State.reachable (s : State) (n : Nat) : Bool := !s.excisedNode n && (n == s.fabric.node || (s.portTo n).isSome)

def State.modPort (s : State) (p : Nat) (f : Port → Port) : State :=
  match s.fabric.ports[p]? with
  | some q => { s with fabric := { s.fabric with ports := setAt s.fabric.ports p (f q) } }
  | none => s

/-- The injector's floor F: the greatest stamp injected, Now less the skew bound, and never less than it was (R170). -/
def Fabric.floorF (f : Fabric) : Nat := max f.floor (max f.highest (f.now - f.skew))
def State.floorF (s : State) : Nat := s.fabric.floorF
/-- Another skew bound; F stays. -/
def Fabric.setSkew (f : Fabric) (skew : Nat) : Fabric := { f with floor := f.floorF, skew := skew }

/-- Send an ordered packet into the fabric: it takes the next source sequence; a packet to this node travels through the loopback (R172). -/
def State.sendOrdered (s : State) (stamp dst : Nat) (body : Payload) : State :=
  let f := s.fabric
  let pk : Packet := { stamp := stamp, src := BitVec.ofNat 16 f.node, seq := f.nextSeq, dst := BitVec.ofNat 16 dst, late := false, body := body }
  let n := (tget stamp f.stampCount).getD 0
  let s := { s with fabric := { f with nextSeq := f.nextSeq + 1, highest := max f.highest stamp,
                                       stampCount := tput stamp (n + 1) (f.stampCount.filter (fun e => e.1 ≥ f.highest)) } }
  if dst = f.node then { s with fabric := { s.fabric with held := s.fabric.held ++ [pk] } }
  else match s.portTo dst with
    | some p => s.modPort p fun q => { q with merge := q.merge ++ [pk] }
    | none => s

/-- The register writes that end an ordered send or atomic with a status (R176, R177). -/
def FabReq.refused (st : Nat) : FabReq → List RegWrite
  | .osend d .. => [.s d (BitVec.ofNat 64 st)]
  | .oatom d st' .. => [.s st' (BitVec.ofNat 64 st), .s d 0]
  | _ => []

/-- A packet held for a future stamp leaves, or finds no route (R170): an `osend` is over; an `oatom` awaits its answer when it was sent. -/
def State.releaseFuture (s : State) (f : Future) : State :=
  let s := { s with fabric := { s.fabric with future := s.fabric.future.filter (·.pid ≠ f.pid) } }
  let ok := s.reachable f.dst
  let s := if ok then s.sendOrdered f.stamp f.dst f.body else s
  s.modWave f.w fun v => match (v.pend? f.op).map (fun (p : Pend) => p.kind) with
    | some (.fab q _) =>
      (match q, ok with
        | .oatom .., true => v
        | _, _ => (v.applyWrites (q.refused (if ok then 0 else 3))).endPend f.op)
    | _ => v

/-- The held packet of least stamp, of equal ones that of the instruction issued first (R171, R306). -/
def State.leastFuture (s : State) : Option Future :=
  s.fabric.future.foldl (fun (b : Option Future) f => match b with
    | none => some f
    | some g => if f.stamp < g.stamp || (f.stamp == g.stamp && f.op < g.op) then some f else some g) none

/-- Held packets whose stamps have come leave, in the order of their stamps. -/
def State.flushFuture : Nat → State → State
  | 0, s => s
  | n + 1, s => match s.leastFuture with
    | some f => if f.stamp ≤ s.now then State.flushFuture n (s.releaseFuture f) else s
    | none => s

/-- Every held packet whose stamp has come has left: "injected when Now reaches S" (R170). An instruction tries its own stamp against the floor
that they leave. -/
def State.flushDue (s : State) : State := State.flushFuture s.fabric.future.length s

/-- Inject an ordered packet of the part's own: what is held for an earlier stamp leaves before it, so that stamps do not decrease (R170). -/
def State.inject (s : State) (stamp dst : Nat) (body : Payload) : State := s.flushDue.sendOrdered stamp dst body

end Sys2Proof.Machine
end

