-- ==== Sys2Proof/Machine/Translate.lean ====
section
/-! DEFINITION. Address translation: the table walk and its entries (R352 to R363), and the privileged on-chip map (R110, R111). -/

namespace Sys2Proof.Machine

/-- The kind of an access, for the permissions of R359. -/
inductive AccKind where
  | load | fetch | store | atomic
  deriving DecidableEq, Repr

/-- What a walk answers: a physical address with the leaf's FAB, NODE and TSO; a fault with its cause and level; a table entry
whose error lasts. -/
inductive WalkRes where
  | ok (pa : Nat) (fab : Bool) (node : Nat) (tso : Bool)
  | fault (cause level : Nat)
  | poison
  deriving DecidableEq, Repr

/-- Directory entries of levels 0 and 1: V and NEXT; malformed when a zero field is set (R353, R356). -/
def dirMalformed (e : Nat) : Bool := bits e 46 18 != 0 || bits e 1 11 != 0
def dirNext (e : Nat) : Nat := bits e 12 34 * 4096

/-- Region entries of level 2 (R354, R356). -/
def regionLarge (e : Nat) : Bool := e.testBit 1
def regionLeaf (e : Nat) : Nat := bits e 5 41 * 32
def regionMalformed (e : Nat) : Bool := bits e 46 18 != 0 || bits e 2 3 != 0 || (!regionLarge e && bits e 5 7 != 0)

/-- Leaf entries (R355, R356). -/
def leafV (e : Nat) : Bool := e.testBit 0
def leafW (e : Nat) : Bool := e.testBit 1
def leafX (e : Nat) : Bool := e.testBit 2
def leafTso (e : Nat) : Bool := e.testBit 3
def leafFab (e : Nat) : Bool := e.testBit 4
def leafFrame (e : Nat) : Nat := bits e 14 32
def leafNode (e : Nat) : Nat := bits e 48 16
def leafMalformed (large : Bool) (e : Nat) : Bool :=
  bits e 46 2 != 0 || bits e 5 9 != 0 || (!leafFab e && leafNode e != 0) || (large && bits e 14 7 != 0)

/-- An address of the queue window (R316). -/
def isWindowAddr (a : Nat) : Bool := 0x3E0000000000 ≤ a && a < 0x3E0000008000
/-- The frames of the queue window (R316). -/
def isWindowFrame (f : Nat) : Bool := f == 0xF8000000 || f == 0xF8000001

/-- Outside device memory or outside the tenant's groups (R357). -/
def outOfRange (g : BitVec 32) (a n : Nat) : Bool := !(rangeDevice a n && groupsOk g a n)

/-- The walker's read of a table entry: none when its error lasts (R358, R374). -/
def State.tableEntry (s : State) (a : Nat) : Option Nat := if s.poisonedRange a 8 then none else some (s.num a 8)

/-- What the leaf gives an access (R358 to R360). -/
def leafResult (s : State) (g : BitVec 32) (k : AccKind) (va : Nat) (large : Bool) (e : Nat) : WalkRes :=
  let size := if large then 2 ^ 21 else 2 ^ 14
  if !leafV e then .fault 0 3
  else if leafMalformed large e then .fault 3 3
  else
    match k, leafX e, leafW e with
    | .fetch, false, _ => .fault 2 3
    | .store, _, false => .fault 1 3
    | .atomic, _, false => .fault 1 3
    | _, _, _ =>
      let page := leafFrame e * 2 ^ 14 / size * size
      let pa := page + va % size
      let away := leafFab e && (leafNode e != s.fabric.node || isWindowFrame (leafFrame e))
      if away then .ok pa true (leafNode e) (leafTso e)
      else if outOfRange g page size then .fault 4 3
      else .ok pa false 0 (leafTso e)

/-- What a walk comes to: its answer; page address, page size and leaf entry when it reached a leaf; the table entries read from memory. -/
structure Walked where
  res : WalkRes
  leaf : Option (Nat × Nat × Nat)
  reads : List Nat
  deriving DecidableEq, Repr

/-- Virtual address bits that an entry of level 0, 1 or 2 covers. -/
def levelShift (lvl : Nat) : Nat := match lvl with | 0 => 41 | 1 => 32 | _ => 23

/-- A directory or region entry as a walk of a cluster takes it: from the cluster's walk cache when it is there, else from memory (R361, R362);
with the address read, if any. -/
def State.upperEntry (s : State) (cluster ctx lvl va a : Nat) : Option Nat × List Nat :=
  match s.walks.find? fun w => w.cluster == cluster && w.ctx == ctx && w.level == lvl && w.index == va >>> levelShift lvl with
  | some w => (some w.entry.toNat, [])
  | none => (s.tableEntry a, [a])

/-- The walk of R358 from the root table, by a cluster. -/
def State.walk (s : State) (cluster ctx : Nat) (k : AccKind) (va : Nat) : Walked :=
  match s.ctx? ctx with
  | none => ⟨.fault 0 0, none, []⟩
  | some c =>
    let g := match s.tenant? c.tenant with | some t => t.pcgrp | none => 0
    let x0 := s.upperEntry cluster ctx 0 va (c.ptroot + 8 * bits va 41 11)
    match x0.1 with
    | none => ⟨.poison, none, x0.2⟩
    | some e0 =>
      if !leafV e0 then ⟨.fault 0 0, none, x0.2⟩
      else if dirMalformed e0 then ⟨.fault 3 0, none, x0.2⟩
      else if outOfRange g (dirNext e0) 4096 then ⟨.fault 4 0, none, x0.2⟩
      else
        let x1 := s.upperEntry cluster ctx 1 va (dirNext e0 + 8 * bits va 32 9)
        let rs := x0.2 ++ x1.2
        match x1.1 with
        | none => ⟨.poison, none, rs⟩
        | some e1 =>
          if !leafV e1 then ⟨.fault 0 1, none, rs⟩
          else if dirMalformed e1 then ⟨.fault 3 1, none, rs⟩
          else if outOfRange g (dirNext e1) 4096 then ⟨.fault 4 1, none, rs⟩
          else
            let x2 := s.upperEntry cluster ctx 2 va (dirNext e1 + 8 * bits va 23 9)
            let rs := rs ++ x2.2
            match x2.1 with
            | none => ⟨.poison, none, rs⟩
            | some r =>
              if !leafV r then ⟨.fault 0 2, none, rs⟩
              else if regionMalformed r then ⟨.fault 3 2, none, rs⟩
              else
                let large := regionLarge r
                let a := regionLeaf r + 8 * (if large then bits va 21 2 else bits va 14 9)
                let rs := rs ++ [a]
                match s.tableEntry a with
                | none => ⟨.poison, none, rs⟩
                | some f =>
                  if outOfRange g (regionLeaf r) (if large then 32 else 4096) then ⟨.fault 4 2, none, rs⟩
                  else
                    let size := if large then 2 ^ 21 else 2 ^ 14
                    ⟨leafResult s g k va large f, some (va / size * size, size, f), rs⟩

/-- The cluster whose walker serves a core or a tensor address engine. -/
def walkCluster (ofCore : Bool) (unit : Nat) : Nat := if ofCore then clusterOf unit else unit

/-- Translate an access of a core (ofCore) or of a cluster's tensor address engine: through a cached entry of its TLB when there
is one, otherwise by a walk (R361, R362). -/
def State.translate (s : State) (ofCore : Bool) (unit ctx : Nat) (k : AccKind) (va : Nat) : WalkRes :=
  match s.tlb.find? (fun e => e.ofCore == ofCore && e.unit == unit && e.ctx == ctx && e.page ≤ va && va < e.page + e.size) with
  | some e =>
    let g := match s.ctx? ctx with
      | some c => (match s.tenant? c.tenant with | some t => t.pcgrp | none => 0) | none => 0
    leafResult s g k va (e.size == 2 ^ 21) e.leaf.toNat
  | none => (s.walk (walkCluster ofCore unit) ctx k va).res

/-- Cache the translation of an address, when its entry is valid, well formed and in range (R361). -/
def State.tlbFill (s : State) (ofCore : Bool) (unit ctx va : Nat) : State :=
  let w := s.walk (walkCluster ofCore unit) ctx .load va
  match w.res, w.leaf with
  | .ok .., some (page, size, leaf) =>
    let cap := if ofCore then 256 else 512
    let mine := s.tlb.filter fun e => e.ofCore == ofCore && e.unit == unit
    if mine.length < cap then
      { s with tlb := s.tlb ++ [{ ofCore := ofCore, unit := unit, ctx := ctx, page := page, size := size, leaf := BitVec.ofNat 64 leaf }] }
    else s
  | _, _ => s

/-- A directory or region entry of an address, as memory holds it, enters a cluster's walk cache, when the walk reaches it and it is valid, well
formed and in range (R361). -/
def State.walkFill (s : State) (cluster ctx lvl va : Nat) : Option State :=
  match s.ctx? ctx with
  | none => none
  | some c =>
    let g := match s.tenant? c.tenant with | some t => t.pcgrp | none => 0
    let dirOk := fun e => leafV e && !dirMalformed e && !outOfRange g (dirNext e) 4096
    let keep := fun e : Nat => some { s with walks := s.walks.filter (fun w => !(w.cluster == cluster && w.ctx == ctx && w.level == lvl &&
      w.index == va >>> levelShift lvl)) ++ [{ cluster := cluster, ctx := ctx, level := lvl, index := va >>> levelShift lvl, entry := BitVec.ofNat 64 e }] }
    match lvl with
    | 0 => (s.tableEntry (c.ptroot + 8 * bits va 41 11)).bind fun e => if dirOk e then keep e else none
    | 1 => (s.upperEntry cluster ctx 0 va (c.ptroot + 8 * bits va 41 11)).1.bind fun e0 => if !dirOk e0 then none else
        (s.tableEntry (dirNext e0 + 8 * bits va 32 9)).bind fun e => if dirOk e then keep e else none
    | _ => (s.upperEntry cluster ctx 0 va (c.ptroot + 8 * bits va 41 11)).1.bind fun e0 => if !dirOk e0 then none else
        (s.upperEntry cluster ctx 1 va (dirNext e0 + 8 * bits va 32 9)).1.bind fun e1 => if !dirOk e1 then none else
          (s.tableEntry (dirNext e1 + 8 * bits va 23 9)).bind fun r =>
            if leafV r && !regionMalformed r && !outOfRange g (regionLeaf r) (if regionLarge r then 32 else 4096) then keep r else none

/-- Table entries that a walk reads with an error that lasts mark their frames and are counted (R358, R374, R376). -/
def State.noteWalk (s : State) (ofCore : Bool) (unit ctx : Nat) (k : AccKind) (va : Nat) : State :=
  if s.lasting.isEmpty || (s.tlb.any fun e => e.ofCore == ofCore && e.unit == unit && e.ctx == ctx && e.page ≤ va && va < e.page + e.size) then s
  else (s.walk (walkCluster ofCore unit) ctx k va).reads.foldl (fun s a => s.noteRead a 8) s

/-- A virtual address that breaks R92. -/
def badVA (a : Word) : Bool := a.toNat ≥ 2 ^ 52

/-- Where an address lies, when its walk succeeds. -/
def WalkRes.loc : WalkRes → Option Loc
  | .ok pa true node _ => some (.node node pa)
  | .ok pa false _ _ => some (.home pa)
  | _ => none

/-- An access to a fabric-mapped address of a node is carried out: a route reaches the node, and the node does not refuse it. Of this node's own
memory only the queue window is reached so (R316, R360). -/
def State.fabOk (s : State) (node pa : Nat) : Bool :=
  if node == s.fabric.node then isWindowAddr pa
  else s.reachable node && (tget node s.nodes).isSome && !s.fabric.refuses.contains (node, pa / 2 ^ 14)

/-- Bytes that a unit reads through a translation, from an address up: errors that last, of the data and of the table entries, mark their frames and
are counted (R374, R376). -/
def State.noteVA (s : State) (ofCore : Bool) (unit ctx : Nat) (k : AccKind) (va : Word) (n : Nat) : State :=
  if s.lasting.isEmpty then s
  else (List.range n).foldl (fun s i =>
    let a := va + BitVec.ofNat 64 i
    if badVA a then s
    else
      let s := if i = 0 || a.toNat % 2 ^ 14 = 0 then s.noteWalk ofCore unit ctx k a.toNat else s
      match s.translate ofCore unit ctx k a.toNat with
      | .ok pa false _ _ => s.noteRead pa 1
      | _ => s) s

/-- The same for the table entries alone of a range that the part writes. -/
def State.noteWalks (s : State) (ctx : Nat) (k : AccKind) (va : Word) (n : Nat) : State :=
  if s.lasting.isEmpty then s
  else (List.range n).foldl (fun s i =>
    let a := va + BitVec.ofNat 64 i
    if badVA a || (i ≠ 0 && a.toNat % 2 ^ 14 ≠ 0) then s else s.noteWalk false 0 ctx k a.toNat) s

/-- The outcome of reading bytes through a context's translation on the part's behalf. -/
inductive ReadRes where
  | ok (bs : List Byte)
  | bad
  | fault (va : Nat) (cause level : Nat)
  | refused
  | poison
  deriving DecidableEq, Repr

/-- Read bytes at a virtual address one page crossing at a time: address check, walk, poison, in that order per byte (R92, R358,
R415, R416). -/
def State.readVA (s : State) (ofCore : Bool) (unit ctx : Nat) (k : AccKind) (va : Word) (n : Nat) : ReadRes :=
  go n va []
where
  go : Nat → Word → List Byte → ReadRes
  | 0, _, acc => .ok acc.reverse
  | m + 1, a, acc =>
    if badVA a then .bad
    else match s.translate ofCore unit ctx k a.toNat with
      | .fault c l => .fault a.toNat c l
      | .poison => .poison
      | .ok pa fab node _ =>
        if fab then
          if s.fabOk node pa then
            go m (a + 1) ((s.readLoc (.node node pa)).1 :: acc)
          else .refused
        else if s.poisonedAt pa then .poison
        else go m (a + 1) (s.byte pa :: acc)

/-- The walk for a byte reads a table entry whose error lasts (R358). -/
def State.badTable (s : State) (ofCore : Bool) (unit ctx : Nat) (k : AccKind) (va : Word) : Bool :=
  !badVA va && (s.translate ofCore unit ctx k va.toNat == .poison)

/-- Units of 32 bytes of which a run of places, in the order of virtual addresses, holds every byte: a unit lies in one page. -/
def wholeUnits (locs : List (Option Loc)) : List Nat :=
  (locs.zip (locs.drop 31)).filterMap fun p => match p with
    | (some (.home a), some (.home b)) => if a % 32 = 0 && b = a + 31 then some (a / 32) else none
    | _ => none

/-- Write bytes at a virtual address on the part's behalf (completion records, mailboxes): none when a walk fails. A unit that is written whole loses its poison
(R375). Bytes of a page that is fabric-mapped to a node that refuses them, or that no route reaches, are lost without a sign: R360 knows a launch's access only
(DESIGN CHOICE, log entry 69). -/
def State.writeVA (s : State) (ctx : Nat) (va : Word) (bs : List Byte) : Option State :=
  let locs := (List.range bs.length).map fun i =>
    let a := va + BitVec.ofNat 64 i
    if badVA a then none else (s.translate false 0 ctx .store a.toNat).loc
  let whole := wholeUnits locs
  if locs.any (·.isNone) then none
  else some ((locs.zip bs).foldl (fun s p => match p.1 with
    | some (.home pa) => s.writeHome pa [p.2]
    | some (.node n pa) => if s.fabOk n pa then { s with nodes := tmod n (mwrite pa p.2) s.nodes } else s
    | _ => s) { s with mempoison := s.mempoison.filter fun u => !whole.contains u })

/-! ### The on-chip physical map (R110, R111) -/

/-- The parts of an on-chip address: span, cluster, core, kind, offset; none when R111 refuses it. -/
def onChip (pa : Nat) : Option (Nat × Nat × Nat) :=
  let off := bits pa 0 22
  let kind := bits pa 22 2
  if bits pa 40 6 = 0x3F ∧ bits pa 38 2 = 0 ∧ bits pa 32 2 = 0 ∧ bits pa 24 8 ≤ 191 ∧ off < (if kind = 3 then 65536 else 131072)
  then some (768 * bits pa 36 2 + 192 * bits pa 34 2 + bits pa 24 8, kind, off) else none

/-- The on-chip address of a byte of a register-file row (R110). -/
def onChipRow (core row lane : Nat) : Nat :=
  0x3F0000000000 + spanOf core * 2 ^ 36 + (clusterOf core % 4) * 2 ^ 34 + core % 192 * 2 ^ 24 + row * 256 + 8 * lane

end Sys2Proof.Machine
end

