-- ==== Sys2Proof/Machine/Queues.lean ====
section
/-! DEFINITION. User queues: the QCB and its image in memory (R314, R315), tail writes and the queue window (R316), accounts (R336, R337). -/

namespace Sys2Proof.Machine

/-- STATE codes of a QCB (R315). -/
def QueueSt.code : QueueSt → Nat
  | .idle => 0 | .pending => 1 | .resident => 2 | .waiting => 3 | .halted => 4 | .error => 5

/-- The 256 bytes of a QCB (R315). -/
def Queue.image (q : Queue) (qnum : Nat) : List Byte :=
  leBytes 8 (q.badTail * 2 ^ 32) ++
  leBytes 8 (q.prio * 2 ^ 27 + q.age * 2 ^ 30 + q.st.code * 2 ^ 34 + q.ringLog * 2 ^ 38 + q.ctx * 2 ^ 42 + qnum * 2 ^ 52) ++
  leBytes 8 (q.quantum + q.feeder * 2 ^ 32 + q.waitEv * 2 ^ 48) ++ leBytes 8 q.waitVal ++
  leBytes 8 (q.deficit % 2 ^ 64).toNat ++ leBytes 8 q.head ++ leBytes 8 q.tail ++ leBytes 8 q.ringBase.toNat ++
  List.replicate 192 0

/-- A queue as the administering node wrote its QCB (R314, R315): DEFICIT, AGE, WAITVAL, WAITEV and BADTAIL too count as they stand when EN is set
(DESIGN CHOICE, log entry 67). -/
def Queue.ofImage (addr tenant : Nat) (n : Nat) : Queue :=
  let st : QueueSt := .idle
  { qcbAddr := addr, tenant := tenant, en := false, ringBase := BitVec.ofNat 64 (bits n 448 64), tail := bits n 384 64,
    head := bits n 320 64, deficit := sx 64 (bits n 256 64), waitVal := bits n 192 64, waitEv := bits n 176 16,
    feeder := bits n 160 16, quantum := bits n 128 32, ctx := bits n 106 10, ringLog := bits n 102 4, st := st, age := bits n 94 4,
    prio := bits n 91 3, badTail := bits n 32 32, slot := none, loading := false, since := 0, saveReq := false,
    wasOff := false, waitSince := 0, tailWas := (0, 0) }

/-- The part keeps this queue's QCB: from EN on, until the queue is off and has given its slot up; outside that time the QCB is the administering
node's to write (R314, R320). -/
def Queue.kept (k : Queue) : Bool := k.en || k.slot.isSome

/-- Write a queue's QCB through to memory. -/
def State.syncQueue (s : State) (q : Nat) : State :=
  match s.queue? q with
  | some k => s.writeHome k.qcbAddr (k.image q)
  | none => s

/-- A resident queue has no packet left in its ring. -/
def Queue.runDry (k : Queue) : Bool := k.st == .resident && k.head == k.tail
/-- A change of a queue that calls for a decision of the queue scheduler core: it becomes PENDING, or a resident queue becomes idle (R326). -/
def Queue.callsFor (old new : Queue) : Bool := (new.st == .pending && old.st != .pending) || (new.runDry && !old.runDry)

/-- Change a queue, and its QCB when the part keeps it. A QUEUE_CONTROL that names a queue whose entry is disabled and that holds no slot changes only what the part
has of it, which a write of EN = 1 reads anew from the QCB (DESIGN CHOICE, log entry 69: R320 names the states, not the entry's EN). -/
def State.updQueue (s : State) (q : Nat) (f : Queue → Queue) : State :=
  match s.queue? q with
  | none => s
  | some k =>
    let t := ({ s with schedDue := s.schedDue || k.callsFor (f k) }.modQueue q f)
    if k.kept || (f k).kept then t.syncQueue q else t

/-- The queue becomes PENDING from IDLE or HALTED: AGE := PRIO (R326). -/
def Queue.wake (k : Queue) : Queue := { k with st := .pending, age := k.prio }

/-- The least tail that a write may name: TAIL as it stood before the writes accepted in this cycle (R316). -/
def State.tailFloor (s : State) (k : Queue) : Nat := if k.tailWas.1 == s.cycles + 1 then k.tailWas.2 else k.tail

/-- A write of `v` to the tail register of queue `q` by node `src`; of several accepted in one cycle the largest stands (R316). -/
def State.tailWrite (s : State) (src q v : Nat) : State :=
  match s.queue? q with
  | none => s
  | some k =>
    if !k.en then s
    else
      let resetting := match s.tenant? k.tenant with | some t => t.st == 2 | none => false
      if src == k.feeder && s.tailFloor k ≤ v && v ≤ k.head + 2 ^ (k.ringLog + 6) && !resetting then
        s.updQueue q fun k =>
          let k := { k with tail := max k.tail v, tailWas := (s.cycles + 1, s.tailFloor k) }
          if k.st = .idle then k.wake else k
      else s.updQueue q fun k => { k with badTail := if k.badTail < 0xFFFFFFFF then k.badTail + 1 else k.badTail }

/-- A location in this node's queue window (R316). -/
def State.isWindow (s : State) : Loc → Bool
  | .node n a => n == s.fabric.node && isWindowAddr a
  | _ => false

/-- A read of the window: the TAIL of a queue by an aligned access of 8 bytes, else zero (R316). -/
def State.readWindow (s : State) (l : Loc) (n : Nat) : List (Byte × Bool) :=
  match l with
  | .node _ a =>
    if n = 8 && a % 8 = 0 then
      (leBytes 8 (match s.queue? ((a - 0x3E0000000000) / 8) with | some k => k.tail | none => 0)).map (·, false)
    else List.replicate n (0, false)
  | _ => List.replicate n (0, false)

/-- A write to the window by this node, through the loopback: an aligned write of 8 bytes is a tail write, any other is discarded. -/
def State.writeWindow (s : State) (l : Loc) (bs : List Byte) : State :=
  match l with
  | .node _ a =>
    if bs.length = 8 && a % 8 = 0 then s.tailWrite s.fabric.node ((a - 0x3E0000000000) / 8) (leNat bs) else s
  | _ => s

/-! ### Accounts (R336, R337) -/

/-- DEFICIT saturates at ±2^62. -/
def satDeficit (v : Int) : Int := if v < -(2 ^ 62 : Nat) then -(2 ^ 62 : Nat) else if (2 ^ 62 : Nat) < v then (2 ^ 62 : Nat) else v

/-- Change the balance of the account that a launch belongs to: its queue's, or its tenant's invocation account. -/
def State.modAccount (s : State) (lid : Nat) (f : Int → Int) : State :=
  match s.launch? lid with
  | some l =>
    match l.queue with
    | some q => s.updQueue q fun k => { k with deficit := satDeficit (f k.deficit) }
    | none => s.modTenant (s.tenantOfCtx l.ctx) fun t => { t with deficit := satDeficit (f t.deficit) }
  | none => s

/-- Two launches share an account. -/
def State.sameAccount (s : State) (a b : Launch) : Bool :=
  a.queue == b.queue && (a.queue.isSome || s.tenantOfCtx a.ctx == s.tenantOfCtx b.ctx)

/-- A launch that still has teams to place. -/
def State.unplaced (s : State) (lid : Nat) (l : Launch) : Bool :=
  (l.st == .running || l.st == .starting) && (s.teams.filter fun t => t.1.lid == lid).length < l.nteams

/-- An account with no launch with unplaced teams and no resident team has its balance set to 0. -/
def State.settleAccount (s : State) (lid : Nat) : State :=
  match s.launch? lid with
  | some l =>
    let busy := s.launches.any fun p => s.sameAccount p.2 l && (s.unplaced p.1 p.2 || s.teams.any fun t => t.1.lid == p.1 && t.2.onCore)
    if busy then s else s.modAccount lid fun _ => 0
  | none => s

end Sys2Proof.Machine
end

