-- ==== Sys2Proof/Machine/Float.lean ====
section
/-! DEFINITION. Exact arithmetic over the formats of R63 and R64: decoding, one rounding (RoundTo of R69 to R74), the special
values of R75 and R76, sums formed exactly (R79), products, quotients, square roots, conversions and scales (R87 to R89).
A bit pattern and a set of FSTAT flags are natural numbers here; every value is an exact dyadic or a quotient of naturals. -/

namespace Sys2Proof.Machine

/-- FMODE, field by field (R69). -/
structure FMode where
  /-- 0 RNE, 1 RZ, 2 RUP, 3 RDN -/
  rm : Nat
  satn : Bool
  flushI : Nat
  flushR : Nat
  dnan : Bool
  deriving DecidableEq, Repr

/-- The fields of an FMODE word (R69). -/
def FMode.ofWord (w : BitVec 32) : FMode :=
  { rm := (w.extractLsb' 0 2).toNat, satn := w.getLsbD 2, flushI := (w.extractLsb' 4 4).toNat,
    flushR := (w.extractLsb' 8 4).toNat, dnan := w.getLsbD 12 }

/-- The value of a bit pattern: a NaN with its sign, whether it signals and its mantissa field; an infinity; or
(−1)^neg × m × 2^e. -/
inductive FV where
  | nan (neg sig : Bool) (mant mbits : Nat)
  | inf (neg : Bool)
  | fin (neg : Bool) (m : Nat) (e : Int)
  deriving DecidableEq, Repr

/-- Exponent bits of a float format (R63). -/
def expBits (f : Nat) : Nat :=
  match f with | 0 => 11 | 1 => 8 | 2 => 8 | 3 => 5 | 4 => 4 | 5 => 5 | _ => 8

/-- Mantissa bits of a float format (R63). -/
def manBits (f : Nat) : Nat :=
  match f with | 0 => 52 | 1 => 23 | 2 => 7 | 3 => 10 | 4 => 3 | 5 => 2 | _ => 0

/-- Exponent bias of a float format (R63). -/
def expBias (f : Nat) : Nat :=
  match f with | 0 => 1023 | 1 => 127 | 2 => 127 | 3 => 15 | 4 => 7 | 5 => 15 | _ => 127

/-- Flush class bit of a float format: 0 class 64, 1 class 32, 2 class 16, 3 narrow (R71). -/
def flushClass (f : Nat) : Nat :=
  match f with | 0 => 0 | 1 => 1 | 2 => 2 | 3 => 2 | _ => 3

/-- The sign bit of a float format, as a number. -/
def signBit (f : Nat) : Nat := 2 ^ (expBits f + manBits f)

/-- The canonical NaN of a format (R65). -/
def canonNaN (f : Nat) : Nat :=
  match f with
  | 0 => 0x7FF8000000000000 | 1 => 0x7FC00000 | 2 => 0x7FC0 | 3 => 0x7E00 | 4 => 0x7F | 5 => 0x7E | _ => 0xFF

/-- +∞ of a format; e4m3 has none, and reads as 0x7F (R74). -/
def infBits (f : Nat) : Nat :=
  match f with
  | 4 => 0x7F
  | _ => (2 ^ expBits f - 1) * 2 ^ manBits f

/-- The largest finite value of a format (R63). -/
def maxFinite (f : Nat) : Nat :=
  match f with
  | 4 => 0x7E
  | _ => (2 ^ expBits f - 1) * 2 ^ manBits f - 1

/-- Decode a pattern of a float format, codes 0 to 5, or of e8m0, code 6 (R63, R65). -/
def fdecode (f bits : Nat) : FV :=
  if f = 6 then
    if bits % 256 = 255 then .nan false false 0 0 else .fin false 1 ((bits % 256 : Nat) - 127)
  else
    let mb := manBits f
    let mant := bits % 2 ^ mb
    let ex := bits / 2 ^ mb % 2 ^ expBits f
    let neg := bits / signBit f % 2 == 1
    if f = 4 then
      if ex = 15 ∧ mant = 7 then .nan neg false mant mb
      else if ex = 0 then .fin neg mant (1 - 7 - 3)
      else .fin neg (mant + 8) ((ex : Int) - 7 - 3)
    else if ex = 2 ^ expBits f - 1 then
      if mant = 0 then .inf neg
      else .nan neg (f != 5 && mant < 2 ^ (mb - 1)) mant mb
    else if ex = 0 then .fin neg mant (1 - (expBias f : Int) - mb)
    else .fin neg (mant + 2 ^ mb) ((ex : Int) - expBias f - mb)

/-- The value is a subnormal of the format. -/
def isSubnormal (f bits : Nat) : Bool :=
  f != 6 && bits % 2 ^ manBits f != 0 && bits / 2 ^ manBits f % 2 ^ expBits f == 0

/-- Read an input operand: a subnormal of a flushed class is a zero of its sign (R71). -/
def fread (md : FMode) (f bits : Nat) : FV :=
  if isSubnormal f bits && md.flushI.testBit (flushClass f) then .fin (bits / signBit f % 2 == 1) 0 0
  else fdecode f bits

def FV.isNaN : FV → Bool
  | .nan .. => true | _ => false
def FV.isSNaN : FV → Bool
  | .nan _ s _ _ => s | _ => false
def FV.neg? : FV → Bool
  | .nan n .. => n | .inf n => n | .fin n _ _ => n
def FV.isZero : FV → Bool
  | .fin _ 0 _ => true | _ => false
/-- The same value with its sign inverted. -/
def FV.flip : FV → FV
  | .nan n s m b => .nan (!n) s m b | .inf n => .inf (!n) | .fin n m e => .fin (!n) m e

/-- A NaN carried to a format under R76: the canonical NaN with DNAN, in a narrow format (R75), or when truncation leaves a
nonzero payload zero; otherwise quiet, with its sign and the high bits of its payload. -/
def nanTo (md : FMode) (f : Nat) : FV → Nat
  | .nan neg _ mant mb =>
    if md.dnan || 4 ≤ f then canonNaN f
    else
      let payload := mant % 2 ^ (mb - 1)
      let tb := manBits f - 1
      let carried := if mb - 1 ≤ tb then payload * 2 ^ (tb - (mb - 1)) else payload / 2 ^ (mb - 1 - tb)
      if carried = 0 ∧ payload ≠ 0 then canonNaN f
      else (if neg then signBit f else 0) + infBits f + 2 ^ tb + carried
  | _ => canonNaN f

/-- Whether a magnitude `n + rest`, with 0 ≤ rest < 1, rounds up (R69): `half` compares rest with 1/2. -/
def roundsUp (rm : Nat) (neg odd : Bool) (inexact : Bool) (half : Ordering) : Bool :=
  match rm with
  | 0 => half == .gt || (half == .eq && odd)
  | 1 => false
  | 2 => inexact && !neg
  | _ => inexact && neg

/-- Round num ÷ den to a natural number; the second part says whether it was inexact. -/
def roundNat (rm : Nat) (neg : Bool) (num den : Nat) : Nat × Bool :=
  let n := num / den
  let r := num % den
  let up := roundsUp rm neg (n % 2 == 1) (r != 0) (compare (2 * r) den)
  (if up then n + 1 else n, r != 0)

/-- num ÷ den × 2^e as a quotient of naturals. -/
def scaleQ (num den : Nat) (e : Int) : Nat × Nat :=
  if 0 ≤ e then (num * 2 ^ e.toNat, den) else (num, den * 2 ^ (-e).toNat)

/-- floor(log2 (num ÷ den)), for positive num and den. -/
def floorLog2Q (num den : Nat) : Int :=
  let k : Int := (Nat.log2 num : Int) - Nat.log2 den
  let (a, b) := scaleQ num den (-k)
  if a < b then k - 1 else k

/-- The value an overflowing result takes (R74). `sat` says that the operation is one SATN acts on; it acts only into bf16, f16,
e4m3 and e5m2. -/
def overflowBits (md : FMode) (f : Nat) (neg sat : Bool) : Nat :=
  let s := if neg then signBit f else 0
  if sat && md.satn && 2 ≤ f then s + maxFinite f
  else
    let toInf := match md.rm with
      | 0 => true | 1 => false | 2 => !neg | _ => neg
    if toInf then (if f = 4 && md.dnan then 0x7F else s + infBits f) else s + maxFinite f

/-- RoundTo (R69, R73, R74): the exact value (−1)^neg × num ÷ den × 2^e, num > 0, rounded once into a float format. -/
def roundQ (md : FMode) (f : Nat) (sat neg : Bool) (num den : Nat) (e : Int) : FRes :=
  let mb := manBits f
  let emin : Int := 1 - (expBias f : Int)
  let big : Int := floorLog2Q num den + e
  let qn : Int := big - mb                      -- quantum with an unbounded exponent
  let q : Int := max qn (emin - mb)
  let a := scaleQ num den (e - q)
  let (n, inexact) := roundNat md.rm neg a.1 a.2
  let s := if neg then signBit f else 0
  let topN := maxFinite f % 2 ^ mb + 2 ^ mb     -- the largest significand at the top exponent
  let topE : Int := (maxFinite f / 2 ^ mb : Nat) - (expBias f : Int) - mb
  let ovf := decide (q > topE) || (decide (q = topE) && decide (n > topN))
  if ovf then ⟨overflowBits md f neg sat, fOF + fNX⟩
  else
    let u := scaleQ num den (e - qn)
    let nu := (roundNat md.rm neg u.1 u.2).1
    let tiny := decide (qn < emin - mb) && !(decide (qn + 1 = emin - mb) && nu == 2 ^ (mb + 1))
    if n < 2 ^ mb then                          -- zero or subnormal
      if n ≠ 0 ∧ md.flushR.testBit (flushClass f) then ⟨s, fUF + fNX⟩
      else ⟨s + n, if inexact then fNX + (if tiny then fUF else 0) else 0⟩
    else
      let n' := if n = 2 ^ (mb + 1) then n / 2 else n
      let q' := if n = 2 ^ (mb + 1) then q + 1 else q
      ⟨s + ((q' + mb + expBias f).toNat) * 2 ^ mb + (n' - 2 ^ mb),
        if inexact then fNX + (if tiny then fUF else 0) else 0⟩

/-- A zero of the format. -/
def zeroBits (f : Nat) (neg : Bool) : Nat := if neg then signBit f else 0

/-- An infinity delivered as a result of arithmetic in the format; into e4m3 it is the NaN of R74, or ±448 with SATN (R75). -/
def infTo (md : FMode) (f : Nat) (sat neg : Bool) : FRes :=
  if f = 4 then
    if sat && md.satn then ⟨(if neg then 0x80 else 0) + 0x7E, 0⟩
    else ⟨if md.dnan then 0x7F else (if neg then 0xFF else 0x7F), fIV⟩
  else ⟨(if neg then signBit f else 0) + infBits f, 0⟩

/-- Round a finite dyadic value, its sign kept when it is zero. -/
def roundFin (md : FMode) (f : Nat) (sat neg : Bool) (m : Nat) (e : Int) : FRes :=
  if m = 0 then ⟨zeroBits f neg, 0⟩ else roundQ md f sat neg m 1 e

/-- IV if any of the operands is a signalling NaN (R75). -/
def ivOf (xs : List FV) : Nat := if xs.any FV.isSNaN then fIV else 0

/-- The NaN of R76 among operands in their order. -/
def nanOf (md : FMode) (f : Nat) (xs : List FV) : Nat :=
  match xs.find? FV.isNaN with
  | some x => nanTo md f x
  | none => canonNaN f

/-- The least exponent of a list of finite values (others ignored). -/
def minExp : List FV → Option Int
  | [] => none
  | .fin _ _ e :: xs => some (match minExp xs with | none => e | some k => min e k)
  | _ :: xs => minExp xs

/-- The exact sum of finite values in units of 2^e. -/
def sumAt (e : Int) : List FV → Int
  | [] => 0
  | .fin n m k :: xs => (if n then -1 else 1) * (m * 2 ^ (k - e).toNat : Nat) + sumAt e xs
  | _ :: xs => sumAt e xs

/-- ExactSum (R79) of values no one of which is a NaN, rounded once; `nan` is what an infinity of each sign gives. -/
def sumFinite (md : FMode) (f : Nat) (xs : List FV) (nan : Nat) : FRes :=
  let pos := xs.any fun x => match x with | .inf false => true | _ => false
  let neg := xs.any fun x => match x with | .inf true => true | _ => false
  if pos && neg then ⟨nan, fIV⟩
  else if pos then infTo md f false false
  else if neg then infTo md f false true
  else
    let e := (minExp xs).getD 0
    let t := sumAt e xs
    if t = 0 then
      ⟨zeroBits f (md.rm == 3 || (!xs.isEmpty && xs.all fun x => x.isZero && x.neg?)), 0⟩
    else roundQ md f false (t < 0) t.natAbs 1 e

/-- ExactSum (R79) with the NaN rules of R75 and R76; `order` lists the operands in the order of R76. -/
def exactSum (md : FMode) (f : Nat) (xs order : List FV) : FRes :=
  if xs.any FV.isNaN then
    let both := xs.any (fun x => match x with | .inf false => true | _ => false) &&
      xs.any (fun x => match x with | .inf true => true | _ => false)
    ⟨nanOf md f order, (ivOf order) ||| (if both then fIV else 0)⟩
  else sumFinite md f xs (canonNaN f)

/-- An exact product: none for 0 × ∞ (R75), a NaN operand itself when there is one. -/
def fmul (a b : FV) : Option FV :=
  match a, b with
  | .nan n s m k, .inf _ => some (.nan n s m k)
  | .nan n s m k, .fin .. => some (.nan n s m k)
  | .nan n s m k, .nan .. => some (.nan n s m k)
  | .inf _, .nan n s m k => some (.nan n s m k)
  | .fin .., .nan n s m k => some (.nan n s m k)
  | .inf x, .inf y => some (.inf (x != y))
  | .inf x, .fin y m _ => if m = 0 then none else some (.inf (x != y))
  | .fin x m _, .inf y => if m = 0 then none else some (.inf (x != y))
  | .fin x m e, .fin y n k => some (.fin (x != y) (m * n) (e + k))

/-- a × b, rounded once (R253). -/
def fMul (md : FMode) (f : Nat) (a b : FV) : FRes :=
  match fmul a b with
  | none => ⟨canonNaN f, fIV⟩
  | some (.nan ..) => ⟨nanOf md f [a, b], ivOf [a, b]⟩
  | some (.inf n) => infTo md f false n
  | some (.fin n m e) => roundFin md f false n m e

/-- ±(a × b) + c, rounded once (R253 to R255). -/
def fFma (md : FMode) (f : Nat) (negate : Bool) (a b c : FV) : FRes :=
  match fmul a b with
  | none => ⟨canonNaN f, fIV⟩
  | some p =>
    let p' := if negate then p.flip else p
    if p.isNaN || c.isNaN then
      let inf2 := match p', c with | .inf x, .inf y => x != y | _, _ => false
      ⟨nanOf md f [a, b, c], ivOf [a, b, c] ||| (if inf2 then fIV else 0)⟩
    else sumFinite md f [p', c] (canonNaN f)

/-- a ÷ b, rounded once (R262, R75). `sat` for a quantisation (R87). -/
def fDiv (md : FMode) (f : Nat) (sat : Bool) (a b : FV) : FRes :=
  if a.isNaN || b.isNaN then ⟨nanOf md f [a, b], ivOf [a, b]⟩
  else
    let neg := a.neg? != b.neg?
    match a, b with
    | .inf _, .inf _ => ⟨canonNaN f, fIV⟩
    | .inf _, _ => infTo md f sat neg
    | _, .inf _ => ⟨zeroBits f neg, 0⟩
    | .fin _ m e, .fin _ n k =>
      if n = 0 then (if m = 0 then ⟨canonNaN f, fIV⟩ else ⟨(infTo md f sat neg).bits, fDZ⟩)
      else if m = 0 then ⟨zeroBits f neg, 0⟩
      else roundQ md f sat neg m n (e - k)
    | _, _ => ⟨canonNaN f, fIV⟩

/-- The integer square root, bit by bit from 2^i down. -/
def isqrtFrom (m : Nat) : Nat → Nat → Nat
  | 0, r => r
  | i + 1, r => let t := r + 2 ^ i; isqrtFrom m i (if t * t ≤ m then t else r)

/-- floor(√m). -/
def isqrt (m : Nat) : Nat := isqrtFrom m (Nat.log2 m / 2 + 1) 0

/-- √a, rounded once (R262). The root is taken with four more bits than the format and a sticky bit below them. -/
def fSqrt (md : FMode) (f : Nat) (a : FV) : FRes :=
  match a with
  | .nan .. => ⟨nanTo md f a, ivOf [a]⟩
  | .inf false => ⟨infBits f, 0⟩
  | .inf true => ⟨canonNaN f, fIV⟩
  | .fin neg m e =>
    if m = 0 then ⟨zeroBits f neg, 0⟩
    else if neg then ⟨canonNaN f, fIV⟩
    else
      let m1 := if e % 2 = 0 then m else 2 * m
      let e1 := if e % 2 = 0 then e else e - 1
      let k := manBits f + 5
      let big := m1 * 2 ^ (2 * k)
      let r := isqrt big
      roundQ md f false false (2 * r + (if r * r = big then 0 else 1)) 1 (e1 / 2 - k - 1)

/-- Order of two values neither of which is a NaN. −0 and +0 are equal. -/
def fcmp (a b : FV) : Ordering :=
  match a, b with
  | .inf x, .inf y => if x = y then .eq else if x then .lt else .gt
  | .inf x, _ => if x then .lt else .gt
  | _, .inf y => if y then .gt else .lt
  | .fin x m e, .fin y n k =>
    let l := min e k
    let v : Int := (if x then -1 else 1) * (m * 2 ^ (e - l).toNat : Nat)
    let w : Int := (if y then -1 else 1) * (n * 2 ^ (k - l).toNat : Nat)
    compare v w
  | _, _ => .eq

/-- A value delivered unchanged into its own format (a minimum, a maximum, a quieted copy): FLUSHR still applies (R71). -/
def fPass (md : FMode) (f : Nat) (a : FV) : FRes :=
  match a with
  | .nan .. => ⟨nanTo md f a, ivOf [a]⟩
  | .inf n => ⟨(if n then signBit f else 0) + infBits f, 0⟩
  | .fin n m e => roundFin md f false n m e

/-- Minimum or maximum of two (R75): a NaN gives way to the other operand; −0 is less than +0. -/
def fMinMax (md : FMode) (f : Nat) (wantMax : Bool) (a b : FV) : FRes :=
  match a.isNaN, b.isNaN with
  | true, true => ⟨nanOf md f [a, b], ivOf [a, b]⟩
  | true, false => let r := fPass md f b; ⟨r.bits, r.flags ||| ivOf [a]⟩
  | false, true => let r := fPass md f a; ⟨r.bits, r.flags ||| ivOf [b]⟩
  | false, false =>
    let less := match fcmp a b with
      | .lt => true | .gt => false | .eq => a.neg?
    fPass md f (if less != wantMax then a else b)

/-- The value kept by a running minimum or maximum over several (R85): NaN only when every one is NaN. -/
def fPick (wantMax : Bool) (a b : FV) : FV :=
  if a.isNaN then (if b.isNaN then a else b) else if b.isNaN then a
  else
    let less := match fcmp a b with
      | .lt => true | .gt => false | .eq => a.neg?
    if less != wantMax then a else b

/-- Minimum or maximum of a list (R85). -/
def fMinMaxAll (md : FMode) (f : Nat) (wantMax : Bool) : List FV → FRes
  | [] => ⟨0, 0⟩
  | x :: xs => let r := fPass md f (xs.foldl (fPick wantMax) x); ⟨r.bits, r.flags ||| ivOf (x :: xs)⟩

/-- Round a value to an integer under a mode. -/
def roundInt (rm : Nat) (neg : Bool) (m : Nat) (e : Int) : Nat × Bool :=
  let a := scaleQ m 1 e
  roundNat rm neg a.1 a.2

/-- Float to float (R77): one rounding, with SATN. -/
def cvtFF (md : FMode) (dst : Nat) (a : FV) : FRes :=
  match a with
  | .nan .. => ⟨nanTo md dst a, ivOf [a]⟩
  | .inf n => infTo md dst true n
  | .fin n m e => roundFin md dst true n m e

/-- The range of an integer format (R64). -/
def intMin (f : Nat) : Int := if 12 ≤ f && f ≤ 14 then 0 else -(2 ^ (formatWidth f - 1) : Nat)
def intMax (f : Nat) : Int := if 12 ≤ f && f ≤ 14 then (2 ^ formatWidth f : Nat) - 1 else (2 ^ (formatWidth f - 1) : Nat) - 1

/-- An integer as the bits of a format, wrapping. -/
def intBits (f : Nat) (v : Int) : Nat := (v % (2 ^ formatWidth f : Nat)).toNat

/-- The integer of a pattern of an integer format. -/
def intOf (f bits : Nat) : Int :=
  let w := formatWidth f
  let b := bits % 2 ^ w
  if 12 ≤ f && f ≤ 14 then b else if b < 2 ^ (w - 1) then b else (b : Int) - (2 ^ w : Nat)

/-- A rounded integer value into an integer format: out of range it saturates and sets IV (R75). -/
def intClamp (f : Nat) (v : Int) (inexact : Bool) : FRes :=
  if v < intMin f then ⟨intBits f (intMin f), fIV⟩
  else if intMax f < v then ⟨intBits f (intMax f), fIV⟩
  else ⟨intBits f v, if inexact then fNX else 0⟩

/-- Float to integer (R77, R75). -/
def cvtFI (md : FMode) (dst : Nat) (a : FV) : FRes :=
  match a with
  | .nan .. => ⟨0, fIV⟩
  | .inf n => ⟨intBits dst (if n then intMin dst else intMax dst), fIV⟩
  | .fin n m e =>
    let (r, ix) := roundInt md.rm n m e
    intClamp dst (if n then -(r : Int) else r) ix

/-- Integer to float (R77). -/
def cvtIF (md : FMode) (dst : Nat) (v : Int) : FRes :=
  if v = 0 then ⟨0, 0⟩ else roundQ md dst true (v < 0) v.natAbs 1 0

/-- One element of `vcvt`, from format code to format code (R265). Within one format the source is the result, a NaN of e4m3 or e5m2 too, all of which are quiet
(R65; DEDUCED, log entry 68). -/
def cvtElem (md : FMode) (dst src bits : Nat) : FRes :=
  if src ≤ 6 then
    let a := fread md src bits
    if dst ≤ 5 then
      if src = dst then (if a.isNaN && 4 ≤ dst && !md.dnan then ⟨bits, 0⟩ else fPass md dst a)
      else if src = 6 && a.isNaN then ⟨canonNaN dst, 0⟩
      else cvtFF md dst a
    else cvtFI md dst a
  else
    let v := intOf src bits
    if dst ≤ 5 then cvtIF md dst v else ⟨intBits dst v, 0⟩

/-- `vround` of one element (R264). -/
def fRound (md : FMode) (rm f : Nat) (a : FV) : FRes :=
  match a with
  | .nan .. => ⟨nanTo md f a, ivOf [a]⟩
  | .inf n => ⟨(if n then signBit f else 0) + infBits f, 0⟩
  | .fin n m e =>
    let r := (roundInt rm n m e).1
    let out := roundFin md f false n r 0
    ⟨out.bits, 0⟩

/-- A scale is usable when it is positive and finite (R87). -/
def goodScale (s : FV) : Bool := match s with | .fin false m _ => m != 0 | _ => false

/-- `vqnt` of one element: target format, quotient x ÷ s (R87). -/
def quantElem (md : FMode) (dst : Nat) (x s : FV) : FRes :=
  if !goodScale s then ⟨if dst = 11 then 0 else canonNaN dst, fIV⟩
  else if dst = 11 then
    match x, s with
    | .fin n m e, .fin _ k j =>
      let a := scaleQ m k (e - j)
      let (r, ix) := roundNat md.rm n a.1 a.2
      intClamp 11 (if n then -(r : Int) else r) ix
    | x, _ => cvtFI md 11 x
  else fDiv md dst true x s

/-- `vdqnt` of one element: q × s, rounded once (R88). `q` is a value of a float format or an integer as a dyadic. -/
def dequantElem (md : FMode) (dst : Nat) (q s : FV) : FRes :=
  if !goodScale s then ⟨canonNaN dst, fIV⟩
  else match fmul q s with
    | some (.fin n m e) => roundFin md dst false n m e
    | some (.inf n) => infTo md dst false n
    | _ => ⟨nanOf md dst [q], ivOf [q]⟩

/-- An element of a format as a value: a float format through `fread`, an integer as a dyadic. -/
def elemValue (md : FMode) (f bits : Nat) : FV :=
  if f ≤ 6 then fread md f bits
  else let v := intOf f bits; .fin (v < 0) v.natAbs 0

/-- Emax of the target of a scale code (R89). -/
def scaleEmax (target : Nat) : Int :=
  match target with | 4 => 8 | 5 => 15 | 3 => 15 | 2 => 127 | _ => 6

/-- The scale code of a block (R89). -/
def scaleCode (target : Nat) (xs : List FV) : FRes :=
  if xs.any (fun x => match x with | .fin .. => false | _ => true) then ⟨0xFF, fIV⟩
  else
    let top := xs.foldl (fun (acc : Option Int) x => match x with
      | .fin _ m e => if m = 0 then acc else
          let l := (Nat.log2 m : Int) + e
          some (match acc with | none => l | some k => max k l)
      | _ => acc) none
    match top with
    | none => ⟨127, 0⟩
    | some l =>
      let c := l - scaleEmax target + 127
      if c < 0 then ⟨0, fSCLAMP⟩ else if 254 < c then ⟨254, fSCLAMP⟩ else ⟨c.toNat, 0⟩

end Sys2Proof.Machine
end

