-- ==== Sys2Proof/Machine/Ops.lean ====
section
/-! DEFINITION. The named operations that many meanings share: timelines, estates, handles, gangs, loop buffers, and taking an
exception: a launch is killed, a unit takes a recoverable fault. -/

namespace Sys2Proof.Machine

/-! ### Timelines (R124, R151) -/

def Timeline.zero : Timeline := { issued := 0, finished := [], value := 0 }

/-- Advance the counter through consecutive finished numbers. -/
def Timeline.settle : Nat → Timeline → Timeline
  | 0, t => t
  | n + 1, t =>
    if t.finished.contains (t.value + 1) then
      Timeline.settle n { t with value := t.value + 1, finished := t.finished.filter (· ≠ t.value + 1) }
    else t

/-- A number finishes, in any order; the counter moves only through consecutive ones. -/
def Timeline.finish (t : Timeline) (n : Nat) : Timeline :=
  let t := { t with finished := n :: t.finished }
  Timeline.settle t.finished.length t

/-- The next number of a timeline. -/
def Timeline.issue (t : Timeline) : Nat × Timeline := (t.issued + 1, { t with issued := t.issued + 1 })

/-! ### Estates: what is freed (R41, R42, R48, R57, R61) -/

def Granule.heldMask (g : Granule) : W32 := maskOf (g.heldBy.map (·.1))

/-- A granule with VALID and HELD both zero is freed (R61). -/
def keepGranules (gs : List Granule) : List Granule := gs.filter fun g => g.valid != 0 || !g.heldBy.isEmpty

/-- STATE of a granule (R38): 1 unsealed, 2 sealed, 3 void. -/
def Granule.state (g : Granule) : Nat := if g.void then 3 else if g.isSealed then 2 else 1

/-- The 32-byte header of a granule (R38). -/
def Granule.header (g : Granule) : List Byte :=
  leBytes 8 (g.keybase + g.state * 2 ^ 37 + g.regcnt * 2 ^ 40 + g.regidx * 2 ^ 44 + g.tag * 2 ^ 48) ++
  leBytes 4 g.valid.toNat ++ leBytes 4 g.heldMask.toNat ++ leBytes 4 g.seq ++ leBytes 4 g.lid ++ leBytes 8 g.row.poison.toNat

/-- A granule as it stands in the reserve: its header, then its 256-byte row (R38). -/
def Granule.image (g : Granule) : List Byte := g.header ++ (List.range 32).flatMap fun l => leBytes 8 (g.row.lane l).toNat

/-- Write bytes at a place of a context's estate reserve. Where the walk stops they are not written, and the granule keeps what it holds (DESIGN CHOICE,
log entry 69: R358 names the launch of an access, and a move of R55 serves none); a table entry whose error lasts marks its frame and is counted (R358, R376). -/
def State.writeReserve (s : State) (ctx slot : Nat) (bs : List Byte) : State :=
  match s.ctx? ctx with
  | some c =>
    let va := c.resbase + BitVec.ofNat 64 (288 * slot)
    ((s.noteWalks ctx .store va bs.length).writeVA ctx va bs).getD (s.noteWalks ctx .store va bs.length)
  | none => s

/-- Change the granules: empty ones are freed, and the reserve in memory follows (R38, R61). A store of software into the reserve, which R38 lets it read only, changes
the bytes in memory; the granule keeps its own header and row (DESIGN CHOICE, log entry 67). -/
def State.putGranules (s : State) (gs : List Granule) : State :=
  let old := s.granules
  let now := keepGranules gs
  let s := { s with granules := now }
  let s := now.foldl (fun s g => if g.core.isNone && !old.contains g then s.writeReserve g.ctx g.rslot g.image else s) s
  old.foldl (fun s g =>
    if g.core.isNone && !(now.any fun h => h.gid == g.gid) then s.writeReserve g.ctx g.rslot (List.replicate 32 0) else s) s

/-- The void flag of a tag is set by a launch that is killed (R42). -/
def Ctx.setVoid (c : Ctx) (tag order : Nat) : Ctx := { c with voids := tput tag (max order ((tget tag c.voids).getD 0)) c.voids }
/-- The void flag of a tag is set. -/
def Ctx.isVoid (c : Ctx) (tag : Nat) : Bool := (tget tag c.voids).isSome
/-- A granule of a launch seals: the void flag of its tag is cleared when every launch that set it is an earlier one (R42). -/
def Ctx.clearVoid (c : Ctx) (tag order : Nat) : Ctx :=
  match tget tag c.voids with
  | some v => if v < order then { c with voids := tdel tag c.voids } else c
  | none => c

/-- The place of a launch in the order of acceptance. -/
def State.orderOf (s : State) (lid : Nat) : Nat := match s.launch? lid with | some l => l.order | none => 0
/-- Void what a killed launch created: its granules lose every lane that no running heir holds, and the void flag of each tag its
header declares is set (R42, R61). -/
def State.voidEstates (s : State) (lid : Nat) (tags : List Nat) : State :=
  let c := s.ctxOf lid
  let s := s.putGranules (s.granules.map fun (g : Granule) => if g.lid = lid then { g with valid := 0, void := true } else g)
  s.modCtx c fun k => (tags.filter (· ≠ 0)).foldl (fun k t => k.setVoid t (s.orderOf lid)) k

/-- The lanes a launch holds as an heir are freed (R48). -/
def State.freeHeld (s : State) (lid : Nat) : State :=
  s.putGranules (s.granules.map fun g => { g with heldBy := g.heldBy.filter (·.2 ≠ lid) })

/-! ### Handles (R178, R182, R397, R398) -/

def handleHome (h : Word) : Nat := (h.extractLsb' 48 16).toNat
def handleSlot (h : Word) : Nat := (h.extractLsb' 28 20).toNat
def handleGen (h : Word) : Nat := (h.extractLsb' 8 20).toNat
def handleFlags (h : Word) : Nat := (h.extractLsb' 0 8).toNat
def mkHandle (home slot gen flags : Nat) : Word := BitVec.ofNat 64 (home * 2 ^ 48 + slot * 2 ^ 28 + gen * 2 ^ 8 + flags)

/-- A handle as the part takes it from a register: FLAGS [7:1], which R178 gives as zero, read zero (R7). -/
def handleOf (h : Word) : Word := h &&& ~~~0xFE

/-- The 32 bytes of a handle table entry (R397). -/
def HandleEnt.image (e : HandleEnt) : List Byte :=
  leBytes 8 e.doneTime ++
  leBytes 8 (e.st * 2 ^ 6 + e.reason * 2 ^ 8 + e.flags * 2 ^ 16 + e.gen * 2 ^ 24 + (if e.lfinal then 2 ^ 53 else 0) + e.ctx * 2 ^ 54) ++
  leBytes 8 (e.location + e.status * 2 ^ 16 + e.lid * 2 ^ 32) ++ leBytes 8 e.parent.toNat

/-- Bits [31:0] that `hwait` and `hpoll` return: state, reason, status (R183). -/
def handleBits (st reason status : Nat) : Nat := st + reason * 2 ^ 8 + status * 2 ^ 16

/-- What a handle answers (R183): NO_SLOT for 0, EXCISED for an excised home, STALE for another generation. -/
def State.handleAnswer (s : State) (reg : Word) : Nat :=
  let h := handleOf reg
  if h = 0 then handleBits 3 7 0
  else if s.excisedNode (handleHome h) then handleBits 3 2 0
  else if handleHome h ≠ s.fabric.node then (tget h.toNat s.fabric.remoteHandles).getD 0
  else match tget (handleSlot h) s.fabric.handles with
    | some e =>
      if e.gen ≠ handleGen h then handleBits 3 5 0
      else if e.st = 3 then handleBits 3 e.reason (if e.reason = 1 || e.reason = 4 then e.status else 0)
      else handleBits e.st 0 0
    | none => handleBits 3 5 0

/-- An answer that ends a wait: RESOLVED or BROKEN. -/
def handleOver (a : Nat) : Bool := 2 ≤ a % 256

/-- A wait on a handle ends: s[D] is written, and RESOLVED acquires at fabric scope (R183). -/
def State.finishHandle (s : State) (w : WaveRef) (pid d a : Nat) : State :=
  (if a % 256 = 2 then s.dropCache (s.coreOf w.teamRef) else s).modWave w fun v => (v.setS d (BitVec.ofNat 64 a)).unpark pid

/-- Paths parked in `hwait` whose handles are over go on. -/
def State.wakeHandles (s : State) : State :=
  s.waves.foldl (fun s e => e.2.paths.foldl (fun s p => match p.park with
    | .handle d h =>
      if s.present e.1 && handleOver (s.handleAnswer h) then s.finishHandle e.1 p.pid d (s.handleAnswer h) else s
    | _ => s) s) s

/-- Send a notice to the home of a handle (R398). Handle 0 has none. -/
def State.notify (s : State) (h : Word) (ev : NoticeEvent) : State :=
  if h = 0 then s else s.inject s.now (handleHome h) (.notice (handleSlot h) (handleGen h) ev)

/-- The parent handle and the handle of an invocation packet. -/
def pkParent (p : Packet) : Word := match p.body with | .invoke _ _ _ _ _ _ _ q => q | _ => 0
def pkChild (p : Packet) : Word := match p.body with | .invoke _ _ _ _ _ _ h _ => h | _ => 0

/-- Forward an invocation to the location of its parent, or say that no route reaches it (R399). -/
def State.culvert (s : State) (pk : Packet) (loc : Nat) : State :=
  if !s.reachable loc then s.notify (pkChild pk) (.broken 6 0)
  else
    let s := if loc = s.fabric.node then { s with fabric := { s.fabric with culvertIn := s.fabric.culvertIn ++ [pk] } }
      else { s with output := s.output ++ [.culvert loc pk] }
    s.notify (pkChild pk) (.location (BitVec.ofNat 16 loc))

/-- What the home of a parent does with an invocation (R399); none when it is to be held. -/
def State.forwardInvoke (s : State) (pk : Packet) : Option State :=
  match tget (handleSlot (pkParent pk)) s.fabric.handles with
  | some e =>
    if e.gen ≠ handleGen (pkParent pk) || e.st = 3 then some (s.notify (pkChild pk) (.broken 3 0))
    else if e.lfinal then some (s.culvert pk e.location)
    else none
  | none => some (s.notify (pkChild pk) (.broken 3 0))

/-- Held invocations whose parents have a location, or have broken, go on in key order (R399). -/
def State.settleHeld (s : State) : State :=
  s.fabric.heldInv.foldl (fun s pk => match State.forwardInvoke s pk with
    | some t => { t with fabric := { t.fabric with heldInv := t.fabric.heldInv.filter (· ≠ pk) } }
    | none => s) s

/-- Put an entry in the table, on chip and at HTBASE; waits that it ends go on, and so do invocations held for it (R183, R397, R399). -/
def State.putHandle (s : State) (slot : Nat) (e : HandleEnt) : State :=
  let s := { s with fabric := { s.fabric with handles := tput slot e s.fabric.handles } }
  (s.writeHome (s.fabric.htBase + 32 * slot) e.image).wakeHandles.settleHeld

/-- Break an entry that is not yet BROKEN (R182). -/
def State.breakHandle (s : State) (slot reason status : Nat) : State :=
  match tget slot s.fabric.handles with
  | some e => if e.st = 3 then s else s.putHandle slot { e with st := 3, reason := reason, status := status, doneTime := s.now }
  | none => s

/-! ### Gangs: forming, leaving, dissolving (R156 to R158, R347) -/

def Quad.reset : Quad :=
  { gang := none, acc := [], tags := List.replicate 8 0, ranges := [], lastLid := none, ops := [], arrivals := [], joins := [], bad := [], badRanges := [], obuf := [], fetched := false }
def State.quad (s : State) (q : Nat) : Quad := (tget q s.quads).getD Quad.reset
def State.setQuad (s : State) (q : Nat) (v : Quad) : State := { s with quads := tput q v s.quads }

/-- A released wave of a deterministic launch has its LSKIP raised so that its LCLK is the given clock (R347). -/
def State.raiseClock (s : State) (w : WaveRef) (clk : Nat) : State :=
  match s.launch? w.lid with
  | some l => if l.hdr.det then s.modWave w fun v => { v with lskip := BitVec.ofNat 64 (max v.lclk clk - v.icount.toNat) } else s
  | none => s

/-- The next live member after `i` in gang order, cyclically; `i` itself when no other is live (R158, R298). -/
def nextTurn (g : Gang) (i : Nat) : Nat :=
  let n := g.members.length
  (((List.range n).map fun k => (i + 1 + k) % n).find? fun j => match g.members[j]? with | some m => m.2 | none => false).getD i

/-- Joins of one launch, key and size that fill a gang; the teams must be one team or teams of one cohort (R156). -/
def fullJoin (s : State) (js : List Join) (j : Join) : Option (List Join) :=
  let coh := fun w : WaveRef => match s.team? w.teamRef with | some t => t.cohort | none => 0
  let hasC := match s.launch? j.w.lid with | some l => l.hdr.cohort != 0 | none => false
  let same := js.filter fun k => k.w.lid == j.w.lid && k.key == j.key && k.n == j.n &&
    (k.w.team == j.w.team || (hasC && coh k.w == coh j.w))
  if same.length ≥ j.n then some (same.take j.n) else none

/-- Members in gang order: by team id, then by wave (R156). -/
def gangInsert (w : WaveRef) : List WaveRef → List WaveRef
  | [] => [w]
  | v :: l => if w.team < v.team || (w.team == v.team && w.wave < v.wave) then w :: v :: l else v :: gangInsert w l

/-- The groups of joins that wait on a quad and are full, of teams that run (R156). -/
def State.fullGroups (s : State) (q : Nat) : List (List Join) :=
  let here := (s.quad q).joins.filter fun j => match s.team? j.w.teamRef with | some t => t.st == .resident || t.st == .placed | none => false
  here.filterMap (fullJoin s here)

/-- Form a gang of the waiting joins, when the engine holds none and has no operation left of the last: the group that an arrival on the lowest core of the quad
completes forms first (R156, R299). The accumulators read zero unless the last gang was of the same launch. That operations which a dissolved gang has left, a stalled
`mst` say, keep a second gang waiting is a DESIGN CHOICE (log entry 69): R156 names the dissolution only. -/
def State.formGang (s : State) (q : Nat) : State :=
  let u := s.quad q
  if 768 ≤ q || u.gang.isSome || !u.ops.isEmpty || s.device.fencedQuads.contains q then s
  else
    let core : List Join → Nat := fun g => match g.getLast? with | some j => s.coreOf j.w.teamRef | none => 0
    match (s.fullGroups q).foldl (fun (b : Option (List Join)) g => match b with
        | none => some g | some h => if core g < core h then some g else some h) none with
    | none => s
    | some g =>
      let lid := (g.head?.map (·.w.lid)).getD 0
      let ms := (g.map (·.w)).foldl (fun l w => gangInsert w l) []
      let keep := u.lastLid == some lid
      let clk := g.foldl (fun m j => max m j.clk) 0 + 1
      let gang : Gang := { lid := lid, key := (g.head?.map (·.key)).getD 0, n := g.length, members := ms.map (·, true), turn := 0, holder := none }
      let s := s.setQuad q { u with
        gang := some gang, acc := if keep then u.acc else [], tags := if keep then u.tags else List.replicate 8 0,
        ranges := [], bad := if keep then u.bad else [], badRanges := [], lastLid := some lid,
        obuf := if keep then u.obuf else [], fetched := keep && u.fetched, joins := u.joins.filter fun j => !(g.any fun k => k.w == j.w && k.pid == j.pid) }
      g.foldl (fun s j => (s.modWave j.w fun v => v.unpark j.pid).raiseClock j.w clk) s

/-- The member whose turn it is takes a free baton that it waits for (R158). -/
def State.wakeBaton (s : State) (q : Nat) : State :=
  let u := s.quad q
  match u.gang with
  | none => s
  | some g =>
    match g.holder, g.members[g.turn]? with
    | none, some (w, true) =>
      let waiting := match s.wave? w with | some v => (v.paths.filter fun (p : Path) => p.park == Park.baton).map fun (p : Path) => p.pid | none => []
      if waiting.isEmpty || !s.present w then s
      else waiting.foldl (fun s p => s.modWave w fun v => v.unpark p) (s.setQuad q { u with gang := some { g with holder := some g.turn } })
    | _, _ => s

/-- The quad, or the key of saved engine state, where a wave is a gang member or waits at the sluice; its core's quad for any other. -/
def State.engineAt (s : State) (w : WaveRef) : Nat :=
  match s.quads.find? fun e => e.2.joins.any (·.w == w) || match e.2.gang with | some g => g.members.any (· == (w, true)) | none => false with
  | some e => e.1
  | none => quadOf (s.coreOf w.teamRef)

/-- A wave stops being a member: waiting arrivals at the sluice complete as no-ops with GANGBROKEN, a held baton passes on, and the
gang dissolves with its last member (R156 to R158). Waiting joins of the wave are withdrawn. -/
def State.leaveGang (s : State) (q : Nat) (w : WaveRef) : State :=
  let u := s.quad q
  let s := s.setQuad q { u with joins := u.joins.filter (·.w ≠ w) }
  let u := s.quad q
  match u.gang with
  | none => s
  | some g =>
    match g.members.findIdx? (fun m => m.1 == w && m.2) with
    | none => s
    | some i =>
      let s := u.arrivals.foldl (fun s a => s.modWave a.w fun v => ((v.endPend a.op).raiseW wGANGBROKEN).unpark a.pid) s
      let g := { g with members := setAt g.members i (w, false) }
      let g := if g.holder == some i then { g with holder := none, turn := nextTurn g i }
        else if g.turn == i then { g with turn := nextTurn g i } else g
      if g.members.any (·.2) then (s.setQuad q { u with gang := some g, arrivals := [] }).wakeBaton q
      else (s.setQuad q { u with gang := none, arrivals := [] }).formGang q

/-! ### Loop buffers and the end of a clause (R196, R217, R218) -/

/-- The word after the last of the path's clause. -/
def Path.fall (p : Path) : Nat := p.hdr + 4 + 4 * p.count

/-- The wave leaves the loop body of a record: its share of a buffer goes, and the buffer is free when nothing else uses it. -/
def State.dropLoopBuf (s : State) (w : WaveRef) (n : Nat) : State :=
  match s.wave? w with
  | some v =>
    match tget n v.bufs with
    | none => s
    | some b =>
      let core := s.coreOf w.teamRef
      let s := s.modWave w fun v => { v with bufs := tdel n v.bufs }
      let used := s.waves.any fun p => (p.2.bufs.any fun e => e.2 == b) && s.coreOf p.1.teamRef == core && !p.2.ended
      if used then s else { s with loopBufs := tdel (core, b) s.loopBufs }
  | none => s
/-- The wave leaves the bodies of several records. -/
def State.dropLoopBufs (s : State) (w : WaveRef) (ns : List Nat) : State := ns.foldl (fun s n => s.dropLoopBuf w n) s

/-- The clause at which a path stands: the one it is in, or the one that it is to enter. -/
def Path.clause (p : Path) : Nat := if p.inClause then p.hdr else p.pc
/-- The record of a loop is active, and some path of the wave stands in its body. -/
def Wave.inBody (v : Wave) (n : Nat) : Bool :=
  match v.loops[n]? with
  | some r => r.active && v.paths.any fun p => r.start ≤ p.clause && p.clause ≤ r.last
  | none => false
/-- The wave gives up its share of the buffers of loops that are complete, or in whose bodies none of its paths stands any more (R196). -/
def State.settleLoopBuf (s : State) (w : WaveRef) : State :=
  match s.wave? w with
  | some v => s.dropLoopBufs w ((v.bufs.map (·.1)).filter fun n => !v.inBody n)
  | none => s

/-- A buffer of a core for the body of a loop of a launch: one that holds the body, else a free one (R196). -/
def State.bufFor (s : State) (core lid start last : Nat) : Option Nat :=
  ((List.range 4).find? fun b => tget (core, b) s.loopBufs == some (lid, start, last)).or
    ((List.range 4).find? fun b => (tget (core, b) s.loopBufs).isNone)
/-- The wave uses a buffer of its core for the body of a loop record. -/
def State.useBuf (s : State) (w : WaveRef) (n start last b : Nat) : State :=
  { (s.modWave w fun v => { v with bufs := tput n b v.bufs }) with
    loopBufs := tput (s.coreOf w.teamRef, b) (w.lid, start, last) s.loopBufs }
/-- A wave that has executed a `loop` in this cycle and found no buffer takes one that is released in the same cycle: the release counts first (R198). -/
def State.grantLoops (s : State) : State :=
  s.loopWants.foldl (fun s r => match s.wave? r.w with
    | some v =>
      let still := !v.ended && v.inBody r.n && (v.loops[r.n]?).any (fun l => l.start == r.start && l.last == r.last) && (tget r.n v.bufs).isNone
      if still then (match s.bufFor (s.coreOf r.w.teamRef) r.w.lid r.start r.last with | some b => s.useBuf r.w r.n r.start r.last b | none => s) else s
    | none => s) s

/-- The active record of greatest ORDER that ends at a clause. -/
def loopAt (loops : List LoopRec) (e : Nat) : Option Nat :=
  (List.range loops.length).foldl (fun (b : Option Nat) j => match loops[j]? with
    | some r => if r.active && r.last == e then
        (match b with
          | none => some j
          | some i => match loops[i]? with | some q => if q.order < r.order then some j else b | none => some j)
      else b
    | none => b) none

/-- The end of a clause that loops end at: where the path continues, and the counters and records after it (R218). -/
def Wave.loopEnd : Nat → Wave → Nat → Nat → Nat × Wave
  | 0, v, _, fall => (fall, v)
  | n + 1, v, e, fall =>
    match loopAt v.loops e with
    | none => (fall, v)
    | some j =>
      let v := v.setLc j (v.loopc j - 1)
      if v.loopc j != 0 then ((match v.loops[j]? with | some r => r.start | none => fall), v)
      else Wave.loopEnd n { v with loops := setAt v.loops j { (v.loops.getD j { start := 0, last := 0, active := false, order := 0 }) with active := false } } e fall

/-- Parks of an instruction that is still to be replayed: a page fault or an absent line (R100, R302, R371). -/
def Park.replays : Park → Bool
  | .line _ => true | .payload _ => true | .fault _ => true | _ => false

/-- After a word: at the end of its clause the path goes through the loop-end test and falls through (R190, R218); not while the word is still to
be replayed (R371). -/
def State.fallThrough (s : State) (w : WaveRef) (pid : Nat) : State :=
  match s.wave? w with
  | none => s
  | some v =>
    match v.path? pid with
    | none => s
    | some p =>
      if p.inClause && p.pc == p.fall && !p.park.replays then
        let r := Wave.loopEnd 3 v p.hdr p.fall
        State.settleLoopBuf (s.setWave w (r.2.modPath pid fun p => { p with pc := r.1, inClause := false })) w
      else s

/-! ### The exceptions: a launch is killed, a unit takes a recoverable fault -/

/-- A wave of a killed launch stops: its paths end, its outstanding results are discarded (R373). -/
def Wave.stop (w : Wave) : Wave :=
  { w with ended := true, exited := w.live, slot0 := none, slot1 := none, spilled := [], recs := [], pend := [], fences := [],
           ctr := List.replicate 8 0, switchWait := false }

/-- Engine operations of a launch stop (R373). -/
def Quad.dropLaunch (u : Quad) (lid : Nat) : Quad :=
  { u with ops := u.ops.filter (fun o => o.members.all fun m => m.1.lid ≠ lid) }

/-- A team gives up its scratchpad, its private-memory blocks and its places (R32, R373). -/
def Team.free (t : Team) : Team :=
  { t with st := .retired, spad := [], absent := [], counts := [], spoison := [], bermBlocks := [], imgBlocks := [], image := [] }

/-- Break the handle of an invocation of the wave that had taken a slot but was not injected (R373). -/
def breakUnsent (s : State) (v : Wave) : State :=
  v.pend.foldl (fun s p => match p.kind with
    | .fab (.invoke _ _ _ _ slot _ _ _ _ _ _) false => s.breakHandle slot 1 0x19
    | _ => s) s

/-- A launch is killed (R373): the one operation by which every kernel kill, pager kill, hardware kill and external kill happens.
The first cause stands; the waves stop; results, unsent packets, copies and engine work are dropped; estates are voided and held
lanes freed; the handle breaks; the teams free what they hold, and the account's balance is 0 when it serves nothing more (R337). The record follows when its stores are acknowledged (R417: `off`). -/
def State.killLaunch (s : State) (lid status off code : Nat) : State :=
  match s.launch? lid with
  | none => s
  | some l =>
    if l.st == .killed || l.st == .closed then s
    else
      let mine := s.waves.filter fun p => p.1.lid == lid
      let s := mine.foldl (fun s p => s.leaveGang (s.engineAt p.1) p.1) s
      let s := mine.foldl (fun s p => breakUnsent s p.2) s
      let s := mine.foldl (fun s p => (s.dropLoopBufs p.1 [0, 1, 2]).modWave p.1 Wave.stop) s
      let s := { s with
        fabric := { s.fabric with future := s.fabric.future.filter (fun f => f.w.lid ≠ lid) },
        copies := s.copies.filter (fun c => c.lid ≠ some lid),
        quads := (s.quads.map (fun (p : Nat × Quad) => (p.1, p.2.dropLaunch lid))).filter (fun p =>
          !(s.teams.any fun t => t.1.lid == lid && t.2.gangAt == some p.1)),
        takes := s.takes.filter (fun g => g.w.lid ≠ lid),
        waiters := s.waiters.filter (fun a => match a.who with | .path w _ => w.lid ≠ lid | .queue .. => true),
        cur := match s.cur with | some (w, p) => if w.lid = lid then none else some (w, p) | none => none }
      let s := s.voidEstates lid l.hdr.tags
      let s := s.freeHeld lid
      let s := s.notify l.handle (.broken 1 status)
      let s := { s with teams := s.teams.map (fun (p : TeamRef × Team) => if p.1.lid = lid then (p.1, p.2.free) else p) }
      let s := s.modLaunch lid fun l => { l with
        st := .killed, kill := some (status, off, code),
        timelines := l.timelines.map (fun (t : Timeline) => { t with value := t.issued, finished := [] }) }
      (s.quads.foldl (fun s q => s.formGang q.1) s).settleAccount lid

/-- The quad whose engine runs the operations that stand at a key: the quad itself; for those that a dissolved gang has left on a quad that was fenced,
the lowest quad that is not (DESIGN CHOICE, log entry 69). -/
def State.quadAt (s : State) (q : Nat) : Nat :=
  if q < 768 then q else ((List.range 768).find? fun i => !s.device.fencedQuads.contains i).getD 0

/-- The core of a fault in the order of R370: a path's own, the first of a quad or of a copy's cluster, core 0 for a launch's start, a completion
record and a mailbox delivery (DESIGN CHOICE, log entry 69: the rule orders cores only). -/
def State.faultCore (s : State) : Holder → Nat
  | .path w _ _ => s.coreOf w.teamRef
  | .brk w _ => s.coreOf w.teamRef
  | .copy cid => (match s.copies.find? (·.cid == cid) with | some c => 192 * c.cluster | none => 0)
  | .engine q => 4 * s.quadAt q
  | .launch _ => 0
  | .nothing => 0

/-- Enter a recoverable fault in the tenant's sequence: its entry awaits writing (R364 to R366). Faults of one cycle are numbered by core, whatever the
order in which they are entered: those of higher cores move up (R370), but not those that are resolved, which stay an unbroken run from 1 (R366). The number of the entry comes back. -/
def State.enterFault (s : State) (va : Word) (lid lanes off ctx unit cause : Nat) (wr : Bool) (level : Nat) (h : Holder) : Nat × State :=
  let t := s.tenantOfCtx ctx
  let seq := (match s.tenant? t with | some k => k.faultSeq | none => 0) + 1
  let core := s.faultCore h
  let above := fun (f : FaultRec) => f.tenant == t && f.cycle == s.cycles && !f.written && !f.resolved && Nat.blt core f.core
  let (fid, s) := s.fresh
  let s := s.modTenant t fun k => { k with faultSeq := seq }
  (fid, { s with faults := (s.faults.map fun f => if above f then { f with seq := f.seq + 1 } else f) ++ [{
    fid := fid, tenant := t, seq := seq - (s.faults.filter above).length, core := core, cycle := s.cycles, written := false, resolved := false, va := va, lid := lid,
    lanes := lanes, off := off, ctx := ctx, unit := unit, cause := cause, wr := wr, level := level, holder := h }] })

end Sys2Proof.Machine
end

