-- ==== Sys2Proof/Machine/Operands.lean ====
section
/-! DEFINITION. Operand forms: the path at its issue, the operand codes of R201 with the identities of R17, elements of a lane
(R68), results in lanes, and the poison that an instruction consumes (R249). -/

namespace Sys2Proof.Machine

/-- A path at its issue: its wave and launch, as they stand before the instruction. -/
structure Site where
  w : WaveRef
  pid : Nat
  v : Wave
  p : Path
  l : Launch
  deriving DecidableEq, Repr

/-- The path that the state puts at its issue. -/
def State.site? (s : State) : Option Site :=
  match s.cur with
  | none => none
  | some (w, pid) =>
    match s.wave? w, s.launch? w.lid with
    | some v, some l => match v.path? pid with | some p => some ⟨w, pid, v, p, l⟩ | none => none
    | _, _ => none

/-- The launch's modes, sampled at issue (R70). -/
def Site.fm (k : Site) : FMode := FMode.ofWord k.l.fmode
/-- The active lanes, ascending. -/
def Site.lanes (k : Site) : List Nat := lanesOf k.p.mask
def Site.active (k : Site) (l : Nat) : Bool := k.p.mask.getLsbD l
def Site.s (k : Site) (n : BitVec 6) : Word := k.v.sreg n.toNat

/-! ### Elements (R67, R68) -/

/-- The float format of a type, when it is one (R67). -/
def floatFormat (t : BitVec 3) : Option Nat :=
  match t.toNat with | 4 => some 0 | 5 => some 1 | 6 => some 2 | 7 => some 3 | _ => none

/-- The float format of a format code, when it has float constants: e8m0 takes raw integer codes (R265). -/
def codeFormat (f : Nat) : Option Nat := if f ≤ 5 then some f else none

/-- One value in every sub-element. -/
def replicateElem (w v : Nat) : Word := packElems w (List.replicate (64 / w) v)

/-! ### Operand codes (R201) -/

/-- ±2^k in a float format. -/
def powerBits (f : Nat) (neg : Bool) (k : Int) : Nat :=
  (if neg then signBit f else 0) + ((k + expBias f).toNat) * 2 ^ manBits f

/-- Inline constant 120 + c at a width; in a float format when one is named (R201). -/
def constBits (w : Nat) (ff : Option Nat) (c : Nat) : Nat :=
  match ff with
  | none => match c with
    | 0 => 0 | 1 => 1 | 2 => 2 | 3 => 2 ^ w - 1 | 4 => 4 | 5 => 8 | 6 => 16 | _ => 32
  | some f => match c with
    | 0 => 0 | 1 => powerBits f false 0 | 2 => powerBits f false 1 | 3 => powerBits f true 0
    | 4 => powerBits f false (-1) | 5 => powerBits f false (-2) | 6 => infBits f | _ => canonNaN f

/-- The item number of lane `l` (R15, R17). -/
def Site.item (k : Site) (l : Nat) : Nat := k.w.team * (32 * k.l.hdr.waves) + k.w.wave * 32 + l

/-- The 64 bits that an operand code gives a lane at element width `w` (R17, R201). -/
def Site.operand (k : Site) (w : Nat) (ff : Option Nat) (code : BitVec 7) (l : Nat) : Word :=
  let c := code.toNat
  if c < 96 then (k.v.vreg c).lane l
  else if c < 112 then replicateElem w (k.v.sreg (c - 96)).toNat
  else match c with
    | 112 => 0
    | 113 => replicateElem w l
    | 114 => replicateElem w (k.item l)
    | 115 => replicateElem w k.w.wave
    | 116 => replicateElem w k.w.team
    | 117 => replicateElem w (k.w.wave * 32 + l)
    | 118 => packElems w (List.range (64 / w))
    | 119 => 0
    | _ => replicateElem w (constBits w ff (c - 120))

/-- An operand of an instruction of type T. -/
def Site.opT (k : Site) (t : BitVec 3) (code : BitVec 7) (l : Nat) : Word := k.operand (typeWidth t) (floatFormat t) code l
/-- An operand read as i64: addresses, keys (R49, R279). -/
def Site.op64 (k : Site) (code : BitVec 7) (l : Nat) : Word := k.operand 64 none code l

/-! ### Results in lanes -/

/-- Results of a lane-wise operation: one lane after another with the flags of all (R250). -/
def laneResults (ls : List Nat) (f : Nat → Word × Nat) : List (Nat × Word × Nat) × Nat :=
  (ls.map fun l => (l, (f l).1, 0), ls.foldl (fun g l => g ||| (f l).2) 0)

/-- Apply an element operation of three operands to every sub-element of a lane (R68). -/
def elementwise (w : Nat) (f : Nat → Nat → Nat → FRes) (a b d : Word) : Word × Nat :=
  let rs := (List.range (64 / w)).map fun i => f (elem w a i) (elem w b i) (elem w d i)
  (packElems w (rs.map (·.bits)), orFlags rs)

/-! ### Poison (R58, R249) -/

/-- The halves that several sub-elements lie in. -/
def halvesOf (w : Nat) (is : List Nat) : Nat := is.foldl (fun h i => h ||| halfOf w i) 0
/-- The halves of sub-element 0. -/
def lowHalf (w : Nat) : Nat := halfOf w 0

/-- An operand code consumes the named halves of its register: (register, halves). -/
def consumeOp (code : BitVec 7) (halves : Nat) : List (Nat × Nat) := if code.toNat < 96 then [(code.toNat, halves)] else []

/-- Some active lane of the path holds poison in a consumed half. -/
def Site.lanePoison (k : Site) (rs : List (Nat × Nat)) : Bool :=
  rs.any fun r => k.lanes.any fun l => (k.v.vreg r.1).pois l &&& r.2 != 0

end Sys2Proof.Machine
end

