-- ==== Sys2Proof/Machine/Uses.lean ====
section
/-! DEFINITION. What an instruction word names and counts: its class (R189, R202), its counter (R188), its registers (R194, R200),
and the register halves it consumes (R249, R283). -/

namespace Sys2Proof.Machine

/-- Class of an instruction word: 0 ALU, 1 MEM, 2 MATRIX, 3 ASYNC, 4 FABRIC, 5 CONTROL (R202). -/
def classOf : Instr → Nat
  | .jmp .. | .bany .. | .ball .. | .bnone .. | .split .. | .join .. | .call .. | .jind .. | .loop .. | .loopx .. | .exit ..
  | .bar .. | .barCohort .. | .tkwait .. | .tktake .. | .wait .. | .trap .. | .brk .. | .tnow .. | .cyc .. | .icount ..
  | .evsig .. | .evwait .. | .hwait .. | .hpoll .. | .yield .. | .evtime .. => 5
  | .sld .. | .sst .. | .sldk .. | .vld .. | .vst .. | .vldsp .. | .vstsp .. | .fence .. | .vprf .. | .spclr .. | .spclrFill ..
  | .spwait .. | .starm .. | .stwait .. | .tlwait .. | .tlrd .. | .vatom .. | .vldacq .. | .vstrel .. => 1
  | .cpy .. | .ecl .. | .eclKeep .. | .edrop .. | .equery .. => 3
  | .mgang .. | .mgangLeave .. | .mres .. | .mrel .. | .mma .. | .mzero .. | .mrd .. | .mwr .. | .mst .. | .mld .. | .rstat ..
  | .gateSig .. | .gateTanh .. | .gateMul .. | .gateAdd .. | .gateLerp .. | .gateScale .. | .batonTake .. | .batonPass ..
  | .batonQuery .. => 2
  | .osend .. | .osendAt .. | .oatom .. | .oatomAt .. | .invk .. | .invh .. => 4
  | _ => 0

/-- The counter that an instruction word raises: 0 LD, 1 ST, 2 SFU, 3 MX, 4 CP, 5 FB, 6 EC, 7 XL (R91, R188, R297). -/
def counterOf : Instr → Option Nat
  | .vld .. | .vldsp .. | .vldacq .. | .sld .. | .sldk .. | .tlrd .. | .vatom .. => some 0
  | .vst .. | .vstsp .. | .vstrel .. | .sst .. => some 1
  | .vdiv .. | .vsqrt .. | .vsfu .. | .vamax .. | .vqnt .. | .vdqnt .. | .vred .. | .vscan .. => some 2
  | .mres .. | .mrel .. | .mma .. | .mzero .. | .mrd .. | .mwr .. | .mst .. | .mld .. | .rstat .. | .gateSig .. | .gateTanh ..
  | .gateMul .. | .gateAdd .. | .gateLerp .. | .gateScale .. => some 3
  | .cpy .. => some 4
  | .osend .. | .osendAt .. | .oatom .. | .oatomAt .. | .invk .. | .invh .. => some 5
  | .ecl .. | .eclKeep .. | .edrop .. | .equery .. => some 6
  | .vshf .. | .vbcst .. | .vext .. | .vins .. | .vmovm .. => some 7
  | _ => none

/-- The register that an operand code names (R201). -/
def opReg (c : BitVec 7) : List Reg :=
  if c.toNat < 96 then [.v c.toNat] else if c.toNat < 112 then [.s (c.toNat - 96)] else []

def vReg (c : BitVec 7) : Reg := .v c.toNat
def sReg (c : BitVec 6) : Reg := .s c.toNat
def mReg (c : BitVec 3) : Reg := .m c.toNat
/-- `n` vector registers from one up. -/
def vRange (d n : Nat) : List Reg := (List.range n).map fun i => .v (d + i)

/-- Every register an instruction word reads or writes (R194). A `leave` reads and writes none (R36). -/
def touches : Instr → List Reg
  | .bany _ k _ | .ball _ k _ | .bnone _ k _ | .split _ k _ => [mReg k]
  | .call _ d _ => [sReg d]
  | .jind _ a => [sReg a]
  | .sadd _ d a b | .ssub _ d a b | .sand _ d a b | .sor _ d a b | .sxor _ d a b | .sshl _ d a b | .sshr _ d a b | .ssra _ d a b
  | .smul _ d a b | .smulh _ d a b | .smulhw _ d a b | .sdiv _ d a b | .sdivw _ d a b | .srem _ d a b | .sremw _ d a b
  | .scmp _ _ d a b | .smin _ d a b | .smax _ d a b | .sminw _ d a b | .smaxw _ d a b => [sReg d, sReg a, sReg b]
  | .saddi _ d a _ | .sandi _ d a _ | .sori _ d a _ | .sxori _ d a _ | .sshli _ d a _ | .sshri _ d a _ | .ssrai _ d a _
  | .spopc _ d a | .sclz _ d a | .sctz _ d a | .sld _ d a _ | .sst _ d a _ => [sReg d, sReg a]
  | .smovi _ d _ | .smovl _ d _ | .smovh _ d _ | .sldk _ d _ | .rdsr _ d _ => [sReg d]
  | .wrsr _ a _ => [sReg a]
  | .mand _ d a b | .mor _ d a b | .mxor _ d a b | .mandn _ d a b => [mReg d, mReg a, mReg b]
  | .mnot _ d a | .mmov _ d a => [mReg d, mReg a]
  | .mfroms _ d r => [mReg d, sReg r]
  | .mtos _ a r | .mpopc _ a r | .mffs _ a r | .mfls _ a r => [mReg a, sReg r]
  | .vadd _ _ d a b | .vsub _ _ d a b | .vmul _ _ d a b | .vmulh _ _ d a b | .vmulhw _ _ d a b | .vfma _ _ d a b
  | .vfnma _ _ d a b | .vmin _ _ d a b | .vmax _ _ d a b | .vminw _ _ d a b | .vmaxw _ _ d a b | .vaddsat _ _ d a b
  | .vand _ _ d a b | .vor _ _ d a b | .vxor _ _ d a b | .vshl _ _ d a b | .vshr _ _ d a b | .vsra _ _ d a b
  | .vceq _ _ d a b | .vclt _ _ d a b | .vcle _ _ d a b | .vcltw _ _ d a b | .vsel _ _ d a b | .vdiv _ _ d a b
  | .vqnt _ d a b _ _ _ _ | .vshf _ _ d a b | .vld _ _ d a b | .vst _ _ d a b | .vldsp _ _ d a b | .vstsp _ _ d a b
  | .vldacq _ _ d a b _ _ _ | .vstrel _ _ d a b _ _ => vReg d :: (opReg a ++ opReg b)
  | .vabs _ _ d a | .vneg _ _ d a | .vnot _ _ d a | .vpopc _ _ d a | .vclz _ _ d a | .vmov _ _ d a | .vsqrt _ _ d a
  | .vsfu _ _ d a _ | .vround _ _ d a _ | .vcvt _ d a _ _ _ | .vdqnt _ _ d a _ _ _ | .vamax _ _ d a _ _ | .vbcst _ d a _
  | .vidx _ _ d a _ | .vred _ _ d a _ | .vscan _ _ d a _ => vReg d :: opReg a
  | .vfmal _ _ d a b c => vReg d :: (opReg a ++ opReg b ++ opReg c)
  | .vmovl _ _ d _ => [vReg d]
  | .vcmp _ _ _ m a b => mReg m :: (opReg a ++ opReg b)
  | .vext _ _ d a _ => .s d.toNat :: opReg a
  | .vins _ _ d a _ => [vReg d, .s a.toNat]
  | .vmovm _ d a m => vReg d :: mReg m :: opReg a
  | .vatom _ _ d a b op _ _ _ _ _ => vReg d :: (opReg a ++ opReg b ++ if op = 9 then [.v (b.toNat + 1)] else [])
  | .vprf _ _ a b => opReg a ++ opReg b
  | .spclr _ a _ | .spclrFill _ a _ | .spwait _ a _ => [sReg a]
  | .starm _ a b c _ => [sReg a, sReg b, sReg c]
  | .stwait _ d a => [sReg d, sReg a]
  | .tlwait _ _ a => [sReg a]
  | .tlrd _ d _ => [sReg d]
  | .cpy _ _ a => [sReg a]
  | .mgang _ _ k => [sReg k]
  | .mres _ _ a | .mst _ _ a => [sReg a]
  | .mrd _ d _ i => [vReg d, sReg i]
  | .mwr _ _ s i => [vReg s, sReg i]
  | .rstat _ d _ => vRange d.toNat 3
  | .gateScale _ _ _ s => [sReg s]
  | .batonQuery _ d => [sReg d]
  | .ecl _ m d k t c | .eclKeep _ m d k t c => mReg m :: .s t.toNat :: (vRange d.toNat (c.toNat + 1) ++ opReg k)
  | .edrop _ t => [sReg t]
  | .equery _ m k t => mReg m :: .s t.toNat :: opReg k
  | .tnow _ d | .cyc _ d | .icount _ d => [sReg d]
  | .evsig _ e => [sReg e]
  | .evwait _ d e n => [sReg d, sReg e, sReg n]
  | .hwait _ d h | .hpoll _ d h => [sReg d, sReg h]
  | .evtime _ d e t _ => [sReg d, sReg e, sReg t]
  | .osend _ d n p _ => [sReg d, sReg n, sReg p]
  | .osendAt _ d n p t _ => [sReg d, sReg n, sReg p, sReg t]
  | .oatom _ d a b s op _ => [sReg d, sReg a, sReg b, sReg s] ++ if op = 9 then [.s (b.toNat + 1)] else []
  | .oatomAt _ d a b s t op _ => [sReg d, sReg a, sReg b, sReg s, sReg t] ++ if op = 9 then [.s (b.toNat + 1)] else []
  | .invk _ d n a => [sReg d, sReg n, sReg a]
  | .invh _ d h a => [sReg d, sReg h, sReg a]
  | _ => []

/-- Every register an instruction word names, a marked range of `leave` included (R36, R200). -/
def named (i : Instr) : List Reg :=
  match i with
  | .leave _ _ a c => vRange a.toNat (c.toNat + 1)
  | i => touches i

/-- A named register lies within the wave's allocation (R200). -/
def allocated (h : Header) : Reg → Bool
  | .v n => n < h.alloc
  | .s n => n < h.sregs
  | .m _ => true

/-- Source sub-elements of a part of a conversion from `ns` to `nd` sub-elements (R68, R265). -/
def partSources (ns nd h : Nat) : List Nat := ((List.range nd).map (· + h * nd)).filter (· < ns)

/-- The register halves an instruction consumes in every active lane (R249, R283). -/
def consumes : Instr → List (Nat × Nat)
  | .vadd _ _ _ a b | .vsub _ _ _ a b | .vmul _ _ _ a b | .vmulh _ _ _ a b | .vmulhw _ _ _ a b | .vmin _ _ _ a b
  | .vmax _ _ _ a b | .vminw _ _ _ a b | .vmaxw _ _ _ a b | .vaddsat _ _ _ a b | .vand _ _ _ a b | .vor _ _ _ a b
  | .vxor _ _ _ a b | .vshl _ _ _ a b | .vshr _ _ _ a b | .vsra _ _ _ a b | .vceq _ _ _ a b | .vclt _ _ _ a b
  | .vcle _ _ _ a b | .vcltw _ _ _ a b | .vdiv _ _ _ a b => consumeOp a 3 ++ consumeOp b 3
  | .vfma _ _ d a b | .vfnma _ _ d a b | .vsel _ _ d a b => consumeOp a 3 ++ consumeOp b 3 ++ consumeOp d 3
  | .vfmal _ _ _ a b c => consumeOp a 3 ++ consumeOp b 3 ++ consumeOp c 3
  | .vabs _ _ _ a | .vneg _ _ _ a | .vnot _ _ _ a | .vpopc _ _ _ a | .vclz _ _ _ a | .vmov _ _ _ a | .vsqrt _ _ _ a
  | .vsfu _ _ _ a _ | .vround _ _ _ a _ | .vamax _ _ _ a _ _ | .vidx _ _ _ a _ | .vred _ _ _ a _ | .vscan _ _ _ a _ =>
    consumeOp a 3
  | .vcmp _ t _ _ a b => consumeOp a (lowHalf (typeWidth t)) ++ consumeOp b (lowHalf (typeWidth t))
  | .vcvt _ _ a h df sf =>
    let ns := 64 / formatWidth sf.toNat
    let nd := 64 / formatWidth df.toNat
    consumeOp a (halvesOf (formatWidth sf.toNat) (partSources ns nd h.toNat))
  | .vqnt _ _ a b h _ qf sf =>
    let ns := 64 / formatWidth sf.toNat
    let nd := 64 / formatWidth qf.toNat
    consumeOp a (halvesOf (formatWidth sf.toNat) (partSources ns nd h.toNat)) ++ consumeOp b 1
  | .vdqnt _ t d a h _ q =>
    let wq := formatWidth (qselFormat q)
    consumeOp a (halvesOf wq (partSources (64 / wq) (64 / typeWidth t) h.toNat)) ++ consumeOp d 1
  | .vshf _ _ _ _ b => consumeOp b 3
  | .vld _ _ _ a b | .vldsp _ _ _ a b | .vldacq _ _ _ a b _ _ _ => consumeOp a 3 ++ consumeOp b 3
  | .vst _ t d a b | .vstsp _ t d a b | .vstrel _ t d a b _ _ =>
    consumeOp a 3 ++ consumeOp b 3 ++ consumeOp d (lowHalf (typeWidth t))
  | .vatom _ t _ a b op _ _ _ _ _ =>
    consumeOp a 3 ++ consumeOp b (lowHalf (typeWidth t)) ++
      (if op = 9 then [(b.toNat + 1, lowHalf (typeWidth t))] else [])
  | .mwr _ _ s _ => consumeOp s 3
  | .ecl _ _ _ k _ _ | .eclKeep _ _ _ k _ _ | .equery _ _ k _ => consumeOp k 1
  | _ => []

/-- The flat elements that a cross-lane instruction selects: (register, lane, sub-element width, sub-element) (R249, R269). -/
def selects (k : Site) : Instr → List (Nat × Nat × Nat × Nat)
  | .vshf _ t _ a b =>
    let w := typeWidth t
    let n := 64 / w
    k.lanes.flatMap fun l => (elemsOf w (k.opT t b l)).map fun i => (a.toNat, i % (32 * n) / n, w, i % (32 * n) % n)
  | .vbcst _ _ a i => [(a.toNat, i.toNat, 64, 0)]
  | .vext _ t _ a i =>
    let n := 64 / typeWidth t
    [(a.toNat, i.toNat / n, typeWidth t, i.toNat % n)]
  | .vmovm _ _ a m => (k.lanes.filter fun l => (k.v.mask m.toNat).getLsbD l).map fun l => (a.toNat, l, 64, 0)
  | _ => []

/-- The instruction consumes a poisoned half (R249, R283). -/
def Site.consumesPoison (k : Site) (i : Instr) : Bool :=
  k.lanePoison (consumes i) || (selects k i).any fun e => (k.v.vreg e.1).pois e.2.1 &&& halfOf e.2.2.1 e.2.2.2 != 0

end Sys2Proof.Machine
end

