-- ==== Sys2Proof/Machine/Access.lean ====
section
/-! DEFINITION. The memory system between a core and a home: stores on their way through write queue and cluster buffer, forwarding,
load caches, single accesses of loads and atomics, the conditions of acquires, releases and fences, acknowledgements
(R92 to R100, R107 to R122, R279 to R291). -/

namespace Sys2Proof.Machine

/-! ### Locations -/

/-- Two runs of bytes share a byte. -/
def Loc.overlaps (a : Loc) (n : Nat) (b : Loc) (m : Nat) : Bool :=
  match a, b with
  | .home x, .home y => x < y + m && y < x + n
  | .node i x, .node j y => i == j && x < y + m && y < x + n
  | .spad t x, .spad u y => t == u && x < y + m && y < x + n
  | _, _ => false

/-- The protection unit that a location lies in: its first byte and its length, 0 where poison is not held (R374, R375). -/
def Loc.unit : Loc → Loc × Nat
  | .home a => (.home (a / 32 * 32), 32)
  | .spad t o => (.spad t (o / 8 * 8), 8)
  | l => (l, 0)
/-- The bytes of its protection unit that an access covers, as bits. -/
def Part.cover (q : Part) : Nat :=
  match q.loc with
  | .home a => (2 ^ q.n - 1) <<< (a % 32)
  | .spad _ o => (2 ^ q.n - 1) <<< (o % 8)
  | _ => 0
/-- The accesses of one instruction together cover the protection unit of one of them. -/
def coversUnit (ps : List Part) (q : Part) : Bool :=
  q.loc.unit.2 != 0 && (ps.filter fun p => p.loc.unit == q.loc.unit).foldl (fun m p => m ||| p.cover) 0 == 2 ^ q.loc.unit.2 - 1

/-- A scratchpad location. -/
def Loc.isSpad : Loc → Bool
  | .spad .. => true | .void => true | _ => false

def StoreRec.overlaps (r : StoreRec) (l : Loc) (n : Nat) : Bool := r.loc.overlaps r.bytes.length l n
/-- Of two store lanes of one wave the first comes first: in issue order, and in lane order within an instruction (R118, R285). -/
def StoreRec.before (q r : StoreRec) : Bool := q.op < r.op || (q.op == r.op && q.lane < r.lane)

/-! ### What a wave's load sees (R113, R118, R285) -/

/-- The stores that a wave's team had before it on cores that it has moved away from (R127). -/
def State.carried (s : State) (w : WaveRef) : List Nat := match s.team? w.teamRef with | some t => t.carry | none => []
/-- A store in a write queue that a wave on a core has before it: its own, its core's, one that came along with a move. -/
def State.seesQueued (s : State) (w : WaveRef) (core : Nat) (r : StoreRec) : Bool :=
  r.w == w || (!r.held && (r.core == core || (s.carried w).contains r.sid))
/-- A store in a cluster buffer that a wave on a core has before it. -/
def State.seesBuffered (s : State) (w : WaveRef) (core : Nat) (r : StoreRec) : Bool :=
  r.w == w || clusterOf r.core == clusterOf core || (s.carried w).contains r.sid

/-- A later store of a load's own wave to some of its bytes. -/
def StoreRec.after (r : StoreRec) (w : WaveRef) (op : Nat) (l : Loc) (n : Nat) : Bool := r.w == w && op < r.op && r.overlaps l n
/-- The stores that a load of wave `w`, operation `op`, on a core sees before its home, oldest first: those in its cluster's buffer
and its core's queue, and its own. A later store of its own wave to its bytes does not concern it, nor does any store but the wave's earlier ones that comes
after such a store in the order of some bytes; what the core had before it when the load issued, which may happen before the load, is left out only behind
the wave's own later stores (R118). -/
def State.ahead (s : State) (w : WaveRef) (core op : Nat) (l : Loc) (n : Nat) : List StoreRec :=
  let near := s.buffer.filter (s.seesBuffered w core)
  let mine := s.queue.filter fun r => !r.held && s.seesQueued w core r
  let own := s.queue.filter fun r => r.held && r.w == w
  ((near ++ mine ++ own).foldl (fun (a : List StoreRec × List StoreRec) r =>
    let here := r.sid < op && (r.core == core || (s.carried w).contains r.sid)
    let late := r.after w op l n || (!(r.w == w && r.op < op) && a.2.any fun q =>
      q.overlaps r.loc r.bytes.length && (!here || (q.w == w && op < q.op)))
    if late then (a.1, a.2 ++ [r]) else (a.1 ++ [r], a.2)) ([], [])).1
/-- A later store of the load's own wave is on its way to its bytes: a copy in the load cache may hold it, and the load must not see it (R118). -/
def State.storedSince (s : State) (w : WaveRef) (op : Nat) (l : Loc) (n : Nat) : Bool := (s.queue ++ s.buffer).any fun r => r.after w op l n

/-- The last of several stores that covers a byte; a store to nowhere gives none (R95, R97). -/
def lastByte (l : Loc) (rs : List StoreRec) : Option Byte :=
  rs.foldl (fun b r => if r.overlaps l 1 then (match (List.range r.bytes.length).find? fun i => r.loc.plus i == l with
    | some i => r.bytes[i]?
    | none => b) else b) none

/-- A byte that a load takes from a store ahead of it is poisoned while its unit is, unless a store ahead writes the unit whole; the mark of a
frame stays (R375). -/
def State.staysPoisoned (s : State) (ahead : List StoreRec) (l : Loc) : Bool :=
  let whole := ahead.any fun r => r.whole && r.loc.unit == l.unit
  match l with
  | .home a => s.frameMarked a || s.lasting.contains (a / 32) || (s.mempoison.contains (a / 32) && !whole)
  | l => (s.readLoc l).2 && !whole

/-- A byte of a core's load cache; the mark of a frame reaches the copies of its bytes too (R375). -/
def State.cached (s : State) (core a : Nat) : Option (Byte × Bool) :=
  (tget (core, a / 8) s.cache).map fun d => let b := d.getD (a % 8) (0, false); (b.1, b.2 || s.frameMarked a)

/-- One byte as a load sees it: from a store ahead of it, from its core's load cache, or from its home. -/
def State.loadByte (s : State) (core : Nat) (bypass : Bool) (ahead : List StoreRec) (l : Loc) : Byte × Bool :=
  match lastByte l ahead with
  | some b => (b, s.staysPoisoned ahead l)
  | none =>
    match l with
    | .home a =>
      match (if bypass then none else s.cached core a) with
      | some e => e
      | none => s.readLoc l
    | l => s.readLoc l

/-- Cached copies of the doublewords that some bytes of device memory lie in are discarded in the cores that a test names. -/
def State.dropCached (s : State) (cores : Nat → Bool) (l : Loc) (n : Nat) : State :=
  match l with
  | .home a => { s with cache := s.cache.filter fun e => !(cores e.1.1 && a < 8 * e.1.2 + 8 && 8 * e.1.2 < a + n) }
  | _ => s
/-- The doubleword of an address enters a core's load cache whole, as the core sees it at that moment: an aligned load of up to 8 bytes
lies in one, so that it never mixes a copy with its home (R93, R119). -/
def State.fillCache (s : State) (core a : Nat) : State :=
  let near := s.buffer.filter fun r => clusterOf r.core == clusterOf core
  let mine := s.queue.filter fun r => !r.held && r.core == core
  { s with cache := tput (core, a / 8) ((List.range 8).map fun i => s.loadByte core true (near ++ mine) (.home (a / 8 * 8 + i))) s.cache }

/-- Read bytes at a virtual address as loads of a wave, one byte after another: through the core's view of memory, its own earlier stores included
(R118, R180). -/
def State.loadVA (s : State) (w : WaveRef) (core ctx op : Nat) (va : Word) : Nat → ReadRes
  | 0 => .ok []
  | n + 1 => match s.loadVA w core ctx op va n with
    | .ok bs =>
      let a := va + BitVec.ofNat 64 n
      if badVA a then .bad
      else (match s.translate true core ctx .load a.toNat with
        | .fault c l => .fault a.toNat c l
        | .poison => .poison
        | .ok pa fab node tso =>
          if fab && !s.fabOk node pa then .refused
          else
            let l := if fab then Loc.node node pa else Loc.home pa
            let b := s.loadByte core (tso || s.storedSince w op l 1) (s.ahead w core op l 1) l
            if b.2 then .poison else .ok (bs ++ [b.1]))
    | o => o

/-- The bytes of the record and of the argument block that an invocation reads: location and page attribute TSO, none where nothing is mapped
(R109, R180). -/
def State.invokeSpots (s : State) (w : WaveRef) (op : Nat) (a : Word) : List (Option (Loc × Bool)) :=
  let core := s.coreOf w.teamRef
  let ctx := s.ctxOf w.lid
  let spots := fun (a : Word) (n : Nat) => (List.range n).map fun j => match s.translate true core ctx .load (a + BitVec.ofNat 64 j).toNat with
    | .ok pa fab node tso => some (if fab then Loc.node node pa else Loc.home pa, tso)
    | _ => none
  spots a 64 ++ match s.loadVA w core ctx op a 64 with
    | .ok bs => spots (BitVec.ofNat 64 (bits (leNat bs) 64 64)) (bits (leNat bs) 128 16)
    | _ => []
/-- The bytes of device memory that a fabric instruction of a wave is still to access: what a parked invocation reads, as far as it is mapped; the location
of an ordered atomic that is not yet answered (R118, R177, R302). -/
def State.fabLocs (s : State) (w : WaveRef) (op : Nat) : FabReq → List (Loc × Nat)
  | .parked (.invoke _ a _ _ _) _ _ => (s.invokeSpots w op a).filterMap fun x => x.map fun y => (y.1, 1)
  | .parked (.oatom _ _ va _ wide _ _ _) _ _ =>
    ([AccKind.atomic, .load, .store].findSome? fun k =>
      match s.translate true (s.coreOf w.teamRef) (s.ctxOf w.lid) k va.toNat with
      | .ok pa fab node _ => some (if fab then Loc.node node pa else Loc.home pa, if wide then 8 else 4)
      | _ => none).toList
  | .oatom _ _ node pa _ wide _ _ _ => [(if node = s.fabric.node then .home pa else .node node pa, if wide then 8 else 4)]
  | _ => []

/-! ### Drained, performed, released -/

/-- A single access of a load or atomic is still to be performed. -/
def Pend.unperformed (p : Pend) : Bool :=
  match p.kind with
  | .mem _ todo parts _ => !todo.isEmpty || parts.any (·.val.isNone)
  | _ => false

/-- Every load and atomic that the wave issued before `op` is performed. -/
def Wave.loadsDone (v : Wave) (op : Nat) : Bool := !(v.pend.any fun p => p.id < op && p.ctr == 0 && p.unperformed)

/-- A store on its way has passed the point that serves a scope for a core (R113): core scope, the core's write queue; cluster scope, its
cluster's buffer; wider scopes, its home. A scratchpad store must be written into its scratchpad (R28). -/
def passed (core scope : Nat) (inBuffer : Bool) (r : StoreRec) : Bool :=
  !r.loc.isSpad && match scope with
  | 0 => if inBuffer then clusterOf r.core == clusterOf core else r.core == core && !r.held
  | 1 => inBuffer && clusterOf r.core == clusterOf core
  | _ => false

/-- The number below which stores are covered by a release at operation `op`: those issued before it, and those that a load issued before
it may have seen, performed later (R117: what the thread observed before the release is covered). -/
def Wave.cut (v : Wave) (op : Nat) : Nat := v.seen.foldl (fun m e => if e.1 < op then max m e.2 else m) op

/-- Every store that a release by the wave at `op` covers has passed the point of a scope: its own earlier ones on any core, and those that
it may have seen in its core's queue and its cluster's buffer, here and where it has moved from; stores in its team's escrow slot too
(R117, R127, R384). -/
def State.storesAt (s : State) (w : WaveRef) (op scope : Nat) : Bool :=
  let core := s.coreOf w.teamRef
  let cut := match s.wave? w with | some v => v.cut op | none => op
  let due := fun (r : StoreRec) => if r.w == w then decide (r.op < op) else decide (r.sid < cut)
  !(s.queue.any fun r => due r && s.seesQueued w core r && !passed core scope false r) &&
  !(s.buffer.any fun r => due r && s.seesBuffered w core r && !passed core scope true r) &&
  (match s.team? w.teamRef with
    | some t => match t.escrow with | some e => e.count == 0 | none => true
    | none => true)

/-- A fence still owes an acquire: the loads before it are unperformed, or a full fence has stores before it that have not reached its point (R120). -/
def Fence.owes (f : Fence) : Bool := f.kind != 1 && (f.needLoads || (f.kind == 3 && f.needStores))

/-- A release by a wave at a scope, at its operation `op`, may take effect: every earlier access of the wave has reached its point,
lanes that wait on a page or a line included (R117, R287), and what its earlier fences acquire is acquired, since a release passes on what its thread has observed
(R117, R123). -/
def State.released (s : State) (w : WaveRef) (op scope : Nat) : Bool :=
  match s.wave? w with
  | some v => v.loadsDone op && s.storesAt w op scope && !(v.fences.any fun f => f.id < op && f.owes) &&
      !(v.pend.any fun p => p.id < op && (match p.kind with | .mem _ todo _ _ => !todo.isEmpty | _ => false))
  | none => true

/-- The promotion of R121 for a launch: the write queue of every core where the launch has a resident or saved team is drained, and its
cluster's buffer, and so is what its waves have left elsewhere or brought along from another core. A release whose value an acquire may
read now is thereby a release at the acquire's scope, whenever it was made. -/
def State.promoted (s : State) (lid : Nat) : Bool :=
  let mine := s.teams.filter fun t => t.1.lid == lid && t.2.alive
  let left := fun (r : StoreRec) => r.w.lid == lid || mine.any fun t => t.2.carry.contains r.sid
  !(s.queue.any fun r => !r.held && (left r || mine.any fun t => t.2.core == r.core)) &&
  !(s.buffer.any fun r => left r || mine.any fun t => clusterOf t.2.core == clusterOf r.core)

/-! ### Where a lane's accesses go -/

/-- The access kind of a memory operation (R359). -/
def AccOp.kind : AccOp → AccKind
  | .load => .load | .store => .store | .atom _ => .atomic

/-- The single accesses of a lane: one when it is naturally aligned, else one for each byte (R93, R284). A scratchpad atomic ignores
the low bits of its offset (R107). -/
def pieces (w : Nat) (addr : Nat) : List (Nat × Nat) := if addr % w = 0 then [(0, w)] else (List.range w).map (·, 1)

/-- The scratchpad location `j` bytes on from an offset: the byte wraps within OFFSET, and every other field of the offset stands (R96). -/
def State.spadAt (s : State) (t : TeamRef) (o j : Nat) : Loc := s.spadLoc t (o % 2 ^ 32 / 2 ^ 17 * 2 ^ 17 + (o + j) % 2 ^ 17)

/-- The scratchpad accesses of a lane: place in the lane, location, length. -/
def State.spadPieces (s : State) (t : TeamRef) (r : MemReq) (q : LaneReq) : List (Nat × Loc × Nat) :=
  let base := q.addr.toNat % 2 ^ 32
  let o := match r.op with | .atom _ => base / r.w * r.w | _ => base
  (pieces r.w o).map fun pc => (pc.1, s.spadAt t o pc.1, pc.2)

/-- The locations of a lane, as far as its pages are mapped, whatever the page lets it do. -/
def State.laneLocs (s : State) (w : WaveRef) (r : MemReq) (q : LaneReq) : List (Loc × Nat) :=
  if r.sp then (s.spadPieces w.teamRef r q).map (·.2)
  else (pieces r.w q.addr.toNat).filterMap fun pc =>
    [r.op.kind, .load, .store].findSome? fun k =>
      match s.translate true (s.coreOf w.teamRef) (s.ctxOf w.lid) k (q.addr + BitVec.ofNat 64 pc.1).toNat with
      | .ok pa fab node _ => some (if fab then .node node pa else .home pa, pc.2)
      | _ => none

/-- A lane of an earlier memory instruction of the wave that waits on a page or a line, or a lane of the same one below `lane`, goes to these
bytes: what is issued later to them comes after it, on either path, and higher lanes of a store or atomic come after lower ones (R107, R118,
R285). -/
def State.laneWaits (s : State) (w : WaveRef) (op lane : Nat) (l : Loc) (n : Nat) : Bool :=
  match s.wave? w with
  | some v => v.pend.any fun o => o.id ≤ op && match o.kind with
      | .mem r todo _ _ => todo.any fun q => (o.id < op || q.lane < lane) && (s.laneLocs w r q).any fun x => x.1.overlaps x.2 l n
      | _ => false
  | none => false
/-- A fabric instruction of the wave before `op` is still to access these bytes (R118, R177, R302). -/
def State.fabWaits (s : State) (w : WaveRef) (op : Nat) (l : Loc) (n : Nat) : Bool :=
  match s.wave? w with
  | some v => v.pend.any fun o => o.id < op && match o.kind with
      | .fab q _ => (s.fabLocs w o.id q).any fun x => x.1.overlaps x.2 l n
      | _ => false
  | none => false
/-- A load, store or atomic of the wave before `op` to these bytes is not yet performed, or waits (R118). -/
def State.accessWaits (s : State) (w : WaveRef) (op : Nat) (l : Loc) (n : Nat) : Bool :=
  s.laneWaits w op 0 l n || match s.wave? w with
  | some v => v.pend.any fun o => o.id < op && match o.kind with
      | .mem _ _ ps _ => ps.any fun q => q.val.isNone && q.loc.overlaps q.n l n
      | _ => false
  | none => false

/-- A lane that waits goes to a TSO page; where nothing is mapped yet the page may turn out to be one (DESIGN CHOICE, log entry 69). -/
def State.laneTso (s : State) (w : WaveRef) (r : MemReq) (q : LaneReq) : Bool :=
  !r.sp && (pieces r.w q.addr.toNat).any fun pc =>
    ([r.op.kind, .load, .store].findSome? fun k =>
      match s.translate true (s.coreOf w.teamRef) (s.ctxOf w.lid) k (q.addr + BitVec.ofNat 64 pc.1).toNat with
      | .ok _ _ _ tso => some tso
      | _ => none).getD true
/-- A waiting lane of an earlier instruction, or a byte that a parked invocation reads, lies on a TSO page and comes before an access of the wave to such a
page: a load or atomic before any access, a store before a store or an atomic (`wr`) (R109, R180, R287). -/
def State.tsoWaits (s : State) (w : WaveRef) (op : Nat) (wr : Bool) : Bool :=
  match s.wave? w with
  | some v => v.pend.any fun o => o.id < op && match o.kind with
      | .mem r todo _ _ => (wr || r.op != .store) && todo.any (s.laneTso w r)
      | .fab (.parked (.invoke _ a _ _ _) _ _) _ => (s.invokeSpots w o.id a).any fun x => x.all (·.2)
      | _ => false
  | none => false
/-- The loads of an invocation come after the wave's earlier accesses to their bytes; on a TSO page, after its earlier loads and atomics there and after every
store that they find on its way (R109, R118, R180). -/
def State.invokeWaits (s : State) (w : WaveRef) (op : Nat) (a : Word) : Bool :=
  let tsoDue := s.tsoWaits w op false || match s.wave? w with
    | some v => v.pend.any fun o => o.id < op && match o.kind with
        | .mem _ _ ps _ => ps.any fun q => q.val.isNone && q.tso
        | _ => false
    | none => false
  (s.invokeSpots w op a).any fun x => match x with
    | some (l, tso) => s.accessWaits w op l 1 || s.fabWaits w op l 1 || (tso && (tsoDue || (s.ahead w (s.coreOf w.teamRef) op l 1).any fun r => r.overlaps l 1))
    | none => false
/-- Copies in the core's load cache of the bytes that an invocation reads past it on TSO pages are discarded, so that a later load finds nothing older
(R118). -/
def State.dropRead (s : State) (w : WaveRef) (op : Nat) (a : Word) : State :=
  (s.invokeSpots w op a).foldl (fun s x => match x with
    | some (l, true) => s.dropCached (fun c => c == s.coreOf w.teamRef) l 1
    | _ => s) s

/-! ### Atomic, acquire and release accesses in program order (R116) -/

/-- The request is atomic, an acquire or a release. -/
def MemReq.strong (r : MemReq) : Bool := r.acq.isSome || r.rel.isSome || (match r.op with | .atom _ => true | _ => false)
/-- A release store on its way has not yet passed the point of its own scope. -/
def State.releasing (s : State) (core : Nat) (r : StoreRec) : Bool :=
  match r.rel with
  | some sc => !passed core sc (s.buffer.any (·.sid == r.sid)) r
  | none => false
/-- Every atomic, acquire or release access that a lane's thread has issued before `op` has taken effect in its own scope: these accesses
appear in program order, as in one order of all threads (R116). -/
def State.strongDone (s : State) (w : WaveRef) (op lane : Nat) : Bool :=
  let core := s.coreOf w.teamRef
  !((s.queue ++ s.buffer).any fun r => r.w == w && r.lane == lane && r.op < op && s.releasing core r) &&
  match s.wave? w with
  | some v => !(v.pend.any fun o => o.id < op && match o.kind with
      | .mem r _ ps _ => r.strong && ps.any fun x => x.val.isNone && x.lane == lane
      | _ => false)
  | none => true

/-! ### Stores on their way -/

/-- A team has a store in a cluster buffer (`inBuffer`) or in a write queue before it: its own, its core's or cluster's, one that came along
with a move. -/
def Team.has (k : Team) (t : TeamRef) (inBuffer : Bool) (r : StoreRec) : Bool :=
  r.w.teamRef == t || k.carry.contains r.sid || (if inBuffer then clusterOf r.core == clusterOf k.core else r.core == k.core)
/-- Two stores in the cluster buffers (`inBuffer`), or two in the write queues, that one wave, core or cluster has before it: it sees them in
their order there, and they keep it (R118, R127, R132). -/
def State.together (s : State) (inBuffer : Bool) (q r : StoreRec) : Bool :=
  q.w == r.w || (if inBuffer then clusterOf q.core == clusterOf r.core else q.core == r.core) ||
  s.teams.any fun e => e.2.alive && e.2.has e.1 inBuffer q && e.2.has e.1 inBuffer r

/-- A store may leave its core's write queue: it is not held, and no older overlapping store stands before it there. -/
def State.canDrain (s : State) (r : StoreRec) : Bool :=
  !r.held && !((s.queue.takeWhile fun q => q.sid ≠ r.sid).any fun q => !q.held && s.together false q r && q.overlaps r.loc r.bytes.length)

/-- A store passes from the write queue into the cluster buffer, which makes the cluster's cached copies stale (R113). -/
def State.drainStore (s : State) (r : StoreRec) : State :=
  State.dropCached { s with queue := s.queue.filter (·.sid ≠ r.sid), buffer := s.buffer ++ [r] }
    (fun c => clusterOf c == clusterOf r.core) r.loc r.bytes.length

/-- An earlier load or atomic of a store's wave to its bytes is unperformed, an earlier `osend` still has to read them (R302), or both are on TSO
pages (R109, R118). -/
def State.storeWaits (s : State) (r : StoreRec) : Bool :=
  match s.wave? r.w with
  | some v => v.pend.any fun p => p.id < r.op && match p.kind with
      | .mem _ _ parts _ => parts.any fun q => q.val.isNone && (q.loc.overlaps q.n r.loc r.bytes.length || (q.tso && r.tso))
      | .fab (.parked (.osend _ _ _ _ off len _) _ _) _ => (List.range len).any fun j => r.overlaps (s.spadAt r.w.teamRef off j) 1
      | _ => false
  | none => false
/-- A store may be performed at its home: no older overlapping store stands before it in the buffer, no earlier access of its wave to its bytes
is unperformed, and on a TSO page nothing earlier of the wave's TSO accesses is, waiting lanes included (R109, R118). -/
def State.canPerformStore (s : State) (r : StoreRec) : Bool :=
  !((s.buffer.takeWhile fun q => q.sid ≠ r.sid).any fun q => s.together true q r && q.overlaps r.loc r.bytes.length) &&
  !s.storeWaits r && !(r.tso && (s.tsoWaits r.w r.op true || (s.queue ++ s.buffer).any fun q => q.w == r.w && q.tso && q.before r))

/-- One store lane of an operation is acknowledged (R188): the operation ends with its last. -/
def Wave.ackStore (v : Wave) (op : Nat) : Wave :=
  match v.pend? op with
  | some p =>
    match p.kind with
    | .mem r todo parts left =>
      if left ≤ 1 && todo.isEmpty then v.endPend op
      else v.modPend op fun p => { p with kind := .mem r todo parts (left - 1) }
    | _ => v
  | none => v

/-- The last lane of an instruction that writes a protection unit whole clears the unit's poison (R375). -/
def State.clearUnit (s : State) (r : StoreRec) : State :=
  if r.whole && !((s.queue ++ s.buffer).any fun q => q.w == r.w && q.op == r.op && q.loc.unit == r.loc.unit) then
    match r.loc with
    | .home a => { s with mempoison := s.mempoison.filter (· ≠ a / 32) }
    | .spad t o => s.modTeam t fun k => { k with spoison := k.spoison.filter fun u => u / 2 ≠ o / 8 }
    | _ => s
  else s

/-- A core that a store's wave, or a wave that the store came along with, has moved to since. -/
def State.movedTo (s : State) (r : StoreRec) (c : Nat) : Bool :=
  c != r.core && (s.coreOf r.w.teamRef == c || s.teams.any fun t => t.2.core == c && t.2.carry.contains r.sid)

/-- The home node of a fabric-mapped access refuses it, or no route reaches it any more (R360). -/
def State.homeRefuses (s : State) : Loc → Bool
  | .node n pa => n != s.fabric.node && !s.fabOk n pa
  | _ => false

/-- A store that its home refuses is over, and its launch is killed with PAGE_FAULT (R360). -/
def State.refuseStore (s : State) (r : StoreRec) : State :=
  let off := match (s.wave? r.w).bind fun v => v.pend? r.op with | some p => p.off | none => 0
  let s := { s with queue := s.queue.filter (·.sid ≠ r.sid), buffer := s.buffer.filter (·.sid ≠ r.sid) }
  (s.modWave r.w fun v => v.ackStore r.op).killLaunch r.w.lid 0x0D off 0

/-- The bytes of a store reach their home, and the store is acknowledged: ST and the escrow slot fall (R188, R384). Copies that are older
than it go from the cores whose waves had it before them (R118, R127). -/
def State.performStore (s : State) (r : StoreRec) : State :=
  if s.homeRefuses r.loc then s.refuseStore r else
  let s := State.dropCached { s with queue := s.queue.filter (·.sid ≠ r.sid), buffer := s.buffer.filter (·.sid ≠ r.sid) } (s.movedTo r)
    r.loc r.bytes.length
  let s := if s.isWindow r.loc then s.writeWindow r.loc r.bytes else match r.loc with
    | .home a => s.writeHome a r.bytes
    | .node n a => { s with nodes := tmod n (mwriteAll (r.bytes.zipIdx.map fun (p : Byte × Nat) => (a + p.2, p.1))) s.nodes }
    | .spad t o => if (s.team? t).any Team.alive then s.modTeam t fun k => k.writeSpad o r.bytes else s
    | .void => s
  let s := (s.clearUnit r).modWave r.w fun v => v.ackStore r.op
  if r.escrowed then
    s.modTeam r.w.teamRef fun t => { t with escrow := match t.escrow with
      | some e => if e.count ≤ 1 then none else some { e with count := e.count - 1 }
      | none => none }
  else s

/-- A held store enters the write queue: it takes its place in the order, and its own core's cached copies are stale. -/
def State.enterStore (s : State) (r : StoreRec) : State :=
  State.dropCached { s with queue := (s.queue.filter (·.sid ≠ r.sid)) ++ [{ r with held := false }] }
    (fun c => c == r.core) r.loc r.bytes.length

/-- The release of a store is met, and no older overlapping store of its wave is held or waits, nor a fabric instruction that is still to access its bytes
(R116, R117, R118, R287). -/
def State.mayEnter (s : State) (r : StoreRec) : Bool :=
  !s.laneWaits r.w r.op r.lane r.loc r.bytes.length && !s.fabWaits r.w r.op r.loc r.bytes.length &&
  (match r.rel with | some sc => s.released r.w r.op sc && s.strongDone r.w r.op r.lane | none => true) &&
  !(s.queue.any fun q => q.held && q.w == r.w && q.before r && q.overlaps r.loc r.bytes.length)
/-- A held store may enter the write queue. -/
def State.canEnter (s : State) (r : StoreRec) : Bool := r.held && s.mayEnter r

/-- A store lane leaves the wave: held while its release is unmet, or while an older overlapping store of the wave is held or an older
overlapping lane waits; a held one stands before the younger ones of its wave that are held. -/
def State.pushStore (s : State) (r : StoreRec) : State :=
  let first := fun (q : StoreRec) => !(q.held && q.w == r.w && r.before q)
  if s.mayEnter r then s.enterStore r
  else { s with queue := s.queue.takeWhile first ++ { r with held := true } :: s.queue.dropWhile first }

/-! ### Single accesses of loads and atomics -/

/-- The scope that an access acts at: a scratchpad access knows core and cluster only (R113). -/
def effScope (sp : Bool) (scope : Nat) : Nat := if sp && scope ≥ 2 then 1 else scope

/-- One access may be performed: it is not held by the logical clock; a load's team is not saved out (R127: what is in flight lands before the save); no earlier
access of the wave to its bytes is unperformed, an ordered atomic and a parked invocation included; an
acquire, an atomic and a TSO access find every store that they must see at the point where they read, and a release store that an acquire reads
has passed the point of its own scope; an atomic or acquire waits for the earlier ones of its thread (R109, R116, R117, R122). -/
def State.canPerform (s : State) (w : WaveRef) (p : Pend) (i : Nat) : Bool :=
  match p.kind, s.wave? w with
  | .mem r _ parts _, some v =>
    match parts[i]? with
    | none => false
    | some q =>
      let core := s.coreOf w.teamRef
      let before := v.pend.any fun o => o.id < p.id && match o.kind with
        | .mem _ _ ps _ => ps.any fun x => x.val.isNone && (x.loc.overlaps x.n q.loc q.n || (x.tso && q.tso))
        | _ => false
      let within := parts.any fun x => x.lane < q.lane && x.val.isNone && x.loc.overlaps x.n q.loc q.n
      let isAtom := match r.op with | .atom _ => true | _ => false
      let ahead := (s.ahead w core p.id q.loc q.n).filter fun x => x.overlaps q.loc q.n
      let clear := match r.op, r.acq with
        | .atom _, _ => ahead.isEmpty
        | _, some 0 => !q.tso || ahead.isEmpty
        | _, some 1 => !(ahead.any fun x => s.queue.any fun y => y.sid == x.sid)
        | _, some _ => ahead.isEmpty
        | _, none => !q.tso || ahead.isEmpty
      let relOk := match r.op, r.rel with
        | .atom _, some sc => s.released w p.id sc
        | _, _ => true
      let tsoOk := !(q.tso && (s.tsoWaits w p.id isAtom || (isAtom && (s.queue ++ s.buffer).any fun x => x.w == w && x.tso && x.op < p.id)))
      let away := r.op == .load && (s.team? w.teamRef).any fun t => t.st == .saved
      let strongOk := !r.strong || (s.strongDone w p.id q.lane && !(ahead.any (s.releasing core)))
      q.val.isNone && !away && (!s.isWindow q.loc || ahead.isEmpty) && !p.held && !before && !s.laneWaits w p.id (if isAtom then q.lane else 0) q.loc q.n &&
        !s.fabWaits w p.id q.loc q.n && !within && clear && relOk && tsoOk && strongOk && (!r.remote || s.promoted w.lid)
  | _, _ => false

/-- The value that an atomic leaves (R107, R290): width in bytes, float format of `fadd`, modes, old value, operands. Of two NaNs of `fadd` the
old value's comes first (DESIGN CHOICE, log entry 18). -/
def atomOp (op : Nat) (w fmt : Nat) (md : FMode) (old b c : Nat) : Nat :=
  let m := 2 ^ (8 * w)
  let o := old % m
  let x := b % m
  let neg := fun n => decide (m / 2 ≤ n)
  let slt := fun p q => if neg p == neg q then decide (p < q) else neg p
  match op with
  | 0 => (o + x) % m
  | 1 => if slt x o then x else o
  | 2 => if slt o x then x else o
  | 3 => if x < o then x else o
  | 4 => if o < x then x else o
  | 5 => o &&& x
  | 6 => o ||| x
  | 7 => o ^^^ x
  | 8 => x
  | 9 => if o = x then c % m else o
  | _ => (exactSum md fmt [fread md fmt o, fread md fmt x] [fread md fmt o, fread md fmt x]).bits

/-- The bytes at consecutive locations of a home, and whether they are poisoned. -/
def State.readHome (s : State) (l : Loc) (n : Nat) : List (Byte × Bool) := (List.range n).map fun i => s.readLoc (l.plus i)

/-- Write bytes at a home; a scratchpad of a retired team takes none (R97). -/
def State.writeLoc (s : State) (l : Loc) (bs : List Byte) : State :=
  match l with
  | .home a => s.writeHome a bs
  | .node n a => { s with nodes := tmod n (mwriteAll (bs.zipIdx.map fun (p : Byte × Nat) => (a + p.2, p.1))) s.nodes }
  | .spad t o => if (s.team? t).any Team.alive then s.modTeam t fun k => k.writeSpad o bs else s
  | .void => s

/-- The modes of a wave's launch. -/
def State.fmOf (s : State) (w : WaveRef) : FMode :=
  match s.launch? w.lid with | some l => FMode.ofWord l.fmode | none => FMode.ofWord 0

/-- Reading device memory whose error lasts marks its frame (R374). -/
def State.noteLoc (s : State) (l : Loc) (n : Nat) : State := match l with | .home a => s.noteRead a n | _ => s

/-- What a wave may have seen of stores on their way, once an access of an operation is performed now: the operation with the number that
every store so far is below. Entries that no store on its way is below are left out. -/
def State.seenAt (s : State) (v : Wave) (op : Nat) : Tbl Nat Nat :=
  (tput op s.nextId v.seen).filter fun e => (s.queue ++ s.buffer).any fun r => r.sid < e.2

/-- Perform one access of an outstanding load or atomic. A load that reads past the load cache discards the core's copy, so that no later load returns what is
older than what it read (R118, R132). -/
def State.perform (s : State) (w : WaveRef) (p : Pend) (i : Nat) : State :=
  match p.kind with
  | .mem r todo parts left =>
    match parts[i]? with
    | none => s
    | some q =>
      if s.homeRefuses q.loc then s.killLaunch w.lid 0x0D p.off 0 else
      let core := s.coreOf w.teamRef
      let got : List (Byte × Bool) × State :=
        if s.isWindow q.loc then (match r.op with | .atom _ => List.replicate q.n (0, false) | _ => s.readWindow q.loc q.n, s)
        else match r.op with
        | .atom op =>
          let old := s.readHome q.loc q.n
          let v := atomOp op.toNat r.w r.fmt (s.fmOf w) (leNat (old.map (·.1))) q.d0.toNat q.d1.toNat
          let t := if q.loc == .void then s else s.writeLoc q.loc (leBytes q.n v)
          (old, (t.noteLoc q.loc q.n).dropCached (fun c => c == core) q.loc q.n)
        | _ =>
          let bypass := q.tso || (match r.acq with | some sc => sc ≥ 1 | none => false) || s.storedSince w p.id q.loc q.n
          let ahead := s.ahead w core p.id q.loc q.n
          let t := s.noteLoc q.loc q.n
          ((List.range q.n).map (fun j => s.loadByte core bypass ahead (q.loc.plus j)), if bypass then t.dropCached (fun c => c == core) q.loc q.n else t)
      let s := got.2
      let s := match r.acq with | some sc => if sc ≥ 1 then s.dropCache core else s | none => s
      s.modWave w fun v => Wave.modPend { v with seen := s.seenAt v p.id } p.id fun x =>
        { x with kind := .mem r todo (setAt parts i { q with val := some got.1 }) left }
  | _ => s

/-- Perform, in order, every access of an operation that is still to be performed; none when one of them cannot be. -/
def State.performAll : Nat → State → WaveRef → Nat → Option State
  | 0, s, w, op => match s.wave? w with
    | some v => match v.pend? op with | some p => if p.unperformed then none else some s | none => none
    | none => none
  | n + 1, s, w, op =>
    match s.wave? w with
    | some v =>
      match v.pend? op with
      | some p =>
        match p.kind with
        | .mem _ _ parts _ =>
          match parts.findIdx? (·.val.isNone) with
          | some i => if s.canPerform w p i then State.performAll n (s.perform w p i) w op else none
          | none => State.performAll 0 s w op
        | _ => none
      | none => none
    | none => none

/-! ### Lanes of a memory instruction -/

/-- How one lane starts: its accesses; a page fault; an absent line; a kill. -/
inductive LaneOut where
  | ok (parts : List Part)
  | fault (va : Word) (cause level : Nat)
  | absent
  | kill (status : Nat)
  deriving DecidableEq, Repr

/-- Start a lane in device memory: the walk of each piece, in address order (R358, R360). -/
def State.startGeneric (s : State) (core ctx : Nat) (r : MemReq) (q : LaneReq) : LaneOut :=
  (pieces r.w q.addr.toNat).foldl (fun (acc : LaneOut) pc => match acc with
    | .ok ps =>
      let va := q.addr + BitVec.ofNat 64 pc.1
      if badVA va then .kill 0x0B
      else match s.translate true core ctx r.op.kind va.toNat with
        | .fault c l => .fault va c l
        | .poison => .kill 0x0E
        | .ok pa fab node tso =>
          if fab && !s.fabOk node pa then .kill 0x0D
          else .ok (ps ++ [{ lane := q.lane, pos := pc.1, loc := if fab then .node node pa else .home pa, n := pc.2, tso := tso,
                             d0 := q.d0, d1 := q.d1, val := none }])
    | o => o) (.ok [])

/-- Start a lane in a scratchpad: an absent line holds it (R100). -/
def State.startSpad (s : State) (t : TeamRef) (r : MemReq) (q : LaneReq) : LaneOut :=
  let ps : List Part := (s.spadPieces t r q).map fun pc =>
    { lane := q.lane, pos := pc.1, loc := pc.2.1, n := pc.2.2, tso := false, d0 := q.d0, d1 := q.d1, val := none }
  if ps.any fun p => s.lineAbsent p.loc then .absent else .ok ps

def State.startLane (s : State) (w : WaveRef) (r : MemReq) (q : LaneReq) : LaneOut :=
  if r.sp then s.startSpad w.teamRef r q else s.startGeneric (s.coreOf w.teamRef) (s.ctxOf w.lid) r q

/-- What a number of lanes come to: accesses of the lanes that start, the lanes that do not, the lowest fault, a kill. -/
structure Started where
  parts : List Part
  todo : List LaneReq
  fault : Option (Word × Nat × Nat)
  kill : Option Nat
  deriving DecidableEq, Repr

def State.startLanes (s : State) (w : WaveRef) (r : MemReq) (qs : List LaneReq) : Started :=
  qs.foldl (fun a q => match s.startLane w r q with
    | .ok ps => { a with parts := a.parts ++ ps }
    | .absent => { a with todo := a.todo ++ [q] }
    | .fault va c l => { a with todo := a.todo ++ [q], fault := some (a.fault.getD (va, c, l)) }
    | .kill st => { a with kill := some (a.kill.getD st) }) { parts := [], todo := [], fault := none, kill := none }

/-- Table entries that the walks of lanes could not read mark their frames and are counted (R358, R374, R376). -/
def State.noteLanes (s : State) (w : WaveRef) (r : MemReq) (qs : List LaneReq) : State :=
  if r.sp then s
  else qs.foldl (fun s q => (pieces r.w q.addr.toNat).foldl (fun s pc =>
    s.noteWalk true (s.coreOf w.teamRef) (s.ctxOf w.lid) r.op.kind (q.addr + BitVec.ofNat 64 pc.1).toNat) s) s

/-- The store lanes of started accesses leave the wave, lane by lane (R285). -/
def State.pushParts (s : State) (w : WaveRef) (op : Nat) (r : MemReq) (ps : List Part) : State :=
  ps.foldl (fun s q =>
    let f := s.fresh
    let bs := ((leBytes 8 q.d0.toNat).drop q.pos).take q.n
    State.pushStore f.2 { sid := f.1, op := op, lane := q.lane, w := w, core := s.coreOf w.teamRef, loc := q.loc, bytes := bs, rel := r.rel, tso := q.tso,
                          held := false, escrowed := false, whole := coversUnit ps q }) s

/-- Add started lanes to an outstanding memory instruction. A store's lanes leave at once; a load's and an atomic's are to be
performed, scratchpad loads at once where nothing earlier stands before them (R100). -/
def State.addStarted (s : State) (w : WaveRef) (op : Nat) (r : MemReq) (a : Started) : State :=
  match r.op with
  | .store =>
    let s := s.modWave w fun v => v.modPend op fun p => match p.kind with
      | .mem r _ ps left => { p with kind := .mem r a.todo ps (left + a.parts.length) }
      | _ => p
    s.pushParts w op r a.parts
  | _ => s.modWave w fun v => v.modPend op fun p => match p.kind with
      | .mem r _ ps left => { p with kind := .mem r a.todo (ps ++ a.parts) left }
      | _ => p

/-- Perform the accesses of an operation that can be performed now, in their order. -/
def State.performSome (s : State) (w : WaveRef) (op n : Nat) : State :=
  (List.range n).foldl (fun s i => match s.wave? w with
    | some v => match v.pend? op with | some p => if s.canPerform w p i then s.perform w p i else s | none => s
    | none => s) s

/-- Scratchpad loads are performed as they start, where they can be (R100: lanes whose lines are present complete at once). -/
def State.performSpad (s : State) (w : WaveRef) (op : Nat) : State :=
  match s.wave? w with
  | some v =>
    match v.pend? op with
    | some p =>
      match p.kind with
      | .mem r _ parts _ => if r.sp && r.op == .load then s.performSome w op parts.length else s
      | _ => s
    | none => s
  | none => s

/-- The lane mask of unfinished lanes. -/
def todoMask (ls : List LaneReq) : Nat := (maskOf (ls.map (·.lane))).toNat

/-- Park a path on the unfinished lanes of its memory instruction: a fault entry for a page, the line otherwise (R282, R100). -/
def State.parkMem (s : State) (w : WaveRef) (pid op off : Nat) (r : MemReq) (a : Started) : State :=
  if a.todo.isEmpty then s
  else match a.fault with
    | some (va, c, l) =>
      let wr := r.op.kind != .load
      let f := s.enterFault va w.lid (todoMask a.todo) off (s.ctxOf w.lid) 0 c wr l (.path w pid (some op))
      f.2.modWave w fun v => v.parkPath pid (.fault f.1) off
    | none => s.modWave w fun v => v.parkPath pid (.line op) off

/-- The unfinished lanes of an outstanding memory instruction start again; when the path goes on, its switch marker holds the wave, and a loop ends
that ends with the word (R100, R282, R367, R371). A path whose other lanes park it again is
parked anew: the time of R26 starts at 0 (DESIGN CHOICE, log entry 63). -/
def State.replayMem (s : State) (w : WaveRef) (op : Nat) : State :=
  match s.wave? w with
  | some v =>
    match v.pend? op with
    | some p =>
      match p.kind with
      | .mem r todo _ _ =>
        let a := s.startLanes w r todo
        match a.kill with
        | some st => (s.noteLanes w r todo).killLaunch w.lid st p.off 0
        | none =>
          let s := (s.addStarted w op r a).performSpad w op
          let s := s.modWave w fun v => { (v.unpark r.pid) with switchWait := v.switchWait || r.sw }
          (s.parkMem w r.pid op p.off r a).fallThrough w r.pid
      | _ => s
    | none => s
  | none => s

/-- Paths parked on absent lines whose lines may have become present try again, in the order of their waves (R100). -/
def State.wakeLines (s : State) : State :=
  (s.waves.map (·.1)).foldl (fun s w => match s.wave? w with
    | some v => v.pend.foldl (fun s p => match p.kind with
        | .mem r todo _ _ =>
          if s.present w && r.sp && !todo.isEmpty && (todo.any fun q => s.startLane w r q != .absent) then s.replayMem w p.id else s
        | _ => s) s
    | none => s) s

/-! ### Fences (R120, R121, R288) -/

/-- Copies that the wave issued before `op` are finished: for fences, a `cpy` counts as a memory access of the wave (R288). -/
def Wave.copiesDone (v : Wave) (op : Nat) : Bool :=
  !(v.pend.any fun p => p.id < op && match p.kind with | .copy _ => true | _ => false)

def State.fenceLoads (s : State) (w : WaveRef) (v : Wave) (f : Fence) : Bool :=
  v.loadsDone f.id && v.copiesDone f.id && (!f.remote || s.promoted w.lid)
def State.fenceStores (s : State) (w : WaveRef) (v : Wave) (f : Fence) : Bool :=
  v.copiesDone f.id && s.released w f.id f.scope

/-- A fence takes what effect it can: an acquire discards the core's load cache once earlier loads are performed, a full fence once more when
earlier stores have reached its point (R120); it ends when nothing more is needed. -/
def State.settleFence (s : State) (w : WaveRef) (f : Fence) : State :=
  match s.wave? w with
  | some v =>
    let l := f.needLoads && s.fenceLoads w v f
    let t := f.needStores && s.fenceStores w v f
    let s := if ((l && f.kind != 1) || (t && f.kind == 3)) && f.scope ≥ 1 then s.dropCache (s.coreOf w.teamRef) else s
    let f' := { f with needLoads := f.needLoads && !l, needStores := f.needStores && !t }
    s.modWave w fun v =>
      { v with fences := (v.fences.map fun g => if g.id = f.id then f' else g).filter fun g => g.needLoads || g.needStores }
  | none => s

/-- A pending fence can take effect now. -/
def State.fenceReady (s : State) (w : WaveRef) (f : Fence) : Bool :=
  match s.wave? w with
  | some v => (f.needLoads && s.fenceLoads w v f) || (f.needStores && s.fenceStores w v f)
  | none => false

/-- Fences hold a memory, copy or fabric instruction of the wave at issue until their conditions are met (R288); a load
(`noLoad` false) does not wait for the store side of an acquire and release fence (R120). -/
def Wave.fenceHolds (v : Wave) (noLoad : Bool) : Bool :=
  v.fences.any fun f => f.needLoads || (f.needStores && (noLoad || f.kind != 2))

/-- An acquire load or atomic that is not yet performed holds the wave's later memory, copy and fabric instructions (R287). -/
def Wave.acquireHolds (v : Wave) : Bool :=
  v.pend.any fun p => match p.kind with | .mem r _ _ _ => r.acq.isSome && p.unperformed | _ => false

end Sys2Proof.Machine
end

