-- ==== Sys2Proof/Machine/Issue.lean ====
section
/-! DEFINITION. Issue: code fetch and clause headers (R187, R190), the checks of one instruction word in their order (R191), the
holds of R338, early accesses (R194), and what every issue does besides its own effect (R19, R192, R218, R238). -/

namespace Sys2Proof.Machine

/-! ### Code -/

/-- A fetch of one code word. -/
inductive Fetched where
  | word (w : Nat)
  | range
  | fault (va : Word) (cause level : Nat)
  | poison
  | refused
  deriving DecidableEq, Repr

/-- Fetch the word at an image offset: within the code, then through the translation (R190, R205, R359, R415). -/
def State.fetchWord (s : State) (w : WaveRef) (l : Launch) (off : Nat) : Fetched :=
  if off < 64 || 64 + l.hdr.codelen < off + 4 then .range
  else match s.readVA true (s.coreOf w.teamRef) l.ctx .fetch (l.kernel + BitVec.ofNat 64 off) 4 with
    | .ok bs => .word (leNat bs)
    | .fault va c lv => .fault (BitVec.ofNat 64 va) c lv
    | .poison => .poison
    | .refused => .refused
    | .bad => .range

/-- A well-formed clause header (R186, R187). -/
def goodHeader (w : Nat) : Bool := bits w 24 8 == 0xC5 && bits w 0 4 != 0 && bits w 12 4 ≤ 5 && bits w 4 8 == 0
def headerWait (w : Nat) : Nat := bits w 16 8
def headerClass (w : Nat) : Nat := bits w 12 4
def headerCount (w : Nat) : Nat := bits w 0 4

/-! ### The path's place in its clause -/

/-- The instruction is the last of its clause. -/
def Path.atLast (p : Path) (i : Instr) : Bool := p.pc + 4 * i.words == p.fall
/-- A branch target: a signed number of words from the clause header, modulo 2^32 (R190, R382; DEDUCED, log entry 16). -/
def Path.target (p : Path) (o : Int) : Nat := ((p.hdr + 4 * o) % 2 ^ 32).toNat

/-- The path continues at another clause; a branch out of a body releases its loop buffer (R196). -/
def State.jumpPath (s : State) (w : WaveRef) (pid target : Nat) : State :=
  (s.modWave w fun v => v.modPath pid fun p => { p with pc := target, inClause := false, waits := 0 }).settleLoopBuf w
/-- The issuing path continues at another clause. -/
def State.jump (s : State) (k : Site) (target : Nat) : State := s.jumpPath k.w k.pid target

/-- The fall-through of the issuing path. -/
def State.fell (s : State) (k : Site) : State := s.fallThrough k.w k.pid

/-! ### The checks (R191, R338) -/

/-- What the checks of an issue say. -/
inductive Check where
  | go
  | hold
  | early
  | kill (status : Nat)
  deriving DecidableEq, Repr

/-- The field checks that depend on the launch: version (R203), allocation (R200), place in the clause (R215, R217), declared
cohort and tag slot (R28, R36). -/
def legalHere (i : Instr) (k : Site) : Bool :=
  i.legal && i.since ≤ k.l.hdr.enc && (named i).all (allocated k.l.hdr) &&
  match i with
  | .call .. | .loop .. => k.p.atLast i
  | .barCohort .. => k.l.hdr.cohort != 0
  | .leave _ n _ _ | .leaveClr _ n => k.l.hdr.tags.getD n.toNat 0 != 0
  | _ => true

/-- The decode checks of R191 in their order: a long form within its clause, opcode and fields, class. A long form that the launch's ENC lacks
breaks the clause before it is no opcode (DESIGN CHOICE, log entry 66). -/
def decodeCheck (i : Instr) (k : Site) : Option Nat :=
  if k.p.fall < k.p.pc + 4 * i.words then some 9
  else if !legalHere i k then some 8
  else if classOf i != 0 && classOf i != k.p.cls then some 9
  else none

/-- For fences and acquires: an instruction that only loads (`some false`), which the store side of an acquire and release fence does not hold
(R120), or any other memory, copy or fabric instruction (`some true`) (R288). -/
def memSide : Instr → Option Bool
  | .sld .. | .sldk .. | .vld .. | .vldsp .. | .vldacq .. | .vprf .. | .tlrd .. => some false
  | .fence .. => some true
  | .sst .. | .vst .. | .vstsp .. | .vstrel .. | .vatom .. | .spclr .. | .spclrFill .. | .spwait .. | .starm .. | .stwait .. | .tlwait ..
  | .cpy .. | .osend .. | .osendAt ..
  | .oatom .. | .oatomAt .. | .invk .. | .invh .. => some true
  | _ => none

/-- A stamp that would need a place among the held packets (R170). -/
def futureStamp (s : State) (stamp : Word) : Bool := s.now < stamp.toNat && stamp.toNat ≤ s.now + 2 ^ 24
/-- The explicit stamp of a fabric instruction on its way to the injector: no line or page holds it, and it is neither sent nor refused. -/
def Pend.unsent (p : Pend) : Option Nat :=
  match p.kind with
  | .fab (.osend _ _ _ _ _ t) false => t
  | .fab (.oatom _ _ _ _ _ _ _ _ t) false => t
  | _ => none
/-- The places among the 256 held packets that are taken (R170). An instruction takes its place when it goes on its way to the injector, which is when a stamp
too far ahead is refused as well: the rule speaks of a wait at issue, and of packets held (DESIGN CHOICE, log entry 69). -/
def State.heldPlaces (s : State) : Nat :=
  s.waves.foldl (fun n e => n + (e.2.pend.filter fun p => match p.unsent with | some t => s.now < t | none => false).length)
    s.fabric.future.length
/-- A send or atomic with this stamp would add a 257th held packet (R170). -/
def State.noPlace (s : State) (stamp : Option Nat) : Bool :=
  stamp.any (fun t => futureStamp s (BitVec.ofNat 64 t)) && decide (256 ≤ s.heldPlaces)
/-- The request of a send or atomic that goes on its way; a stamp too far ahead refuses it with FAR (R170). -/
def FabReq.goes (q : FabReq) (now : Nat) : Option Nat → FabReq
  | some t => if now + 2 ^ 24 < t then .done (q.refused 2) else q
  | none => q
/-- A send or atomic of a path waits, as at its issue, for a place among the held packets: what held it before is over (R170). -/
def Wave.awaitsPlace (v : Wave) (pid : Nat) : Bool :=
  v.pend.any fun p => match p.kind with | .fab (.parked _ q _) _ => q == pid | _ => false

/-- The scratchpad bytes that an instruction acts on at its issue: lines for `spclr`, a stage for `starm` and `stwait`, the payload of `osend`
(R101, R104, R105, R176). -/
def actsOn (i : Instr) (k : Site) (s : State) : List (Loc × Nat) :=
  let p := k.l.hdr.spadP
  let stage := fun (a : BitVec 6) => [(s.spadLoc k.w.teamRef ((k.s a).toNat % 2 ^ 32 / 128 * 128), 128)]
  let lines := fun (a : BitVec 6) (n : BitVec 10) => if p = 0 then [] else (List.range (n.toNat + 1)).map fun j =>
    (Loc.spad k.w.teamRef (128 * (((k.s a).toNat % 2 ^ 17 % p / 128 + j) % (p / 128))), 128)
  let payload := fun (a : BitVec 6) (len : BitVec 11) => (List.range len.toNat).map fun j => (s.spadAt k.w.teamRef ((k.s a).toNat % 2 ^ 32) j, 1)
  match i with
  | .spclr _ a n => lines a n
  | .spclrFill _ a n => lines a n
  | .starm _ a _ _ _ => stage a
  | .stwait _ _ a => stage a
  | .osend _ _ _ a n => payload a n
  | .osendAt _ _ _ a _ n => payload a n
  | _ => []

/-- An earlier access to the scratchpad bytes that an instruction acts on is not yet where the instruction can follow it: a load, atomic or
waiting lane of the wave, a store of it that is held, a store before it that waits for an access of its own wave (R118). -/
def actionWaits (i : Instr) (k : Site) (s : State) : Bool :=
  (actsOn i k s).any fun l =>
    s.accessWaits k.w s.nextId l.1 l.2 ||
    (s.ahead k.w (s.coreOf k.w.teamRef) s.nextId l.1 l.2).any fun r => r.overlaps l.1 l.2 && (r.held || s.storeWaits r)

/-- The loads of an invocation at its issue wait for accesses of the wave (R109, R118). -/
def invokeHeld (i : Instr) (k : Site) (s : State) : Bool :=
  match i with
  | .invk _ _ _ a => s.invokeWaits k.w s.nextId (k.s a)
  | .invh _ _ _ a => s.invokeWaits k.w s.nextId (k.s a)
  | _ => false

/-- Waits at issue that are no parks: a full counter (R188), a fence or acquire hold (R287, R288), earlier accesses to what the instruction acts on
(R118) or an invocation reads, a `cpy` of the wave that has not finished issuing (R145), no place for a future packet (R170). -/
def issueHeld (i : Instr) (k : Site) (s : State) : Bool :=
  (match counterOf i with | some c => decide (63 ≤ k.v.counter c) | none => false) ||
  (match memSide i with | some b => k.v.fenceHolds b || k.v.acquireHolds | none => false) ||
  actionWaits i k s ||
  (s.copies.any fun c => c.w == k.w && c.lid.isSome && (!c.accepted || !c.uncounted.isEmpty)) ||
  invokeHeld i k s ||
  (match i with
    | .osendAt _ _ _ _ t _ => s.noPlace (some (k.s t).toNat)
    | .oatomAt _ _ _ _ _ t _ _ => s.noPlace (some (k.s t).toNat)
    | _ => false)

/-- The path is resident on a core and nothing of R338 keeps it from issuing, nor does a send of its own that waits at issue (R170). -/
def Site.free (k : Site) (s : State) : Bool :=
  (k.v.slot0 == some k.p || k.v.slot1 == some k.p) && !k.p.isParked && k.p.waits == 0 && k.p.yielded.isNone &&
  (!k.v.switchWait || k.v.switchClear) && !k.v.ended && !k.v.awaitsPlace k.pid &&
  (match s.team? k.w.teamRef with
    | some t => (t.st == .resident || t.st == .placed) && (match tget t.core s.divHold with | some n => n == 0 | none => true)
    | none => false) && k.l.st == .running

/-- Every check of one instruction word at its issue. A word that is held is not yet looked at as an early access, and one that is an early access in a STRICT launch
and consumes poison ends the launch with HAZARD: R194 and R249 give no order (DESIGN CHOICE, log entry 69). -/
def checkIssue (i : Instr) (k : Site) (s : State) : Check :=
  if !k.free s then .hold
  else match decodeCheck i k with
    | some st => .kill st
    | none =>
      if issueHeld i k s then .hold
      else if (touches i).any k.v.outstanding then (if k.l.hdr.strict then .kill 0x0A else .early)
      else if k.consumesPoison i then .kill 0x0E
      else .go

/-! ### One issue -/

/-- The core of the path has used its cycle (R9). -/
def State.usedCycle (s : State) (k : Site) : State := { s with cur := none, issued := s.coreOf k.w.teamRef :: s.issued }

/-- What every issue does before the instruction's own effect: ICOUNT counts it, once, since what a page fault or a line holds is replayed without an
issue (R238), its age is zero (R19),
the path moves to the next word, the switch marker holds the wave (R192). -/
def State.begun (s : State) (x : Bool) (i : Instr) (k : Site) : State :=
  (s.usedCycle k).modWave k.w fun v =>
    Wave.modPath { v with icount := v.icount + 1, switchWait := x } k.pid fun p =>
      { p with age := 0, pc := p.pc + 4 * i.words }

/-- The meaning shared by every instruction word: the checks, then its own effect; `true` beside the effect says that the path goes
on to the next word, so that the loop-end test runs. -/
def issue (x : Bool) (i : Instr) (s : State) (body : Site → State → State × Bool) : Host.Outcome State Fault Refusal :=
  match s.site? with
  | none => .fault .noIssuingPath
  | some k =>
    match checkIssue i k s with
    | .kill st => done s (State.killLaunch { s with cur := none } k.w.lid st k.p.pc 0)
    | .hold => done s (s.usedCycle k)
    | .early => done s ((s.usedCycle k).modWave k.w fun v => { v.bumpHaz with switchWait := true })
    | .go =>
      let r := body k (s.begun x i k)
      done s (if r.2 then r.1.fell k else r.1)

/-- An instruction whose whole effect is on its own wave. -/
def issueWave (x : Bool) (i : Instr) (s : State) (f : Site → Wave → Wave) : Host.Outcome State Fault Refusal :=
  issue x i s fun k t => (t.modWave k.w (f k), true)

/-- The issuing instruction kills its launch; its word is the record's OFFSET (R417). -/
def State.killHere (s : State) (k : Site) (status : Nat) : State := s.killLaunch k.w.lid status k.p.pc 0

/-- An outstanding operation of the issuing path, its counter raised (R188). Its number comes back. -/
def State.post (s : State) (k : Site) (ctr : Nat) (dests : List Reg) (kind : PendKind) : Nat × State :=
  let f := s.fresh
  (f.1, f.2.modWave k.w fun v => v.addPend
    { id := f.1, ctr := ctr, off := k.p.pc, dests := dests, kind := kind, clk := k.v.lclk, held := false })

/-- A variable-latency result formed at issue (R91, R250). -/
def State.postResult (s : State) (k : Site) (ctr : Nat) (dests : List Reg) (ws : List RegWrite) (flags : Nat) : State :=
  (s.post k ctr dests (.result ws flags)).2

end Sys2Proof.Machine
end

