-- ==== Sys2Proof/Machine/Presence.lean ====
section
/-! DEFINITION. Presence of scratchpad lines, stages, timelines, and the parks that they release (R99 to R106, R124, R291 to R294). -/

namespace Sys2Proof.Machine

/-! ### Lines (R99, R101, R291) -/

/-- The `n` lines from one up, modulo the lines of the scratchpad. -/
def lineRange (p first n : Nat) : List Nat := if p = 0 then [] else (List.range n).map fun i => (first + i) % (p / 128)

/-- Lines lose their presence; data and counts stay. -/
def Team.clearLines (t : Team) (ls : List Nat) : Team := { t with absent := sunion ls t.absent }
/-- Lines without outstanding copies are filled with zeros and marked present. -/
def Team.fillLines (t : Team) (ls : List Nat) : Team :=
  ls.foldl (fun t l =>
    if (tget l t.counts).getD 0 = 0 then
      { (t.writeSpad (128 * l) (List.replicate 128 0)) with absent := t.absent.filter (· ≠ l) }
    else t) t
/-- Every line of a range is present. -/
def Team.hasLines (t : Team) (ls : List Nat) : Bool := ls.all fun l => !t.absent.contains l

/-! ### Stages (R103 to R106) -/

/-- A producer slot of a stage (R103). -/
structure StageSlot where
  expect : Nat
  delivered : Nat
  rank : Nat
  armed : Bool
  forfeit : Bool
  deriving DecidableEq, Repr

/-- Slot `p` of the stage record at an offset. -/
def Team.stageSlot (t : Team) (off p : Nat) : StageSlot :=
  let b := fun i => (t.spadByte (off + 16 * p + i)).toNat
  { expect := leNat ((List.range 4).map fun i => t.spadByte (off + 16 * p + i)),
    delivered := leNat ((List.range 4).map fun i => t.spadByte (off + 16 * p + 4 + i)),
    rank := b 8, armed := (b 9).testBit 0, forfeit := (b 9).testBit 1 }

/-- Write a slot. -/
def Team.putSlot (t : Team) (off p : Nat) (q : StageSlot) : Team :=
  t.writeSpad (off + 16 * p) (leBytes 4 q.expect ++ leBytes 4 q.delivered ++
    leBytes 8 (q.rank + (if q.armed then 256 else 0) + (if q.forfeit then 512 else 0)))

/-- The share of a slot is met. -/
def StageSlot.met (q : StageSlot) : Bool := !q.armed || q.expect ≤ q.delivered || q.forfeit

/-- Every armed slot of a stage is met (R105). -/
def Team.stageMet (t : Team) (off : Nat) : Bool := (List.range 8).all fun p => (t.stageSlot off p).met

/-- The producer of a slot can deliver no more: its team has retired or does not exist, and no unfinished copy names the slot (R106). -/
def State.producerGone (s : State) (t : TeamRef) (off p rank : Nat) : Bool :=
  let c := match s.launch? t.lid with | some l => l.hdr.cohort | none => 0
  let cohort := match s.team? t with | some k => k.cohort | none => 0
  let producer : Option TeamRef :=
    if c = 0 then (if rank = 0 then some t else none) else (if rank < c then some ⟨t.lid, cohort * c + rank⟩ else none)
  let gone := match producer with
    | some q => (match s.team? q with | some k => !k.alive | none => true)
    | none => true
  gone && !(s.copies.any fun k => k.accepted && k.tmpl.sten && k.tmpl.prod == p &&
    s.spadLoc k.w.teamRef (k.tmpl.stage / 128 * 128) == .spad t off)

/-- `stwait` completes: the mask of forfeited slots comes back, and the slots are disarmed (R105). -/
def Team.takeStage (t : Team) (off : Nat) : Nat × Team :=
  (List.range 8).foldl (fun a p =>
    let q := a.2.stageSlot off p
    if q.armed then
      (a.1 + (if q.forfeit then 2 ^ p else 0),
       a.2.putSlot off p { q with delivered := q.delivered - q.expect, armed := false, forfeit := false })
    else a) (0, t)

/-- Complete a wait on a stage for a path: s[D], WSTAT, and a cluster-scope acquire (R105). -/
def State.finishStage (s : State) (w : WaveRef) (pid d : Nat) (l : Loc) : State :=
  let r := match l with
    | .spad t off => (match s.team? t with | some k => let m := k.takeStage off; (m.1, s.modTeam t fun _ => m.2) | none => (0, s))
    | _ => (0, s)
  (r.2.dropCache (s.coreOf w.teamRef)).modWave w fun v =>
    ((v.setS d (BitVec.ofNat 64 r.1)).raiseW (if r.1 = 0 then 0 else wFORFEIT)).unpark pid

/-- A stage lets its waiters go on. -/
def State.stageReady (s : State) (l : Loc) : Bool :=
  match l with
  | .spad t off => (match s.team? t with | some k => k.stageMet off | none => true)
  | _ => true

/-- The stage that a scratchpad offset names (R96, R103). -/
def State.stageLoc (s : State) (t : TeamRef) (o : Nat) : Loc := s.spadLoc t (o % 2 ^ 32 / 128 * 128)

/-- Armed slots whose producers are gone become FORFEIT, in every stage that was armed or waited for (R106). -/
def State.forfeits (s : State) : State :=
  s.teams.foldl (fun s e => e.2.stages.foldl (fun s off => (List.range 8).foldl (fun s p =>
    match s.team? e.1 with
    | some t =>
      let q := t.stageSlot off p
      if t.alive && q.armed && !q.forfeit && q.delivered < q.expect && s.producerGone e.1 off p q.rank then
        s.modTeam e.1 fun t => t.putSlot off p { q with forfeit := true }
      else s
    | none => s) s) s) s

/-- Forfeits are settled, and paths parked on stages that are met go on. -/
def State.settleStages (s : State) : State :=
  let s := s.forfeits
  s.waves.foldl (fun s e => e.2.paths.foldl (fun s p => match p.park with
    | .stage d off =>
      let l := s.stageLoc e.1.teamRef off
      if s.present e.1 && s.stageReady l then s.finishStage e.1 p.pid d l else s
    | _ => s) s) s

/-- Stages are settled when a scratchpad may have been written: the part works from the values that stand in the records (R103). -/
def State.settleIf (s : State) (c : Bool) : State := if c then s.settleStages else s
/-- A store to a scratchpad is on its way. -/
def State.spadStores (s : State) : Bool := (s.queue ++ s.buffer).any fun r => r.loc.isSpad
/-- The operation acts on a scratchpad. -/
def Pend.onSpad (p : Pend) : Bool := match p.kind with | .mem r _ _ _ => r.sp | _ => false

/-! ### What follows stores to a scratchpad -/

/-- Older overlapping stores on their way that a store has to follow. -/
def State.olderStores (s : State) (r : StoreRec) : List StoreRec :=
  let old := fun (inBuffer : Bool) (q : StoreRec) => s.together inBuffer q r && q.overlaps r.loc r.bytes.length
  (s.buffer.takeWhile fun q => q.sid ≠ r.sid).filter (old true) ++
    (if s.buffer.any fun q => q.sid == r.sid then [] else (s.queue.takeWhile fun q => q.sid ≠ r.sid).filter fun q => !q.held && old false q)
/-- The stores on their way to some bytes that a wave has before it, and the older ones that these have to follow, in their order. -/
def State.dueStores (s : State) (w : WaveRef) (ls : List (Loc × Nat)) : List StoreRec :=
  let near := ls.flatMap fun l => ((s.ahead w (s.coreOf w.teamRef) s.nextId l.1 l.2).filter fun r => r.overlaps l.1 l.2).map (·.sid)
  (s.buffer ++ s.queue).foldr (fun r due =>
    if near.contains r.sid || due.any (fun q => (s.olderStores q).any (·.sid == r.sid)) then r :: due else due) []
/-- The stores on their way to bytes of a scratchpad that a wave has before it are performed, each after the older overlapping ones: what follows at issue comes
after them (R118); the part acts on what they write into a stage (R103). -/
def State.drainOwn (s : State) (w : WaveRef) (ls : List (Loc × Nat)) : State :=
  let due := s.dueStores w ls
  (due.foldl (fun s r => if r.held || s.storeWaits r || !(s.olderStores r).isEmpty then s else s.performStore r) s).settleIf (!due.isEmpty)

/-- A wave's fabric instruction is another request. -/
def Wave.setFab (v : Wave) (op : Nat) (q : FabReq) : Wave := v.modPend op fun p => { p with kind := .fab q false }

/-- A path whose fabric instruction need not wait any more goes on (R302, R371). -/
def State.fabGoes (s : State) (w : WaveRef) (pid : Nat) (sw : Bool) : State :=
  (s.modWave w fun v => { (v.unpark pid) with switchWait := v.switchWait || sw }).fallThrough w pid

/-- A send or atomic of a path that nothing parks any more waits for its place as at issue: the path is not parked (R170). -/
def State.holdSend (s : State) (w : WaveRef) (op pid : Nat) (q : FabReq) : State := s.modWave w fun v => (v.setFab op q).unpark pid

/-- `osend` reads its payload as it stands: the wave's own earlier stores to it come first; an absent line parks the path; poison kills; the payload is not read
before there is a place for a packet that will be held (R100, R118, R170, R176, R302). -/
def State.startSend (s : State) (w : WaveRef) (op pid : Nat) (sw : Bool) (pc : Nat) (d dst ctx mbox off len : Nat) (stamp : Option Nat) : State :=
  let ls := (List.range len).map fun j => s.spadAt w.teamRef off j
  let s := s.drainOwn w (ls.map (·, 1))
  if ls.any fun l => s.lineAbsent l then
    s.modWave w fun v => (v.setFab op (.parked (.osend d dst ctx mbox off len stamp) pid sw)).parkPath pid (.payload op) pc
  else if s.noPlace stamp then s.holdSend w op pid (.parked (.osend d dst ctx mbox off len stamp) pid sw)
  else
    let bs := ls.map s.readLoc
    if bs.any (·.2) then s.killLaunch w.lid 0x0E pc 0
    else (s.modWave w fun v => v.setFab op ((FabReq.osend d dst ctx mbox (bs.map (·.1)) stamp).goes s.now stamp)).fabGoes w pid sw

/-- Paths parked in `spwait` whose lines are all present go on (R291), and so do paths parked on the lines of an `osend` payload (R302). -/
def State.wakeSpwait (s : State) : State :=
  s.waves.foldl (fun s e => e.2.paths.foldl (fun s p => match p.park with
    | .lines first n =>
      let ls := match s.launch? e.1.lid with | some l => lineRange l.hdr.spadP first n | none => []
      if s.present e.1 && (match s.team? e.1.teamRef with | some t => t.hasLines ls | none => true) then
        s.modWave e.1 fun v => v.unpark p.pid
      else s
    | .payload op =>
      (match (s.wave? e.1).bind fun v => v.pend? op with
        | some o => (match o.kind with
          | .fab (.parked (.osend d dst ctx mbox off n stamp) pid sw) _ =>
            if s.present e.1 && !((List.range n).any fun j => s.lineAbsent (s.spadAt e.1.teamRef off j)) then
              s.startSend e.1 op pid sw o.off d dst ctx mbox off n stamp
            else s
          | _ => s)
        | none => s)
    | _ => s) s) s

/-- Remember a stage of a team. -/
def State.noteStage (s : State) (l : Loc) : State :=
  match l with
  | .spad t off => s.modTeam t fun k => { k with stages := sins off k.stages }
  | _ => s

/-! ### Timelines (R124, R294) -/

def State.timeline (s : State) (lid ctx : Nat) : Timeline :=
  match s.launch? lid with | some l => l.timelines.getD ctx Timeline.zero | none => Timeline.zero

/-- Paths parked in `tlwait` whose counter has arrived go on: a device-scope acquire. -/
def State.wakeTimelines (s : State) : State :=
  s.waves.foldl (fun s e => e.2.paths.foldl (fun s p => match p.park with
    | .timeline c n =>
      if s.present e.1 && n.toNat ≤ (s.timeline e.1.lid c).value then
        (s.dropCache (s.coreOf e.1.teamRef)).modWave e.1 fun v => v.unpark p.pid
      else s
    | _ => s) s) s

/-- Every park that lines, stages and timelines release is tested. -/
def State.wakeMemory (s : State) : State := s.wakeLines.wakeSpwait.settleStages.wakeTimelines

end Sys2Proof.Machine
end

