-- ==== Sys2Proof/Machine/Teams.lean ====
section
/-! DEFINITION. Waves and teams as they arrive, end and retire: register rows, bequests, barriers, tickets, accounts
(R27 to R33, R36 to R39, R56, R336). -/

namespace Sys2Proof.Machine

/-! ### Register rows of a core (R9, R53, R55) -/

/-- The row of a granule on chip is one of a team's own rows at present: its bequeather's, or an heir's that has taken it in place (R37, R53). -/
def State.riding (s : State) (g : Granule) : Bool :=
  let on := fun (t : TeamRef) => match s.team? t with | some k => k.onCore && g.core == some k.core | none => false
  (g.inTeam && on ⟨g.lid, g.team⟩) || (match g.takenBy with | some t => on t | none => false)

/-- Rows of a core that teams and granules occupy. -/
def State.rowsUsed (s : State) (core : Nat) : Nat :=
  let teamRows := s.teams.foldl (fun n p =>
    if p.2.onCore && p.2.core == core then
      n + (match s.launch? p.1.lid with | some l => l.hdr.waves * l.hdr.alloc | none => 0)
    else n) 0
  let counted := fun (g : Granule) => g.core == some core && !s.riding g
  teamRows + (s.granules.filter counted).length

/-- The lowest free place of a context's reserve. -/
def State.reservePlace (s : State) (ctx : Nat) : Nat :=
  let used := (s.granules.filter fun g => g.ctx == ctx && g.core.isNone).map (·.rslot)
  ((List.range (used.length + 1)).find? fun i => !used.contains i).getD 0

/-! ### Bequests (R36, R37, R56) -/

/-- The registers that a wave's marks name, slot by slot: slot, position, register, count, lanes. -/
def bequests (v : Wave) : List (Nat × Nat × Nat × Nat × W32) :=
  v.leave.zipIdx.flatMap fun p =>
    if p.1.mask &&& v.exited &&& v.live == 0 then []
    else (List.range p.1.count).map fun j => (p.2, j, p.1.first + j, p.1.count, p.1.mask &&& v.exited &&& v.live)

/-- One granule of a wave that ends: in place for the lowest slot that marks the row, else a copy in a free row or in the reserve. -/
def State.formGranule (s : State) (w : WaveRef) (l : Launch) (v : Wave) (all : List (Nat × Nat × Nat × Nat × W32))
    (b : Nat × Nat × Nat × Nat × W32) : State :=
  let core := s.coreOf w.teamRef
  let inPlace := !(all.any fun o => o.1 < b.1 && o.2.2.1 == b.2.2.1)
  let onCore := inPlace || s.rowsUsed core < Config.rowsPerCore
  let f := s.fresh
  let seq := (match s.ctx? l.ctx with | some c => c.seq | none => 0) + 1
  let g : Granule := { gid := f.1, ctx := l.ctx, lid := w.lid, team := w.team, seq := seq, heldBy := [], valid := b.2.2.2.2,
                       tag := l.hdr.tags.getD b.1 0, regidx := b.2.1, regcnt := b.2.2.2.1 - 1, isSealed := false,
                       keybase := w.team * (32 * l.hdr.waves) + w.wave * 32, core := if onCore then some core else none,
                       inTeam := inPlace, takenBy := none, rslot := s.reservePlace l.ctx, row := v.vreg b.2.2.1, void := false }
  (f.2.modCtx l.ctx fun c => { c with seq := seq }).putGranules (s.granules ++ [g])

/-- A wave's bequests become granules, in the order of their slots and then of their registers, which is the order of their SEQ numbers
(DESIGN CHOICE, log entry 63); a reserve without room for them kills the launch and none is formed (R56). -/
def State.formEstates (s : State) (w : WaveRef) (off : Nat) : State :=
  match s.wave? w, s.launch? w.lid with
  | some v, some l =>
    let bs := bequests v
    let charge := (s.granules.filter fun g => g.ctx == l.ctx).length
    let room := match s.ctx? l.ctx with | some c => c.ressize / 288 | none => 0
    if bs.isEmpty then s
    else if room < charge + bs.length then s.killLaunch w.lid 0x12 off 0
    else bs.foldl (fun s b => s.formGranule w l v bs b) s
  | _, _ => s

/-! ### Barriers (R27, R28, R33) -/

/-- Count the arrivals that a wave has completed: every live lane has executed the `bar` or has exited. -/
def BarState.arrive (b : BarState) (wave : Nat) (v : Wave) (clk op : Nat) : BarState :=
  let ran := (tget wave b.lanes).getD 0
  if ran != 0 && (v.live &&& ~~~(ran ||| v.exited)) == 0 && !(b.arrived.any fun a => a.1 == wave) then
    { b with arrived := b.arrived ++ [(wave, clk, op)] }
  else b

/-- A wave's arrivals at the barriers of its team are counted again (lanes have executed a `bar`, or have exited). -/
def State.arrivals (s : State) (w : WaveRef) (clk : Nat) : State :=
  match s.wave? w with
  | some v => s.modTeam w.teamRef fun t => { t with bars := t.bars.map fun b => b.arrive w.wave v clk s.nextId }
  | none => s

/-- Lanes of a wave execute a `bar`. -/
def Team.barLanes (t : Team) (cohort : Bool) (n wave : Nat) (m : W32) : Team :=
  match t.bars.find? fun b => b.cohort == cohort && b.n == n with
  | some _ => { t with bars := t.bars.map fun b =>
      if b.cohort == cohort && b.n == n then { b with lanes := tput wave ((tget wave b.lanes).getD 0 ||| m) b.lanes } else b }
  | none => { t with bars := t.bars ++ [{ cohort := cohort, n := n, lanes := [(wave, m)], arrived := [] }] }

/-! ### Tickets (R29 to R31) -/

/-- A take by a team that is over: on each counter that the team has not taken, released by every wave of it (R31, R123). -/
def retiredTakes (t : TeamRef) (k : Team) (op : Nat) : List PendTake :=
  ((List.range 8).filter fun i => !k.taken.getLsbD i).map fun i => { k := i, w := ⟨t.lid, t.team, 0⟩, op := op, whole := true }

/-- The release of a take is complete (R30). -/
def State.takeReady (s : State) (t : PendTake) : Bool :=
  if t.whole then s.waves.all fun p => !(p.1.teamRef == t.w.teamRef) || s.released p.1 t.op 3 else s.released t.w t.op 3

/-! ### The end of a path, a wave, a team -/

/-- What a `join` gives its record: the place where the merged path resumes, with the clause it lies in (R21). -/
structure JoinAt where
  next : Nat
  hdr : Nat
  cls : Nat
  count : Nat
  deriving DecidableEq, Repr

/-- A path reaches its innermost split record with some lanes, or with none (R21). It ends, or goes on as the merged path. -/
def Wave.joinPath : Nat → Wave → Nat → W32 → Option JoinAt → Wave
  | 0, v, pid, _, _ => v.dropPath pid
  | n + 1, v, pid, m, at' =>
    match v.path? pid with
    | none => v
    | some p =>
      match p.srec with
      | none => v.dropPath pid
      | some rid =>
        match v.recs.find? (·.rid = rid) with
        | none => v.dropPath pid
        | some r =>
          let r : SplitRec := { r with merged := r.merged ||| m, pending := r.pending - 1 }
          let r : SplitRec := match at' with
            | some a => { r with resume := a.next, hdr := a.hdr, cls := a.cls, count := a.count }
            | none => r
          if 0 < r.pending then Wave.dropPath { v with recs := v.recs.map fun q => if q.rid = rid then r else q } pid
          else
            let v := { v with recs := v.recs.filter (·.rid ≠ rid) }
            if r.merged != 0 then v.modPath pid fun p =>
              { p with mask := r.merged, pc := r.resume, srec := r.parent, hdr := r.hdr, cls := r.cls, count := r.count,
                       inClause := true, waits := 0 }
            else Wave.joinPath n (v.modPath pid fun p => { p with srec := r.parent }) pid 0 none

/-- What goes on when a wave has ended: stores, atomics, copies, packets, estate and engine operations; loads and results are
discarded (R32). That an `ecl`, `equery` or `edrop` still takes its effect then, and consumes what it claims, is a DESIGN CHOICE (log entry 69): R32 and R49 do not name
them. -/
def Pend.survives (p : Pend) : Bool :=
  match p.kind with
  | .mem r _ _ _ => r.op != .load
  | .result .. => false
  | .tlread .. => false
  | _ => true

/-- A team retires: its tickets are marked taken, it frees its scratchpad and its account is charged (R31, R32, R337). Paths parked on its
lines or stages go on: its scratchpad reads zero (R97). -/
def State.retireTeam (s : State) (t : TeamRef) : State :=
  match s.team? t with
  | none => s
  | some k =>
    let f := s.fresh
    let s := { f.2 with takes := f.2.takes ++ retiredTakes t k f.1 }
    let cycles := k.charged + (s.cycles - k.placedAt)
    let s := s.modTeam t fun k => { k.free with placedAt := s.cycles, taken := 0xFF, bars := [], stages := [] }
    State.wakeMemory ((s.modAccount t.lid fun d => d - ((cycles : Int) - 1024)).settleAccount t.lid)

/-- A wave whose live lanes have all exited ends: its bequests, its gang, its outstanding work, its team (R32). Its fences go on: what they acquire is passed on
by the takes, signals, seals and the retirement that follow them (R117, R121, R123). -/
def State.endWave (s : State) (w : WaveRef) (off : Nat) : State :=
  let s := (s.formEstates w off).leaveGang (quadOf (s.coreOf w.teamRef)) w
  match s.wave? w with
  | none => s
  | some v =>
    if v.ended then s
    else
      let s := (s.dropLoopBufs w [0, 1, 2]).modWave w fun v =>
        { v with ended := true, endAt := s.nextId, slot0 := none, slot1 := none, spilled := [], recs := [],
                 pend := v.pend.filter Pend.survives }
      if s.waves.all fun p => !(p.1.teamRef == w.teamRef) || p.2.ended then s.retireTeam w.teamRef else s

/-- A wave changes by an access to its berm: an entry that goes, and whose bytes or whose walk have an error that lasts, and an entry that comes by
such a walk, kill the launch with POISON; the frame is marked and the error counted. Entries stand from the bottom of the wave's block up, records
first (R22, R358, R374, R376, log entry 30). -/
def State.setBerm (s : State) (w : WaveRef) (v v' : Wave) : State :=
  let ctx := s.ctxOf w.lid
  let at' := fun i : Nat => match s.team? w.teamRef, s.ctx? ctx with
    | some t, some c => some (t.core, c.privbase + BitVec.ofNat 64 (8192 * t.bermBlocks.getD w.wave 0 + 16 * i))
    | _, _ => none
  let bad := fun i : Nat => match at' i with
    | some (core, va) => (match s.translate true core ctx .load va.toNat with
        | .ok pa false _ _ => s.poisonedRange pa 16
        | .poison => true
        | _ => false)
    | none => false
  let moved := fun (a b : Wave) => (a.recs.reverse.zipIdx.filter fun r => !(b.recs.contains r.1)).map (·.2) ++
    (a.spilled.reverse.zipIdx.filter fun p => !(b.spilled.any fun q => q.pid == p.1.pid)).map fun p => a.recs.length + p.2
  let reads := (moved v v').filter bad
  let writes := (moved v' v).filter fun i => match at' i with | some (core, va) => s.badTable true core ctx .store va | none => false
  if reads.isEmpty && writes.isEmpty then s.setWave w v'
  else
    let s := reads.foldl (fun s i => match at' i with | some (core, va) => s.noteVA true core ctx .load va 16 | none => s) s
    let s := writes.foldl (fun s i => match at' i with | some (core, va) => s.noteWalk true core ctx .store va.toNat | none => s) s
    s.killLaunch w.lid 0x0E 0 0

/-- Lanes of the issuing path exit: the path goes on as a join that adds no lanes, siblings' arrivals are counted again, and a wave
with no lane left ends (R21, R27, R32). -/
def State.exitLanes (s : State) (k : Site) : State :=
  let s := match s.wave? k.w with
    | some v => s.setBerm k.w v (Wave.joinPath 513 { v with exited := v.exited ||| k.p.mask } k.pid 0 none)
    | none => s
  let s := (s.arrivals k.w k.v.lclk).settleLoopBuf k.w
  match s.wave? k.w with
  | some v => if v.live &&& ~~~v.exited == 0 && !v.ended then s.endWave k.w k.p.pc else s
  | none => s

end Sys2Proof.Machine
end

