-- ==== Sys2Proof/Machine/Complete.lean ====
section
/-! DEFINITION. Completion records, packets that complete, signals of named events and the waiters they release
(R123, R319, R322, R339 to R342, R364). -/

namespace Sys2Proof.Machine

/-! ### Completion records (R322) -/

/-- What a completion record says besides the packet's UTAG. -/
structure Report where
  status : Nat
  code : Nat
  offset : Nat
  lid : Nat
  sig : Word
  deriving DecidableEq, Repr

/-- A record of a status alone. -/
def Report.of (status : Nat) : Report := { status := status, code := 0, offset := 0, lid := 0, sig := 0 }

/-- The 32 bytes of a completion record. -/
def Report.image (r : Report) (utag : Word) (now : Nat) : List Byte :=
  leBytes 4 utag.toNat ++ leBytes 2 r.status ++ leBytes 2 r.code ++ leBytes 4 r.offset ++ leBytes 4 r.lid ++ leBytes 8 now ++
  leBytes 8 r.sig.toNat

/-- The fault of a write at an address, when its walk fails. -/
def State.storeFault (s : State) (ctx : Nat) (a : Word) (n : Nat) : Option (Word × Nat × Nat) :=
  (List.range n).findSome? fun i =>
    let va := a + BitVec.ofNat 64 i
    if badVA va then none
    else match s.translate false 0 ctx .store va.toNat with
    | .fault c l => some (va, c, l)
    | _ => none

/-- Write bytes on the part's behalf, for a launch or for none; a failing walk discards them and enters a UNIT 6 fault (R364, R365). -/
def State.writeOrFault (s : State) (ctx lid : Nat) (a : Word) (bs : List Byte) : State :=
  let s := s.noteWalks ctx .store a bs.length
  match s.writeVA ctx a bs with
  | some t => t
  | none =>
    match s.storeFault ctx a bs.length with
    | some (va, c, l) => (s.enterFault va lid 0 0 ctx 6 c true l .nothing).2
    | none => s

/-- Write a packet's record, when it asks for one. The LAUNCHID of the fault that its page makes is that of the record: a launch's own, and the one that a PREEMPT reports
(DESIGN CHOICE, log entry 69: R365 has 0 for a COPY packet and a delivery). -/
def State.writeRecord (s : State) (ctx : Nat) (compl utag : Word) (r : Report) : State :=
  if compl = 0 then s else s.writeOrFault ctx r.lid compl (r.image utag s.now)

/-! ### Packets that complete -/

def State.packet? (s : State) (pid : Nat) : Option Packet0 := s.packets.find? (·.pid = pid)
/-- The command code of a started packet. -/
def Packet0.op (p : Packet0) : Nat := (p.body.extractLsb' 0 8).toNat
/-- Every earlier packet of a queue has completed (R317). -/
def State.earlierDone (s : State) (q order : Nat) : Bool := !(s.packets.any fun p => p.q == q && p.order < order)

/-- A packet is over: its record is written. -/
def State.endPacket (s : State) (p : Packet0) (r : Report) : State :=
  State.writeRecord { s with packets := s.packets.filter (·.pid ≠ p.pid) } p.ctx p.compl (BitVec.ofNat 64 p.utag) r

/-- COMPLETE packets whose earlier packets have all completed complete too, in order (R319). -/
def State.settleCompletes : Nat → State → Nat → State
  | 0, s, _ => s
  | n + 1, s, q =>
    match s.packets.find? fun p => p.q == q && p.op == 9 && s.earlierDone q p.order with
    | some p => State.settleCompletes n (s.endPacket p (Report.of 0)) q
    | none => s

/-- A packet starts: HEAD passes it (R317, R332). -/
def State.startPacket (s : State) (pid : Nat) : State :=
  match s.packet? pid with
  | some p =>
    if p.started then s
    else (s.modPacket pid fun p => { p with started := true }).updQueue p.q fun k =>
      { k with head := k.head + (p.body.extractLsb' 24 4).toNat + 1 }
  | none => s

/-- A packet completes: its record is written, then COMPLETE packets behind it are tested. A packet that is refused before it starts is
passed by HEAD (R327). -/
def State.completePacket (s : State) (pid : Nat) (r : Report) : State :=
  match (s.startPacket pid).packet? pid with
  | some p => let t := (s.startPacket pid).endPacket p r; State.settleCompletes t.packets.length t p.q
  | none => s

/-! ### Named events (R339 to R342) -/

/-- The count of an event. -/
def State.eventCount (s : State) (t ev : Nat) : Nat :=
  match s.tenant? t with | some k => (tget ev k.events).getD 0 | none => 0

/-- A queue whose EVENT_WAIT is met: the packet completes, and a queue that waits for no other goes on in its slot, or becomes PENDING when
it gave the slot up (R326). -/
def State.resumeQueue (s : State) (q pid : Nat) : State :=
  let more := s.waiters.any fun a => match a.who with | .queue q' _ => q' == q | .path .. => false
  let s := if more then s else s.updQueue q fun k =>
    if k.st == .waiting then { k with st := if k.slot.isSome then .resident else .pending } else k
  s.completePacket pid (Report.of 0)

/-- A waiter goes on: a path receives the count and acquires at device scope (R243); a queue goes on (R319). -/
def State.releaseWaiter (s : State) (a : Waiter) (count : Nat) : State :=
  let s := { s with waiters := s.waiters.filter (·.wid ≠ a.wid) }
  match a.who with
  | .queue q pid => s.resumeQueue q pid
  | .path w pid =>
    let d := match s.wave? w with
      | some v => (match v.path? pid with | some p => (match p.park with | .event _ d => d | _ => 0) | none => 0)
      | none => 0
    (s.dropCache (s.coreOf w.teamRef)).modWave w fun v => (v.setS d (BitVec.ofNat 64 count)).unpark pid

/-- A waiter is on its event's list: a path that is saved out has left it (R342). -/
def State.waits (s : State) (a : Waiter) : Bool := match a.who with | .path w _ => s.present w | .queue .. => true

/-- A signal: the count rises by one, and every waiter whose condition now holds is released: at once when it is in-line, as a step of its
own when it lies in the spillway (R340, R341). -/
def State.signal (s : State) (t ev : Nat) : State :=
  let s := s.modTenant t fun k => { k with events := tput ev (((tget ev k.events).getD 0 + 1) % 2 ^ 64) k.events }
  let n := s.eventCount t ev
  let hit := fun (a : Waiter) => a.tenant == t && a.ev == ev && a.value ≤ n && a.ready.isNone && s.waits a
  let now := s.waiters.filter fun a => hit a && a.inl
  let s := { s with waiters := s.waiters.map fun a => if hit a && !a.inl then { a with ready := some n } else a }
  now.foldl (fun s a => s.releaseWaiter a n) s

/-- The event entries that are in use: an event gives its entry up when it has no waiter left (R341). -/
def State.inUse (s : State) : List (Nat × Nat) := s.entries.filter fun e => s.waiters.any fun a => a.tenant == e.1 && a.ev == e.2 && s.waits a

/-- Enter a waiter: its event gets an entry when it is the event's first and one is free; it is in-line while the event has an entry with room for
it, and in the spillway otherwise (R341). -/
def State.addWaiter (s : State) (t ev value : Nat) (who : WaitWho) : Nat × State :=
  let f := s.fresh
  let mine := s.waiters.filter fun a => a.tenant == t && a.ev == ev && s.waits a
  let es := if mine.isEmpty && s.inUse.length < 4096 then s.inUse ++ [(t, ev)] else s.inUse
  (f.1, { f.2 with
    entries := es,
    waiters := f.2.waiters ++ [{ wid := f.1, tenant := t, ev := ev, value := value, who := who,
                                 inl := es.contains (t, ev) && (mine.filter (·.inl)).length < 8, ready := none }] })

/-- A signal that carries a release of a wave: at once when the release is complete, else as a step of its own (R123, R243). -/
def State.signalAfter (s : State) (t ev : Nat) (w : WaveRef) : State :=
  let f := s.fresh
  if f.2.released w f.1 3 then f.2.signal t ev
  else { f.2 with signals := f.2.signals ++ [{ gid := f.1, tenant := t, ev := ev, w := w, op := f.1 }] }

/-! ### The timer wheel (R303, R343) -/

/-- Round a time up to the wheel's resolution. -/
def wheelTime (t : Nat) : Nat := (t + 1023) / 1024 * 1024

/-- Schedule or perform a timed signal: the code of R303. -/
def State.timed (s : State) (t ev time : Nat) (rel : Option (WaveRef × Nat)) : Nat × State :=
  let f := wheelTime time
  let allot := match s.tenant? t with | some k => k.wheel | none => 0
  if f ≤ s.now then
    (1, match rel with | some (w, _) => s.signalAfter t ev w | none => s.signal t ev)
  else if s.now + 2 ^ 40 < f then (3, s)
  else if allot ≤ (s.wheel.filter (·.tenant == t)).length then (2, s)
  else
    let k := s.fresh
    (0, { k.2 with wheel := k.2.wheel ++ [{ eid := k.1, tenant := t, ev := ev, time := f, rel := rel }] })

end Sys2Proof.Machine
end

