-- ==== Sys2Proof/Machine/EstateInstr.lean ====
section
/-! DEFINITION. The meanings of the estate instructions (R36, R49 to R52), and the effects of claims and drops. -/

namespace Sys2Proof.Machine

/-! ### Marks (R36) -/

/-- Mark a range of registers of lanes for a slot. -/
def LeaveSlot.mark (m : LeaveSlot) (a n : Nat) (active : W32) : LeaveSlot :=
  if m.mask == 0 || (m.first == a && m.count == n) then { first := a, count := n, mask := m.mask ||| active }
  else { first := a, count := n, mask := active }

/-- A slot that nothing has marked. -/
def LeaveSlot.zero : LeaveSlot := { first := 0, count := 0, mask := 0 }
def Wave.modLeave (v : Wave) (n : Nat) (f : LeaveSlot → LeaveSlot) : Wave :=
  { v with leave := setAt v.leave n (f (v.leave.getD n LeaveSlot.zero)) }

/-- `leave` (R36). -/
def execLeave (x : Bool) (n : BitVec 2) (a : BitVec 7) (c : BitVec 4) (s : State) : Host.Outcome State Fault Refusal :=
  issueWave x (.leave x n a c) s fun k v => v.modLeave n.toNat fun m => m.mark a.toNat (c.toNat + 1) k.p.mask

/-- `leave.clr` (R36). -/
def execLeaveClr (x : Bool) (n : BitVec 2) (s : State) : Host.Outcome State Fault Refusal :=
  issueWave x (.leaveClr x n) s fun k v => v.modLeave n.toNat fun m => { m with mask := m.mask &&& ~~~k.p.mask }

/-! ### Present estates (R41, R49) -/

/-- The granule that holds register `j` of the estate of a key: sealed, with the key's lane valid. -/
def State.estate? (s : State) (ctx tag key j : Nat) : Option Granule :=
  if tag = 0 then none
  else s.granules.find? fun g =>
    g.ctx == ctx && g.tag == tag && g.isSealed && g.keybase == key / 32 * 32 && g.regidx == j && g.valid.getLsbD (key % 32)

/-- A key is present. -/
def State.keyPresent (s : State) (ctx tag key : Nat) : Bool := (s.estate? ctx tag key 0).isSome

/-- A lane of a granule's row with its poison: a half in the reserve whose error lasts is poisoned (R58). -/
def State.granLane (s : State) (g : Granule) (l : Nat) : Word × Nat :=
  let p := g.row.pois l
  match g.core, s.ctx? g.ctx with
  | none, some c =>
    let bad := fun h : Nat =>
      match s.translate false 0 g.ctx .load (c.resbase + BitVec.ofNat 64 (288 * g.rslot + 32 + 8 * l + 4 * h)).toNat with
      | .ok pa false _ _ => s.poisonedRange pa 4
      | _ => false
    (g.row.lane l, p ||| (if bad 0 then 1 else 0) ||| (if bad 1 then 2 else 0))
  | _, _ => (g.row.lane l, p)

/-- The walk to the row of a granule in the reserve reads a bad table entry (R358). -/
def State.granTable (s : State) (g : Granule) : Bool :=
  match g.core, s.ctx? g.ctx with
  | none, some c => [32, 287].any fun o => s.badTable false 0 g.ctx .load (c.resbase + BitVec.ofNat 64 (288 * g.rslot + o))
  | _, _ => false

/-- The row of a granule in the reserve is read: an error that lasts marks its frame and is counted (R58, R374, R376). -/
def State.noteGran (s : State) (g : Granule) : State :=
  match g.core, s.ctx? g.ctx with
  | none, some c => s.noteVA false 0 g.ctx .load (c.resbase + BitVec.ofNat 64 (288 * g.rslot + 32)) 256
  | _, _ => s

/-- What a claim delivers of register `j`: a lane's value and poison, zero beyond the estate's registers. -/
def State.estateLane (s : State) (ctx tag key j : Nat) : Word × Nat :=
  match s.estate? ctx tag key j with
  | some g => s.granLane g (key % 32)
  | none => (0, 0)

/-- Delivered keys lose their VALID bits. -/
def State.consumeKeys (s : State) (ctx tag : Nat) (keys : List Nat) : State :=
  s.putGranules (s.granules.map fun g =>
    if g.ctx == ctx && g.tag == tag && g.isSealed then
      { g with valid := g.valid &&& ~~~(maskOf ((keys.filter fun k => k / 32 * 32 == g.keybase).map (· % 32))) }
    else g)

/-- The results of a claim, and the state after it: registers, mask, ORPHAN, consumption (R49). -/
def State.claim (s : State) (ctx m d n : Nat) (keep : Bool) (tag : Nat) (keys : List (Nat × Nat)) : List RegWrite × Bool × State :=
  let got := keys.filter fun p => s.keyPresent ctx tag p.2
  let ws := (List.range n).map fun j => RegWrite.v (d + j) (keys.map fun p =>
    let e := if s.keyPresent ctx tag p.2 then s.estateLane ctx tag p.2 j else (0, 0)
    (p.1, e.1, e.2))
  (ws ++ [.m m (maskOf (got.map (·.1)))], got.length < keys.length, if keep then s else s.consumeKeys ctx tag (got.map (·.2)))

/-- Free every sealed estate of a tag and clear its void flag (R51). -/
def State.dropTag (s : State) (ctx tag : Nat) : State :=
  if tag = 0 then s
  else
    let s := s.putGranules (s.granules.map fun g => if g.ctx == ctx && g.tag == tag && g.isSealed then { g with valid := 0 } else g)
    s.modCtx ctx fun c => { c with voids := tdel tag c.voids }

/-- The effect of an outstanding estate operation, of the word at an offset: what it writes, whether it acquires, the state after it. A claim whose
walk to the reserve reads a bad table entry kills its launch with POISON (R358). -/
def State.estateEffect (s : State) (w : WaveRef) (off : Nat) (k : PendKind) : List RegWrite × State :=
  let ctx := s.ctxOf w.lid
  match k with
  | .ecl m d n keep tag keys =>
    let r := s.claim ctx m d n keep tag keys
    let read := s.granules.filter fun g => keys.any fun p => (List.range n).any fun j => (s.estate? ctx tag p.2 j).any fun h => h.gid == g.gid
    if read.any s.granTable then ([], (read.foldl State.noteGran s).killLaunch w.lid 0x0E off 0)
    else (r.1, ((read.foldl State.noteGran r.2.2).dropCache (s.coreOf w.teamRef)).modWave w fun v => if r.2.1 then v.raiseW wORPHAN else v)
  | .equery m tag keys => ([.m m (maskOf ((keys.filter fun p => s.keyPresent ctx tag p.2).map (·.1)))], s)
  | .edrop tag => ([], s.dropTag ctx tag)
  | _ => ([], s)

/-! ### The instructions -/

/-- The keys of the active lanes (R49). -/
def estateKeys (k : Site) (c : BitVec 7) : List (Nat × Nat) := k.lanes.map fun l => (l, (k.op64 c l).toNat % 2 ^ 32)
/-- The tag in a scalar register. -/
def estateTag (k : Site) (t : Nat) : Nat := (k.v.sreg t).toNat % 2 ^ 16

/-- Post an estate operation, held by the logical clock in a deterministic launch when it is a det operation (R52, R345). -/
def postEstate (u : State) (k : Site) (det : Bool) (dests : List Reg) (e : PendKind) : State :=
  let f := u.post k 6 dests e
  if det && k.l.hdr.det then f.2.modWave k.w fun v => v.modPend f.1 fun p => { p with held := true } else f.2

/-- `ecl` (R49). -/
def execEcl (x : Bool) (m : BitVec 3) (d k : BitVec 7) (t c : BitVec 3) (s : State) : Host.Outcome State Fault Refusal :=
  issue x (.ecl x m d k t c) s fun q u =>
    let n := c.toNat + 1
    (postEstate u q true (mReg m :: vRange d.toNat n) (.ecl m.toNat d.toNat n false (estateTag q t.toNat) (estateKeys q k)), true)

/-- `ecl.keep` (R49). -/
def execEclKeep (x : Bool) (m : BitVec 3) (d k : BitVec 7) (t c : BitVec 3) (s : State) : Host.Outcome State Fault Refusal :=
  issue x (.eclKeep x m d k t c) s fun q u =>
    let n := c.toNat + 1
    (postEstate u q true (mReg m :: vRange d.toNat n) (.ecl m.toNat d.toNat n true (estateTag q t.toNat) (estateKeys q k)), true)

/-- `edrop` (R51). -/
def execEdrop (x : Bool) (t : BitVec 6) (s : State) : Host.Outcome State Fault Refusal :=
  issue x (.edrop x t) s fun k u => (postEstate u k true [] (.edrop (estateTag k t.toNat)), true)

/-- `equery` (R50). -/
def execEquery (x : Bool) (m : BitVec 3) (k : BitVec 7) (t : BitVec 3) (s : State) : Host.Outcome State Fault Refusal :=
  issue x (.equery x m k t) s fun q u =>
    (postEstate u q false [mReg m] (.equery m.toNat (estateTag q t.toNat) (estateKeys q k)), true)

end Sys2Proof.Machine
end

