-- ==== Sys2Proof/Machine/Handles.lean ====
section
/-! DEFINITION. Result handles: taking a slot of a tenant's share (R178, R180, R184, R397). -/

namespace Sys2Proof.Machine

/-- The generation after one (R178, R184). -/
def nextGen (g : Nat) : Nat := if g = 0xFFFFF then 1 else g + 1
/-- The lowest free slot of a tenant's share, else the one that is recycled, with the generation it gets (R180, R184). In a slot that a tenant reset has
freed the generations go on where they stood (DESIGN CHOICE, log entry 69). -/
def State.handleSlotFor (s : State) (t : Nat) : Option (Nat × Nat) :=
  match s.tenant? t with
  | none => none
  | some k =>
    if !s.fabric.htEn then none
    else
      let share := (List.range k.hcount).map (k.hbase + ·)
      match share.find? fun i => (tget i s.fabric.handles).isNone with
      | some i => some (i, nextGen ((tget i s.fabric.gens).getD 0))
      | none =>
        let done' := share.filterMap fun i => match tget i s.fabric.handles with
          | some e => if 2 ≤ e.st then some (i, e) else none
          | none => none
        (done'.foldl (fun (b : Option (Nat × HandleEnt)) e => match b with
          | none => some e
          | some o => if e.2.doneTime < o.2.doneTime then some e else some o) none).map
          fun e => (e.1, nextGen e.2.gen)

/-- Take a slot for an invocation: a PENDING entry (R180, R397). -/
def State.takeHandle (s : State) (slot gen ctx : Nat) (estate : Bool) (parent : Word) (loc : Option Nat) : Word × State :=
  let flags := if estate then 1 else 0
  (mkHandle s.fabric.node slot gen flags,
   State.putHandle { s with fabric := { s.fabric with gens := tput slot gen s.fabric.gens } } slot {
     parent := parent, lid := 0, status := 0, location := loc.getD 0, ctx := ctx, lfinal := loc.isSome, gen := gen,
                      flags := flags, reason := 0, st := 0, doneTime := 0, order := s.nextId })

end Sys2Proof.Machine
end

