-- ==== Sys2Proof/Machine/Look.lean ====
section
/-! DEFINITION. What a path comes to at its place in the code: the clause it enters (R186, R187), the word it fetches (R190, R191, R199, R364, R415),
and which paths of a core are eligible (R338). -/

namespace Sys2Proof.Machine

/-! ### Fetching -/

/-- A fetch that gives no word: the launch is killed, or the path waits for its page before the instruction. A fault, and a kill that is the instruction's, name the
offset where the instruction begins (R364, R365, R417), poison in a word that of the word (R415). -/
def State.codeStop (s : State) (k : Site) (off : Nat) : Fetched → State
  | .fault va c lv =>
    let f := s.enterFault va k.w.lid k.p.mask.toNat k.p.pc k.l.ctx 1 c false lv (.path k.w k.pid none)
    f.2.modWave k.w fun v => v.parkPath k.pid (.fault f.1) k.p.pc
  | .poison => (s.noteVA true (s.coreOf k.w.teamRef) k.l.ctx .fetch (k.l.kernel + BitVec.ofNat 64 off) 4).killLaunch k.w.lid 0x0E off 0
  | .refused => s.killLaunch k.w.lid 0x0D k.p.pc 0
  | _ => s.killLaunch k.w.lid 9 k.p.pc 0

/-- What a path comes to at its place in the code. -/
inductive Look where
  /-- it issues no instruction: a kill, a page fault, a WAIT check that holds it -/
  | stop (s : State)
  /-- the instruction of its next words, or none for a word that is none, with the state in which the path stands before it -/
  | word (i : Option Instr) (w : Nat) (s : State)
  deriving DecidableEq, Repr

/-- The instruction at a path's pc: a long form takes the next word of its clause too (R199). A major of the long form counts as two words whatever the
launch's ENC, its second word is fetched first and may fault (DESIGN CHOICE, log entry 66). -/
def State.wordAt (s : State) (k : Site) : Look :=
  match s.fetchWord k.w k.l k.p.pc with
  | .word w =>
    if isLongMajor w && k.p.pc + 8 ≤ k.p.fall then
      match s.fetchWord k.w k.l (k.p.pc + 4) with
      | .word v => .word (decodeWords w v) w s
      | f => .stop (s.codeStop k (k.p.pc + 4) f)
    else .word (decodeWords w 0) w s
  | f => .stop (s.codeStop k k.p.pc f)

/-- A path at a clause header enters the clause (R187). -/
def Path.enter (p : Path) (v : Wave) (h : Nat) : Path :=
  { p with hdr := p.pc, cls := headerClass h, count := headerCount h, inClause := true, pc := p.pc + 4,
           waits := if v.clearOf (headerWait h) then 0 else headerWait h }

/-- What a path that may issue comes to: at a header the check of R187 comes first. -/
def State.lookAt (s : State) (k : Site) : Look :=
  if k.p.inClause then s.wordAt k
  else match s.fetchWord k.w k.l k.p.pc with
    | .word h =>
      if !goodHeader h then .stop (s.killLaunch k.w.lid 9 k.p.pc 0)
      else
        let p := k.p.enter k.v h
        let t := s.modWave k.w fun v => v.modPath k.pid fun _ => p
        if p.waits = 0 then t.wordAt { k with p := p } else .stop t
    | f => .stop (s.codeStop k k.p.pc f)

/-! ### Eligible paths (R338) -/

/-- The word of a path is held at its issue: a full counter, a fence, an acquire, a copy that is still issuing (R145, R188, R287, R288). -/
def Look.held (k : Site) : Look → Bool
  | .word (some i) _ t =>
    match t.wave? k.w with
    | some v => (match v.path? k.pid with
        | some p => let q : Site := { k with v := v, p := p }; (decodeCheck i q).isNone && issueHeld i q t
        | none => false)
    | none => false
  | _ => false

/-- The resident paths of a core that no state of theirs keeps from issuing: what their words come to is not looked at (R338). -/
def State.eligiblePaths (s : State) (core : Nat) : List Site :=
  s.waves.flatMap fun e =>
    if s.present e.1 && s.coreOf e.1.teamRef == core then
      match s.launch? e.1.lid with
      | some l => ((e.2.slot0.toList ++ e.2.slot1.toList).map fun p => (⟨e.1, p.pid, e.2, p, l⟩ : Site)).filter fun k => k.free s
      | none => []
    else []

/-- The path could issue at this moment: nothing of R338 holds it, neither the WAIT check of the clause that it stands before, nor its word. -/
def State.couldIssue (s : State) (k : Site) : Bool :=
  let l := s.lookAt k
  !l.held k && match l with
    | .stop t => (match (t.wave? k.w).bind fun v => v.path? k.pid with | some p => p.waits == 0 | none => true)
    | .word .. => true
/-- The eligible paths of a core (R338). -/
def State.eligible (s : State) (core : Nat) : List Site := (s.eligiblePaths core).filter s.couldIssue

end Sys2Proof.Machine
end

