-- ==== Sys2Proof/Machine/SystemInstr.lean ====
section
/-! DEFINITION. The meanings of the system instructions: traps and breakpoints, times and counts, events, handles, `yield`, timed events
(R169, R183, R240 to R245, R303). -/

namespace Sys2Proof.Machine

/-- `trap`: the launch is killed with status TRAP and the code (R240, R373). -/
def execTrap (x : Bool) (c : BitVec 16) (s : State) : Host.Outcome State Fault Refusal :=
  issue x (.trap x c) s fun k u => (u.killLaunch k.w.lid 0x11 k.p.pc c.toNat, false)

/-- The context of a launch has debug enabled. -/
def State.debugOf (s : State) (ctx : Nat) : Bool := match s.ctx? ctx with | some c => c.debug | none => false

/-- `brk`: with debug enabled the path parks after the word, on a BREAK fault entry; otherwise a no-op (R241, R364, R365). -/
def execBrk (x : Bool) (c : BitVec 16) (s : State) : Host.Outcome State Fault Refusal :=
  issue x (.brk x c) s fun k u =>
    if u.debugOf k.l.ctx then
      let f := (u.fell k).enterFault (c.setWidth 64) k.w.lid 0 k.p.pc k.l.ctx 5 0 false 0 (.brk k.w k.pid)
      (f.2.modWave k.w fun v => v.parkPath k.pid (.fault f.1) k.p.pc, false)
    else (u, true)

/-- `tnow` (R169, R242). -/
def execTnow (x : Bool) (d : BitVec 6) (s : State) : Host.Outcome State Fault Refusal :=
  issueWave x (.tnow x d) s fun _ v => v.setS d.toNat (BitVec.ofNat 64 s.now)

/-- `cyc` (R242). -/
def execCyc (x : Bool) (d : BitVec 6) (s : State) : Host.Outcome State Fault Refusal :=
  issueWave x (.cyc x d) s fun k v => v.setS d.toNat k.v.cycle

/-- `icount`: the instructions issued before this one (R238, R242). -/
def execIcount (x : Bool) (d : BitVec 6) (s : State) : Host.Outcome State Fault Refusal :=
  issueWave x (.icount x d) s fun k v => v.setS d.toNat k.v.icount

/-- The event that a scalar register names. -/
def eventId (k : Site) (e : BitVec 6) : Nat := (k.s e).toNat % 2 ^ 16

/-- `evsig`: a signal with a device-scope release (R243). -/
def execEvsig (x : Bool) (e : BitVec 6) (s : State) : Host.Outcome State Fault Refusal :=
  issue x (.evsig x e) s fun k u => (u.signalAfter (s.tenantOf k.w.lid) (eventId k e) k.w, true)

/-- `evwait`: s[D] and an acquire when the count is reached, else a park (R243, R340). -/
def execEvwait (x : Bool) (d e n : BitVec 6) (s : State) : Host.Outcome State Fault Refusal :=
  issue x (.evwait x d e n) s fun k u =>
    let t := s.tenantOf k.w.lid
    let c := u.eventCount t (eventId k e)
    if (k.s n).toNat ≤ c then
      ((u.dropCache (s.coreOf k.w.teamRef)).modWave k.w fun v => v.setS d.toNat (BitVec.ofNat 64 c), true)
    else
      let f := u.addWaiter t (eventId k e) (k.s n).toNat (.path k.w k.pid)
      (f.2.modWave k.w fun v => v.parkPath k.pid (.event f.1 d.toNat) k.p.pc, true)

/-- `hwait` (R183). -/
def execHwait (x : Bool) (d h : BitVec 6) (s : State) : Host.Outcome State Fault Refusal :=
  issue x (.hwait x d h) s fun k u =>
    let a := u.handleAnswer (k.s h)
    (if handleOver a then u.finishHandle k.w k.pid d.toNat a
     else u.modWave k.w fun v => v.parkPath k.pid (.handle d.toNat (k.s h)) k.p.pc, true)

/-- `hpoll` (R183). -/
def execHpoll (x : Bool) (d h : BitVec 6) (s : State) : Host.Outcome State Fault Refusal :=
  issueWave x (.hpoll x d h) s fun k v => v.setS d.toNat (BitVec.ofNat 64 (s.handleAnswer (k.s h)))

/-! ### Swaps and `yield` (R23, R245) -/

/-- The spilled path of greatest age that a test admits; the first of several. -/
def oldest (ps : List Path) (ok : Path → Bool) : Option Path :=
  (ps.filter ok).foldl (fun (b : Option Path) p => match b with
    | none => some p | some q => if q.age < p.age then some p else some q) none

/-- A resident and a spilled path trade places: the one that leaves enters the berm with age zero (R23). It stands on top of the berm, where R23 names
no place (DESIGN CHOICE, log entry 69). -/
def Wave.trade (v : Wave) (resident spilled : Nat) : Wave :=
  match v.path? resident, v.path? spilled with
  | some r, some q =>
    let put := fun o : Option Path => o.map fun p => if p.pid = resident then q else p
    { v with slot0 := put v.slot0, slot1 := put v.slot1, spilled := { r with age := 0 } :: v.spilled.filter (·.pid ≠ spilled) }
  | _, _ => v

/-- `yield` (R245). -/
def execYield (x : Bool) (s : State) : Host.Outcome State Fault Refusal :=
  issue x (.yield x) s fun k u =>
    let t := u.fell k
    match t.wave? k.w with
    | none => (t, false)
    | some v =>
      match oldest v.spilled fun p => !p.isParked with
      | some q => (t.setBerm k.w v (v.trade k.pid q.pid), false)
      | none =>
        let others := (u.eligible (s.coreOf k.w.teamRef)).filter fun o => !(o.w == k.w && o.pid == k.pid)
        if others.isEmpty then (t, false)
        else (t.modWave k.w fun v => v.modPath k.pid fun p => { p with yielded := some 64, owed := others.map fun o => (o.w, o.pid) }, false)

/-- `evtime`: schedule a signal at a fabric time (R303). -/
def execEvtime (x : Bool) (d e t : BitVec 6) (after : BitVec 1) (s : State) : Host.Outcome State Fault Refusal :=
  issue x (.evtime x d e t after) s fun k u =>
    let time := if after == 1 then (s.now + (k.s t).toNat) % 2 ^ 64 else (k.s t).toNat
    let f := u.fresh
    let r := f.2.timed (s.tenantOf k.w.lid) (eventId k e) time (some (k.w, f.1))
    (r.2.modWave k.w fun v => v.setS d.toNat (BitVec.ofNat 64 r.1), true)

end Sys2Proof.Machine
end

