-- ==== Sys2Proof/Machine/Fetch.lean ====
section
/-! DEFINITION. What a core does next: which path issues (R338), and the passing of time for paths and waves (R19, R26, R169, R236, R245,
R390). -/

namespace Sys2Proof.Machine

/-! ### Choosing (R338) -/

/-- The wave place of a path's wave on its core. -/
def State.placeOf (s : State) (w : WaveRef) : Nat :=
  match s.team? w.teamRef with | some t => t.places.getD w.wave 0 | none => 0

/-- The first path comes before the second: greater age, then the lower wave place, then slot 0. -/
def State.sooner (s : State) (a b : Site) : Bool :=
  let p := s.placeOf a.w
  let q := s.placeOf b.w
  b.p.age < a.p.age || (a.p.age == b.p.age && (p < q || (p == q && a.v.slot0 == some a.p)))

/-- Paths in the order of R338. -/
def State.byAge (s : State) (ks : List Site) : List Site :=
  ks.foldl (fun l k => l.takeWhile (fun x => s.sooner x k) ++ [k] ++ l.dropWhile (fun x => s.sooner x k)) []

/-- The path that a core serves next, with what it comes to; none when no path is eligible. -/
def State.pickPath (s : State) (core : Nat) : Option (Site × Look) :=
  (s.byAge (s.eligiblePaths core)).findSome? fun k =>
    let l := s.lookAt k
    if l.held k then none else some (k, l)

/-- A core may serve a path in this cycle: it has not issued in it, and the cycle has not come past its issues (R9). -/
def State.coreReady (s : State) (core : Nat) : Bool := s.beat ≤ 1 && !s.issued.contains core && (s.pickPath core).isSome

/-- The path is put at its issue; it is no longer owed an opportunity by paths that yielded on its core (R245). -/
def State.grant (s : State) (k : Site) : State :=
  let core := s.coreOf k.w.teamRef
  let drop := fun (p : Path) => if p.yielded.isSome then { p with owed := p.owed.filter (· ≠ (k.w, k.pid)) } else p
  { s with cur := some (k.w, k.pid), waves := s.waves.map fun (e : WaveRef × Wave) =>
      if s.coreOf e.1.teamRef == core then (e.1, { e.2 with slot0 := e.2.slot0.map drop, slot1 := e.2.slot1.map drop }) else e }

/-! ### Time (R19, R26, R169, R224, R236, R245, R390) -/

/-- Fifths of a tick that pass in one cycle of 0.8 ns: 64, or 60 and 68 while the clock is corrected. -/
def slewStep (slew : Int) : Nat × Int :=
  if 4 ≤ slew then (68, slew - 4) else if slew ≤ -4 then (60, slew + 4) else ((64 + slew).toNat, 0)

/-- Fabric time after one cycle. R11 gives 64 bits and states no comparison beyond them: the count goes on without a bound, and only a read of it is
taken modulo 2^64 (DESIGN CHOICE, log entry 69). -/
def Fabric.tick (f : Fabric) : Fabric :=
  let r := slewStep f.slew
  let n := f.slewFrac + r.1
  { f with now := f.now + n / 5, slewFrac := n % 5, slew := r.2 }

/-- A path after one cycle and some ticks on its core: its age, the time it has been parked, its `yield` window. -/
def Path.tick (p : Path) (ticks : Nat) : Path :=
  { p with age := if p.isParked then p.age else p.age + 1, since := if p.isParked then p.since + ticks else p.since,
           yielded := p.yielded.map (· - 1) }

/-- What was set in the last cycle is no longer of this one (R247). -/
def Wave.settled (v : Wave) : Wave := { v with newF := 0, newW := 0, newE := [] }
/-- A wave after one cycle on its core. -/
def Wave.tick (v : Wave) (ticks : Nat) : Wave :=
  let v := v.settled
  if v.born && !v.ended then
    { v with cycle := v.cycle + 1, slot0 := v.slot0.map (·.tick ticks), slot1 := v.slot1.map (·.tick ticks),
             spilled := v.spilled.map (·.tick ticks) }
  else v

/-- Paths that a yielded path still waits for: those that are not eligible any more are left out (R245). -/
def State.pruneOwed (s : State) (p : Path) : Path :=
  if p.yielded.isNone then p
  else { p with owed := p.owed.filter fun o => (s.eligible (s.coreOf o.1.teamRef)).any fun k => k.w == o.1 && k.pid == o.2 }

end Sys2Proof.Machine
end

