-- ==== Sys2Proof/Machine/Elements.lean ====
section
/-! DEFINITION. The element operations of vector arithmetic, logic, shifts, counts and compares (R253 to R261), and lane-wise instructions of fixed and of variable latency. -/

namespace Sys2Proof.Machine

/-! ### Integer elements: numbers below 2^w -/

/-- A two's complement element as an integer. -/
def sInt (w n : Nat) : Int := if n % 2 ^ w < 2 ^ (w - 1) then (n % 2 ^ w : Nat) else (n % 2 ^ w : Nat) - (2 ^ w : Nat)
/-- An integer as an element, modulo 2^w (R78). -/
def toElem (w : Nat) (v : Int) : Nat := (v % (2 ^ w : Nat)).toNat
/-- An element result without flags. -/
def plain (n : Nat) : FRes := ⟨n, 0⟩
/-- All ones or all zeros (R260). -/
def ones (w : Nat) (b : Bool) : Nat := if b then 2 ^ w - 1 else 0

/-- Clamp to the signed range (R257). -/
def clampS (w : Nat) (v : Int) : Int :=
  if v < -(2 ^ (w - 1) : Nat) then -(2 ^ (w - 1) : Nat) else if (2 ^ (w - 1) : Nat) ≤ v then (2 ^ (w - 1) : Nat) - 1 else v

/-! ### Element operations: type, modes, elements a, b and the prior d (R253 to R261) -/

/-- An operation by the kind of T: the integer one at the width, or the float one in the format. -/
def byType (t : BitVec 3) (int : Nat → FRes) (flt : Nat → FRes) : FRes :=
  match floatFormat t with | some f => flt f | none => int (typeWidth t)

def eAdd (md : FMode) (t : BitVec 3) (a b : Nat) : FRes :=
  byType t (fun w => plain ((a + b) % 2 ^ w)) (fun f => let p := fread md f a; let q := fread md f b; exactSum md f [p, q] [p, q])
def eSub (md : FMode) (t : BitVec 3) (a b : Nat) : FRes :=
  byType t (fun w => plain (toElem w ((a : Int) - b)))
    (fun f => let p := fread md f a; let q := fread md f b; exactSum md f [p, q.flip] [p, q])
def eMul (md : FMode) (t : BitVec 3) (a b : Nat) : FRes :=
  byType t (fun w => plain (a * b % 2 ^ w)) (fun f => fMul md f (fread md f a) (fread md f b))
def eMulh (w a b : Nat) : FRes := plain (toElem w ((sInt w a * sInt w b) / (2 ^ w : Nat)))
def eMulhw (w a b : Nat) : FRes := plain (a * b / 2 ^ w % 2 ^ w)
/-- d + a × b (`neg` false) or d − a × b. -/
def eFma (md : FMode) (t : BitVec 3) (neg : Bool) (a b d : Nat) : FRes :=
  byType t (fun w => plain (toElem w (if neg then (d : Int) - a * b else (d : Int) + a * b)))
    (fun f => fFma md f neg (fread md f a) (fread md f b) (fread md f d))
def eMin (md : FMode) (t : BitVec 3) (wantMax : Bool) (a b : Nat) : FRes :=
  byType t (fun w => plain (if decide (sInt w b < sInt w a) != wantMax then b else a))
    (fun f => fMinMax md f wantMax (fread md f a) (fread md f b))
def eMinw (wantMax : Bool) (a b : Nat) : FRes := plain (if decide (b < a) != wantMax then b else a)
/-- Float `vabs` and `vneg` change the sign bit only (R254). -/
def eAbs (t : BitVec 3) (a : Nat) : FRes :=
  byType t (fun w => plain (toElem w (sInt w a).natAbs)) (fun _ => plain (a % 2 ^ (typeWidth t - 1)))
def eNeg (t : BitVec 3) (a : Nat) : FRes :=
  byType t (fun w => plain (toElem w (-(a : Int)))) (fun _ => plain (a ^^^ 2 ^ (typeWidth t - 1)))
def eAddsat (w a b : Nat) : FRes := plain (toElem w (clampS w (sInt w a + sInt w b)))
def eNot (w a : Nat) : FRes := plain (2 ^ w - 1 - a % 2 ^ w)
def eShl (w a b : Nat) : FRes := plain (a * 2 ^ (b % w) % 2 ^ w)
def eShr (w a b : Nat) : FRes := plain (a / 2 ^ (b % w))
def eSra (w a b : Nat) : FRes := plain (toElem w (sInt w a / (2 ^ (b % w) : Nat)))
/-- Select bit by bit through the prior destination (R261). -/
def eSel (w a b d : Nat) : FRes := plain ((d &&& a) ||| ((2 ^ w - 1 - d % 2 ^ w) &&& b))

/-- The conditions of R259 on integer elements: `eq ne lt le gt ge`, then unsigned `lt le gt ge`. -/
def condInt (c w a b : Nat) : Bool :=
  let x := sInt w a
  let y := sInt w b
  match c with
  | 0 => a == b | 1 => a != b | 2 => decide (x < y) | 3 => decide (x ≤ y) | 4 => decide (y < x) | 5 => decide (y ≤ x)
  | 6 => decide (a < b) | 7 => decide (a ≤ b) | 8 => decide (b < a) | _ => decide (b ≤ a)

/-- The conditions of R259 on float elements, with IV under R75. -/
def condFloat (md : FMode) (c f a b : Nat) : Bool × Nat :=
  let p := fread md f a
  let q := fread md f b
  if p.isNaN || q.isNaN then
    match c with
    | 0 => (false, ivOf [p, q]) | 1 => (true, ivOf [p, q]) | 10 => (false, ivOf [p, q]) | 11 => (true, ivOf [p, q])
    | _ => (false, fIV)
  else
    let o := fcmp p q
    match c with
    | 0 => (o == .eq, 0) | 1 => (o != .eq, 0) | 2 => (o == .lt, 0) | 3 => (o != .gt, 0) | 4 => (o == .gt, 0) | 5 => (o != .lt, 0)
    | 10 => (true, 0) | _ => (false, 0)

/-- A condition on elements of type T. -/
def condElem (md : FMode) (t : BitVec 3) (c a b : Nat) : Bool × Nat :=
  match floatFormat t with | some f => condFloat md c f a b | none => (condInt c (typeWidth t) a b, 0)
/-- A compare into a bit pattern (R260). -/
def eCmp (md : FMode) (t : BitVec 3) (c a b : Nat) : FRes :=
  let r := condElem md t c a b
  ⟨ones (typeWidth t) r.1, r.2⟩

/-! ### Lane-wise instructions -/

/-- Results written at issue: fixed latency (R193). -/
def Wave.putLanes (v : Wave) (d : BitVec 7) (rs : List (Nat × Word × Nat) × Nat) : Wave :=
  (v.applyWrite (.v d.toNat rs.1)).raise rs.2

/-- The lanes of an element operation on operands A and B and the prior D. -/
def Site.lanes3 (k : Site) (t : BitVec 3) (d a b : BitVec 7) (f : Nat → Nat → Nat → FRes) : List (Nat × Word × Nat) × Nat :=
  laneResults k.lanes fun l => elementwise (typeWidth t) f (k.opT t a l) (k.opT t b l) ((k.v.vreg d.toNat).lane l)

/-- An element-wise instruction of fixed latency. -/
def vectorFixed (x : Bool) (i : Instr) (s : State) (t : BitVec 3) (d a b : BitVec 7) (f : FMode → Nat → Nat → Nat → FRes) :
    Host.Outcome State Fault Refusal :=
  issueWave x i s fun k v => v.putLanes d (k.lanes3 t d a b (f k.fm))

/-- An element-wise instruction of variable latency, counted on SFU (R91). -/
def vectorSfu (x : Bool) (i : Instr) (s : State) (t : BitVec 3) (d a b : BitVec 7) (f : FMode → Nat → Nat → Nat → FRes) :
    Host.Outcome State Fault Refusal :=
  issue x i s fun k u =>
    let r := k.lanes3 t d a b (f k.fm)
    (u.postResult k 2 [vReg d] [.v d.toNat r.1] r.2, true)

end Sys2Proof.Machine
end

