-- ==== Sys2Proof/Machine/Transc.lean ====
section
/-! DEFINITION. The correctly rounded functions of R90 and of the gate pipeline (R165): the exact value is enclosed between two
dyadics, at a precision that doubles until both ends round to the same result. Exact cases are settled first, so an enclosed
value is never on a rounding boundary; arguments so large or so small that the value lies between a bound and its neighbour in
every format are given a stand-in in the same rounding interval. -/

namespace Sys2Proof.Machine

/-- An interval of reals, lo × 2^−W to hi × 2^−W for the precision W of the computation. -/
structure Iv where
  lo : Int
  hi : Int
  deriving DecidableEq, Repr

/-- Quotient rounded down and rounded up, for a positive divisor. -/
def divDown (a : Int) (b : Nat) : Int := a.fdiv b
def divUp (a : Int) (b : Nat) : Int := -((-a).fdiv b)

def Iv.add (x y : Iv) : Iv := ⟨x.lo + y.lo, x.hi + y.hi⟩
def Iv.neg (x : Iv) : Iv := ⟨-x.hi, -x.lo⟩
/-- Product at precision W. -/
def Iv.mul (W : Nat) (x y : Iv) : Iv :=
  let a := x.lo * y.lo; let b := x.lo * y.hi; let c := x.hi * y.lo; let d := x.hi * y.hi
  ⟨divDown (min (min a b) (min c d)) (2 ^ W), divUp (max (max a b) (max c d)) (2 ^ W)⟩
def Iv.divNat (x : Iv) (n : Nat) : Iv := ⟨divDown x.lo n, divUp x.hi n⟩
def Iv.one (W : Nat) : Iv := ⟨2 ^ W, 2 ^ W⟩
/-- A rational at precision W. -/
def Iv.ofQ (W : Nat) (num : Int) (den : Nat) : Iv := ⟨divDown (num * 2 ^ W) den, divUp (num * 2 ^ W) den⟩
/-- Quotient at precision W of an interval by a positive one. -/
def Iv.div (W : Nat) (x y : Iv) : Iv :=
  let a := y.lo.toNat; let b := y.hi.toNat
  let n1 := x.lo * 2 ^ W; let n2 := x.hi * 2 ^ W
  ⟨if 0 ≤ x.lo then divDown n1 b else divDown n1 a, if 0 ≤ x.hi then divUp n2 a else divUp n2 b⟩

/-- Σ t^k ÷ k! from `term = t^k ÷ k!` on, for `n` terms; what is left is at most twice the next term when |t| ≤ 1. -/
def expTail (W : Nat) (t : Iv) : Nat → Nat → Iv → Iv
  | 0, _, term => let m := max term.hi (-term.lo); ⟨-2 * m - 1, 2 * m + 1⟩
  | n + 1, k, term => term.add (expTail W t n (k + 1) ((term.mul W t).divNat (k + 1)))

/-- e^t for |t| ≤ 1. -/
def expIv (W : Nat) (t : Iv) : Iv := expTail W t (W / 2 + 8) 0 (Iv.one W)

/-- Σ 1 ÷ (k 2^k) from k on. -/
def ln2Tail (W : Nat) : Nat → Nat → Iv
  | 0, _ => ⟨0, 1⟩
  | n + 1, k => (Iv.ofQ W 1 (k * 2 ^ k)).add (ln2Tail W n (k + 1))

/-- ln 2. -/
def ln2Iv (W : Nat) : Iv := ln2Tail W W 1

/-- z × Σ zz^k ÷ (2k+1), with `p` the running power z^(2k+1); |zz| ≤ 1/9. -/
def atanhTail (W : Nat) (zz : Iv) : Nat → Nat → Iv → Iv
  | 0, _, p => let m := max p.hi (-p.lo); ⟨-2 * m - 1, 2 * m + 1⟩
  | n + 1, k, p => (p.divNat (2 * k + 1)).add (atanhTail W zz n (k + 1) (p.mul W zz))

/-- atan(1 ÷ n) by the alternating series, for n ≥ 5. -/
def atanInv (W n : Nat) : Iv :=
  atanhTail W (Iv.ofQ W (-1) (n * n)) (W / 4 + 4) 0 (Iv.ofQ W 1 n)

/-- π, by Machin's formula. -/
def piIv (W : Nat) : Iv :=
  let a := atanInv W 5; let b := atanInv W 239
  ⟨16 * a.lo - 4 * b.hi, 16 * a.hi - 4 * b.lo⟩

/-- Σ of the sine or cosine series from the term `term` with factorial index k: next term is −term × tt ÷ ((k+1)(k+2)); |t| ≤ π/2. -/
def trigTail (W : Nat) (tt : Iv) : Nat → Nat → Iv → Iv
  | 0, _, term => let m := max term.hi (-term.lo); ⟨-2 * m - 1, 2 * m + 1⟩
  | n + 1, k, term => term.add (trigTail W tt n (k + 2) ((term.mul W tt).divNat ((k + 1) * (k + 2))).neg)

/-- sin(π × num ÷ den), for 0 ≤ num ÷ den ≤ 1/2. -/
def sinPiIv (W num den : Nat) : Iv :=
  let t := (piIv W).mul W (Iv.ofQ W num den)
  trigTail W (t.mul W t) (W / 2 + 8) 1 t

/-- cos(π × num ÷ den), for 0 ≤ num ÷ den ≤ 1/2. -/
def cosPiIv (W num den : Nat) : Iv :=
  let t := (piIv W).mul W (Iv.ofQ W num den)
  trigTail W (t.mul W t) (W / 2 + 8) 0 (Iv.one W)

/-- 2^(num ÷ den) for 0 ≤ num ÷ den < 1. -/
def exp2Iv (W num den : Nat) : Iv := expIv W ((ln2Iv W).mul W (Iv.ofQ W num den))

/-- log2 (num ÷ den) for 1 ≤ num ÷ den < 2. -/
def log2Iv (W num den : Nat) : Iv :=
  let z := Iv.ofQ W ((num : Int) - den) (num + den)
  let l := atanhTail W (z.mul W z) (W / 3 + 4) 0 z
  Iv.div W ⟨2 * l.lo, 2 * l.hi⟩ (ln2Iv W)

/-- Square an interval `n` times at precision W. -/
def squareN (W : Nat) : Nat → Iv → Iv
  | 0, x => x
  | n + 1, x => squareN W n (x.mul W x)

/-- e^(−num ÷ den) for a nonnegative argument: halved until at most 1, then squared back. -/
def expNegIv (W num den : Nat) : Iv :=
  let h := Nat.log2 (num / den + 1) + 1
  squareN W h (expIv W (Iv.ofQ W (-(num : Int)) (den * 2 ^ h)))

/-- 1 ÷ (1 + e^−x) with x = ± num ÷ den. -/
def sigmIv (W : Nat) (neg : Bool) (num den : Nat) : Iv :=
  let u := expNegIv W num den
  if neg then Iv.div W u ((Iv.one W).add u) else Iv.div W (Iv.one W) ((Iv.one W).add u)

/-- tanh of num ÷ den ≥ 0. -/
def tanhIv (W num den : Nat) : Iv :=
  let u := expNegIv W (2 * num) den
  Iv.div W ((Iv.one W).add u.neg) ((Iv.one W).add u)

/-- Round an enclosed nonzero value: try precision W, then double it. -/
def roundIv (md : FMode) (f : Nat) (enc : Nat → Iv) : Nat → Nat → FRes
  | 0, _ => ⟨canonNaN f, 0⟩
  | fuel + 1, W =>
    let x := enc W
    if 0 < x.lo then
      let a := roundQ md f false false x.lo.toNat 1 (-(W : Int))
      let b := roundQ md f false false x.hi.toNat 1 (-(W : Int))
      if a = b && a.flags.testBit 4 then a else roundIv md f enc fuel (2 * W)
    else if x.hi < 0 then
      let a := roundQ md f false true (-x.hi).toNat 1 (-(W : Int))
      let b := roundQ md f false true (-x.lo).toNat 1 (-(W : Int))
      if a = b && a.flags.testBit 4 then a else roundIv md f enc fuel (2 * W)
    else roundIv md f enc fuel (2 * W)

/-- Negate every bound of an enclosure when the value is negative. -/
def signedEnc (neg : Bool) (enc : Nat → Iv) : Nat → Iv := fun W => if neg then (enc W).neg else enc W

/-- Bits of precision to start from for an argument m × 2^e. -/
def startW (e : Int) : Nat := 96 + 2 * e.natAbs

/-- 1/√x of a positive finite value: the root of 2^2k ÷ m with a sticky bit. -/
def rsqFin (md : FMode) (f m : Nat) (e : Int) : FRes :=
  let m1 := if e % 2 = 0 then m else 2 * m
  let e1 := if e % 2 = 0 then e else e - 1
  let k := Nat.log2 m1 + manBits f + 8
  let r := isqrt (2 ^ (2 * k) / m1)
  roundQ md f false false (2 * r + (if r * r * m1 = 2 ^ (2 * k) then 0 else 1)) 1 (-(k : Int) - e1 / 2 - 1)

/-- 2^x of a finite value (R90). -/
def exp2Fin (md : FMode) (f : Nat) (neg : Bool) (m : Nat) (e : Int) : FRes :=
  let a := scaleQ m 1 e
  if m = 0 then roundQ md f false false 1 1 0
  else if 4096 * a.2 ≤ a.1 then roundQ md f false false 1 1 (if neg then -4096 else 4096)
  else if a.1 % a.2 = 0 then roundQ md f false false 1 1 (if neg then -(a.1 / a.2 : Nat) else (a.1 / a.2 : Nat))
  else if a.1 * 2 ^ 40 < a.2 then
    roundQ md f false false (if neg then 2 ^ 38 - 1 else 2 ^ 38 + 1) 1 (-38)
  else
    let whole : Int := if neg then -(a.1 / a.2 : Nat) - 1 else (a.1 / a.2 : Nat)
    let frac := if neg then a.2 - a.1 % a.2 else a.1 % a.2
    -- the enclosure of 2^frac, carried to the exponent by roundQ's scale
    let rec go : Nat → Nat → FRes
      | 0, _ => ⟨canonNaN f, 0⟩
      | fuel + 1, W =>
        let x := exp2Iv W frac a.2
        let r := roundQ md f false false x.lo.toNat 1 (whole - W)
        let t := roundQ md f false false x.hi.toNat 1 (whole - W)
        if r = t && r.flags.testBit 4 then r else go fuel (2 * W)
    go 10 96

/-- log2 of a positive finite value (R90). -/
def log2Fin (md : FMode) (f m : Nat) (e : Int) : FRes :=
  let k := Nat.log2 m
  let whole : Int := k + e
  if m = 2 ^ k then (if whole = 0 then ⟨0, 0⟩ else roundQ md f false (whole < 0) whole.natAbs 1 0)
  else roundIv md f (fun W => (log2Iv W m (2 ^ k)).add ⟨whole * 2 ^ W, whole * 2 ^ W⟩) 10 128

/-- sin πx or cos πx of a finite value (R90). -/
def trigFin (md : FMode) (f : Nat) (isCos neg : Bool) (m : Nat) (e : Int) : FRes :=
  let a := scaleQ m 1 e
  let den := a.2
  let r := a.1 % (2 * den)                       -- |x| mod 2, over den
  let one := roundQ md f false false 1 1 0
  if a.1 = 0 then (if isCos then one else ⟨zeroBits f neg, 0⟩)
  else if isCos then
    if r = 0 then one
    else if r = den then roundQ md f false true 1 1 0
    else if 2 * r = den || 2 * r = 3 * den then ⟨0, 0⟩
    else if a.1 * 2 ^ 20 < den then roundQ md f false false (2 ^ 36 - 1) 1 (-36)
    else
      let r1 := if den < r then 2 * den - r else r          -- cos is even about 0 and 1
      let flip := den < 2 * r1
      let r2 := if flip then den - r1 else r1
      roundIv md f (signedEnc flip (fun W => cosPiIv W r2 den)) 10 (startW e)
  else
    if r = 0 || r = den then ⟨zeroBits f neg, 0⟩
    else
      let flip := den < r
      let r1 := if flip then r - den else r
      let r2 := if den < 2 * r1 then den - r1 else r1
      if 2 * r2 = den then roundQ md f false (neg != flip) 1 1 0
      else roundIv md f (signedEnc (neg != flip) (fun W => sinPiIv W r2 den)) 10 (startW e)

/-- tanh of a finite value (R90). -/
def tanhFin (md : FMode) (f : Nat) (neg : Bool) (m : Nat) (e : Int) : FRes :=
  let a := scaleQ m 1 e
  if m = 0 then ⟨zeroBits f neg, 0⟩
  else if a.1 * 2 ^ 20 < a.2 then roundQ md f false neg (m * 2 ^ 40 - 1) 1 (e - 40)
  else if 20 * a.2 < a.1 then roundQ md f false neg (2 ^ 40 - 1) 1 (-40)
  else roundIv md f (signedEnc neg (fun W => tanhIv W a.1 a.2)) 10 (startW e)

/-- 1 ÷ (1 + e^−x) of a finite value (R90). -/
def sigmFin (md : FMode) (f : Nat) (neg : Bool) (m : Nat) (e : Int) : FRes :=
  let a := scaleQ m 1 e
  if m = 0 then roundQ md f false false 1 1 (-1)
  else if a.1 * 2 ^ 40 < a.2 then roundQ md f false false (if neg then 2 ^ 38 - 1 else 2 ^ 38 + 1) 1 (-39)
  else if 256 * a.2 < a.1 then
    if neg then roundQ md f false false 1 1 (-300) else roundQ md f false false (2 ^ 40 - 1) 1 (-40)
  else roundIv md f (fun W => sigmIv W neg a.1 a.2) 10 (512 + startW e)

/-- `vsfu` of one element (R90, R263): 0 rcp, 1 rsq, 2 exp2, 3 log2, 4 sinp, 5 cosp, 6 tanh, 7 sigm. -/
def sfuElem (md : FMode) (f fn : Nat) (a : FV) : FRes :=
  if a.isNaN then ⟨nanTo md f a, ivOf [a]⟩
  else
    let nan : FRes := ⟨canonNaN f, fIV⟩
    let one := roundQ md f false false 1 1 0
    match fn, a with
    | 0, a => fDiv md f false (.fin false 1 0) a
    | 1, .inf n => if n then nan else ⟨0, 0⟩
    | 1, .fin n m e => if m = 0 then ⟨zeroBits f n + infBits f, fDZ⟩ else if n then nan else rsqFin md f m e
    | 2, .inf n => if n then ⟨0, 0⟩ else ⟨infBits f, 0⟩
    | 2, .fin n m e => exp2Fin md f n m e
    | 3, .inf n => if n then nan else ⟨infBits f, 0⟩
    | 3, .fin n m e => if m = 0 then ⟨signBit f + infBits f, fDZ⟩ else if n then nan else log2Fin md f m e
    | 4, .inf _ => nan
    | 4, .fin n m e => trigFin md f false n m e
    | 5, .inf _ => nan
    | 5, .fin n m e => trigFin md f true n m e
    | 6, .inf n => ⟨one.bits + (if n then signBit f else 0), 0⟩
    | 6, .fin n m e => tanhFin md f n m e
    | _, .inf n => if n then ⟨0, 0⟩ else one
    | _, .fin n m e => sigmFin md f n m e
    | _, _ => nan

/-- Round d + s × (b − d) for s between two dyadics that share a rounding, or try again at a higher precision (R165). -/
def lerpGo (md : FMode) (neg : Bool) (num den : Nat) (d diff e : Int) : Nat → Nat → FRes
  | 0, _ => ⟨canonNaN 1, 0⟩
  | fuel + 1, W =>
    let s : Iv :=
      if 1024 * den < num then
        (if neg then ⟨1, 1⟩ else ⟨2 ^ W - 1, 2 ^ W - 1⟩)
      else sigmIv W neg num den
    let x := d * 2 ^ W + s.lo * diff
    let y := d * 2 ^ W + s.hi * diff
    let lo := min x y
    let hi := max x y
    if 0 < lo || hi < 0 then
      let a := roundQ md 1 false (hi < 0) lo.natAbs 1 (e - W)
      let b := roundQ md 1 false (hi < 0) hi.natAbs 1 (e - W)
      if a = b && a.flags.testBit 4 then a else lerpGo md neg num den d diff e fuel (2 * W)
    else lerpGo md neg num den d diff e fuel (2 * W)

/-- `gate.lerp` of one f32 element: d + sig(a) × (b − d), rounded once (R165). Beside a quiet NaN `a` the difference of two equal infinities still is the invalid row of
R75 and raises IV; the other infinities meet the NaN before they make a row invalid (DESIGN CHOICE, log entry 63). -/
def lerpElem (md : FMode) (a b d : FV) : FRes :=
  let lost := match b, d with | .inf m, .inf n => m == n | _, _ => false
  if a.isNaN || b.isNaN || d.isNaN then ⟨nanOf md 1 [a, b, d], if lost then fIV else ivOf [a, b, d]⟩
  else
    let nan : FRes := ⟨canonNaN 1, fIV⟩
    match a, b, d with
    | _, _, .inf _ => nan
    | .inf true, .inf _, _ => nan
    | _, .inf n, _ => infTo md 1 false n
    | .inf n, .fin bn bm be, .fin dn dm de =>
      if n then
        let z := sumFinite md 1 [.fin bn bm be, .fin (!dn) dm de] 0
        if dm = 0 then sumFinite md 1 [.fin dn 0 0, .fin (z.bits / signBit 1 % 2 == 1) 0 0] 0 else roundFin md 1 false dn dm de
      else if bm = 0 && dm = 0 then
        let z := sumFinite md 1 [.fin bn 0 0, .fin (!dn) 0 0] 0
        sumFinite md 1 [.fin dn 0 0, .fin (z.bits / signBit 1 % 2 == 1) 0 0] 0
      else if bm = 0 then sumFinite md 1 [.fin dn dm de, .fin (!dn) dm de] 0
      else roundFin md 1 false bn bm be
    | .fin an am ae, .fin bn bm be, .fin dn dm de =>
      let e := min be de
      let bi : Int := (if bn then -1 else 1) * (bm * 2 ^ (be - e).toNat : Nat)
      let di : Int := (if dn then -1 else 1) * (dm * 2 ^ (de - e).toNat : Nat)
      if bi = di then
        if bi = 0 then
          let z := sumFinite md 1 [.fin bn 0 0, .fin (!dn) 0 0] 0
          sumFinite md 1 [.fin dn 0 0, .fin (z.bits / signBit 1 % 2 == 1) 0 0] 0
        else roundFin md 1 false dn dm de
      else if am = 0 then
        if bi + di = 0 then sumFinite md 1 [.fin dn dm de, .fin (!dn) dm de] 0
        else roundQ md 1 false (bi + di < 0) (bi + di).natAbs 1 (e - 1)
      else
        let q := scaleQ am 1 ae
        lerpGo md an q.1 q.2 di (bi - di) e 6 (2048 + ae.natAbs)
    | _, _, _ => nan

end Sys2Proof.Machine
end

