-- ==== Sys2Proof/Machine/Engine.lean ====
section
/-! DEFINITION. The matrix engine's operations on tiles and operand ranges (R66, R80 to R86, R153, R154, R159 to R167, R298). -/

namespace Sys2Proof.Machine

/-! ### Tiles -/

/-- Row `r` of tile `t`: 32 doublewords. -/
def Quad.row (u : Quad) (t r : Nat) : List Word := (tget (t * 64 + r) u.acc).getD (List.replicate 32 0)
/-- Write a row; the poison of its halves goes. -/
def Quad.setRow (u : Quad) (t r : Nat) (v : List Word) : Quad :=
  { u with acc := tput (t * 64 + r) v u.acc, bad := u.bad.filter fun h => h / 64 ≠ t * 64 + r }
/-- Write some doublewords of a row; the poison of their halves goes, and that of the others stays (R163, R383). -/
def Quad.setLanes (u : Quad) (t r : Nat) (ls : List (Nat × Word)) : Quad :=
  let row := ls.foldl (fun (row : List Word) p => setAt row p.1 p.2) (u.row t r)
  { u with acc := tput (t * 64 + r) row u.acc, bad := u.bad.filter fun h => !(h / 64 == t * 64 + r && ls.any fun p => p.1 == h % 64 / 2) }

/-- A tile of zero bits (R163). -/
def Quad.zeroTile (u : Quad) (t : Nat) : Quad :=
  { u with acc := u.acc.filter fun p => p.1 / 64 ≠ t, bad := u.bad.filter fun h => h / 4096 ≠ t }
/-- Poison of half `h` of a row (R383). -/
def Quad.rowBad (u : Quad) (t r h : Nat) : Bool := u.bad.contains ((t * 64 + r) * 64 + h)
/-- A poisoned half in a tile from a row up. -/
def Quad.tileBad (u : Quad) (t r : Nat) : Bool := u.bad.any fun h => h / 4096 == t && r ≤ h / 64 % 64
/-- Format tags: 0 f32, 1 f64, 2 i32 (R163). -/
def Quad.tag (u : Quad) (t : Nat) : Nat := u.tags.getD t 0
def Quad.setTag (u : Quad) (t g : Nat) : Quad := { u with tags := setAt u.tags t g }

/-- The elements of a row at a width: 64 of 32 bits, or 32 of 64 bits. -/
def rowElems (w : Nat) (row : List Word) : List Nat := row.flatMap (elemsOf w)
/-- A row from its elements. -/
def packRow (w : Nat) (es : List Nat) : List Word :=
  if w = 64 then es.map (BitVec.ofNat 64)
  else (List.range 32).map fun l => packElems 32 [es.getD (2 * l) 0, es.getD (2 * l + 1) 0]

/-! ### Records -/

/-- A field of a record of 64 bytes. -/
def recField (n hi lo : Nat) : Nat := bits n lo (hi - lo + 1)

/-- A tensor record from its 512 bits (R153). -/
def TensorRec.ofNat (n : Nat) : TensorRec :=
  { cbaddr := BitVec.ofNat 64 (recField n 511 448), scaleaddr := BitVec.ofNat 64 (recField n 447 384), blk := recField n 325 324,
    fmt := recField n 323 320, stride := (List.range 4).map fun d => sx 32 (bits n (192 + 32 * d) 32),
    dim := (List.range 4).map fun d => bits n (64 + 32 * d) 32, base := BitVec.ofNat 64 (bits n 0 64) }

/-- A DIM of 0 reads as 1. -/
def TensorRec.dimOf (r : TensorRec) (d : Nat) : Nat := let v := r.dim.getD d 1; if v = 0 then 1 else v
/-- Formats cb4 and i4 pack two elements in a byte (R66). -/
def packed4 (f : Nat) : Bool := f == 7 || f == 15
/-- Bytes of an element. -/
def elemBytes (f : Nat) : Nat := if packed4 f then 1 else formatWidth f / 8

/-- A tensor record that R154 refuses with OPREC, at its address. -/
def TensorRec.bad (n : Nat) (r : TensorRec) (addr : Word) : Bool :=
  r.blk == 3 || recField n 383 326 != 0 || r.base.toNat % elemBytes r.fmt != 0 || addr.toNat % 64 != 0 ||
  (r.fmt == 7 && r.cbaddr.toNat % 32 != 0)

/-- The address of an element (R154), none outside the record: coordinates are exact integers. -/
def TensorRec.elemAddr (r : TensorRec) (c : List Int) : Option Word :=
  if (List.range 4).all fun d => decide (0 ≤ c.getD d 0) && decide (c.getD d 0 < r.dimOf d) then
    let first : Int := if packed4 r.fmt then c.getD 0 0 / 2 else c.getD 0 0 * r.stride.getD 0 0
    some (BitVec.ofInt 64 (r.base.toNat + first + c.getD 1 0 * r.stride.getD 1 0 + c.getD 2 0 * r.stride.getD 2 0 +
      c.getD 3 0 * r.stride.getD 3 0))
  else none

/-- Coordinates of row `n` in mixed radix (R154). -/
def TensorRec.rowCoords (r : TensorRec) (n : Nat) : List Int :=
  [(n % r.dimOf 1 : Nat), (n / r.dimOf 1 % r.dimOf 2 : Nat), (n / (r.dimOf 1 * r.dimOf 2) : Nat)]

/-- An operand record from its 512 bits (R159). -/
def OperRec.ofNat (n : Nat) (t : TeamRef) : OperRec :=
  { roleB := n.testBit 279, space := n.testBit 278, blk := recField n 277 276, fmt := recField n 275 272, nb := recField n 271 256,
    k := recField n 255 224, stride := sx 32 (recField n 223 192), cbaddr := BitVec.ofNat 64 (recField n 191 128),
    scaleaddr := BitVec.ofNat 64 (recField n 127 64), addr := BitVec.ofNat 64 (bits n 0 64), team := t }

/-- Block length along K (R83). -/
def OperRec.block (r : OperRec) : Nat := match r.blk with | 1 => 16 | _ => 32

/-- A record that `mres` refuses with OPREC (R160). K above 65,536, beyond the bound of R159, is in no list of refusals: such a record is accepted and
run (DESIGN CHOICE, log entry 69). -/
def OperRec.bad (n : Nat) (r : OperRec) : Bool :=
  r.k == 0 || r.blk == 3 || n / 2 ^ 280 != 0 || (r.blk != 0 && r.nb != (r.k + r.block - 1) / r.block) ||
  (r.fmt == 7 && (r.roleB || r.cbaddr.toNat % 32 != 0))

/-- Bytes of the operand buffer that a range takes: 2 KiB for every 16 rows of its tile, from 8 to 32 KiB (R160). -/
def OperRec.size (r : OperRec) : Nat := min 32768 (max 8192 (2048 * (((if r.roleB then r.k else 64) + 15) / 16)))

/-- The accumulator that two operand formats pair into: 0 f32, 1 f64, 2 i32, with the step length (R80, R161). -/
def pairing (a b : Nat) : Option (Nat × Nat) :=
  let n8 := fun f : Nat => f == 4 || f == 5
  let n16 := fun f : Nat => f == 2 || f == 3
  if a == 7 && n8 b then some (0, 64)
  else if n8 a && n8 b then some (0, 32)
  else if a == 11 && b == 11 then some (2, 32)
  else if n16 a && n16 b then some (0, 16)
  else if a == 1 && b == 1 then some (0, 1)
  else if a == 0 && b == 0 then some (1, 1)
  else none

/-! ### Fetching operands (R159, R162, R167) -/

/-- Bytes that the engine reads, each with whether its error lasts; or a kill with the address that it is for. -/
inductive EngRead where
  | ok (bs : List (Byte × Bool))
  | wait
  | fault (va : Word) (cause level : Nat)
  | kill (status : Nat) (va : Word)
  deriving DecidableEq, Repr

/-- Read bytes at a virtual address for the engine of a cluster (R155, R416, R360). -/
def State.engVirtual (s : State) (cluster ctx : Nat) (a : Word) (n : Nat) : EngRead :=
  (List.range n).foldl (fun acc i => match acc with
    | .ok bs =>
      let va := a + BitVec.ofNat 64 i
      if badVA va then .kill 0x0B va
      else match s.translate false cluster ctx .load va.toNat with
        | .fault c l => .fault va c l
        | .poison => .kill 0x0E va
        | .ok pa fab node _ =>
          if fab && !s.fabOk node pa then .kill 0x0D va
          else .ok (bs ++ [s.readLoc (if fab then .node node pa else .home pa)])
    | o => o) (.ok [])

/-- Read bytes at a scratchpad offset: an absent line is waited for (R162). -/
def State.engSpad (s : State) (t : TeamRef) (o n : Nat) : EngRead :=
  let ls := (List.range n).map fun i => s.spadAt t o i
  if ls.any fun l => s.lineAbsent l then .wait else .ok (ls.map s.readLoc)

/-- Read a run of bytes of an operand, at a byte distance from its ADDR. -/
def State.operBytes (s : State) (cluster ctx : Nat) (r : OperRec) (at' : Int) (n : Nat) : EngRead :=
  if r.space then s.engSpad r.team ((r.addr.toNat % 2 ^ 32 + at') % (2 ^ 32 : Nat)).toNat n
  else s.engVirtual cluster ctx (BitVec.ofInt 64 (r.addr.toNat + at')) n

/-- An entry of ELOG (R167). -/
def elogEntry (src row col tile : Nat) : Word :=
  BitVec.ofNat 64 (2 ^ 63 + src * 2 ^ 59 + row % 2 ^ 16 * 2 ^ 32 + col % 2 ^ 16 * 2 ^ 16 + tile)

/-- A fetched row of values with its errors, or why there is none. -/
inductive RowRead where
  | ok (vs : List FV) (errs : List Word)
  | wait
  | fault (va : Word) (cause level : Nat)
  | kill (status : Nat) (va : Word)
  deriving DecidableEq, Repr

/-- Values below one another: append one to a row read so far. -/
def RowRead.bind (r : RowRead) (f : List FV → List Word → RowRead) : RowRead :=
  match r with | .ok vs es => f vs es | o => o

/-- A byte run as a number, and whether a byte of it is bad. -/
def EngRead.num (r : EngRead) (f : Nat → Bool → RowRead) : RowRead :=
  match r with
  | .ok bs => f (leNat (bs.map (·.1))) (bs.any (·.2))
  | .wait => .wait
  | .fault va c l => .fault va c l
  | .kill st va => .kill st va

/-- The scale of an element, none when it cannot be read: e8m0 code at an index of SCALEADDR (R83, R159). -/
def State.operScale (s : State) (cluster ctx : Nat) (r : OperRec) (idx : Nat) (f : Nat → Bool → RowRead) : RowRead :=
  if r.blk = 0 then f 127 false
  else (s.engVirtual cluster ctx (r.scaleaddr + BitVec.ofNat 64 idx) 1).num f

/-- A value times the power of two of a scale code; code 0xFF gives a NaN (R83). An element that is a NaN itself under such a scale is that NaN too: no payload, and no
IV where it signals (DESIGN CHOICE, log entry 63). -/
def scaled (c : Nat) (v : FV) : FV :=
  if c = 255 then .nan false false 0 0 else match v with | .fin n m e => .fin n m (e + ((c : Int) - 127)) | v => v

/-- One element of an operand: row, column, index of its scale in its row or column, tile of the operation. What cannot be read is
zero and noted (R167); the ROW of a codebook entry is 0; of an element that cannot be read no scale and no codebook entry is fetched, beside a scale that cannot be
read no codebook entry, and of a codebook only the entry that the code selects (DESIGN CHOICE, log entry 63). -/
def State.operElem (s : State) (cluster ctx : Nat) (md : FMode) (r : OperRec) (row col tile : Nat) : RowRead :=
  let w := formatWidth r.fmt
  let q := (if r.roleB then row else col) / r.block
  let other := if r.roleB then col else row
  let src := if r.roleB then 1 else 0
  let zero : FV := .fin false 0 0
  let idx := if r.roleB then q * 64 + col else row * r.nb + q
  (s.operBytes cluster ctx r ((row : Int) * r.stride + (if r.fmt = 7 then col / 2 else col * (w / 8) : Nat)) (if r.fmt = 7 then 1 else w / 8)).num
    fun n bad =>
      if bad then .ok [zero] [elogEntry src row col tile]
      else
        s.operScale cluster ctx r idx fun c badc =>
          if badc then .ok [zero] [elogEntry (src + 2) other q tile]
          else if r.fmt = 7 then
            let e := if col % 2 = 0 then n % 16 else n / 16 % 16
            (s.engVirtual cluster ctx (r.cbaddr + BitVec.ofNat 64 (2 * e)) 2).num fun b badb =>
              if badb then .ok [zero] [elogEntry 4 0 e tile] else .ok [scaled c (fread md 2 b)] []
          else .ok [scaled c (elemValue md r.fmt n)] []

/-- Elements `col` to `col + n − 1` of a row of an operand. -/
def State.operRow (s : State) (cluster ctx : Nat) (md : FMode) (r : OperRec) (row n tile : Nat) : RowRead :=
  (List.range n).foldl (fun acc c => acc.bind fun vs es =>
    (s.operElem cluster ctx md r row c tile).bind fun v e => .ok (vs ++ v) (es ++ e)) (.ok [] [])

/-- The rows of operand B, all K of them. -/
inductive TileRead where
  | ok (rows : List (List FV)) (errs : List Word)
  | stop (r : RowRead)
  deriving DecidableEq, Repr

def State.operTile (s : State) (cluster ctx : Nat) (md : FMode) (r : OperRec) (cols tile : Nat) : TileRead :=
  (List.range r.k).foldl (fun acc k => match acc with
    | .ok rows es => (match s.operRow cluster ctx md r k cols tile with
        | .ok vs e => .ok (rows ++ [vs]) (es ++ e)
        | o => .stop o)
    | o => o) (.ok [] [])

/-! ### Products (R80 to R84) -/

/-- One K-step of an element: the old accumulator and the step's pairs (R80, R82). A signalling NaN raises IV, also beside a block whose scale is
a NaN (DESIGN CHOICE, log entry 63). -/
def kStep (md : FMode) (acc : Nat) (ps : List (FV × FV)) : FRes :=
  let a := fread md 1 acc
  let prods := ps.map fun p => fmul p.1 p.2
  let order := ps.flatMap (fun p => [p.1, p.2]) ++ [a]
  if prods.any Option.isNone then ⟨canonNaN 1, fIV ||| ivOf order⟩
  else exactSum md 1 (a :: prods.filterMap id) order

/-- The exact sum of an integer and finite values, when it is an integer. -/
def intSum (a : Int) (ps : List FV) : Option Int :=
  let low := ps.foldl (fun (l : Int) p => match p with | .fin _ _ e => min l e | _ => l) 0
  let term := fun (neg : Bool) (m : Nat) (e : Int) => (if neg then -1 else 1) * (m : Int) * (2 ^ (e - low).toNat : Nat)
  if ps.all fun p => match p with | .fin .. => true | _ => false then
    let t := ps.foldl (fun (x : Int) p => match p with | .fin n m e => x + term n m e | _ => x) (term false 1 0 * a)
    if t % term false 1 0 = 0 then some (t / term false 1 0) else none
  else none

/-- One K-step into an i32 accumulator: the exact sum of R80, modulo 2^32; where block scales leave a sum that is no integer, or a NaN, a free
value (log entry 3). -/
def kStepInt (acc : Nat) (ps : List (FV × FV)) : FRes :=
  match intSum acc (ps.map fun p => (fmul p.1 p.2).getD (.inf false)) with
  | some v => ⟨(v % (2 ^ 32 : Nat)).toNat, 0⟩
  | none => ⟨(Config.scaledI8Step (BitVec.ofNat 32 acc) (ps.map fun p => (reprVal p.1, reprVal p.2))).toNat, 0⟩
where
  reprVal : FV → Int × Int
  | .fin n m e => ((if n then -1 else 1) * (m : Int), e)
  | _ => (0, 0)

/-- Apply the steps of length L to an element. -/
def kSteps (f : Nat → List (FV × FV) → FRes) (L : Nat) : Nat → Nat → List (FV × FV) → Nat → FRes
  | 0, acc, _, fl => ⟨acc, fl⟩
  | n + 1, acc, ps, fl =>
    if ps.isEmpty then ⟨acc, fl⟩
    else let r := f acc (ps.take L); kSteps f L n r.bits (ps.drop L) (fl ||| r.flags)

/-- One element of `mma`: accumulator kind and step, old value, pairs in ascending k. -/
def mmaElem (md : FMode) (kind L acc : Nat) (ps : List (FV × FV)) : FRes :=
  match kind with
  | 2 => kSteps kStepInt L (ps.length + 1) acc ps 0
  | 1 => ps.foldl (fun r p => let x := fFma md 0 false p.1 p.2 (fread md 0 r.bits); ⟨x.bits, r.flags ||| x.flags⟩) ⟨acc, 0⟩
  | _ =>
    if L = 1 then ps.foldl (fun r p => let x := fFma md 1 false p.1 p.2 (fread md 1 r.bits); ⟨x.bits, r.flags ||| x.flags⟩) ⟨acc, 0⟩
    else kSteps (kStep md) L (ps.length + 1) acc ps 0

/-- One row of `mma`: the row of A against the rows of B. -/
def mmaRow (md : FMode) (kind L : Nat) (old : List Word) (arow : List FV) (b : List (List FV)) : List Word × Nat :=
  let w := if kind = 1 then 64 else 32
  let rs := (rowElems w old).zipIdx.map fun e => mmaElem md kind L e.1 (arow.zip (b.map fun r => r.getD e.2 (.fin false 0 0)))
  (packRow w (rs.map (·.bits)), orFlags rs)

/-! ### Statistics and gates (R86, R164, R165) -/

/-- Maximum, sum and sum of squares of a row, as f32. -/
def statRow (md : FMode) (row : List Word) : FRes × FRes × FRes :=
  let vs := (rowElems 32 row).map (fread md 1)
  (fMinMaxAll md 1 true vs, exactSum md 1 vs vs, exactSum md 1 (vs.filterMap fun v => fmul v v) vs)

/-- One element of `gate`: 0 sig, 1 tanh, 2 mul, 3 add, 4 lerp, 5 scale. -/
def gateElem (md : FMode) (op a b d : Nat) : FRes :=
  let x := fread md 1 a
  let y := fread md 1 b
  match op with
  | 0 => sfuElem md 1 7 x
  | 1 => sfuElem md 1 6 x
  | 3 => exactSum md 1 [x, y] [x, y]
  | 4 => lerpElem md x y (fread md 1 d)
  | _ => fMul md 1 x y

/-- A gate over whole tiles: every operand is read before the result is written (R298). `b` is the second operand of a place. -/
def Quad.gate (u : Quad) (md : FMode) (op d a : Nat) (b : Nat → Nat → Nat) : Quad × Nat :=
  let rows := (List.range 64).map fun r =>
    let ar := rowElems 32 (u.row a r)
    let dr := rowElems 32 (u.row d r)
    (List.range 64).map fun j => gateElem md op (ar.getD j 0) (b r j) (dr.getD j 0)
  let u := rows.zipIdx.foldl (fun u p => u.setRow d p.2 (packRow 32 (p.1.map (·.bits)))) u
  (u.setTag d 0, rows.foldl (fun f r => f ||| orFlags r) 0)

/-- Element `j` of row `r` of a tile, as 32 bits. -/
def Quad.elem32 (u : Quad) (t r j : Nat) : Nat := elem 32 ((u.row t r).getD (j / 2) 0) (j % 2)

/-! ### `mst` (R163) -/

/-- The tile's element in the record's format. -/
def mstElem (md : FMode) (tag fmt bits : Nat) : FRes :=
  if tag = 2 then ⟨bits, 0⟩ else cvtElem md fmt (if tag = 1 then 0 else 1) bits

/-- Record formats that `mst` accepts for a tag. -/
def mstFormat (tag : Nat) (r : TensorRec) : Bool := r.blk == 0 && (if tag = 2 then r.fmt == 9 else r.fmt ≤ 5)

/-- The elements of a tile row as `mst` writes them: address, bytes, flags. -/
def Quad.mstRow (u : Quad) (md : FMode) (r : TensorRec) (t row : Nat) : List (Word × List Byte × Nat) :=
  let tag := u.tag t
  let es := rowElems (if tag = 1 then 64 else 32) (u.row t row)
  es.zipIdx.filterMap fun e =>
    match r.elemAddr ((e.2 : Int) :: r.rowCoords row) with
    | some a => let x := mstElem md tag r.fmt e.1; some (a, leBytes (elemBytes r.fmt) x.bits, x.flags)
    | none => none

end Sys2Proof.Machine
end

