-- ==== Sys2Proof/Machine/Image.lean ====
section
/-! DEFINITION. The image of a saved team in private memory: its addresses, the part of it in which late bytes land, and what an image that
software has written restores (R381 to R383). -/

namespace Sys2Proof.Machine

/-- The address of byte `i` of a team's image. -/
def Ctx.imageAddr (c : Ctx) (blocks : List Nat) (i : Nat) : Word :=
  c.privbase + BitVec.ofNat 64 (8192 * blocks.getD (i / 8192) 0 + i % 8192)

/-- Offset of the register rows in an image. -/
def Launch.imageRows (l : Launch) : Nat := 128 + 1024 * l.hdr.waves

/-- Offset of the gang state in an image that holds one: after the rows, the poison map, the scratchpad and the line state. -/
def Launch.imageGang (l : Launch) : Nat :=
  l.imageRows + 264 * l.hdr.alloc * l.hdr.waves + l.hdr.spadP + (l.hdr.spadP / 128 + 63) / 64 * 64

/-- Register rows, poison map, scratchpad and line state of an image. -/
def State.imageBody (s : State) (t : TeamRef) (l : Launch) (k : Team) : List Byte :=
  let vs := (List.range l.hdr.waves).filterMap fun i => s.wave? ⟨t.lid, t.team, i⟩
  let p := l.hdr.spadP
  let lines := (List.range (p / 128)).map fun i : Nat =>
    BitVec.ofNat 8 ((if k.absent.contains i then 0 else 128) + (tget i k.counts).getD 0 % 16)
  (vs.flatMap fun v => v.vregs.flatMap fun r => (List.range 32).flatMap fun i => leBytes 8 (r.lane i).toNat) ++
  (vs.flatMap fun v => v.vregs.flatMap fun r => leBytes 8 r.poison.toNat) ++
  mreadN 0 p k.spad ++ lines ++ List.replicate ((p / 128 + 63) / 64 * 64 - p / 128) 0

/-- The walk to a block of an image reads a bad table entry (R358): each block of 8 KiB lies on one page or on two. -/
def State.imageTable (s : State) (ctx : Nat) (k : AccKind) (blocks : List Nat) : Bool :=
  match s.ctx? ctx with
  | some c => (List.range blocks.length).any fun i => [0, 8191].any fun o => s.badTable false 0 ctx k (c.imageAddr blocks (8192 * i + o))
  | none => false

/-- Such walks mark the frames of the bad entries, and are counted (R374, R376). -/
def State.noteTable (s : State) (ctx : Nat) (k : AccKind) (blocks : List Nat) : State :=
  match s.ctx? ctx with
  | some c => (List.range blocks.length).foldl (fun s i => [0, 8191].foldl (fun s o => s.noteWalk false 0 ctx k (c.imageAddr blocks (8192 * i + o)).toNat) s) s
  | none => s

/-- Bytes for the rows, the scratchpad and the lines of a saved team land in its image too (R381); a bad table entry on the way kills the launch
(R358). -/
def State.syncImage (s : State) (t : TeamRef) : State :=
  match s.team? t, s.launch? t.lid with
  | some k, some l =>
    if k.st != .saved then s
    else match s.ctx? l.ctx with
      | some c =>
        let o := l.imageRows
        let body := s.imageBody t l k
        let new := (body.zip ((k.image.drop o).take body.length)).zipIdx.filter fun p => p.1.1 != p.1.2
        if !new.isEmpty && s.imageTable l.ctx .store k.imgBlocks then (s.noteTable l.ctx .store k.imgBlocks).killLaunch t.lid 0x0E 0 0 else
        let s := new.foldl (fun s p => (s.writeVA l.ctx (c.imageAddr k.imgBlocks (o + p.2)) [p.1.1]).getD s) s
        s.modTeam t fun k => { k with image := k.image.take o ++ body ++ k.image.drop (o + body.length) }
      | none => s
  | _, _ => s

/-- The images of all saved teams. -/
def State.syncImages (s : State) : State := (s.teams.filter fun e => e.2.st == .saved).foldl (fun s e => s.syncImage e.1) s

/-- A store to the scratchpad of a saved team. -/
def State.syncLoc (s : State) : Loc → State
  | .spad t _ => s.syncImage t
  | _ => s

/-! ### An image that software has written is restored as it stands (R382) -/

/-- The bytes of an image as memory holds them. -/
def State.imageNow (s : State) (ctx : Nat) (k : Team) : List Byte :=
  match s.ctx? ctx with
  | some c => k.image.zipIdx.map fun p => match s.translate false 0 ctx .load (c.imageAddr k.imgBlocks p.2).toNat with
    | .ok pa false _ _ => s.byte pa
    | _ => p.1
  | none => k.image

/-- Memory holds the image as the part wrote it. -/
def State.imageStands (s : State) (t : TeamRef) : Bool :=
  match s.team? t, s.launch? t.lid with
  | some k, some l => s.imageNow l.ctx k == k.image
  | _, _ => true

/-- An image as the part wrote it, and as it stands. -/
structure Images where
  old : List Byte
  new : List Byte
  deriving DecidableEq, Repr

/-- A field of `n` bytes at an offset: what software wrote, or the value it had. -/
def Images.field {α : Type} (m : Images) (o n : Nat) (f : Nat → α) (a : α) : α :=
  let b := (m.new.drop o).take n
  if b == (m.old.drop o).take n then a else f (leNat b)

/-- A list of fields of `n` bytes each. -/
def Images.fields {α : Type} (m : Images) (o n : Nat) (f : Nat → α) (as : List α) : List α := as.zipIdx.map fun p => m.field (o + n * p.2) n f p.1

/-- Software has written over some bytes. -/
def Images.changed (m : Images) (o n : Nat) : Bool := (m.new.drop o).take n != (m.old.drop o).take n
/-- A number of `n` bytes as it stands. -/
def Images.num (m : Images) (o n : Nat) : Nat := leNat ((m.new.drop o).take n)

/-- A path that only an image names. -/
def Path.fresh (pid : Nat) : Path :=
  { pid := pid, pc := 0, mask := 0, age := 0, srec := none, hdr := 0, cls := 0, count := 0, inClause := false, waits := 0, park := .none, since := 0,
    yielded := none, owed := [], parkOff := 0 }

/-- A PC slot of a wave section, at `o`, with its clause, at `q`: a slot whose mask is zero holds no path. -/
def Images.slot (m : Images) (o q : Nat) (recs : List SplitRec) (pid : Nat) (old : Option Path) : Option Path :=
  let p := old.getD (Path.fresh pid)
  let mask := m.field (o + 4) 4 (BitVec.ofNat 32) p.mask
  if mask == 0 then none
  else some { p with
    pc := m.field o 4 id p.pc, mask := mask, age := m.field (o + 8) 4 id p.age,
    srec := m.field (o + 12) 4 (fun i => recs.reverse[i]?.map (·.rid)) p.srec,
    hdr := m.field q 4 id p.hdr, inClause := m.field (q + 4) 2 (· != 0) p.inClause }

/-- The unfinished lanes of the memory instruction that a path waits on, as an image gives them: a lane that it does not name is not replayed, and one that it
names anew is, with the operands that the instruction read (R195). -/
def Pend.keepLanes (p : Pend) (pid : Nat) (m : W32) : Pend :=
  match p.kind with
  | .mem r todo parts left =>
    let now := r.lanes.filter fun q => m.getLsbD q.lane
    if r.pid == pid then { p with kind := .mem r now (parts.filter fun x => todo.any (·.lane == x.lane) || !(now.any (·.lane == x.lane))) left } else p
  | _ => p
/-- The lane mask of a slot, at `o`. -/
def Images.lanes (m : Images) (o : Nat) (old : Option Path) (ps : List Pend) : List Pend :=
  match old with
  | some p => if m.changed o 4 then ps.map fun x => x.keepLanes p.pid (BitVec.ofNat 32 (m.num o 4)) else ps
  | none => ps

/-- The entries of a berm of some depth: those at the bottom of the block, records first (R22); an image that names more entries than stood there
brings no more of them (DESIGN CHOICE, log entry 69). -/
def Wave.bermOf (v : Wave) (depth : Nat) : Wave :=
  { v with recs := v.recs.drop (v.recs.length - depth), spilled := v.spilled.drop (v.spilled.length - (depth - v.recs.length)) }

/-- The switch wait of a wave whose image software has written: that of the paths in its slots, of either slot where they differ, since the wait is the wave's (R192; DESIGN CHOICE,
log entry 69). -/
def Images.switchWait (m : Images) (o : Nat) (slot0 slot1 : Option Path) (old : Bool) : Bool :=
  if slot0.isNone && slot1.isNone then old
  else (slot0.isSome && m.num (o + 758) 2 != 0) || (slot1.isSome && m.num (o + 766) 2 != 0)
/-- A wave: its section at `o`, its rows at `r`, its poison map at `x`. -/
def Images.wave (m : Images) (o r x : Nat) (v₀ : Wave) : Wave :=
  let word := BitVec.ofNat 64
  let v := v₀.bermOf (m.field (o + 588) 4 id v₀.bermDepth)
  let slot0 := m.slot (o + 544) (o + 752) v.recs v.nextId v.slot0
  let slot1 := m.slot (o + 560) (o + 760) v.recs (v.nextId + 1) v.slot1
  { v with
    sregs := m.fields o 8 word v.sregs, masks := m.fields (o + 512) 4 (BitVec.ofNat 32) v.masks,
    slot0 := slot0, slot1 := slot1,
    nextId := v.nextId + 2, pend := m.lanes (o + 832) v.slot0 (m.lanes (o + 836) v.slot1 v.pend),
    switchWait := m.switchWait o slot0 slot1 v.switchWait, lc := m.fields (o + 576) 4 (BitVec.ofNat 32) v.lc,
    loops := v.loops.zipIdx.map fun p =>
      let q := o + 592 + 16 * p.2
      { start := m.field q 4 id p.1.start, last := m.field (q + 4) 4 id p.1.last, active := m.field (q + 8) 8 (·.testBit 63) p.1.active,
        order := m.field (q + 8) 8 (· % 2 ^ 63) p.1.order },
    leave := v.leave.zipIdx.map fun p =>
      let q := o + 640 + 8 * p.2
      { first := m.field q 2 id p.1.first, count := m.field (q + 2) 2 id p.1.count, mask := m.field (q + 4) 4 (BitVec.ofNat 32) p.1.mask },
    elog := m.fields (o + 672) 8 word v.elog, fstat := m.field (o + 704) 8 (BitVec.ofNat 32) v.fstat, wstat := m.field (o + 712) 8 word v.wstat,
    icount := m.field (o + 720) 8 word v.icount, cycle := m.field (o + 728) 8 word v.cycle, lskip := m.field (o + 736) 8 word v.lskip,
    ctr := m.fields (o + 744) 1 id v.ctr,
    vregs := v.vregs.zipIdx.map fun p =>
      { lanes := m.fields (r + 256 * p.2) 8 word p.1.lanes, poison := m.field (x + 8 * p.2) 8 word p.1.poison } }

/-- The arrivals of a team at one barrier, as an image gives them: those named that it had, and the others with the clocks of their waves. -/
def Team.setArrived (k : Team) (cohort : Bool) (n : Nat) (mask : W32) (clk : Nat → Nat) (op : Nat) : Team :=
  let old := (k.bars.filter fun b => b.cohort == cohort && b.n == n).flatMap (·.arrived)
  let keep := old.filter fun a => mask.getLsbD a.1
  let more := ((List.range 16).filter fun i => mask.getLsbD i && !(old.any fun a => a.1 == i)).map fun i => (i, clk i, op)
  let b : BarState := { cohort := cohort, n := n, lanes := (k.bars.filter fun b => b.cohort == cohort && b.n == n).flatMap (·.lanes), arrived := keep ++ more }
  { k with bars := k.bars.filter (fun b => !(b.cohort == cohort && b.n == n)) ++ (if b.arrived.isEmpty && b.lanes.isEmpty then [] else [b]) }

/-- The barrier arrivals of an image: waves at team barriers, the whole team at cohort barriers. -/
def Images.bars (m : Images) (live : W32) (clk : Nat → Nat) (op : Nat) (k : Team) : Team :=
  let k := (List.range 16).foldl (fun (k : Team) n =>
    if m.changed (96 + 2 * n) 2 then k.setArrived false n (BitVec.ofNat 32 (m.num (96 + 2 * n) 2)) clk op else k) k
  if m.changed 93 2 then
    (List.range 16).foldl (fun (k : Team) n => if (leNat ((m.old.drop 93).take 2)).testBit n == (m.num 93 2).testBit n then k
      else k.setArrived true n (if (m.num 93 2).testBit n then live else 0) clk op) k
  else k

/-- The escrow slot as the header names it: span, slot and count; stores acknowledged since the halt are off the count (R382,
R384; DESIGN CHOICE, log entry 69: the count in memory is that of the halt). -/
def Images.escrow (m : Images) (k : Team) : Option Escrow :=
  if !m.changed 56 11 then k.escrow
  else
    let was := match k.haltEsc with | some e => e.count | none => 0
    let left := match k.escrow with | some e => e.count | none => 0
    let n := m.num 56 8 - (was - left)
    if n = 0 then none else some { span := m.num 66 1 % 4, slot := m.num 64 2, count := n }

/-- A team: its escrow slot, the time of its halt, its rank and taken tickets, its scratchpad of `p` bytes at `o` with its line state. The part
knows the launch, the team and the length of the image by its own record, so that LAUNCHID, TEAMID and IMGBYTES of the header are not looked at
(DESIGN CHOICE, log entry 69). -/
def Images.team (m : Images) (o p : Nat) (k : Team) : Team :=
  let line := fun i : Nat => m.field (o + p + i) 1 id ((if k.absent.contains i then 0 else 128) + (tget i k.counts).getD 0 % 16)
  let lines := List.range (p / 128)
  { k with
    escrow := m.escrow k, haltTime := m.field 80 8 id k.haltTime, rank := m.field 92 1 id k.rank, taken := m.field 95 1 (BitVec.ofNat 8) k.taken,
    spad := (List.range p).foldl (fun sp i => mwrite i (m.field (o + i) 1 (BitVec.ofNat 8) (mread i sp)) sp) k.spad,
    absent := lines.filter fun i => line i < 128,
    counts := lines.foldl (fun c i => if line i % 16 = 0 then tdel i c else tput i (line i % 16) c) k.counts }

end Sys2Proof.Machine
end

