-- ==== Sys2Proof/Machine/CopyEngine.lean ====
section
/-! DEFINITION. The copy engine: acceptance of a copy, the bytes it moves, arrivals and completion (R145 to R154, R99 to R106, R321). -/

namespace Sys2Proof.Machine

/-! ### Templates (R147, R149) -/

/-- A copy template from its 512 bits. -/
def Template.ofNat (n : Nat) : Template :=
  { tlctx := recField n 459 456, prod := recField n 455 453, sten := n.testBit 452, dkind := recField n 451 450,
    pdim := recField n 449 448, stage := recField n 447 416, idxcount := recField n 415 384, dpitch := sx 32 (recField n 383 352),
    rows := recField n 351 336, cols := recField n 335 320, idxaddr := BitVec.ofNat 64 (recField n 319 256),
    dest := BitVec.ofNat 64 (recField n 255 192), coord := (List.range 4).map fun d => bits n (64 + 32 * d) 32,
    srcrec := BitVec.ofNat 64 (bits n 0 64) }

/-- A template that R147 or the zero fields of DEST refuse. -/
def Template.bad (n : Nat) (t : Template) : Bool :=
  let d := t.dest.toNat
  n / 2 ^ 460 != 0 || t.dkind == 3 || t.rows == 0 || t.cols == 0 ||
  (t.dkind == 0 && d / 2 ^ 32 != 0) || (t.dkind == 2 && (d / 2 ^ 48 != 0 || bits d 16 16 != 0 || bits d 7 1 != 0))

/-- TEAM, WAVE and REG of a register-row destination. -/
def Template.target (t : Template) (lid : Nat) : WaveRef × Nat :=
  (⟨lid, bits t.dest.toNat 32 16, bits t.dest.toNat 8 8⟩, bits t.dest.toNat 0 7)

/-! ### Places and pieces (R148 to R151) -/

/-- Bytes of a row as it is moved. -/
def Copy.rowBytes (c : Copy) : Nat :=
  if packed4 c.trec.fmt then (c.tmpl.cols + 1) / 2 else c.tmpl.cols * elemBytes c.trec.fmt

/-- Where a byte of a copy lands. -/
inductive Place where
  | spad (t : TeamRef) (off : Nat)
  | nowhere
  | virt (a : Word)
  | reg (row byte : Nat)
  deriving DecidableEq, Repr

/-- The scratchpad byte that an offset names, whether or not its team still has a scratchpad (R96). -/
def State.spadName (s : State) (t : TeamRef) (o : Nat) : Place :=
  match s.launch? t.lid, s.team? t with
  | some l, some me =>
    let p := l.hdr.spadP
    if p = 0 then .nowhere
    else if l.hdr.cohort = 0 || o / 2 ^ 31 % 2 = 0 then .spad t (o % 2 ^ 17 % p)
    else
      let u : TeamRef := ⟨t.lid, me.cohort * l.hdr.cohort + o / 2 ^ 23 % 256 % l.hdr.cohort⟩
      if (s.team? u).isSome then .spad u (o % 2 ^ 17 % p) else .nowhere
  | _, _ => .nowhere

/-- The places of a row's bytes (R149); a byte of a scratchpad row wraps within OFFSET (R96). A register row is written whole, zero beyond the copied bytes. -/
def Copy.places (c : Copy) (s : State) (row : Nat) : List Place :=
  let shift : Int := if c.tmpl.pdim = 0 then 0 else c.param * c.tmpl.dpitch
  let at' := fun j : Nat => (c.tmpl.dest.toNat : Int) + shift + (row : Int) * c.tmpl.dpitch + (j : Int)
  match c.tmpl.dkind with
  | 0 => (List.range c.rowBytes).map fun j =>
      let o := (at' 0 % (2 ^ 32 : Nat)).toNat
      s.spadName c.w.teamRef (o / 2 ^ 17 * 2 ^ 17 + (o + j) % 2 ^ 17)
  | 1 => (List.range c.rowBytes).map fun j => .virt (BitVec.ofInt 64 (at' j))
  | _ => (List.range 256).map fun j => .reg row j

/-- The destination line or register row that a place lies in. -/
def Place.key : Place → Option TeamRef × Nat
  | .spad t o => (some t, o / 128)
  | .nowhere => (none, 0)
  | .virt a => (none, a.toNat / 128)
  | .reg row _ => (none, row)

/-- The destination lines or rows of a copy, in the order in which it reaches them. -/
def Copy.keys (c : Copy) (s : State) : List (Option TeamRef × Nat) :=
  (List.range c.tmpl.rows).foldl (fun ks r => (c.places s r).foldl (fun ks p => if ks.contains p.key then ks else ks ++ [p.key]) ks) []

/-! ### Source bytes (R148) -/

/-- Chain two reads. -/
def EngRead.bind (r : EngRead) (f : List (Byte × Bool) → EngRead) : EngRead := match r with | .ok bs => f bs | o => o

/-- The source row of a destination row: by the index list, or the row itself; none for a row past the list. -/
def State.copySource (s : State) (c : Copy) (row : Nat) (f : Option Nat → EngRead) : EngRead :=
  if c.tmpl.idxcount = 0 then f (some row)
  else if c.tmpl.idxcount ≤ row then f none
  else (s.engVirtual c.cluster c.ctx (c.tmpl.idxaddr + BitVec.ofNat 64 (4 * row)) 4).bind fun bs =>
    if bs.any (·.2) then .kill 0x0E (c.tmpl.idxaddr + BitVec.ofNat 64 (4 * row)) else f (some (leNat (bs.map (·.1))))

/-- The coordinates of an element of a source row, exact (R148). -/
def Copy.coords (c : Copy) (r e : Nat) : List Int :=
  let base := c.tmpl.coord.zipIdx.map fun (p : Nat × Nat) => (p.1 : Int) + (if p.2 = c.tmpl.pdim then c.param else 0)
  let rc := c.trec.rowCoords r
  [base.getD 0 0 + e, base.getD 1 0 + rc.getD 0 0, base.getD 2 0 + rc.getD 1 0, base.getD 3 0 + rc.getD 2 0]

/-- The bits of one element, in its bytes; for a packed format, in the low half of one byte. -/
def State.copyElem (s : State) (c : Copy) (srow : Option Nat) (e : Nat) : EngRead :=
  let n := elemBytes c.trec.fmt
  let zero := EngRead.ok (List.replicate n (0, false))
  match srow with
  | none => zero
  | some r =>
    match c.trec.elemAddr (c.coords r e) with
    | none => zero
    | some a =>
      (s.engVirtual c.cluster c.ctx a n).bind fun bs =>
        if packed4 c.trec.fmt then
          .ok (bs.map fun (b : Byte × Bool) => ((if (c.coords r e).getD 0 0 % 2 = 0 then b.1 &&& 0x0F#8 else b.1 >>> (4 : Nat) : Byte), b.2))
        else .ok bs

/-- Errors that last, in what a copy reads for a row, mark their frames and are counted (R374, R376). -/
def State.noteCopyRow (s : State) (c : Copy) (row : Nat) : State :=
  let list := c.tmpl.idxaddr + BitVec.ofNat 64 (4 * row)
  let s := if c.tmpl.idxcount ≤ row then s else s.noteVA false c.cluster c.ctx .load list 4
  let srow := if c.tmpl.idxcount = 0 then some row
    else if c.tmpl.idxcount ≤ row then none
    else match s.engVirtual c.cluster c.ctx list 4 with | .ok bs => if bs.any (·.2) then none else some (leNat (bs.map (·.1))) | _ => none
  match srow with
  | none => s
  | some r => (List.range c.tmpl.cols).foldl (fun s e => match c.trec.elemAddr (c.coords r e) with
      | some a => s.noteVA false c.cluster c.ctx .load a (elemBytes c.trec.fmt)
      | none => s) s

/-- The bytes of a row as they arrive. -/
def State.copyRow (s : State) (c : Copy) (row : Nat) : EngRead :=
  s.copySource c row fun srow =>
    let es := (List.range c.tmpl.cols).foldl (fun (acc : EngRead) e => acc.bind fun bs => (s.copyElem c srow e).bind fun b => .ok (bs ++ b)) (.ok [])
    es.bind fun bs =>
      let bs := if packed4 c.trec.fmt then
          (List.range c.rowBytes).map fun j =>
            let lo := bs.getD (2 * j) (0, false)
            let hi := bs.getD (2 * j + 1) (0, false)
            ((lo.1 ||| hi.1 <<< (4 : Nat) : Byte), lo.2 || hi.2)
        else bs
      .ok (if c.tmpl.dkind = 2 then bs ++ List.replicate (256 - bs.length) (0, false) else bs)

/-! ### Writing -/

/-- A byte on its way to a location. -/
structure Landing where
  loc : Loc
  byte : Byte
  bad : Bool
  deriving DecidableEq, Repr

/-- Runs of bytes at consecutive locations. -/
def runs (ls : List Landing) : List (Loc × List Byte) :=
  ls.foldl (fun (rs : List (Loc × List Byte)) b => match rs.reverse with
    | (l, bs) :: rest => if l.plus bs.length == b.loc then (((l, bs ++ [b.byte]) :: rest)).reverse else rs ++ [(b.loc, [b.byte])]
    | [] => [(b.loc, [b.byte])]) []

/-- Poison that a copy carries: per 32 bytes of device memory, per doubleword of a scratchpad (R375). -/
def State.landPoison (s : State) (l : Loc) : State :=
  match l with
  | .home a => { s with mempoison := sins (a / 32) s.mempoison }
  | .spad t o => s.modTeam t fun k => { k with spoison := sunion [o / 8 * 2, o / 8 * 2 + 1] k.spoison }
  | _ => s

/-- Bytes land: whole runs first, then the poison of those that carry it. A run of 8 aligned bytes in the queue window is a tail write. -/
def State.land (s : State) (ls : List Landing) : State :=
  let s := (runs ls).foldl (fun s r => if s.isWindow r.1 then s.writeWindow r.1 r.2 else s.writeLoc r.1 r.2) s
  ls.foldl (fun s b => if b.bad then s.landPoison b.loc else s) s

/-- Bytes of a register row land in the lanes of a running wave that have not exited (R37, R150). -/
def State.landRow (s : State) (w : WaveRef) (reg : Nat) (bs : List (Byte × Bool)) : State :=
  s.modWave w fun v =>
    if v.ended then v
    else v.applyWrite (.v reg ((List.range 32).map fun l =>
      let b := (bs.drop (8 * l)).take 8
      (l, BitVec.ofNat 64 (leNat (b.map (·.1))), (if (b.take 4).any (·.2) then 1 else 0) + (if (b.drop 4).any (·.2) then 2 else 0))))

/-! ### The end of a copy (R151, R152, R321) -/

/-- COPY packets whose numbers the timeline holds complete, in the order of their numbers, which is that of acceptance (R321). -/
def State.settleCopies : Nat → State → Nat → Nat → State
  | 0, s, _, _ => s
  | n + 1, s, ctx, tl =>
    let value := match s.ctx? ctx with | some k => (k.copyTl.getD tl Timeline.zero).value | none => 0
    let ready := s.copies.filter fun c => c.packet.isSome && c.accepted && c.ctx == ctx && c.tl == tl && c.pieces.isEmpty && Nat.ble c.num value
    match ready.find? fun c => ready.all fun o => Nat.ble c.num o.num with
    | some c =>
      let s := { s with copies := s.copies.filter (·.cid ≠ c.cid) }
      State.settleCopies n (s.completePacket (c.packet.getD 0) (Report.of c.status)) ctx tl
    | none => s

/-- A copy is finished: its number, its wave's CP counter, or its packet. -/
def State.finishCopy (s : State) (c : Copy) : State :=
  match c.lid with
  | some lid =>
    let s := { s with copies := s.copies.filter (·.cid ≠ c.cid) }
    let s := s.modLaunch lid fun l => { l with timelines := setAt l.timelines c.tl ((l.timelines.getD c.tl Timeline.zero).finish c.num) }
    (s.modWave c.w fun v => v.endPend c.op).wakeMemory
  | none =>
    let s := s.modCtx c.ctx fun k => { k with copyTl := setAt k.copyTl c.tl ((k.copyTl.getD c.tl Timeline.zero).finish c.num) }
    State.settleCopies s.copies.length s c.ctx c.tl

/-- A copy fails: its launch is killed, with the `cpy` as OFFSET; a COPY packet completes with the status, and its number counts as finished. -/
def State.copyFail (s : State) (c : Copy) (status : Nat) : State :=
  match c.lid with
  | some lid => s.killLaunch lid status c.off 0
  | none =>
    let c := { c with accepted := true, stall := none, pieces := [], status := status }
    (s.modCopy c.cid fun _ => c).finishCopy c

/-- A page fault stalls the copy (R152, R364): UNIT 2, the channel in LANES. -/
def State.copyStall (s : State) (c : Copy) (va : Word) (cause level : Nat) (wr : Bool) : State :=
  let f := s.enterFault va (c.lid.getD 0) (c.chan % 8) 0 c.ctx 2 cause wr level (.copy c.cid)
  f.2.modCopy c.cid fun c => { c with stall := some f.1 }

/-! ### Acceptance (R99, R145, R146, R295) -/

/-- A destination that R149 refuses with COPY_TARGET. -/
def State.badTarget (s : State) (c : Copy) : Bool :=
  c.tmpl.dkind == 2 &&
  (256 < c.rowBytes ||
   (match c.lid.bind s.launch? with
    | some l =>
      let g := c.tmpl.target 0
      l.nteams ≤ g.1.team || l.hdr.waves ≤ g.1.wave || l.hdr.alloc < g.2 + c.tmpl.rows
    | none => true))

/-- Count a copy against a destination line and clear its presence, when it has room (R99). True when it is counted. -/
def State.countLine (s : State) (k : Option TeamRef × Nat) : Bool × State :=
  match k.1 with
  | none => (true, s)
  | some t =>
    match s.team? t with
    | some q =>
      if !q.alive then (true, s)
      else
        let n := (tget k.2 q.counts).getD 0
        if n < 15 then (true, s.modTeam t fun q => { q with counts := tput k.2 (n + 1) q.counts, absent := sins k.2 q.absent })
        else (false, s)
    | none => (true, s)

/-- Count those of several pieces whose lines have room; the others come back. -/
def State.countPieces (s : State) (c : Copy) (ps : List Nat) : List Nat × State :=
  let ks := c.keys s
  if c.tmpl.dkind = 0 then
    ps.foldl (fun a i => let r := a.2.countLine (ks.getD i (none, 0)); (if r.1 then a.1 else a.1 ++ [i], r.2)) ([], s)
  else ([], s)

/-- A channel accepts a copy: it takes the next number of its timeline (R151; a COPY packet has taken its number when the front end accepted it,
R321), and its destination lines are counted. -/
def State.numberCopy (s : State) (c : Copy) : State :=
  let old := s.timeline (c.lid.getD 0) c.tmpl.tlctx
  let s := match c.lid with
    | some lid => s.modLaunch lid fun l => { l with timelines := setAt l.timelines c.tmpl.tlctx old.issue.2 }
    | none => s
  let ps := List.range (c.keys s).length
  let r := s.countPieces c ps
  let c := { c with accepted := true, stall := none, num := if c.lid.isSome then old.issue.1 else c.num,
                    tl := if c.lid.isSome then c.tmpl.tlctx else c.tl, pieces := ps, uncounted := r.1 }
  { r.2 with copies := r.2.copies.filter (·.cid ≠ c.cid) ++ [c] }

/-- The template's address: in the launch's table, or in the COPY packet. -/
def State.templateAddr (s : State) (c : Copy) : Word :=
  match c.lid.bind s.launch?, c.packet.bind s.packet? with
  | some l, _ => l.tmplAddr + BitVec.ofNat 64 (64 * c.index)
  | none, some p => p.body.extractLsb' 192 64
  | none, none => 0

/-- Accept a copy: its template, its record and its destination are checked in this order (R295, R321). A template whose address is no multiple of 64, that of a COPY
packet too, is read as its bytes lie: R147 asks for the alignment and names no outcome among those of its fields (DESIGN CHOICE, log entry 37). -/
def State.acceptCopy (s : State) (c : Copy) : State :=
  let past := match c.lid.bind s.launch? with | some l => decide (l.ntempl ≤ c.index) | none => false
  if past then s.copyFail c 0x13
  else
    match s.readVA false c.cluster c.ctx .load (s.templateAddr c) 64 with
    | .bad => s.copyFail c 0x0B
    | .refused => s.copyFail c 0x0D
    | .poison => (s.noteVA false c.cluster c.ctx .load (s.templateAddr c) 64).copyFail c 0x0E
    | .fault va ca lv => s.copyStall c (BitVec.ofNat 64 va) ca lv false
    | .ok bs =>
      let t := Template.ofNat (leNat bs)
      if t.bad (leNat bs) || (c.packet.isSome && (t.dkind != 1 || t.sten)) then s.copyFail c 0x13
      else if badVA t.srcrec then s.copyFail c 0x0B
      else if t.srcrec.toNat % 64 != 0 then s.copyFail c 0x15
      else
        match s.readVA false c.cluster c.ctx .load t.srcrec 64 with
        | .bad => s.copyFail c 0x0B
        | .refused => s.copyFail c 0x0D
        | .poison => (s.noteVA false c.cluster c.ctx .load t.srcrec 64).copyFail c 0x0E
        | .fault va ca lv => s.copyStall c (BitVec.ofNat 64 va) ca lv false
        | .ok rs =>
          let r := TensorRec.ofNat (leNat rs)
          let c := { c with tmpl := t, trec := r }
          if r.bad (leNat rs) t.srcrec then s.copyFail c 0x15
          else if s.badTarget c then s.copyFail c 0x14
          else s.numberCopy c

/-- Copies that a channel has accepted and not finished, in the order of acceptance. -/
def State.channel (s : State) (cluster chan : Nat) : List Copy :=
  s.copies.filter fun c => c.cluster == cluster && c.chan == chan && c.accepted

/-- COPY_ACCEPT: a channel holds at most 32 copies. -/
def execCopyAccept (cid : Nat) (s : State) : Host.Outcome State Fault Refusal :=
  match s.copies.find? (·.cid == cid) with
  | none => .fault (.cannotOccur "COPY_ACCEPT")
  | some c =>
    stepIf "COPY_ACCEPT" (!c.accepted && c.stall.isNone && (c.packet.isSome || (s.channel c.cluster c.chan).length < 32)) s (s.acceptCopy c).syncImages

/-! ### Arrivals -/

/-- The bytes of one piece, with their places, in the order in which the copy writes them. -/
def State.pieceBytes (s : State) (c : Copy) (key : Option TeamRef × Nat) : List Place × EngRead :=
  (List.range c.tmpl.rows).foldl (fun acc r =>
    let ps := c.places s r
    if ps.any fun p => p.key == key then
      (acc.1 ++ ps.filter (fun p => p.key == key),
       acc.2.bind fun bs => (s.copyRow c r).bind fun row => .ok (bs ++ ((ps.zip row).filter fun p => p.1.key == key).map (·.2)))
    else acc) ([], .ok [])

/-- Where a place lies now; a device-memory place is translated for a store. -/
inductive Placed where
  | at (l : Loc)
  | kill (status : Nat)
  | fault (va : Word) (cause level : Nat)
  deriving DecidableEq, Repr

def State.placeAt (s : State) (c : Copy) : Place → Placed
  | .spad t o => .at (match s.team? t with | some k => if k.alive then .spad t o else .void | none => .void)
  | .virt a =>
    if badVA a then .kill 0x0B
    else match s.translate false c.cluster c.ctx .store a.toNat with
      | .fault ca lv => .fault a ca lv
      | .poison => .kill 0x0E
      | .ok pa fab node _ =>
        if fab && !s.fabOk node pa then .kill 0x0D
        else .at (if fab then .node node pa else .home pa)
  | _ => .at .void

/-- One piece has arrived: its line's count falls, presence is set at zero, the stage counts the bytes, the copy may finish (R151). -/
def State.pieceDone (s : State) (c : Copy) (i : Nat) (key : Option TeamRef × Nat) (n : Nat) : State :=
  let s := match c.tmpl.dkind, key.1 with
    | 0, some t => s.modTeam t fun k =>
        if !k.alive then k
        else
          let m := (tget key.2 k.counts).getD 0 - 1
          { k with counts := if m = 0 then tdel key.2 k.counts else tput key.2 m k.counts,
                   absent := if m = 0 then k.absent.filter (· ≠ key.2) else k.absent }
    | _, _ => s
  let s := if c.tmpl.sten then
      match s.stageLoc c.w.teamRef c.tmpl.stage with
      | .spad t off => s.modTeam t fun k =>
          let q := k.stageSlot off c.tmpl.prod
          { k.putSlot off c.tmpl.prod { q with delivered := (q.delivered + n) % 2 ^ 32 } with stages := sins off k.stages }
      | _ => s
    else s
  let c := { c with pieces := c.pieces.filter (· ≠ i) }
  let s := s.modCopy c.cid fun _ => c
  if c.pieces.isEmpty then s.finishCopy c else s.wakeMemory

/-- Errors that last, in what a copy reads for one piece and in the table entries of its places. -/
def State.notePiece (s : State) (c : Copy) (key : Option TeamRef × Nat) (ps : List Place) : State :=
  if s.lasting.isEmpty then s
  else
    let s := (List.range c.tmpl.rows).foldl (fun s r => if (c.places s r).any fun p => p.key == key then s.noteCopyRow c r else s) s
    ps.foldl (fun s p => match p with
      | .virt a => if badVA a then s else s.noteWalk false c.cluster c.ctx .store a.toNat
      | _ => s) s

/-- COPY_ARRIVAL: the bytes of a line or row are read at the source and written; a page fault stalls the copy, another fault ends it. A stalled copy
keeps its place among the four that run on its channel (R145 does not say; DESIGN CHOICE, log entry 69). -/
def execCopyArrival (cid : Nat) (piece : Nat) (s : State) : Host.Outcome State Fault Refusal :=
  match s.copies.find? (·.cid == cid) with
  | none => .fault (.cannotOccur "COPY_ARRIVAL")
  | some c =>
    let key := (c.keys s).getD piece (none, 0)
    let runs := c.packet.isSome || ((s.channel c.cluster c.chan).take 4).any fun k => k.cid == cid
    if !(c.accepted && c.stall.isNone && runs && c.pieces.contains piece && !c.uncounted.contains piece) then
      .fault (.cannotOccur "COPY_ARRIVAL")
    else
      let r := s.pieceBytes c key
      let places := r.1.map (s.placeAt c)
      let s0 := s
      let s := s.notePiece c key r.1
      let bad := places.findSome? fun p => match p with
        | .at _ => none
        | .kill st => some (s.copyFail c st)
        | .fault va ca lv => some (s.copyStall c va ca lv true)
      match r.2, bad with
      | .kill st _, _ => done s0 (s.copyFail c st)
      | .fault va ca lv, _ => done s0 (s.copyStall c va ca lv false)
      | .wait, _ => .fault (.cannotOccur "COPY_ARRIVAL")
      | .ok _, some t => done s0 t
      | .ok bs, none =>
        let s' := if c.tmpl.dkind = 2 then
            let g := c.tmpl.target (c.lid.getD 0)
            s.landRow g.1 (g.2 + key.2) bs
          else s.land ((places.zip bs).filterMap fun p => match p.1 with
            | .at .void => none
            | .at l => some { loc := l, byte := p.2.1, bad := p.2.2 }
            | _ => none)
        done s0 (s'.pieceDone c piece key bs.length).syncImages

/-- Lines of a copy that found no room are counted once they have it (R99). -/
def State.copyCount (s : State) (c : Copy) : State :=
  let r := s.countPieces c c.uncounted
  (r.2.modCopy c.cid fun c => { c with uncounted := r.1 }).syncImages

end Sys2Proof.Machine
end

