-- ==== Sys2Proof/Machine/Control.lean ====
section
/-! DEFINITION. The meanings of the control-flow instructions: branches, splits and joins, calls, counted loops, exit, barriers, tickets,
`wait` (R19 to R33, R213 to R221). -/

namespace Sys2Proof.Machine

/-- A branch: to its target, or on to the next word (R214). -/
def branch (x : Bool) (i : Instr) (s : State) (o : BitVec 20) (taken : Site → Bool) : Host.Outcome State Fault Refusal :=
  issue x i s fun k u => if taken k then (u.jump k (k.p.target o.toInt), false) else (u, true)

/-- `jmp` (R214). -/
def execJmp (x : Bool) (o : BitVec 20) (s : State) : Host.Outcome State Fault Refusal :=
  branch x (.jmp x o) s o fun _ => true

/-- `bany` (R214). -/
def execBany (x : Bool) (k : BitVec 3) (o : BitVec 20) (s : State) : Host.Outcome State Fault Refusal :=
  branch x (.bany x k o) s o fun q => q.p.mask &&& q.v.mask k.toNat != 0

/-- `ball` (R214). -/
def execBall (x : Bool) (k : BitVec 3) (o : BitVec 20) (s : State) : Host.Outcome State Fault Refusal :=
  branch x (.ball x k o) s o fun q => q.p.mask &&& ~~~(q.v.mask k.toNat) == 0

/-- `bnone` (R214). -/
def execBnone (x : Bool) (k : BitVec 3) (o : BitVec 20) (s : State) : Host.Outcome State Fault Refusal :=
  branch x (.bnone x k o) s o fun q => q.p.mask &&& q.v.mask k.toNat == 0

/-- Divide the issuing path: the lanes that stay keep it, the others follow a new path at the target, in a free slot or on the berm (R20). -/
def Wave.divide (v : Wave) (k : Site) (take stay : W32) (target : Nat) : Wave :=
  let rid := v.nextId
  let new : Path := { pid := v.nextId + 1, pc := target, mask := take, age := 0, srec := some rid, hdr := 0, cls := 0, count := 0,
                      inClause := false, waits := 0, park := .none, since := 0, yielded := none, owed := [], parkOff := 0 }
  let r : SplitRec := { rid := rid, parent := k.p.srec, pending := 2, merged := 0, resume := 0, hdr := 0, cls := 0, count := 0 }
  let v := Wave.modPath { v with nextId := v.nextId + 2, recs := r :: v.recs } k.pid fun p => { p with mask := stay, srec := some rid }
  match v.slot0, v.slot1 with
  | none, _ => { v with slot0 := some new }
  | _, none => { v with slot1 := some new }
  | _, _ => { v with spilled := new :: v.spilled }

/-- Berm entries that a divided `split` needs: a record, and a spilled path when no slot is free (R22). -/
def Wave.splitNeeds (v : Wave) : Nat := if v.slot0.isSome && v.slot1.isSome then 2 else 1

/-- `split` (R20, R22). -/
def execSplit (x : Bool) (k : BitVec 3) (o : BitVec 20) (s : State) : Host.Outcome State Fault Refusal :=
  issue x (.split x k o) s fun q u =>
    let take := q.p.mask &&& q.v.mask k.toNat
    let stay := q.p.mask &&& ~~~(q.v.mask k.toNat)
    let target := q.p.target o.toInt
    if take == 0 then (u, true)
    else if stay == 0 then (u.jump q target, false)
    else if 512 < q.v.bermDepth + q.v.splitNeeds then (u.killHere q 0x10, false)
    else (u.modWave q.w fun v => v.divide q take stay target, true)

/-- `join`: at a split record the path ends or merges; without one it ends as `exit` ends its lanes (R21). -/
def execJoin (x : Bool) (s : State) : Host.Outcome State Fault Refusal :=
  issue x (.join x) s fun k u =>
    match k.p.srec with
    | none => (u.exitLanes k, true)
    | some _ => (match u.wave? k.w with
        | some v => (u.setBerm k.w v (Wave.joinPath 513 v k.pid k.p.mask
            (some { next := k.p.pc + 4, hdr := k.p.hdr, cls := k.p.cls, count := k.p.count }))).settleLoopBuf k.w
        | none => u, true)

/-- `call` (R215). -/
def execCall (x : Bool) (d : BitVec 6) (o : BitVec 18) (s : State) : Host.Outcome State Fault Refusal :=
  issue x (.call x d o) s fun k u =>
    ((u.modWave k.w fun v => v.setS d.toNat (BitVec.ofNat 64 k.p.fall)).jump k (k.p.target o.toInt), false)

/-- `jind` (R216). -/
def execJind (x : Bool) (a : BitVec 6) (s : State) : Host.Outcome State Fault Refusal :=
  issue x (.jind x a) s fun k u =>
    let t := (k.s a).toNat
    if t % 4 != 0 || t < 64 || 64 + k.l.hdr.codelen ≤ t then (u.killHere k 0x09, false) else (u.jump k t, false)

/-- A buffer for the body of a loop record, of at most 256 words (R196); where there is none, one that is released in this cycle will do (R198). -/
def State.takeLoopBuf (s : State) (k : Site) (n start last size : Nat) : State :=
  if 1024 < size then s
  else match s.bufFor (s.coreOf k.w.teamRef) k.w.lid start last with
    | some b => s.useBuf k.w n start last b
    | none => { s with loopWants := s.loopWants ++ [{ w := k.w, n := n, start := start, last := last }] }

/-- A path whose `loop` found a zero counter at its issue passes over the body once the last clause's header is read; a page fault parks it, with the offset
of the `loop` (R195, R217, R364, R365). -/
def State.skipBody (s : State) (w : WaveRef) (op pid last : Nat) (sw : Bool) : State :=
  match s.launch? w.lid, (s.wave? w).bind fun v => v.pend? op with
  | some l, some o =>
    (match s.fetchWord w l last with
    | .word h =>
      if goodHeader h then
        (s.modWave w fun v => { ((v.endPend op).unpark pid) with switchWait := v.switchWait || sw }).jumpPath w pid (last + 4 + 4 * headerCount h)
      else s.killLaunch w.lid 0x09 last 0
    | .range => s.killLaunch w.lid 0x09 last 0
    | .poison => (s.noteVA true (s.coreOf w.teamRef) l.ctx .fetch (l.kernel + BitVec.ofNat 64 last) 4).killLaunch w.lid 0x0E last 0
    | .refused => s.killLaunch w.lid 0x0D o.off 0
    | .fault va c lv =>
      let mask := match (s.wave? w).bind fun v => v.path? pid with | some p => p.mask.toNat | none => 0
      let f := s.enterFault va w.lid mask o.off l.ctx 1 c false lv (.path w pid (some op))
      f.2.modWave w fun v => v.parkPath pid (.fault f.1) o.off)
  | _, _ => s

/-- `loop`: enter the body, or skip it when the counter is zero, reading the last clause's header (R217, R187). -/
def execLoop (x : Bool) (n : BitVec 2) (o : BitVec 20) (s : State) : Host.Outcome State Fault Refusal :=
  issue x (.loop x n o) s fun k u =>
    let start := k.p.fall
    let last := k.p.target o.toInt
    if k.v.loopc n.toNat == 0 then
      let f := u.post k 9 [] (.skip k.pid last x)
      (f.2.skipBody k.w f.1 k.pid last x, false)
    else
      let u := (u.dropLoopBuf k.w n.toNat).modWave k.w fun v =>
        { v with loops := setAt v.loops n.toNat { start := start, last := last, active := true, order := v.loopOrder },
                 loopOrder := v.loopOrder + 1 }
      let u := match s.fetchWord k.w k.l last with
        | .word w => if goodHeader w then u.takeLoopBuf k n.toNat start last (last + 4 + 4 * headerCount w - start) else u
        | _ => u
      (u.jump k start, false)

/-- `loopx` (R219): inactive, it is a `jmp`; the loop's buffer is released. -/
def execLoopx (x : Bool) (n : BitVec 2) (o : BitVec 20) (s : State) : Host.Outcome State Fault Refusal :=
  issue x (.loopx x n o) s fun k u =>
    let r := k.v.loops.getD n.toNat { start := 0, last := 0, active := false, order := 0 }
    let u := if r.active then
        (u.modWave k.w fun v => { v with loops := setAt v.loops n.toNat { r with active := false } }).dropLoopBuf k.w n.toNat
      else u
    (u.jump k (k.p.target o.toInt), false)

/-- `exit` (R32). -/
def execExit (x : Bool) (s : State) : Host.Outcome State Fault Refusal :=
  issue x (.exit x) s fun k u => (u.exitLanes k, true)

/-- A path arrives at a barrier and parks; the phase completes as a step of its own (R27, R28). -/
def arriveBar (x : Bool) (i : Instr) (s : State) (cohort : Bool) (n : BitVec 4) : Host.Outcome State Fault Refusal :=
  issue x i s fun k u =>
    let u := (u.modWave k.w fun v => v.parkPath k.pid (.bar cohort n.toNat) k.p.pc).modTeam k.w.teamRef
      fun t => t.barLanes cohort n.toNat k.w.wave k.p.mask
    (u.arrivals k.w k.v.lclk, true)

/-- `bar` (R27). -/
def execBar (x : Bool) (n : BitVec 4) (s : State) : Host.Outcome State Fault Refusal := arriveBar x (.bar x n) s false n

/-- `bar.cohort` (R27). -/
def execBarCohort (x : Bool) (n : BitVec 4) (s : State) : Host.Outcome State Fault Refusal := arriveBar x (.barCohort x n) s true n

/-- `tkwait`: a device-scope acquire when the counter equals the team id, else a park; one that nothing releases when the counter is past the
id (R26, R29, R30). -/
def execTkwait (x : Bool) (n : BitVec 3) (s : State) : Host.Outcome State Fault Refusal :=
  issue x (.tkwait x n) s fun k u =>
    if k.l.tickets.getD n.toNat 0 == k.w.team then (u.dropCache (s.coreOf k.w.teamRef), true)
    else (u.modWave k.w fun v => v.parkPath k.pid (.ticket n.toNat (k.w.team < k.l.tickets.getD n.toNat 0)) k.p.pc, true)

/-- `tktake`: the team's first take on the counter, a device-scope release (R30). -/
def execTktake (x : Bool) (n : BitVec 3) (s : State) : Host.Outcome State Fault Refusal :=
  issue x (.tktake x n) s fun k u =>
    if (match s.team? k.w.teamRef with | some t => t.taken.getLsbD n.toNat | none => true) then (u, true)
    else
      let f := u.fresh
      let u := f.2.modTeam k.w.teamRef fun t => { t with taken := t.taken ||| (1#8 <<< n.toNat) }
      ({ u with takes := u.takes ++ [{ k := n.toNat, w := k.w, op := f.1, whole := false }] }, true)

/-- `wait`: the path issues nothing more until the named counters read zero (R221). -/
def execWait (x : Bool) (w : BitVec 8) (s : State) : Host.Outcome State Fault Refusal :=
  issueWave x (.wait x w) s fun k v =>
    v.modPath k.pid fun p => { p with waits := if v.clearOf w.toNat then 0 else w.toNat }

end Sys2Proof.Machine
end

