-- ==== Sys2Proof/Machine/FabricInstr.lean ====
section
/-! DEFINITION. The meanings of the fabric instructions at issue: what they read, and what waits for injection (R176, R177, R180, R301, R302). -/

namespace Sys2Proof.Machine

/-! ### `osend` (R176) -/

/-- A fabric instruction at its issue counts on FB and its results are outstanding, whether it can leave or must wait for a line or a page; then
it starts (R188, R194, R302). -/
def postFab (k : Site) (u : State) (x : Bool) (dests : List Reg) (o : FabOp) : Nat × State := u.post k 5 dests (.fab (.parked o k.pid x) false)

/-- An ordered send: its operands are read at issue, and its payload once no line is absent. -/
def sendOrdered (x : Bool) (i : Instr) (s : State) (d n p : BitVec 6) (len : Nat) (stamp : Site → Option Nat) :
    Host.Outcome State Fault Refusal :=
  issue x i s fun k u =>
    let off := (k.s p).toNat % 2 ^ 32
    let n := (k.s n).toNat
    let f := postFab k u x [sReg d] (.osend d.toNat (bits n 0 16) (bits n 16 16) (bits n 32 8) off len (stamp k))
    (f.2.startSend k.w f.1 k.pid x k.p.pc d.toNat (bits n 0 16) (bits n 16 16) (bits n 32 8) off len (stamp k), true)

/-- `osend` (R176). -/
def execOsend (x : Bool) (d n p : BitVec 6) (len : BitVec 11) (s : State) : Host.Outcome State Fault Refusal :=
  sendOrdered x (.osend x d n p len) s d n p len.toNat fun _ => none

/-- `osend.at` (R176). -/
def execOsendAt (x : Bool) (d n p t : BitVec 6) (len : BitVec 11) (s : State) : Host.Outcome State Fault Refusal :=
  sendOrdered x (.osendAt x d n p t len) s d n p len.toNat fun k => some (k.s t).toNat

/-! ### `oatom` (R177) -/

/-- The path parks on a page fault; the instruction is replayed whole, with the operands that it read at issue (R195, R302). -/
def State.parkReplay (s : State) (w : WaveRef) (op pid pc : Nat) (va : Word) (cause level : Nat) (wr : Bool) : State :=
  let lanes := match (s.wave? w).bind fun v => v.path? pid with | some p => (maskOf ((lanesOf p.mask).take 1)).toNat | none => 0
  let f := s.enterFault va w.lid lanes pc (s.ctxOf w.lid) 0 cause wr level (.path w pid (some op))
  f.2.modWave w fun v => v.parkPath pid (.fault f.1) pc

/-- An ordered atomic starts: the walk; the rest at its home, in key order. -/
def State.startOatom (s : State) (w : WaveRef) (op pid : Nat) (sw : Bool) (pc d st : Nat) (va : Word) (o : BitVec 4) (wide : Bool) (val cmp : Word)
    (stamp : Option Nat) : State :=
  let core := s.coreOf w.teamRef
  match s.translate true core (s.ctxOf w.lid) .atomic va.toNat with
  | .poison => (s.noteWalk true core (s.ctxOf w.lid) .atomic va.toNat).killLaunch w.lid 0x0E pc 0
  | .fault ca lv => s.parkReplay w op pid pc va ca lv true
  | .ok pa fab node _ =>
    if s.noPlace stamp then s.holdSend w op pid (.parked (.oatom d st va o wide val cmp stamp) pid sw)
    else (s.modWave w fun v => v.setFab op ((FabReq.oatom d st (if fab then node else s.fabric.node) pa o wide val cmp stamp).goes s.now stamp)).fabGoes w pid sw

/-- An ordered atomic: address checks at issue, then it starts. -/
def atomicOrdered (x : Bool) (i : Instr) (s : State) (d a b c : BitVec 6) (op : BitVec 4) (wide : Bool) (stamp : Site → Option Nat) :
    Host.Outcome State Fault Refusal :=
  issue x i s fun k u =>
    let va := k.s a
    let w := if wide then 8 else 4
    if badVA va then (u.killHere k 0x0B, false)
    else if va.toNat % w != 0 then (u.killHere k 0x0C, false)
    else
      let cmp := if op == 9 then k.v.sreg (b.toNat + 1) else 0
      let f := postFab k u x [sReg d, sReg c] (.oatom d.toNat c.toNat va op wide (k.s b) cmp (stamp k))
      (f.2.startOatom k.w f.1 k.pid x k.p.pc d.toNat c.toNat va op wide (k.s b) cmp (stamp k), true)

/-- `oatom` (R177). -/
def execOatom (x : Bool) (d a b c : BitVec 6) (op : BitVec 4) (wide : BitVec 1) (s : State) : Host.Outcome State Fault Refusal :=
  atomicOrdered x (.oatom x d a b c op wide) s d a b c op (wide == 1) fun _ => none

/-- `oatom.at` (R177). -/
def execOatomAt (x : Bool) (d a b c t : BitVec 6) (op : BitVec 4) (wide : BitVec 1) (s : State) : Host.Outcome State Fault Refusal :=
  atomicOrdered x (.oatomAt x d a b c t op wide) s d a b c op (wide == 1) fun k => some (k.s t).toNat

/-! ### Invocations (R178 to R181, R184) -/

/-- An invocation record (R179). -/
structure InvRec where
  kernel : Word
  argaddr : Word
  arglen : Nat
  items : Nat
  fmode : W32
  estate : Bool
  malformed : Bool
  deriving DecidableEq, Repr

def InvRec.ofNat (n : Nat) : InvRec :=
  let len := bits n 128 16
  let items := bits n 160 32
  { kernel := BitVec.ofNat 64 (bits n 0 64), argaddr := BitVec.ofNat 64 (bits n 64 64), arglen := len, items := items,
    fmode := BitVec.ofNat 32 (bits n 192 32), estate := n.testBit 224,
    malformed := n / 2 ^ 225 != 0 || bits n 144 16 != 0 || items == 0 || 1024 < len || len % 8 != 0 }

/-- The reads of an invocation: its record, then its argument block. -/
inductive InvRead where
  | ok (r : InvRec) (args : List Byte)
  | stop (r : ReadRes)
  deriving DecidableEq, Repr

/-- Read a record and its argument block by a reader of bytes (R180, R319). -/
def readInvocation (read : Word → Nat → ReadRes) (a : Word) : InvRead :=
  match read a 64 with
  | .ok bs =>
    let r := InvRec.ofNat (leNat bs)
    (match read r.argaddr r.arglen with
      | .ok args => .ok r args
      | o => .stop o)
  | o => .stop o

/-- The request that an invocation leaves for injection, with its handle; handle 0 when there is no slot; a malformed record's handle
is broken at once (R180, R184), with STATUS 0 beside REFUSED, since the refusal at the issuer has no status (DESIGN CHOICE, log entry 69). `parent` is
the handle of `invh`. -/
def State.prepareInvoke (s : State) (d ctx : Nat) (r : InvRec) (args : List Byte) (node tctx : Nat) (parent : Option Word) : FabReq × State :=
  match s.handleSlotFor (s.tenantOfCtx ctx) with
  | none => (.done [.s d 0], s)
  | some (slot, gen) =>
    let t := s.takeHandle slot gen ctx r.estate (parent.getD 0) (if parent.isSome then none else some node)
    if r.malformed then (.done [.s d t.1], t.2.breakHandle slot 4 0)
    else if parent == some 0 then (.done [.s d t.1], t.2.breakHandle slot 3 0)
    else (.invoke d node tctx (parent.getD 0) slot t.1 r.kernel r.items r.fmode r.estate args, t.2)

/-- An invocation starts: the reads park and replay on a page fault, and kill on a bad address or poison, before a slot is taken (R180, R302). A record
whose address is no multiple of 64 is read as its 64 bytes lie (R179 names no outcome; DESIGN CHOICE, log entry 69). -/
def State.startInvoke (s : State) (w : WaveRef) (op pid : Nat) (sw : Bool) (pc d : Nat) (a : Word) (node tctx : Nat) (parent : Option Word) : State :=
  let core := s.coreOf w.teamRef
  let ctx := s.ctxOf w.lid
  let r := readInvocation (s.loadVA w core ctx op) a
  match r with
  | .ok r args =>
    let q := (s.dropRead w op a).prepareInvoke d ctx r args node tctx parent
    (q.2.modWave w fun v => v.setFab op q.1).fabGoes w pid sw
  | .stop (.fault va c lv) => s.parkReplay w op pid pc (BitVec.ofNat 64 va) c lv false
  | .stop .poison =>
    let s := s.noteVA true core ctx .load a 64
    let s := match s.loadVA w core ctx op a 64 with
      | .ok bs => let r := InvRec.ofNat (leNat bs); s.noteVA true core ctx .load r.argaddr r.arglen
      | _ => s
    s.killLaunch w.lid 0x0E pc 0
  | .stop .refused => s.killLaunch w.lid 0x0D pc 0
  | .stop _ => s.killLaunch w.lid 0x0B pc 0

/-- An invocation instruction: its operands are read at issue, then it starts. -/
def invocation (x : Bool) (i : Instr) (s : State) (d a : BitVec 6) (target : Site → Nat × Nat × Option Word) :
    Host.Outcome State Fault Refusal :=
  issue x i s fun k u =>
    let t := target k
    let f := postFab k u x [sReg d] (.invoke d.toNat (k.s a) t.1 t.2.1 t.2.2)
    (f.2.startInvoke k.w f.1 k.pid x k.p.pc d.toNat (k.s a) t.1 t.2.1 t.2.2, true)

/-- An outstanding instruction of a path that a page fault or a line held is replayed; the loads of an invocation wait, as at its issue, for accesses of the
wave (R100, R109, R118, R282, R302, R367). -/
def State.replay (s : State) (w : WaveRef) (op : Nat) : State :=
  match (s.wave? w).bind fun v => v.pend? op with
  | some p => (match p.kind with
    | .mem .. => s.replayMem w op
    | .skip pid last sw => s.skipBody w op pid last sw
    | .fab (.parked (.osend d dst ctx mbox off len stamp) pid sw) _ => s.startSend w op pid sw p.off d dst ctx mbox off len stamp
    | .fab (.parked (.oatom d st va o wide val cmp stamp) pid sw) _ => s.startOatom w op pid sw p.off d st va o wide val cmp stamp
    | .fab (.parked (.invoke d a node ctx parent) pid sw) _ =>
      if s.invokeWaits w op a then s.holdSend w op pid (.parked (.invoke d a node ctx parent) pid sw)
      else s.startInvoke w op pid sw p.off d a node ctx parent
    | _ => s)
  | none => s

/-- `invk` (R180). -/
def execInvk (x : Bool) (d n a : BitVec 6) (s : State) : Host.Outcome State Fault Refusal :=
  invocation x (.invk x d n a) s d a fun k => (bits (k.s n).toNat 0 16, bits (k.s n).toNat 16 16, none)

/-- `invh` (R180, R181). -/
def execInvh (x : Bool) (d h a : BitVec 6) (s : State) : Host.Outcome State Fault Refusal :=
  invocation x (.invh x d h a) s d a fun k => (handleHome (k.s h), 0, some (handleOf (k.s h)))

end Sys2Proof.Machine
end

