-- ==== Sys2Proof/Machine/WaveEvents.lean ====
section
/-! DEFINITION. The steps of the part that act on waves: swaps, the end of a `yield` window, park limits, barrier phases, tickets, returning
results and acknowledgements, logical clocks (R20 to R30, R91, R100, R188, R245, R250, R345 to R347). -/

namespace Sys2Proof.Machine

/-- WAIT counters (R188): LD, ST, SFU, MX, CP, FB, EC, XL. -/
def ctrLD : Nat := 0
def ctrSFU : Nat := 2
def ctrXL : Nat := 7

/-- A wave whose team runs on a core. -/
def State.running (s : State) (w : WaveRef) : Bool :=
  match s.team? w.teamRef with | some t => t.st == .resident || t.st == .placed | none => false

/-! ### The berm (R22, R23) -/

/-- The resident path of least age; a parked one counts as zero; ties go to slot 0 (R23). -/
def Wave.victim (v : Wave) : Option Path :=
  let age := fun p : Path => if p.isParked then 0 else p.age
  match v.slot0, v.slot1 with
  | some a, some b => some (if age b < age a then b else a)
  | a, b => a.or b

/-- The spilled path of a wave that is due for a swap, the oldest (R23). -/
def State.dueSwap (s : State) (w : WaveRef) (v : Wave) : Option Path :=
  let limit := match s.ctx? (s.ctxOf w.lid) with | some c => c.swap | none => 4096
  oldest v.spilled fun p => !p.isParked && limit ≤ p.age

/-- BERM_SWAP: the oldest spilled path that is due trades places with the resident path of least age (R23). -/
def execBermSwap (w : WaveRef) (s : State) : Host.Outcome State Fault Refusal :=
  match s.wave? w with
  | none => .fault (.cannotOccur "BERM_SWAP")
  | some v =>
    match s.dueSwap w v, v.victim with
    | some q, some r =>
      stepIf "BERM_SWAP" (s.running w) s
        (s.setBerm w v (v.trade r.pid q.pid))
    | _, _ => .fault (.cannotOccur "BERM_SWAP")

/-- The window of a `yield` is over. -/
def Path.windowOver (p : Path) : Bool := p.yielded == some 0 || (p.yielded.isSome && p.owed.isEmpty)
/-- YIELD_WINDOW_END: 64 cycles have passed, or every other eligible path has had an opportunity (R245). -/
def execYieldWindowEnd (w : WaveRef) (slot1 : Bool) (s : State) : Host.Outcome State Fault Refusal :=
  match s.wave? w with
  | none => .fault (.cannotOccur "YIELD_WINDOW_END")
  | some v =>
    match if slot1 then v.slot1 else v.slot0 with
    | none => .fault (.cannotOccur "YIELD_WINDOW_END")
    | some p =>
      stepIf "YIELD_WINDOW_END" p.windowOver s
        (s.modWave w fun v => v.modPath p.pid fun p => { p with yielded := none, owed := [] })

/-! ### The park limit (R26, R162) -/

def State.parkLimit (s : State) (lid : Nat) : Nat :=
  match s.ctx? (s.ctxOf lid) with | some c => c.parkTicks | none => 0

/-- A path has been parked for longer than its context's park limit. -/
def State.latePath (s : State) (w : WaveRef) (p : Path) : Bool := p.isParked && s.present w && decide (s.parkLimit w.lid < p.since)
/-- The first operation of a quad's engine has been stalled for longer than that. -/
def State.lateOp (s : State) (o : EngOp) : Bool :=
  match o.members with | (w, _, _) :: _ => decide (s.parkLimit w.lid < o.stalled) | [] => false
/-- Arrivals at a barrier instance of a team. -/
def State.arrivedAt (s : State) (t : TeamRef) (cohort : Bool) (n : Nat) : List (Nat × Nat × Nat) :=
  match s.team? t with
  | some k => (match k.bars.find? fun b => b.cohort == cohort && b.n == n with | some b => b.arrived | none => [])
  | none => []

/-- The place of a parked path's instruction in the order of issue of its wave, where a number tells it: that of its operation, of its waiter or of its arrival. What
has no number, and has waited for longer than the park limit, counts as the earliest (DESIGN CHOICE, log entry 69). -/
def State.parkNo (s : State) (w : WaveRef) (p : Path) : Nat :=
  match p.park with
  | .line op => op
  | .payload op => op
  | .event wid _ => wid
  | .fault fid => (match (s.faults.find? fun f => f.fid == fid) with | some f => (match f.holder with | .path _ _ (some op) => op | _ => fid) | none => fid)
  | .bar coh n => (match (s.arrivedAt w.teamRef coh n).find? fun a => a.1 == w.wave with | some a => a.2.2 | none => 0)
  | _ => 0

/-- What has been parked for longer than the park limit: a path, by its number in its wave, or an engine operation, by the number of the operation of one of its
members; the core on which it counts, and the place of its instruction in the order of issue of the wave. -/
structure Late where
  engine : Bool
  w : WaveRef
  id : Nat
  core : Nat
  no : Nat
  deriving DecidableEq, Repr
/-- The paths, and the engine operations, for each of their members, that have been parked for longer than the park limit: they end their launches before
anything can release them (R26). -/
def State.late (s : State) : List Late :=
  s.waves.flatMap (fun e => (e.2.paths.filter (s.latePath e.1)).map fun p =>
    { engine := false, w := e.1, id := p.pid, core := s.coreOf e.1.teamRef, no := s.parkNo e.1 p }) ++
  s.quads.flatMap fun q => match q.2.ops with
    | o :: _ => if s.lateOp o then o.members.map fun m => { engine := true, w := m.1, id := m.2.1, core := 4 * s.quadAt q.1, no := m.2.1 } else []
    | [] => []

/-- PARK_TIMEOUT: a path, or an engine operation, has been parked for longer than the context's park limit. -/
def execParkTimeout (r : ParkRef) (s : State) : Host.Outcome State Fault Refusal :=
  let late := fun (w : WaveRef) (o : Option Path) =>
    match o with
    | some p => stepIf "PARK_TIMEOUT" (s.latePath w p) s (s.killLaunch w.lid 0x0F p.parkOff 0)
    | none => .fault (.cannotOccur "PARK_TIMEOUT")
  match r with
  | .slot w slot1 => late w (match s.wave? w with | some v => if slot1 then v.slot1 else v.slot0 | none => none)
  | .berm w i => late w (match s.wave? w with | some v => v.spilled[i]? | none => none)
  | .engine q =>
    match (s.quad q).ops with
    | o :: _ =>
      (match o.members with
        | (w, _, off) :: _ =>
          stepIf "PARK_TIMEOUT" (s.lateOp o) s (s.killLaunch w.lid 0x0F off 0)
        | [] => .fault (.cannotOccur "PARK_TIMEOUT"))
    | [] => .fault (.cannotOccur "PARK_TIMEOUT")

/-! ### Logical clocks (R345, R346) -/

/-- The logical wave id: 16 × team + wave (R344). -/
def logicalId (w : WaveRef) : Nat := 16 * w.team + w.wave
/-- Lexicographic order of clock and id. -/
def before (c i c' i' : Nat) : Bool := c < c' || (c == c' && i < i')

/-- Waves of a team that have not ended. -/
def State.liveWaves (s : State) (t : TeamRef) : List WaveRef :=
  (s.waves.filter fun p => p.1.teamRef == t && !p.2.ended).map (·.1)
/-- Teams of a cohort that have not retired. -/
def State.cohortTeams (s : State) (lid cohort : Nat) : List TeamRef :=
  (s.teams.filter fun p => p.1.lid == lid && p.2.cohort == cohort && p.2.alive).map (·.1)
/-- What a wave parked at a barrier or the sluice waits for: the greatest clock among those that have arrived, and the waves that have not. -/
def State.rendezvous (s : State) (w : WaveRef) : Option (Nat × List WaveRef) :=
  match s.wave? w with
  | none => none
  | some v =>
    match v.paths.map fun p : Path => p.park with
    | .bar coh n :: ks =>
      let ts := if coh then s.cohortTeams w.lid (match s.team? w.teamRef with | some t => t.cohort | none => 0) else [w.teamRef]
      let arr := ts.flatMap fun t => (s.arrivedAt t coh n).map fun a => (t, a)
      if ks.all (fun (k : Park) => k == .bar coh n) && arr.any (fun (a : TeamRef × Nat × Nat × Nat) => a.1 == w.teamRef && a.2.1 == w.wave) then
        some (arr.foldl (fun m (a : TeamRef × Nat × Nat × Nat) => max m a.2.2.1) 0,
          (ts.flatMap s.liveWaves).filter fun y => !(arr.any fun (a : TeamRef × Nat × Nat × Nat) => a.1 == y.teamRef && a.2.1 == y.wave))
      else none
    | .sluice :: ks =>
      if ks.all fun (k : Park) => k == .sluice then
        let u := s.quad (s.engineAt w)
        let live : List WaveRef := match u.gang with | some g => (g.members.filter (·.2)).map (·.1) | none => []
        some (u.arrivals.foldl (fun m a => max m a.clk) 0, live.filter fun y => !(u.arrivals.any fun a => a.w == y))
      else none
    | _ => none

/-- What a wave that waits for its gang awaits (R156, R346): the greatest clock among the joins of its group, and the waves of which one has to join before it
goes on; none when its group is full and waits for the engine only. Which waves will join is not known before they do: any that has not joined may (DESIGN
CHOICE, log entry 26). -/
def State.joining (s : State) (w : WaveRef) : Option (Nat × List WaveRef) :=
  match s.wave? w with
  | none => none
  | some v =>
    let q := quadOf (s.coreOf w.teamRef)
    let js := (s.quads.flatMap (·.2.joins)).filter fun j => j.w.lid == w.lid && quadOf (s.coreOf j.w.teamRef) == q
    match js.find? fun j => j.w == w with
    | none => none
    | some j =>
      if !(v.paths.all fun p => p.park == Park.mgang) then none
      else
        let waits := fun k => (fullJoin s js k).isNone
        let coh := match s.team? w.teamRef with | some t => t.cohort | none => 0
        let near := (s.cohortTeams w.lid coh).filter fun t => quadOf (s.coreOf t) == q
        match fullJoin s js j with
        | some g => some (g.foldl (fun m k => max m k.clk) 0, [])
        | none => some (v.lclk, (near.flatMap s.liveWaves).filter fun y => !(js.any fun k => k.w == y && waits k))

/-- Bound of a wave (R346). The first argument limits how far waits on waits are followed. Of the waves that a gang awaits the least bound counts: every one of
them has to pass the test of R345 itself, so the outcome is that of the greatest. -/
def State.bound : Nat → State → WaveRef → Nat
  | 0, s, w => match s.wave? w with | some v => v.lclk | none => 0
  | n + 1, s, w =>
    match s.rendezvous w with
    | some (m, others) => 1 + others.foldl (fun b y => max b (State.bound n s y)) m
    | none =>
      match s.joining w with
      | some (m, y :: others) => 1 + max m (others.foldl (fun b z => min b (State.bound n s z)) (State.bound n s y))
      | some (m, []) => 1 + m
      | none => match s.wave? w with | some v => v.lclk | none => 0

/-- The least team of a launch that is not placed. -/
def State.leastUnplaced (s : State) (lid : Nat) (l : Launch) : Option Nat :=
  (List.range (min l.nteams ((s.teams.filter fun t => t.1.lid == lid).length + 1))).find? fun t => (s.team? ⟨lid, t⟩).isNone

/-- The teams of a barrier instance. -/
def State.barTeams (s : State) : BarRef → List TeamRef
  | .team t _ => [t]
  | .cohort lid c _ => s.cohortTeams lid c
def barCohort : BarRef → Bool | .team .. => false | .cohort .. => true
def barNum : BarRef → Nat | .team _ n => n.toNat | .cohort _ _ n => n.toNat

/-- Every live wave of the instance has arrived, each with the number of its arrival (R27). -/
def State.phaseFull (s : State) (b : BarRef) : Bool :=
  let arr := (s.barTeams b).map fun t => (t, s.arrivedAt t (barCohort b) (barNum b))
  (arr.any fun a => !a.2.isEmpty) && arr.all fun a => (s.liveWaves a.1).all fun w => a.2.any fun x => x.1 == w.wave

/-- The greatest key (clock, logical id) among the arrivals of a phase, with its wave. -/
def State.lastArrival (s : State) (b : BarRef) : Nat × WaveRef :=
  ((s.barTeams b).flatMap fun t => (s.arrivedAt t (barCohort b) (barNum b)).map fun a => (a.2.1, (⟨t.lid, t.team, a.1⟩ : WaveRef))).foldl
    (fun (m : Nat × WaveRef) a => if before m.1 (logicalId m.2) a.1 (logicalId a.2) then a else m) (0, ⟨0, 0, 0⟩)

/-- The cohort phases of a launch to which every expected wave has come. -/
def State.fullPhases (s : State) (lid : Nat) : List BarRef :=
  (s.teams.filter fun t => t.1.lid == lid && t.2.alive).flatMap fun t =>
    ((t.2.bars.filter (·.cohort)).map fun b => BarRef.cohort lid t.2.cohort (BitVec.ofNat 4 b.n)).filter s.phaseFull

/-- Every other wave of the launch that has not ended has a bound beyond (c, i), and no det operation with a lesser key is left: none held, those of ended waves
included, and no phase whose last arrival has the lesser key (R345, R351). -/
def State.detClear (s : State) (lid c i : Nat) (self : WaveRef → Bool) : Bool :=
  (s.waves.all fun p => p.1.lid != lid ||
    ((p.2.ended || self p.1 || before c i (s.bound 8 p.1) (logicalId p.1)) &&
      !(p.2.pend.any fun o => o.held && before o.clk (logicalId p.1) c i))) &&
  !((s.fullPhases lid).any fun b => let a := s.lastArrival b; before a.1 (logicalId a.2) c i) &&
  (match s.launch? lid with
    | some l => (match s.leastUnplaced lid l with | some t => before c i 0 (16 * t) | none => true)
    | none => true)

/-! ### Barrier phases (R27, R28, R347) -/

/-- Every expected member has arrived, and what each issued before has reached the point of the barrier's scope. -/
def State.phaseReady (s : State) (b : BarRef) : Bool :=
  let ts := s.barTeams b
  let arr := ts.map fun t => (t, s.arrivedAt t (barCohort b) (barNum b))
  (arr.any fun a => !a.2.isEmpty) &&
  (arr.all fun a => (match s.team? a.1 with | some t => t.st == .resident || t.st == .placed | none => false) &&
    (s.liveWaves a.1).all fun w => match a.2.find? fun x => x.1 == w.wave with
      | some x => s.released w x.2.2 (if (barCohort b) then 1 else 0)
      | none => false)

/-- The phase completes: parked paths are released at one clock, a cohort phase acquires at cluster scope, the instance starts afresh. -/
def State.completePhase (s : State) (b : BarRef) : State :=
  let clk := (s.lastArrival b).1 + 1
  (s.barTeams b).foldl (fun s t =>
    let s := (s.liveWaves t).foldl (fun s w => match s.wave? w with
      | some v =>
        let mine := v.paths.filter fun p => p.park == Park.bar (barCohort b) (barNum b)
        if mine.isEmpty then s
        else mine.foldl (fun s p => s.modWave w fun v => v.unpark p.pid) (s.raiseClock w clk)
      | none => s) s
    let s := if (barCohort b) then s.dropCache (s.coreOf t) else s
    s.modTeam t fun k => { k with bars := k.bars.filter fun x => !(x.cohort == (barCohort b) && x.n == (barNum b)) }) s

/-- The key of a cohort phase, when it is a det operation: that of its last arrival (R345). -/
def State.phaseClear (s : State) (lid c : Nat) (n : BitVec 4) : Bool :=
  let a := s.lastArrival (.cohort lid c n)
  s.detClear lid a.1 (logicalId a.2) fun w => (s.cohortTeams lid c).contains w.teamRef

/-- A cohort phase of a deterministic launch is a det operation of its last arrival (R345). -/
def State.phaseDet (s : State) (b : BarRef) : Bool :=
  match b with
  | .team .. => true
  | .cohort lid c n => (match s.launch? lid with | some l => !l.hdr.det || s.phaseClear lid c n | none => true)

/-- BARRIER_PHASE_COMPLETE. -/
def execBarrierPhaseComplete (b : BarRef) (s : State) : Host.Outcome State Fault Refusal :=
  stepIf "BARRIER_PHASE_COMPLETE" (s.phaseReady b && s.phaseDet b) s (s.completePhase b)

/-! ### Tickets (R29 to R31) -/

/-- Advance a counter through taken tickets. -/
def advanceTicket (marked : List (Nat × Nat)) (k : Nat) : Nat → Nat → Nat
  | 0, c => c
  | n + 1, c => if marked.contains (k, c) then advanceTicket marked k n (c + 1) else c

/-- Paths parked on a ticket whose turn has come since go on: a device-scope acquire. A path that parked when its counter had passed its team's
id stays (R29). -/
def State.wakeTickets (s : State) (lid : Nat) : State :=
  s.waves.foldl (fun s e => if e.1.lid != lid || !s.present e.1 then s else e.2.paths.foldl (fun s p => match p.park with
    | .ticket k false =>
      let c := match s.launch? lid with | some l => l.tickets.getD k 0 | none => 0
      if e.1.team ≤ c then (s.dropCache (s.coreOf e.1.teamRef)).modWave e.1 fun v => v.unpark p.pid else s
    | _ => s) s) s

/-- Takes of a counter whose release is complete are marked, and the counter advances. -/
def State.advanceTickets (s : State) (lid k : Nat) : State :=
  let ok := s.takes.filter fun t => t.w.lid == lid && t.k == k && s.takeReady t
  let s := { s with takes := s.takes.filter fun t => !(ok.contains t) }
  let s := s.modLaunch lid fun l =>
    let c := l.tickets.getD k 0
    let marked := ok.foldl (fun m t => if t.w.team < c || m.contains (k, t.w.team) then m else (k, t.w.team) :: m) l.marked
    let c' := advanceTicket marked k marked.length c
    { l with tickets := setAt l.tickets k c', marked := marked.filter fun m => m.1 != k || c' ≤ m.2 }
  s.wakeTickets lid

/-- TICKET_ADVANCE. -/
def execTicketAdvance (lid : Nat) (k : BitVec 3) (s : State) : Host.Outcome State Fault Refusal :=
  let t := s.advanceTickets lid k.toNat
  stepIf "TICKET_ADVANCE" ((s.launch? lid).map (fun l => l.tickets.getD k.toNat 0) != (t.launch? lid).map fun l => l.tickets.getD k.toNat 0) s t

/-! ### Results that return (R91, R188, R250, R283) -/

/-- The register writes of a load or atomic whose accesses are all performed: lanes zero-extended, poison by halves (R280, R283). -/
def loadWrites (r : MemReq) (parts : List Part) : List RegWrite :=
  let lanes := parts.foldl (fun (l : List Nat) p => if l.contains p.lane then l else l ++ [p.lane]) []
  let vals := lanes.map fun l =>
    let mine := parts.filter fun p => p.lane == l
    let byte := fun i : Nat => (mine.findSome? fun p => if p.pos ≤ i && i < p.pos + p.n then p.val.bind fun v => v[i - p.pos]? else none).getD (0, false)
    let bs := (List.range r.w).map byte
    let pois := (if (bs.take 4).any (·.2) then 1 else 0) + (if (bs.drop 4).any (·.2) then 2 else 0)
    (l, BitVec.ofNat 64 (leNat (bs.map (·.1))), (pois : Nat))
  match r.dst with
  | some (.v d) => [.v d vals]
  | some (.s d) => vals.map fun v => .s d v.2.1
  | some (.m d) => vals.map fun v => .m d (v.2.1.setWidth 32)
  | none => []

/-- Some byte that was read is poisoned. -/
def poisonRead (parts : List Part) : Bool := parts.any fun p => match p.val with | some v => v.any (·.2) | none => false

/-- An outstanding result reaches its registers. -/
def State.deliver (s : State) (w : WaveRef) (op : Nat) (ws : List RegWrite) (flags : Nat) : State :=
  s.modWave w fun v => ((v.applyWrites ws).raise flags).endPend op

/-- The lanes of an outstanding load or atomic all of whose accesses are performed. -/
def wholeLanes (parts : List Part) : List Part := parts.filter fun q => !(parts.any fun x => x.lane == q.lane && x.val.isNone)
/-- The lanes that are finished reach the destination while others wait on a page or a line, or stand behind some that do; the operation stays outstanding
(R282, R100, R381). -/
def State.landLanes (s : State) (w : WaveRef) (op : Nat) (r : MemReq) (todo : List LaneReq) (parts : List Part) (left : Nat) : State :=
  s.modWave w fun v => (v.applyWrites (loadWrites r (wholeLanes parts))).modPend op fun p =>
    { p with kind := .mem r todo (parts.filter fun q => !(wholeLanes parts).contains q) left }

/-- LOAD_RETURN: the accesses that are still to be performed are performed, then the results are written; where not all can be, those of the lanes that are
finished. An `sld` that read poison kills the launch (R231). -/
def execLoadReturn (w : WaveRef) (op : Nat) (s : State) : Host.Outcome State Fault Refusal :=
  match (s.wave? w).bind fun v => v.pend? op with
  | none => .fault (.cannotOccur "LOAD_RETURN")
  | some p =>
    match p.kind with
    | .mem r _ parts _ =>
      if r.op == .store then .fault (.cannotOccur "LOAD_RETURN")
      else match State.performAll parts.length s w op with
        | none =>
          let t := (s.performSome w op parts.length).settleIf (r.sp && r.op != .load)
          (match ((t.wave? w).bind fun v => v.pend? op).map Pend.kind with
            | some (.mem r todo parts left) =>
              stepIf "LOAD_RETURN" (!(wholeLanes parts).isEmpty) s (t.landLanes w op r todo parts left)
            | _ => .fault (.cannotOccur "LOAD_RETURN"))
        | some t =>
          let t := t.settleIf (r.sp && r.op != .load)
          match ((t.wave? w).bind fun v => v.pend? op).map Pend.kind with
          | some (.mem r _ parts _) =>
            done s (match r.dst with
              | some (.s _) => if poisonRead parts then t.killLaunch w.lid 0x0E p.off 0 else t.deliver w op (loadWrites r parts) 0
              | _ => t.deliver w op (loadWrites r parts) 0)
          | _ => .fault (.cannotOccur "LOAD_RETURN")
    | .result ws flags => stepIf "LOAD_RETURN" (p.ctr == ctrLD) s (s.deliver w op ws flags)
    | .tlread d ctx => done s (s.deliver w op [.s d (BitVec.ofNat 64 (s.timeline w.lid ctx).value)] 0)
    | _ => .fault (.cannotOccur "LOAD_RETURN")

/-- A store with all its passages made on the way: it enters, drains and is performed as far as its conditions allow. -/
def State.finishStore (s : State) (sid : Nat) : Option State :=
  let t := match s.queue.find? (·.sid == sid) with
    | some r => if s.canEnter r then s.enterStore r else s
    | none => s
  let t := match t.queue.find? (·.sid == sid) with
    | some r => if t.canDrain r then t.drainStore r else t
    | none => t
  match t.buffer.find? (·.sid == sid) with
  | some r => if t.canPerformStore r then some (((t.performStore r).syncLoc r.loc).settleIf r.loc.isSpad) else none
  | none => none

/-- STORE_ACK: the store is performed at its home and acknowledged. -/
def execStoreAck (sid : Nat) (s : State) : Host.Outcome State Fault Refusal :=
  match s.finishStore sid with
  | some t => done s t
  | none => .fault (.cannotOccur "STORE_ACK")

/-- A result of the named counter. -/
def resultOn (name : String) (ctr : Nat) (w : WaveRef) (op : Nat) (s : State) : Host.Outcome State Fault Refusal :=
  match (s.wave? w).bind fun v => v.pend? op with
  | some p => (match p.kind with
      | .result ws flags => stepIf name (p.ctr == ctr) s (s.deliver w op ws flags)
      | _ => .fault (.cannotOccur name))
  | none => .fault (.cannotOccur name)

/-- SFU_RESULT (R91). -/
def execSfuResult (w : WaveRef) (op : Nat) (s : State) : Host.Outcome State Fault Refusal := resultOn "SFU_RESULT" ctrSFU w op s

/-- XL_RESULT (R250). -/
def execXlResult (w : WaveRef) (op : Nat) (s : State) : Host.Outcome State Fault Refusal := resultOn "XL_RESULT" ctrXL w op s

/-! ### Estate operations (R49 to R52) -/

/-- No earlier estate operation of the wave is still to take effect (R52). -/
def Wave.estateTurn (v : Wave) (op : Nat) : Bool :=
  !(v.pend.any fun p => p.id < op && match p.kind with | .ecl .. => true | .equery .. => true | .edrop _ => true | _ => false)

/-- EC_COMPLETE: the operation takes effect, when it has not, and its results are written. -/
def execEcComplete (w : WaveRef) (op : Nat) (s : State) : Host.Outcome State Fault Refusal :=
  match s.wave? w with
  | none => .fault (.cannotOccur "EC_COMPLETE")
  | some v =>
    match v.pend? op with
    | none => .fault (.cannotOccur "EC_COMPLETE")
    | some p =>
      match p.kind with
      | .result ws flags => stepIf "EC_COMPLETE" (p.ctr == 6) s (s.deliver w op ws flags)
      | .ecl .. | .equery .. | .edrop _ =>
        let r := s.estateEffect w p.off p.kind
        stepIf "EC_COMPLETE" (!p.held && v.estateTurn op) s (r.2.deliver w op r.1 0)
      | _ => .fault (.cannotOccur "EC_COMPLETE")

/-! ### Det operations (R345) -/

/-- DET_OP_EFFECT: a det operation whose clock every other wave's bound has passed takes effect. -/
def execDetOpEffect (d : DetRef) (s : State) : Host.Outcome State Fault Refusal :=
  match d with
  | .phase lid c n =>
    let b : BarRef := .cohort lid c n
    let det := match s.launch? lid with | some l => l.hdr.det | none => false
    stepIf "DET_OP_EFFECT" (det && s.phaseReady b && s.phaseDet b) s (s.completePhase b)
  | .op w op =>
    match s.wave? w with
    | none => .fault (.cannotOccur "DET_OP_EFFECT")
    | some v =>
      match v.pend? op with
      | none => .fault (.cannotOccur "DET_OP_EFFECT")
      | some p =>
        let first := !(v.pend.any fun q => q.held && q.id < op)
        let ready := p.held && first && s.detClear w.lid p.clk (logicalId w) (· == w)
        let t := s.modWave w fun v => v.modPend op fun p => { p with held := false }
        if !ready then .fault (.cannotOccur "DET_OP_EFFECT")
        else match p.kind with
          | .mem _ todo parts _ =>
            if !todo.isEmpty then .fault (.cannotOccur "DET_OP_EFFECT")
            else match State.performAll parts.length t w op with
              | some u => done s (u.settleIf p.onSpad)
              | none => .fault (.cannotOccur "DET_OP_EFFECT")
          | .ecl .. | .edrop _ =>
            let r := t.estateEffect w p.off p.kind
            stepIf "DET_OP_EFFECT" (v.estateTurn op) s (r.2.modWave w fun v => v.modPend op fun p => { p with kind := .result r.1 0 })
          | _ => .fault (.cannotOccur "DET_OP_EFFECT")

/-! ### Events and the timer wheel (R303, R341, R343) -/

/-- WHEEL_FIRE: an entry that is due signals; entries that are due together fire in the order they were scheduled. Its release, when not yet
complete, delays the signal, which comes even when the launch is killed meanwhile (R243, R303). -/
def execWheelFire (eid : Nat) (s : State) : Host.Outcome State Fault Refusal :=
  match s.wheel.find? (·.eid == eid) with
  | none => .fault (.cannotOccur "WHEEL_FIRE")
  | some e =>
    let first := !(s.wheel.any fun x => x.time ≤ s.now && (x.time < e.time || (x.time == e.time && x.eid < e.eid)))
    let t := { s with wheel := s.wheel.filter (·.eid ≠ eid) }
    stepIf "WHEEL_FIRE" (decide (e.time ≤ s.now) && first) s
      (match e.rel with
        | some (w, op) =>
          if t.released w op 3 then t.signal e.tenant e.ev
          else { t with signals := t.signals ++ [{ gid := e.eid, tenant := e.tenant, ev := e.ev, w := w, op := op }] }
        | none => t.signal e.tenant e.ev)

/-- SPILLWAY_RELEASE: a waiter that a signal has satisfied goes on; one that has left the list at a save is tested anew at the restore (R342). -/
def execSpillwayRelease (tenant : BitVec 4) (wid : Nat) (s : State) : Host.Outcome State Fault Refusal :=
  match s.waiters.find? fun a => a.wid == wid && a.tenant == tenant.toNat with
  | some a => (match a.ready with
      | some n => stepIf "SPILLWAY_RELEASE" (s.waits a) s (s.releaseWaiter a n)
      | none => .fault (.cannotOccur "SPILLWAY_RELEASE"))
  | none => .fault (.cannotOccur "SPILLWAY_RELEASE")

/-! ### The fault queue (R365, R366) -/

/-- The 32 bytes of a fault entry (R365). -/
def FaultRec.image (f : FaultRec) : List Byte :=
  leBytes 8 (f.level * 2 ^ 7 + (if f.wr then 2 ^ 9 else 0) + f.cause * 2 ^ 10 + f.unit * 2 ^ 13 + f.ctx * 2 ^ 22 + f.off * 2 ^ 32) ++
  leBytes 8 (f.lanes + f.lid * 2 ^ 32) ++ leBytes 8 f.va.toNat ++ leBytes 8 f.seq

/-- FAULT_ENTRY_WRITE: the tenant's next entry is written once its slot is free and the cycle of its fault is over, so that its number stands (R370);
event 0xFFFF is signalled. -/
def execFaultEntryWrite (tenant : BitVec 4) (s : State) : Host.Outcome State Fault Refusal :=
  let t := tenant.toNat
  let mine := s.faults.filter fun f => f.tenant == t && !f.written
  match mine.foldl (fun (b : Option FaultRec) f => match b with
      | some g => if f.seq < g.seq then some f else some g | none => some f) none, s.tenant? t with
  | some f, some k =>
    let n := 2 ^ (k.fqlog + 6)
    let free := !(s.faults.any fun g => g.tenant == t && g.seq + n == f.seq && !g.resolved)
    let s' := (s.modFault f.fid fun f => { f with written := true }).writeHome (k.fqbase + 32 * (f.seq % n)) f.image
    stepIf "FAULT_ENTRY_WRITE" (free && Nat.blt f.cycle s.cycles) s (s'.signal t 0xFFFF)
  | _, _ => .fault (.cannotOccur "FAULT_ENTRY_WRITE")

end Sys2Proof.Machine
end

