-- ==== Sys2Proof/Machine/Saving.lean ====
section
/-! DEFINITION. Halting teams so that they are saved: private-memory blocks, image sizes, cohorts halted whole (R313, R380, R382). -/

namespace Sys2Proof.Machine

/-- Private-memory blocks of a context in use (R313, R382). -/
def State.blocksUsed (s : State) (ctx : Nat) : List Nat :=
  s.teams.flatMap fun t => if t.2.alive && s.ctxOf t.1.lid == ctx then t.2.bermBlocks ++ t.2.imgBlocks else []
/-- The lowest free blocks, when there are enough. -/
def State.freeBlocks (s : State) (ctx n : Nat) : Option (List Nat) :=
  let used := s.blocksUsed ctx
  let limit := match s.ctx? ctx with | some c => c.privsize / 8192 | none => 0
  let free := ((List.range (min limit (used.length + n))).filter fun b => !used.contains b).take n
  if free.length = n then some free else none

/-- The waves that an engine's state belongs to, in gang order: the members of its gang, or those of the operations that a dissolved gang has left. -/
def Quad.waves (u : Quad) : List WaveRef :=
  match u.gang with
  | some g => g.members.map (·.1)
  | none => u.ops.flatMap fun o => o.members.map (·.1)
/-- The team that a quad's engine state is saved with: the team of member 0 (R382); of the first member whose team has not retired, when that one has
(DESIGN CHOICE, log entry 69: the rule names member 0 only). -/
def State.engineOwner (s : State) (u : Quad) : Option TeamRef := (u.waves.find? fun w => (s.team? w.teamRef).any Team.alive).map (·.teamRef)
/-- A team's image holds the engine state of its quad. -/
def State.ownGang (s : State) (t : TeamRef) : Bool := s.engineOwner (s.quad (quadOf (s.coreOf t))) == some t

/-- IMGBYTES of a team. -/
def State.imgBytes (s : State) (t : TeamRef) : Nat :=
  match s.launch? t.lid with
  | none => 0
  | some l =>
    let n := l.hdr.waves
    let a := l.hdr.alloc
    let p := l.hdr.spadP
    128 + 1024 * n + 256 * a * n + 8 * a * n + p + (p / 128 + 63) / 64 * 64 + (if s.ownGang t then 132160 else 0)

/-- The teams that are saved with a team: itself, or its cohort's teams on cores. -/
def State.saveGroup (s : State) (t : TeamRef) : List TeamRef :=
  match s.launch? t.lid, s.team? t with
  | some l, some k =>
    if l.hdr.cohort = 0 then [t]
    else (s.teams.filter fun p => p.1.lid == t.lid && p.2.cohort == k.cohort && p.2.onCore).map (·.1)
  | _, _ => [t]

/-- The lowest free escrow slot of a span (R384). -/
def State.escrowSlot (s : State) (span : Nat) : Nat :=
  let used := s.teams.filterMap fun t => match t.2.escrow with | some e => if e.span == span then some e.slot else none | none => none
  ((List.range (used.length + 1)).find? fun i => !used.contains i).getD 0

/-- At the halt of a team the count of its stores that are not acknowledged moves to an escrow slot of its span (R381, R384). -/
def State.escrowStores (s : State) (t : TeamRef) : State :=
  let mine := fun (r : StoreRec) => r.w.teamRef == t
  let n := ((s.queue ++ s.buffer).filter mine).length
  let span := spanOf (s.coreOf t)
  if n = 0 then s.modTeam t fun k => { k with haltEsc := none }
  else
    let e : Escrow := { span := span, slot := s.escrowSlot span, count := n }
    { s with queue := s.queue.map fun r => if mine r then { r with escrowed := true } else r,
             buffer := s.buffer.map fun r => if mine r then { r with escrowed := true } else r }.modTeam t fun k =>
      { k with escrow := some e, haltEsc := some e }

/-- A team gets its image blocks; a resident one halts at an instruction boundary (R380), one that is being placed once it is (R385). -/
def State.haltTeam (s : State) (t : TeamRef) (blocks : List Nat) : State :=
  let s' := s.modTeam t fun k => { k with imgBlocks := blocks }
  if (s.team? t).any fun k => k.st == .resident then
    (s'.modTeam t fun k => { k with st := .halting, haltTime := s.now }).escrowStores t
  else s'

/-- A team is to be saved, with its cohort: when its context has image blocks for all of them they halt; otherwise none does (R382). A team that
is being saved already is not touched. -/
def State.haltForSave (s : State) (t : TeamRef) : State :=
  let ts := (s.saveGroup t).filter fun u => match s.team? u with
    | some k => k.imgBlocks.isEmpty && (k.st == .resident || k.st == .placed)
    | none => false
  let need := ts.map fun u => (s.imgBytes u + 8191) / 8192
  match s.freeBlocks (s.ctxOf t.lid) (need.foldl (· + ·) 0) with
  | none => s
  | some bs => ((ts.zip need).foldl (fun (a : State × List Nat) p => (a.1.haltTeam p.1 (a.2.take p.2), a.2.drop p.2)) (s, bs)).1

/-- PREEMPT packets whose named teams are all saved, or gone, complete (R380). -/
def State.settleSaves (s : State) : State :=
  let left := fun (p : Packet0) => p.saving.filter fun t => match s.team? t with
    | some k => k.alive && k.st != .saved && !k.imgBlocks.isEmpty
    | none => false
  (s.packets.filter fun p => p.op == 0x0A && (left p).isEmpty).foldl (fun s p =>
    s.completePacket p.pid { status := 0, code := if p.savedLid = 0 then 1 else 0, offset := 0, lid := p.savedLid, sig := 0 }) s

/-! ### Invocations that wait for their parents (R181, R399) -/

/-- How the parent of a waiting invocation stands here: its launch has retired, it broke, or neither yet. -/
inductive ParentSt where
  | retired (ctx lid : Nat)
  | broken
  | open
  deriving DecidableEq, Repr

/-- Two handles name the same entry and generation; FLAGS, of which R178 has bits [7:1] zero, name nothing. -/
def sameHandle (a b : Word) : Bool := a >>> 8 == b >>> 8
/-- The parent of a waiting invocation: the launch that its handle names, or a refused invocation. A handle value can come again: of what this node has
accepted or refused under it the last counts, and while an entry of its own stands under the value only what it did after the slot was taken; of a slot that was
recycled the launch still counts, and of another node's handle, whose entry it cannot see, the last one does (DESIGN CHOICE, log entry 69; R181, R184). -/
def State.parentState (s : State) (h : Word) : ParentSt :=
  let since := if handleHome h = s.fabric.node then
      (match tget (handleSlot h) s.fabric.handles with | some e => if e.gen = handleGen h then e.order else 0 | none => 0) else 0
  let dead := (s.fabric.deadHandles.filter fun d => sameHandle d.1 h && since ≤ d.2).foldl (fun m d => max m (d.2 + 1)) 0
  match (s.launches.filter fun p => sameHandle p.2.handle h && since ≤ p.2.order).foldl (fun (b : Option (Nat × Launch)) p => match b with
      | some q => if q.2.order ≤ p.2.order then some p else b
      | none => some p) none with
  | some (lid, l) =>
    if l.order + 1 < dead then .broken else if l.kill.isSome then .broken else if l.st == .closed then .retired l.ctx lid else .open
  | none => if dead = 0 then .open else .broken

/-- Waiting invocations whose parents have retired go to the front end in their order; those whose parents broke break with INHERITED (R181). -/
def State.settleWaiting : Nat → State → State
  | 0, s => s
  | n + 1, s =>
    match s.fabric.waitingInv.find? fun pk => s.parentState (pkParent pk) != .open with
    | none => s
    | some pk =>
      let s' := { s with fabric := { s.fabric with waitingInv := s.fabric.waitingInv.filter (· ≠ pk) } }
      let s' := match s.parentState (pkParent pk) with
        | .retired .. => { s' with fabric := { s'.fabric with delivered := s'.fabric.delivered ++ [pk] } }
        | _ => State.notify { s' with fabric := { s'.fabric with deadHandles := s'.fabric.deadHandles ++ [(pkChild pk, s'.nextId)] } } (pkChild pk) (.broken 3 0)
      State.settleWaiting n s'

/-- Every waiting invocation is tested. -/
def State.settleInvokes (s : State) : State := State.settleWaiting s.fabric.waitingInv.length s

/-- An invocation is refused here: its handle breaks with REFUSED (R180), and so do the invocations on it. -/
def State.refuseHandle (s : State) (h : Word) (status : Nat) : State :=
  if h = 0 then s
  else (State.notify { s with fabric := { s.fabric with deadHandles := s.fabric.deadHandles ++ [(h, s.nextId)] } } h (.broken 4 status)).settleInvokes

end Sys2Proof.Machine
end

