-- ==== Sys2Proof/Machine/Placement.lean ====
section
/-! DEFINITION. Placing teams, birth of waves, sealing of estates, retirement of launches (R15, R18, R39 to R48, R53 to R56, R125, R333 to
R337, R373). -/

namespace Sys2Proof.Machine

/-! ### The shape of a launch (R15, R305) -/

/-- Threads of a team. -/
def Header.threads (h : Header) : Nat := 32 * h.waves
/-- Cohorts, or teams in a launch without cohorts: what the team counter hands out (R335). -/
def Launch.units (l : Launch) : Nat := if l.hdr.cohort = 0 then l.nteams else (l.nteams + l.hdr.cohort - 1) / l.hdr.cohort
/-- The teams of a unit. -/
def Launch.unitTeams (l : Launch) (u : Nat) : List Nat :=
  if l.hdr.cohort = 0 then [u] else ((List.range l.hdr.cohort).map (u * l.hdr.cohort + ·)).filter (· < l.nteams)
/-- Live lanes of a wave (R15). -/
def Launch.liveMask (l : Launch) (team wave : Nat) : W32 :=
  maskOf ((List.range 32).filter fun i => team * l.hdr.threads + wave * 32 + i < l.items)

/-! ### Birth claims (R45 to R48) -/

/-- The keys that a lane claims, exactly: one, or two. -/
def Launch.keysOf (l : Launch) (team wave lane : Nat) : List Int :=
  let i : Int := (team * l.hdr.threads + wave * 32 + lane : Nat)
  let k := (l.hdr.ika : Int) * i + l.hdr.ikb
  if l.hdr.itag = 0 then [] else if l.hdr.isecond then [k, k + l.hdr.isec] else [k]

/-- The estate of a key, as a birth claim of a launch sees it, by its granule of register 0: sealed, and valid or reserved for the same
launch (R45, R48). Of several the claim takes the one that was sealed last, which is the valid one where there is one (DESIGN CHOICE, log entry 63). -/
def State.birthEstate (s : State) (lid : Nat) (l : Launch) (key : Int) : Option Granule :=
  if l.hdr.itag = 0 || key < 0 || (2 ^ 32 : Nat) ≤ key then none
  else
    let k := key.toNat
    let fits := fun (g : Granule) => g.ctx == l.ctx && g.tag == l.hdr.itag && g.isSealed && g.keybase == k / 32 * 32 && g.regidx == 0 &&
      (g.valid.getLsbD (k % 32) || g.heldBy.contains (k % 32, lid))
    (s.granules.filter fits).foldl (fun (b : Option Granule) g => match b with
      | some h => if h.seq < g.seq then some g else b
      | none => some g) none

/-- The granule of register `j` of the estate of a key: all its registers come from one estate (R45). -/
def State.birthGranule (s : State) (lid : Nat) (l : Launch) (key : Int) (j : Nat) : Option Granule :=
  match s.birthEstate lid l key with
  | some e => s.granules.find? fun g => g.ctx == e.ctx && g.tag == e.tag && g.lid == e.lid && g.team == e.team && g.keybase == e.keybase &&
      g.isSealed && g.regidx == j
  | none => none

/-- The live lanes of a team with their keys. -/
def Launch.teamKeys (l : Launch) (team : Nat) : List Int :=
  (List.range l.hdr.waves).flatMap fun w => (lanesOf (l.liveMask team w)).flatMap fun i => l.keysOf team w i

/-- A granule holds a key that a team claims. -/
def State.claimedBy (s : State) (lid : Nat) (l : Launch) (team : Nat) (g : Granule) : Bool :=
  l.hdr.itag != 0 && g.ctx == l.ctx && g.tag == l.hdr.itag && g.isSealed &&
  (l.teamKeys team).any fun k => match s.birthGranule lid l k g.regidx with | some h => h.gid == g.gid | none => false

/-- The granules on chip that hold present keys of a team. -/
def State.onChipGranules (s : State) (lid : Nat) (l : Launch) (team : Nat) : List Granule :=
  s.granules.filter fun g => g.core.isSome && s.claimedBy lid l team g
/-- A team holds a present key. -/
def State.hasKey (s : State) (lid : Nat) (l : Launch) (team : Nat) : Bool :=
  (l.teamKeys team).any fun k => (s.birthGranule lid l k 0).isSome

/-- A granule fits an heir team exactly and is taken in place on a core, when the directories place the team (`dir`): on a core that the counter
chose every granule arrives by copy (R53, R335). -/
def State.inPlace (s : State) (dir : Bool) (lid : Nat) (l : Launch) (team core : Nat) (g : Granule) : Bool :=
  dir && s.claimedBy lid l team g && l.hdr.ika == 1 && l.hdr.ikb % 32 == 0 && !l.hdr.isecond && !l.hdr.ikeep && l.hdr.inum == g.regcnt + 1 &&
  g.core == some core && !s.riding g && g.heldBy.all fun h => h.2 == lid

/-- Reserve the present keys of a team for its launch; rows that fit are taken in place (R48, R53). -/
def State.reserveKeys (s : State) (dir : Bool) (lid : Nat) (l : Launch) (team core : Nat) : State :=
  let ks := (l.teamKeys team).filter fun k => (s.birthGranule lid l k 0).isSome
  let place := (s.granules.filter fun g => s.inPlace dir lid l team core g).map (·.gid)
  if l.hdr.ikeep then s
  else s.putGranules (s.granules.map fun g =>
    if g.ctx == l.ctx && g.tag == l.hdr.itag && g.isSealed then
      let lanes := (ks.filter fun k => k.toNat / 32 * 32 == g.keybase && g.valid.getLsbD (k.toNat % 32)).map fun k => k.toNat % 32
      { g with valid := g.valid &&& ~~~(maskOf lanes),
               heldBy := g.heldBy ++ ((lanes.foldl (fun l i => sins i l) []).map fun i => (i, lid)),
               takenBy := if place.contains g.gid then some ⟨lid, team⟩ else g.takenBy }
    else g)

/-! ### The heir dependence (R44, R47) -/

/-- A launch that is held at its start by a page fault (R327). -/
def State.startFault (s : State) (lid : Nat) : Bool := s.faults.any fun f => f.holder == .launch lid && !f.resolved

/-- Launches of the same queue accepted before a launch. -/
def State.earlierLaunches (s : State) (lid : Nat) (l : Launch) : Tbl Nat Launch :=
  (s.launches.takeWhile fun p => p.1 != lid).filter fun p => l.queue.isSome && p.2.queue == l.queue

/-- The parent of an heir. -/
def State.heirParent (s : State) (lid : Nat) (l : Launch) : Option Nat :=
  if l.hdr.itag = 0 then none
  else match l.parent with
    | some p => some p
    | none => ((s.earlierLaunches lid l).reverse.find? fun p => p.2.hdr.tags.contains l.hdr.itag && !s.startFault p.1).map (·.1)

/-- The slot's seal mode for a tag: true when it seals per team. -/
def Header.sealsTeam (h : Header) (tag : Nat) : Bool := (h.tags.zip h.seals).any fun p => p.1 == tag && p.2

/-- An heir's team may start. -/
def State.heirReady (s : State) (lid : Nat) (l : Launch) (team : Nat) : Bool :=
  if l.hdr.itag = 0 then true
  else if (s.earlierLaunches lid l).any fun p => s.startFault p.1 then false
  else match s.heirParent lid l with
    | none => true
    | some p => match s.launch? p with
      | none => true
      | some q =>
        if q.st == .killed || q.st == .closed then true
        else if q.hdr.sealsTeam l.hdr.itag then
          (l.teamKeys team).all fun k =>
            k < 0 || (let t := k.toNat / q.hdr.threads
              q.nteams ≤ t || (match s.team? ⟨p, t⟩ with | some k => k.isSealed | none => false))
        else false

/-- The tag of a launch's inheritance clause is void in its context. -/
def State.tagVoid (s : State) (l : Launch) : Bool :=
  match s.ctx? l.ctx with | some c => c.isVoid l.hdr.itag | none => false

/-! ### Room on a core (R313, R333) -/

/-- Free wave places of a core, ascending. -/
def State.freePlaces (s : State) (core : Nat) : List Nat :=
  let used := s.teams.flatMap fun t => if t.2.onCore && t.2.core == core then t.2.places else []
  (List.range Config.wavesPerCore).filter fun p => !used.contains p

/-- Scratchpad bytes of a core in use. -/
def State.spadUsed (s : State) (core : Nat) : Nat :=
  s.teams.foldl (fun n t => if t.2.onCore && t.2.core == core then
    n + (match s.launch? t.1.lid with | some l => l.hdr.spadP | none => 0) else n) 0

/-- Granules of a core that can be moved to make room, but for some, in the order in which they move (R55). -/
def State.movableBut (s : State) (core : Nat) (keep : Granule → Bool) : List Granule :=
  let ok := s.granules.filter fun g => g.core == some core && !(keep g) && !s.riding g
  let ins := fun (g : Granule) (gs : List Granule) => gs.takeWhile (fun h => h.seq < g.seq) ++ [g] ++ gs.dropWhile (fun h => h.seq < g.seq)
  ((ok.filter (·.isSealed)).foldl (fun l g => ins g l) []) ++ ((ok.filter fun g => !g.isSealed).foldl (fun l g => ins g l) [])

/-- Granules that can be moved to make room for a new team: those that it claims stay. -/
def State.movable (s : State) (lid : Nat) (l : Launch) (team core : Nat) : List Granule :=
  s.movableBut core fun g => s.claimedBy lid l team g

/-- The core belongs to the tenant, and neither it nor a unit that it is part of is fenced: a fenced engine takes no team either (R310, R378). -/
def State.usable (s : State) (ctx core : Nat) : Bool :=
  core < Config.cores && (match s.tenant? (s.tenantOfCtx ctx) with | some t => t.clusters.getLsbD (clusterOf core) | none => false) &&
  !s.device.fencedCores.contains core && !s.device.fencedQuads.contains (quadOf core) && !s.device.fencedClusters.contains (clusterOf core)

/-- A core has room for a team when so many of its rows are free or can be freed (R333). -/
def State.roomFor (s : State) (lid : Nat) (l : Launch) (core extra : Nat) : Bool :=
  s.usable l.ctx core && !(s.teams.any fun t => t.1.lid == lid && t.2.onCore && t.2.core == core) &&
  l.hdr.waves ≤ (s.freePlaces core).length &&
  s.rowsUsed core + l.hdr.waves * l.hdr.alloc ≤ Config.rowsPerCore + extra &&
  s.spadUsed core + l.hdr.spadP ≤ Config.scratchPerCore

/-- A core can take a new team (R333): the rows it takes in place need no others (R53). -/
def State.canTake (s : State) (dir : Bool) (lid : Nat) (l : Launch) (team core : Nat) : Bool :=
  s.roomFor lid l core ((s.movable lid l team core).length + (s.granules.filter fun g => s.inPlace dir lid l team core g).length)

/-- Granules leave a core for the reserve until as many rows are free as are needed (R55). -/
def State.evict (s : State) (gs : List Granule) (need : Nat) : State :=
  (gs.take need).foldl (fun s g =>
    s.putGranules (s.granules.map fun h => if h.gid == g.gid then { h with core := none, rslot := s.reservePlace g.ctx } else h)) s

/-- Make room for a new team. -/
def State.makeRoom (s : State) (dir : Bool) (lid : Nat) (l : Launch) (team core : Nat) : State :=
  let taken := (s.granules.filter fun g => s.inPlace dir lid l team core g).length
  s.evict (s.movable lid l team core) (s.rowsUsed core + l.hdr.waves * l.hdr.alloc - taken - Config.rowsPerCore)

/-! ### Room for saved teams (R383) -/

/-- The units of a launch that are saved out: single teams, or the saved teams of a cohort. -/
def State.savedUnits (s : State) (lid : Nat) (l : Launch) : List (List TeamRef) :=
  let ts := s.teams.filter fun t => t.1.lid == lid && t.2.st == .saved
  if l.hdr.cohort = 0 then ts.map fun t => [t.1]
  else (ts.foldl (fun (cs : List Nat) t => sins t.2.cohort cs) []).map fun c => (ts.filter fun t => t.2.cohort == c).map (·.1)

/-- The waves whose engine state is saved with a team: live members of its gang, or those that operations of a dissolved gang name. -/
def State.savedWith (s : State) (t : TeamRef) : List WaveRef :=
  match (s.team? t).bind (·.gangAt) with
  | some k => (match (s.quad k).gang with | some g => (g.members.filter (·.2)).map (·.1) | none => (s.quad k).waves)
  | none => []

/-- These cores can take the teams of a saved unit: distinct cores, of one cluster for a cohort, of one free engine for the members of a
gang, another for each gang; a cohort with a team still halting is not restored yet. -/
def State.restoreFits (s : State) (lid : Nat) (l : Launch) (ts : List TeamRef) (cores : List Nat) : Bool :=
  ts.length == cores.length && (cores.zipIdx.all fun c => !((cores.take c.2).contains c.1)) &&
  (l.hdr.cohort == 0 || cores.all fun c => clusterOf c == clusterOf (cores.headD 0)) &&
  (ts.all fun t => s.saveGroup t == [t] || (s.saveGroup t).isEmpty) &&
  (cores.all fun c => s.roomFor lid l c (s.movableBut c fun _ => false).length) &&
  (ts.zip cores).all fun p =>
    let ws := s.savedWith p.1
    let q := quadOf p.2
    ws.isEmpty || ((s.quad q).gang.isNone && (s.quad q).ops.isEmpty && !s.device.fencedQuads.contains q &&
      (ts.zip cores).all fun o => (!(ws.any fun w => w.teamRef == o.1) || quadOf o.2 == q) &&
        (o.1 == p.1 || (s.savedWith o.1).isEmpty || quadOf o.2 != q))

/-! ### Which launch is served (R336, R337) -/

/-- The account of a launch: its queue, or none for the invocation account. -/
abbrev Account := Option Nat

/-- The balance and the quantum of an account of a tenant. -/
def State.balance (s : State) (tenant : Nat) : Account → Int
  | some q => match s.queue? q with | some k => k.deficit | none => 0
  | none => match s.tenant? tenant with | some t => t.deficit | none => 0
def State.quantum (s : State) : Account → Nat
  | some q => match s.queue? q with | some k => k.quantum | none => 0
  | none => 64
/-- Ties: lowest slot, the invocation account last (R337); in between, queues that hold no slot, by number (DESIGN CHOICE, log entry 69). -/
def State.accountRank (s : State) : Account → Nat
  | some q => match (s.queue? q).bind (·.slot) with | some i => i | none => 64 + q
  | none => 2 ^ 20

/-- Launches of a tenant, oldest first, that a test finds servable. -/
def State.servable (s : State) (tenant : Nat) (ok : Nat → Launch → Bool) : List (Nat × Launch) :=
  s.launches.filter fun p => p.2.st == .running && s.tenantOfCtx p.2.ctx == tenant && ok p.1 p.2

/-- Rounds of quanta until some account is positive; none when no account gains. -/
def roundsNeeded (as : List (Int × Nat)) : Option Nat :=
  as.foldl (fun (b : Option Nat) (a : Int × Nat) =>
    let n : Option Nat := if (0 : Int) < a.1 then some 0 else if a.2 = 0 then none else some ((-a.1).toNat / (1024 * a.2) + 1)
    match b, n with | some x, some y => some (min x y) | none, y => y | x, none => x) none

/-- The choice of R337: the launch to serve, and the state with the quanta given. -/
def State.pick (s : State) (tenant : Nat) (ok : Nat → Launch → Bool) : Option (Nat × State) :=
  let ls := s.servable tenant ok
  let accs := ls.foldl (fun (l : List Account) p => if l.contains p.2.queue then l else l ++ [p.2.queue]) []
  match roundsNeeded (accs.map fun a => (s.balance tenant a, s.quantum a)) with
  | none => none
  | some n =>
    let s := if n = 0 then s else accs.foldl (fun s a => match a with
      | some q => s.updQueue q fun k => { k with deficit := satDeficit (k.deficit + (n * k.quantum * 1024 : Nat)) }
      | none => s.modTenant tenant fun t => { t with deficit := satDeficit (t.deficit + (n * 64 * 1024 : Nat)) }) s
    let best := (accs.filter fun a => 0 < s.balance tenant a).foldl (fun (b : Option Account) a => match b with
      | none => some a
      | some x =>
        if s.balance tenant x < s.balance tenant a ||
           (s.balance tenant x == s.balance tenant a && s.accountRank a < s.accountRank x) then some a else some x) none
    match best with
    | some a => (ls.find? fun p => p.2.queue == a).map fun p => (p.1, s)
    | none => none

/-! ### Which teams come next (R334, R335, R53) -/

/-- The core that holds the most of a team's on-chip granules; ties to the lowest. -/
def State.bestCore (s : State) (lid : Nat) (l : Launch) (team : Nat) : Option Nat :=
  let cs := (s.onChipGranules lid l team).filterMap (·.core)
  cs.foldl (fun (b : Option Nat) c => match b with
    | none => some c
    | some x =>
      let n := fun y => (cs.filter (· == y)).length
      if n x < n c || (n x == n c && c < x) then some c else some x) none
/-- The cluster that holds the most of the on-chip granules of a cohort. -/
def State.bestCluster (s : State) (lid : Nat) (l : Launch) (ts : List Nat) : Option Nat :=
  let cs := (ts.flatMap fun t => s.onChipGranules lid l t).filterMap fun g => g.core.map clusterOf
  cs.foldl (fun (b : Option Nat) c => match b with
    | none => some c
    | some x =>
      let n := fun y => (cs.filter (· == y)).length
      if n x < n c || (n x == n c && c < x) then some c else some x) none

/-- The teams of a unit can be taken by these cores at the same moment (R333, R335). -/
def State.unitFits (s : State) (dir : Bool) (lid : Nat) (l : Launch) (ts cores : List Nat) : Bool :=
  ts.length == cores.length && (cores.zipIdx.all fun c => !((cores.take c.2).contains c.1)) &&
  (l.hdr.cohort == 0 || cores.all fun c => clusterOf c == clusterOf (cores.headD 0)) &&
  ((ts.zip cores).all fun p => s.canTake dir lid l p.1 p.2) && (s.freeBlocks l.ctx (ts.length * l.hdr.waves)).isSome

/-- Units that hold present keys and are not placed, ascending: those that the directories place (R334). -/
def State.heirUnits (s : State) (lid : Nat) (l : Launch) : List Nat :=
  if l.hdr.itag = 0 then []
  else (List.range l.units).filter fun u =>
    let ts := l.unitTeams u
    (ts.any fun t => (s.team? ⟨lid, t⟩).isNone && s.hasKey lid l t) && ts.all fun t => s.heirReady lid l t

/-- A search for a core of its own for each of several teams: the cores found so far with their teams, the cores tried, whether the last team
found one. -/
structure Matching where
  taken : Tbl Nat Nat
  tried : List Nat
  ok : Bool
  deriving DecidableEq, Repr

/-- Find a core for one team among those that can take it, where a team that stands in the way may find another; the first argument limits how
far. -/
def Matching.seat (can : Nat → List Nat) : Nat → Matching → Nat → Matching
  | 0, m, _ => { m with ok := false }
  | n + 1, m, t => (can t).foldl (fun (m : Matching) c =>
      if m.ok || m.tried.contains c then m
      else
        let m := { m with tried := c :: m.tried }
        match tget c m.taken with
        | none => { m with taken := tput c t m.taken, ok := true }
        | some u => let r := Matching.seat can n m u; if r.ok then { r with taken := tput c t r.taken } else r) { m with ok := false }

/-- Distinct cores can take the teams, one each (R335). -/
def seatAll (ts : List Nat) (can : Nat → List Nat) : Bool :=
  (ts.foldl (fun (m : Matching) t => if m.ok then Matching.seat can ts.length { m with tried := [] } t else m) ⟨[], [], true⟩).ok

/-- Distinct cores of a cluster can take the teams of a cohort, one each, at the same moment (R335). -/
def State.clusterRoom (s : State) (dir : Bool) (lid : Nat) (l : Launch) (ts : List Nat) (cluster : Nat) : Bool :=
  let cores := (List.range Config.coresPerCluster).map (192 * cluster + ·)
  (s.freeBlocks l.ctx (ts.length * l.hdr.waves)).isSome && seatAll ts fun t => cores.filter fun c => s.canTake dir lid l t c

/-- The directories place a unit on these cores (R53, R335). -/
def State.directed (s : State) (lid : Nat) (l : Launch) (u : Nat) (cores : List Nat) : Bool :=
  let ts := l.unitTeams u
  if l.hdr.cohort = 0 then
    (match s.bestCore lid l u with | some c => cores == [c] && s.unitFits true lid l ts cores | none => false)
  else
    (match s.bestCluster lid l ts with | some k => clusterOf (cores.headD 0) == k && s.unitFits true lid l ts cores | none => false)
/-- The directories can place a unit at present. A team whose best core cannot hold it goes by the counter, also when another core that holds some
of its keys could (DESIGN CHOICE, log entry 63). -/
def State.directable (s : State) (lid : Nat) (l : Launch) (u : Nat) : Bool :=
  let ts := l.unitTeams u
  if l.hdr.cohort = 0 then (match s.bestCore lid l u with | some c => s.unitFits true lid l ts [c] | none => false)
  else (match s.bestCluster lid l ts with | some k => s.clusterRoom true lid l ts k | none => false)

/-- The next ids of the team counter: those handed back first, then new ones, without those already placed. -/
def State.takeBatch (s : State) (lid : Nat) (l : Launch) (n : Nat) : List Nat × Launch :=
  let free := fun u => (l.unitTeams u).all fun t => (s.team? ⟨lid, t⟩).isNone
  let back := l.handed.filter free
  let fresh := (((List.range (l.units - l.nextTeam)).map (l.nextTeam + ·)).filter free).take (n - back.length)
  (back.take n ++ fresh,
   { l with handed := back.drop n, nextTeam := match fresh.getLast? with | some u => u + 1 | none => l.nextTeam })

/-- The ids that the counter offers a span: the rest of its batch, or a new batch after the spans without room have handed theirs back. What is handed back
stands at the head of the counter in ascending order. -/
def State.spanBatch (s : State) (lid : Nat) (l : Launch) (span : Nat) : List Nat × Launch :=
  let free := fun u => (l.unitTeams u).all fun t => (s.team? ⟨lid, t⟩).isNone
  let room := fun (sp u : Nat) =>
    let ts := l.unitTeams u
    if l.hdr.cohort = 0 then ((List.range 768).map (768 * sp + ·)).any fun c => ts.all fun t => s.canTake false lid l t c
    else (List.range 4).any fun k => s.clusterRoom false lid l ts (4 * sp + k)
  match (l.batches.getD span []).filter free with
  | u :: us => (u :: us, l)
  | [] =>
    let l := (List.range 4).foldl (fun (l : Launch) sp =>
      match (l.batches.getD sp []).filter free with
      | u :: us => if sp != span && !room sp u then { l with handed := sunion (u :: us) l.handed, batches := setAt l.batches sp [] } else l
      | [] => l) l
    let r := s.takeBatch lid l l.batch
    (r.1, { r.2 with batches := setAt r.2.batches span r.1 })

/-- A unit fits somewhere among some clusters. -/
def State.fitsIn (s : State) (lid : Nat) (l : Launch) (u : Nat) (clusters : List Nat) : Bool :=
  let ts := l.unitTeams u
  if l.hdr.cohort = 0 then
    clusters.any fun k => (List.range Config.coresPerCluster).any fun i => s.unitFits false lid l ts [192 * k + i]
  else clusters.any fun k => s.clusterRoom false lid l ts k

/-- The unit of a launch that goes onto these cores, and the launch with its counter moved. -/
def State.nextUnit (s : State) (lid : Nat) (l : Launch) (cores : List Nat) : Option (Nat × Launch) :=
  let heirs := s.heirUnits lid l
  match heirs.find? fun u => s.directed lid l u cores with
  | some u => some (u, l)
  | none =>
    if heirs.any fun u => s.directable lid l u then none
    else
      let span := spanOf (cores.headD 0)
      let b := s.spanBatch lid l span
      match b.1 with
      | u :: us =>
        let ts := l.unitTeams u
        if (ts.all fun t => s.heirReady lid l t) && s.unitFits false lid l ts cores then
          some (u, { b.2 with batches := setAt b.2.batches span us })
        else none
      | [] => none

/-! ### Placing (R333 to R337) -/

/-- A wave that is placed and not yet born. -/
def Wave.unborn (l : Launch) (live : W32) : Wave :=
  { live := live, exited := 0, born := false, ended := false, sregs := List.replicate 64 0, masks := List.replicate 8 0,
    lc := List.replicate 3 0, loops := List.replicate 3 { start := 0, last := 0, active := false, order := 0 }, loopOrder := 0, fstat := 0,
    wstat := 0, icount := 0, cycle := 0, lskip := 0, elog := List.replicate 4 0, ctr := List.replicate 8 0,
    vregs := List.replicate l.hdr.alloc VReg.zero, slot0 := none, slot1 := none, recs := [], spilled := [], nextId := 1,
    leave := List.replicate 4 LeaveSlot.zero, pend := [], switchWait := false, fences := [], bufs := [], seen := [], endAt := 0, newF := 0, newW := 0, newE := [] }

/-- The registers that a wave is born with for one claim: register, lanes, poison. -/
def State.claimRegs (s : State) (lid : Nat) (l : Launch) (w : WaveRef) (v : Wave) (nth first : Nat) : Wave :=
  (List.range l.hdr.inum).foldl (fun v j =>
    v.setV (first + j) ((lanesOf v.live).foldl (fun (r : VReg) i =>
      match (l.keysOf w.team w.wave i)[nth]? with
      | some k => (match s.birthGranule lid l k j with
          | some g => let x := s.granLane g (k.toNat % 32); r.setLane i x.1 x.2
          | none => r)
      | none => r) (v.vreg (first + j)))) v

/-- A placed wave with what its birth claims receive: they see the estates that are sealed when the team starts, and none sealed later, and what
they receive is its own from then on (R44 to R46, R48). -/
def State.claimWave (s : State) (lid : Nat) (l : Launch) (w : WaveRef) (v : Wave) : Wave :=
  let got := maskOf ((lanesOf v.live).filter fun i =>
    let ks := l.keysOf w.team w.wave i
    !ks.isEmpty && ks.all fun k => (s.birthEstate lid l k).isSome)
  let v := if l.hdr.itag = 0 then v else s.claimRegs lid l w v 0 l.hdr.iva
  let v := if l.hdr.itag != 0 && l.hdr.isecond then s.claimRegs lid l w v 1 l.hdr.ivb else v
  let orphan := l.hdr.itag != 0 && (v.live &&& ~~~got) != 0
  { v with masks := setAt (setAt v.masks 0 v.live) 7 got, wstat := if orphan then wORPHAN else 0 }

/-- Rows that a team's claims read from the reserve: an error that lasts marks its frame and is counted (R58, R374, R376). -/
def State.noteClaims (s : State) (lid : Nat) (l : Launch) (team : Nat) : State :=
  (s.granules.filter fun g => s.claimedBy lid l team g).foldl State.noteGran s
/-- The walk to such a row reads a bad table entry: the launch is killed (R358). -/
def State.claimsBad (s : State) (lid : Nat) (l : Launch) (team : Nat) : Bool :=
  s.granules.any fun g => s.claimedBy lid l team g && s.granTable g

/-- Put one team on a core: granules make room, its keys are reserved, its waves await birth. -/
def State.placeTeam (s : State) (dir : Bool) (lid : Nat) (l : Launch) (team core : Nat) (blocks : List Nat) : State :=
  let s := ((s.makeRoom dir lid l team core).reserveKeys dir lid l team core).noteClaims lid l team
  let t : Team := { core := core, places := (s.freePlaces core).take l.hdr.waves, st := .placed, placedAt := s.cycles, charged := 0,
                    cohort := if l.hdr.cohort = 0 then 0 else team / l.hdr.cohort, rank := if l.hdr.cohort = 0 then 0 else team % l.hdr.cohort,
                    spad := [], absent := [], counts := [], spoison := [], bars := [], stages := [], taken := 0,
                    bermBlocks := blocks, imgBlocks := [], escrow := none, isSealed := false, haltTime := 0, gangAt := none, image := [], carry := [], haltEsc := none }
  let s := { s with teams := tput ⟨lid, team⟩ t s.teams }
  let claimed := (List.range l.hdr.waves).map fun w =>
    ((⟨lid, team, w⟩ : WaveRef), s.claimWave lid l ⟨lid, team, w⟩ (Wave.unborn l (l.liveMask team w)))
  claimed.foldl (fun s p => s.setWave p.1 p.2) s

/-- A launch that is refused, or cancelled before any thread starts, made no launch: its handle breaks, its packet's record names the launch,
or the last launch made when a prologue made it (R44, R47, R322, R327, R332, R398). -/
def State.refuseLaunch (s : State) (lid : Nat) (l : Launch) (status : Nat) : State :=
  let s := (s.modLaunch lid fun l => { l with st := .closed }).settleAccount lid
  let s := State.refuseHandle { s with launches := tdel lid s.launches } l.handle status
  match l.packet with
  | none => s
  | some pid =>
    let last := match s.packet? pid with
      | some p => if p.prologue.isSome && p.lid != lid then
          (p.lid, match s.launch? p.lid with | some m => m.sig | none => 0) else (lid, l.sig)
      | none => (lid, l.sig)
    s.completePacket pid { status := status, code := 0, offset := 0, lid := last.1, sig := last.2 }

/-- The unit of a launch that is placed next on some cores: under R348 the least that has not started, else as R334 says. -/
def State.placeNext (s : State) (lid : Nat) (l : Launch) (cores : List Nat) : Option (Nat × Launch) :=
  if l.detSaved then
    match (List.range l.units).find? fun u => (l.unitTeams u).all fun t => (s.team? ⟨lid, t⟩).isNone with
    | some u => if ((l.unitTeams u).all fun t => s.heirReady lid l t) && (s.directed lid l u cores || s.unitFits false lid l (l.unitTeams u) cores) then some (u, l) else none
    | none => none
  else s.nextUnit lid l cores

/-- Some unit of a launch that is to be placed next fits on cores of the tenant (R333 to R335). -/
def State.placeable (s : State) (lid : Nat) (l : Launch) : Bool :=
  let ready := fun u => (l.unitTeams u).all fun t => s.heirReady lid l t
  if l.detSaved then
    match (List.range l.units).find? fun u => (l.unitTeams u).all fun t => (s.team? ⟨lid, t⟩).isNone with
    | some u => ready u && (s.directable lid l u || s.fitsIn lid l u (List.range 16))
    | none => false
  else
    ((s.heirUnits lid l).any fun u => s.directable lid l u) || (List.range 4).any fun sp =>
      match (s.spanBatch lid l sp).1 with
      | u :: _ => ready u && s.fitsIn lid l u ((List.range 4).map (4 * sp + ·))
      | [] => false

/-- A launch has its saved teams restored before any of its unplaced ids are placed (R380); under R348 the unstarted come first, and the saved as
room is left. -/
def State.restores (s : State) (lid : Nat) (l : Launch) : Bool :=
  (s.teams.any fun t => t.1.lid == lid && t.2.st == .saved) && !(l.detSaved && s.unplaced lid l && s.placeable lid l)

/-- A saved unit fits on cores of one cluster, each of its gangs on the cores of a free engine (R383). -/
def State.restorable (s : State) (lid : Nat) (l : Launch) (ts : List TeamRef) : Bool :=
  let gangs := (ts.map fun t => (ts.filter fun o => (s.savedWith t).any fun w => w.teamRef == o).length).filter (· ≠ 0)
  let room := fun c => s.roomFor lid l c (s.movableBut c fun _ => false).length
  (ts.all fun t => s.saveGroup t == [t] || (s.saveGroup t).isEmpty) && (List.range 16).any fun k =>
    let cores := ((List.range Config.coresPerCluster).map (192 * k + ·)).filter room
    let quads := ((List.range 48).map (48 * k + ·)).filter fun q => (s.quad q).gang.isNone && (s.quad q).ops.isEmpty
    ts.length ≤ cores.length && gangs.all fun n =>
      (gangs.filter (n ≤ ·)).length ≤ (quads.filter fun q => n ≤ (cores.filter fun c => quadOf c == q).length).length

/-- A launch has a team that fits (R337): saved teams come before unplaced ids (R380). -/
def State.wants (s : State) (lid : Nat) (l : Launch) : Bool :=
  if s.restores lid l then (s.savedUnits lid l).any fun ts => s.restorable lid l ts else s.unplaced lid l && s.placeable lid l

/-- TEAM_PLACE: the part picks a launch whose next team, or cohort, goes onto these cores (R337). The strict heir test is made when the first
team would start (R47). -/
def execTeamPlace (tenant : BitVec 4) (cores : List Nat) (s : State) : Host.Outcome State Fault Refusal :=
  match s.pick tenant.toNat s.wants with
  | none => .fault (.cannotOccur "TEAM_PLACE")
  | some (lid, t) =>
    match s.launch? lid with
    | none => .fault (.cannotOccur "TEAM_PLACE")
    | some l =>
      if s.restores lid l then .fault (.cannotOccur "TEAM_PLACE")
      else if l.hdr.istrict && s.tagVoid l && !(s.teams.any fun t => t.1.lid == lid) then done s (t.refuseLaunch lid l 4)
      else match s.placeNext lid l cores with
        | none => .fault (.cannotOccur "TEAM_PLACE")
        | some (u, l') =>
          let ts := l.unitTeams u
          let blocks := (s.freeBlocks l.ctx (ts.length * l.hdr.waves)).getD []
          let t := t.modLaunch lid fun _ => l'
          let t := (ts.zip cores).zipIdx.foldl (fun t p =>
            t.placeTeam (s.directed lid l u cores) lid l p.1.1 p.1.2 ((blocks.drop (p.2 * l.hdr.waves)).take l.hdr.waves)) t
          let t := t.modAccount lid fun d => d - (1024 * ts.length : Nat)
          done s (if ts.any (s.claimsBad lid l) then t.killLaunch lid 0x0E 0 0 else t)

/-! ### Birth (R18, R45, R46, R54) -/

/-- A wave as it is born, with the rows that it has claimed. -/
def Wave.bear (l : Launch) (v : Wave) : Wave :=
  let p : Path := { pid := 1, pc := l.hdr.entry, mask := v.live, age := 0, srec := none, hdr := 0, cls := 0, count := 0, inClause := false,
                    waits := 0, park := .none, since := 0, yielded := none, owed := [], parkOff := 0 }
  { v with born := true, nextId := 2, slot0 := if v.live == 0 then none else some p, ended := v.live == 0 }

/-- WAVE_BIRTH: the wave's rows have arrived. When the last wave of the team is born, the team runs; one that has image blocks is to be saved and halts (R385). -/
def execWaveBirth (w : WaveRef) (s : State) : Host.Outcome State Fault Refusal :=
  match s.wave? w, s.launch? w.lid, s.team? w.teamRef with
  | some v, some l, some t =>
    let s' := (s.setWave w (v.bear l)).dropCache t.core
    let all := s'.waves.all fun p => !(p.1.teamRef == w.teamRef) || p.2.born
    let s' := if all then s'.modTeam w.teamRef fun k =>
        { k with st := .resident } else s'
    let s' := if all && !t.imgBlocks.isEmpty then s'.haltTeam w.teamRef t.imgBlocks else s'
    let s' := if s'.waves.all fun p => !(p.1.teamRef == w.teamRef) || p.2.ended then (s'.retireTeam w.teamRef).settleSaves else s'
    stepIf "WAVE_BIRTH" (!v.born && t.st == .placed && l.st == .running) s s'
  | _, _, _ => .fault (.cannotOccur "WAVE_BIRTH")

/-! ### Sealing (R39 to R42) -/

/-- Seal the granules that a test names: a new sequence number each, in the order in which they were formed (DESIGN CHOICE, log entry 63); older
sealed lanes of the same keys lose VALID; the void flag that an earlier launch set on the tag is cleared (R41, R42). -/
def State.sealEstates (s : State) (ctx : Nat) (which : Granule → Bool) : State :=
  let news := s.granules.filter fun g => !g.isSealed && which g
  news.foldl (fun s g =>
    let seq := (match s.ctx? ctx with | some c => c.seq | none => 0) + 1
    let s := s.modCtx ctx fun c => { (c.clearVoid g.tag (s.orderOf g.lid)) with seq := seq }
    s.putGranules (s.granules.map fun h =>
      if h.gid == g.gid then { h with isSealed := true, seq := seq }
      else if h.ctx == ctx && h.tag == g.tag && h.isSealed && h.keybase == g.keybase && !(news.any fun n => n.gid == h.gid) then
        { h with valid := h.valid &&& ~~~g.valid }
      else h)) s

/-- Every store and atomic of the waves that a test names has been acknowledged, those of an `mst` included (R163). -/
def State.storesAcked (s : State) (which : WaveRef → Bool) : Bool :=
  !(s.queue.any fun r => which r.w) && !(s.buffer.any fun r => which r.w) &&
  !(s.quads.any fun q => q.2.ops.any fun o => (match o.instr with | .mst .. => true | _ => false) && o.members.any fun m => which m.1) &&
  s.waves.all fun p => !(which p.1) || !(p.2.pend.any fun q => match q.kind with | .mem r _ _ _ => r.op != .load | _ => false)

/-- The device-scope release of waves that have ended, by a seal or by a retirement: what they stored has been acknowledged, and so has what they
had observed of stores on their way; what their fences acquire is acquired (R40, R117, R121, R123, R125). -/
def State.allReleased (s : State) (which : WaveRef → Bool) : Bool :=
  s.storesAcked which && s.waves.all fun p => !(which p.1) || (s.storesAt p.1 p.2.endAt 3 && !(p.2.fences.any Fence.owes))

/-- TEAM_SEAL: a retired team of a launch that seals per team. -/
def execTeamSeal (t : TeamRef) (s : State) : Host.Outcome State Fault Refusal :=
  match s.team? t, s.launch? t.lid with
  | some k, some l =>
    let mode := fun (g : Granule) => g.lid == t.lid && g.team == t.team && l.hdr.sealsTeam g.tag
    stepIf "TEAM_SEAL" (k.st == .retired && !k.isSealed && l.st == .running && l.hdr.seals.any id && s.allReleased (·.teamRef == t)) s
      ((s.sealEstates l.ctx mode).modTeam t fun k => { k with isSealed := true })
  | _, _ => .fault (.cannotOccur "TEAM_SEAL")

/-! ### Retirement and the kill's record (R48, R125, R322, R373) -/

/-- A launch that is over: its waves and teams are gone, its account is settled, its record follows unless its packet runs again (R332). -/
def State.closeLaunch (s : State) (lid : Nat) (l : Launch) (r : Report) : State :=
  let s := (s.modLaunch lid fun l => { l with st := .closed }).settleInvokes
  let s := s.settleAccount lid
  let s := { s with waves := s.waves.filter (fun p => p.1.lid ≠ lid), teams := s.teams.filter (fun p => p.1.lid ≠ lid),
                    takes := s.takes.filter (fun t => t.w.lid ≠ lid) }
  match l.packet with
  | some pid =>
    let again := r.status == 0 && (match s.packet? pid with
      | some p => (match p.prologue with | some q => q.rerun | none => false) | none => false)
    (if again then s else s.completePacket pid r).settleSaves
  | none => s.settleSaves

/-- Every condition of R125. -/
def State.canRetire (s : State) (lid : Nat) (l : Launch) : Bool :=
  l.st == .running && (s.teams.filter fun t => t.1.lid == lid).length == l.nteams &&
  (s.teams.all fun t => t.1.lid != lid || (t.2.st == .retired && t.2.escrow.isNone)) &&
  s.allReleased (·.lid == lid) &&
  (s.waves.all fun p => p.1.lid != lid || p.2.pend.isEmpty) &&
  (l.timelines.all fun t => t.value == t.issued)

/-- A launch retires: lanes held as an heir are freed, its own bequests seal, its handle resolves, its record is written. -/
def State.retireLaunch (s : State) (lid : Nat) (l : Launch) : State :=
  (((s.freeHeld lid).sealEstates l.ctx fun g => g.lid == lid).notify l.handle .resolved).closeLaunch lid l
    { status := 0, code := 0, offset := 0, lid := lid, sig := l.sig }

/-- LAUNCH_RETIRE. -/
def execLaunchRetire (lid : Nat) (s : State) : Host.Outcome State Fault Refusal :=
  match s.launch? lid with
  | none => .fault (.cannotOccur "LAUNCH_RETIRE")
  | some l =>
    stepIf "LAUNCH_RETIRE" (s.canRetire lid l) s (s.retireLaunch lid l)

/-- KILL_RECORD_WRITE: the stores of a killed launch have been acknowledged. -/
def execKillRecordWrite (lid : Nat) (s : State) : Host.Outcome State Fault Refusal :=
  match s.launch? lid with
  | none => .fault (.cannotOccur "KILL_RECORD_WRITE")
  | some l =>
    let k := l.kill.getD (0, 0, 0)
    stepIf "KILL_RECORD_WRITE" (l.st == .killed && s.storesAcked (·.lid == lid)) s
      (s.closeLaunch lid l { status := k.1, code := k.2.2, offset := k.2.1, lid := lid, sig := l.sig })

end Sys2Proof.Machine
end

