-- ==== Sys2Proof/Machine/Placed.lean ====
section
/-! DEFINITION. The part with one instruction placed where its next step fetches: what loading and launching a program would have left (log
entry 6). -/

namespace Sys2Proof.Machine

/-- Eight bytes of memory from an address up. -/
def word8 (a v : Nat) : List (Nat × Byte) := (leBytes 8 v).zipIdx.map fun p => (a + p.2, p.1)

/-- Page tables that map the first page of a kernel at virtual and physical address 0x10000, readable, writable and executable; a clause of
the instruction's class and length; the instruction's words. -/
def placedBytes (nbits w : Nat) : List (Nat × Byte) :=
  let n := w % 2 ^ nbits
  let cls := match decodeTableWord nbits w with | some i => classOf i | none => 0
  let count := if isLongMajor n then 2 else 1
  word8 0x4000 0x8001 ++ word8 0x8000 0x9001 ++ word8 0x9000 0xA001 ++ word8 0xA020 0x10007 ++
  word8 0x10040 (0xC5000000 + cls * 2 ^ 12 + count) ++ word8 0x10044 n

/-- A kernel that declares every register, one wave, scratchpad, cohorts of one team and four tags. -/
def placedHeader : Header :=
  { enc := 3, vregs := 96, sregs := 64, waves := 1, spad := 128, cohort := 1, det := false, strict := false, args := 0, entry := 64,
    codelen := 12, tags := [1, 2, 3, 4], seals := [false, false, false, false], itag := 0, ika := 0, ikb := 0, isecond := false, isec := 0,
    ikeep := false, istrict := false, iva := 0, ivb := 0, inum := 0 }

/-- Its launch. -/
def placedLaunch : Launch :=
  { ctx := 0, queue := none, packet := none, kernel := 0x10000, hdr := placedHeader, items := 32, fmode := 0, batch := 16, args := [],
    tmplAddr := 0, ntempl := 0, homeSpan := 0, nteams := 1, nextTeam := 1, handed := [], batches := List.replicate 4 [], st := .running, sig := 0,
    kill := none, tickets := List.replicate 8 0, marked := [], timelines := List.replicate 16 Timeline.zero, handle := 0, parent := none,
    detSaved := false, order := 0 }

/-- Its team, on core 0. -/
def placedTeam : Team :=
  { core := 0, places := [0], st := .resident, placedAt := 0, charged := 0, cohort := 0, rank := 0, spad := [], absent := [], counts := [],
    spoison := [], bars := [], stages := [], taken := 0, bermBlocks := [0], imgBlocks := [], escrow := none, isSealed := false, haltTime := 0,
    gangAt := none, image := [], carry := [], haltEsc := none }

/-- Its wave: 32 live lanes, one path before the clause header. -/
def placedWave : Wave :=
  { Wave.unborn placedLaunch 0xFFFFFFFF with
    born := true, nextId := 2, masks := setAt (List.replicate 8 0) 0 0xFFFFFFFF,
    slot0 := some { pid := 1, pc := 64, mask := 0xFFFFFFFF, age := 0, srec := none, hdr := 0, cls := 0, count := 0, inClause := false,
                    waits := 0, park := .none, since := 0, yielded := none, owed := [], parkOff := 0 } }

/-- The state with the instruction placed: READY, one tenant, one context, one launch of one wave, and core 0's turn. -/
def State.placed (s : State) (nbits w : Nat) : State :=
  { s with
    mem := mwriteAll (placedBytes nbits w) s.mem, wlog := [], mempoison := [], lasting := [], tlb := [], walks := [],
    device := { s.device with powered := true, phase := 6, thermtrip := false, frames := [] },
    tenants := [(0, { raw := BitVec.ofNat 256 (2 ^ 16 + (2 ^ 32 - 1) * 2 ^ 32), en := true, st := 1, events := [], faultSeq := 0, deficit := 0 })],
    ctxs := [(0, { raw := BitVec.ofNat 512 (0x4000 * 2 ^ 192 + 8192 * 2 ^ 64), en := true, voids := [], seq := 0,
                   copyTl := List.replicate 16 Timeline.zero })],
    launches := [(1, placedLaunch)], teams := [(⟨1, 0⟩, placedTeam)], waves := [(⟨1, 0, 0⟩, placedWave)],
    issued := [], beat := 0, divHold := [], cur := none, agenda := [.core 0] }

end Sys2Proof.Machine
end

