-- ==== Sys2Proof/Machine/Scalar.lean ====
section
/-! DEFINITION. The meanings of the scalar instructions: arithmetic, logic, shifts, constants, compares, counts, status registers (R222 to R230, R235 to R238). -/

namespace Sys2Proof.Machine

/-! ### The functions of R223 to R230 -/

def shiftL (a : Word) (c : Nat) : Word := a <<< c
def shiftR (a : Word) (c : Nat) : Word := a >>> c
def shiftA (a : Word) (c : Nat) : Word := a.sshiftRight c
/-- The count of a shift by register: bits [5:0] (R222). -/
def regCount (b : Word) : Nat := b.toNat % 64
def mulHigh (a b : Word) : Word := BitVec.ofInt 64 ((a.toInt * b.toInt) >>> (64 : Nat))
def mulHighU (a b : Word) : Word := BitVec.ofNat 64 (a.toNat * b.toNat / 2 ^ 64)
/-- Signed quotient, truncated; all ones for a zero divisor; −2^63 ÷ −1 wraps to −2^63 (R224). -/
def divS (a b : Word) : Word := if b = 0 then 0xFFFFFFFFFFFFFFFF else BitVec.ofInt 64 (a.toInt.tdiv b.toInt)
def divU (a b : Word) : Word := if b = 0 then 0xFFFFFFFFFFFFFFFF else BitVec.ofNat 64 (a.toNat / b.toNat)
/-- Signed remainder with the sign of the dividend; the dividend for a zero divisor (R224). -/
def remS (a b : Word) : Word := if b = 0 then a else BitVec.ofInt 64 (a.toInt.tmod b.toInt)
def remU (a b : Word) : Word := if b = 0 then a else BitVec.ofNat 64 (a.toNat % b.toNat)
/-- The conditions of `scmp` (R228). -/
def scalarCond (f : Nat) (a b : Word) : Bool :=
  match f with
  | 0 => a == b | 1 => a != b | 2 => decide (a.toInt < b.toInt) | 3 => decide (a.toInt ≤ b.toInt)
  | 4 => decide (a.toNat < b.toNat) | _ => decide (a.toNat ≤ b.toNat)
def minS (a b : Word) : Word := if b.toInt < a.toInt then b else a
def maxS (a b : Word) : Word := if a.toInt < b.toInt then b else a
def minU (a b : Word) : Word := if b.toNat < a.toNat then b else a
def maxU (a b : Word) : Word := if a.toNat < b.toNat then b else a

/-- A scalar result of two registers. -/
def scalar2 (x : Bool) (i : Instr) (s : State) (d a b : BitVec 6) (f : Word → Word → Word) : Host.Outcome State Fault Refusal :=
  issueWave x i s fun k v => v.setS d.toNat (f (k.s a) (k.s b))
/-- A scalar result of one register. -/
def scalar1 (x : Bool) (i : Instr) (s : State) (d a : BitVec 6) (f : Word → Word) : Host.Outcome State Fault Refusal :=
  issueWave x i s fun k v => v.setS d.toNat (f (k.s a))
/-- A division: the result of two registers; the core's issue slot is held for 40 cycles (R224). -/
def scalarDiv (x : Bool) (i : Instr) (s : State) (d a b : BitVec 6) (f : Word → Word → Word) : Host.Outcome State Fault Refusal :=
  issue x i s fun k t =>
    ({ (t.modWave k.w fun v => v.setS d.toNat (f (k.s a) (k.s b))) with divHold := tput (s.coreOf k.w.teamRef) 40 s.divHold }, true)

/-- `sadd` (R223). -/
def execSadd (x : Bool) (d a b : BitVec 6) (s : State) : Host.Outcome State Fault Refusal :=
  scalar2 x (.sadd x d a b) s d a b (fun a b => a + b)

/-- `ssub` (R223). -/
def execSsub (x : Bool) (d a b : BitVec 6) (s : State) : Host.Outcome State Fault Refusal :=
  scalar2 x (.ssub x d a b) s d a b (fun a b => a - b)

/-- `sand` (R223). -/
def execSand (x : Bool) (d a b : BitVec 6) (s : State) : Host.Outcome State Fault Refusal :=
  scalar2 x (.sand x d a b) s d a b (fun a b => a &&& b)

/-- `sor` (R223). -/
def execSor (x : Bool) (d a b : BitVec 6) (s : State) : Host.Outcome State Fault Refusal :=
  scalar2 x (.sor x d a b) s d a b (fun a b => a ||| b)

/-- `sxor` (R223). -/
def execSxor (x : Bool) (d a b : BitVec 6) (s : State) : Host.Outcome State Fault Refusal :=
  scalar2 x (.sxor x d a b) s d a b (fun a b => a ^^^ b)

/-- `sshl` (R223). -/
def execSshl (x : Bool) (d a b : BitVec 6) (s : State) : Host.Outcome State Fault Refusal :=
  scalar2 x (.sshl x d a b) s d a b (fun a b => shiftL a (regCount b))

/-- `sshr` (R223). -/
def execSshr (x : Bool) (d a b : BitVec 6) (s : State) : Host.Outcome State Fault Refusal :=
  scalar2 x (.sshr x d a b) s d a b (fun a b => shiftR a (regCount b))

/-- `ssra` (R223). -/
def execSsra (x : Bool) (d a b : BitVec 6) (s : State) : Host.Outcome State Fault Refusal :=
  scalar2 x (.ssra x d a b) s d a b (fun a b => shiftA a (regCount b))

/-- `smul` (R224). -/
def execSmul (x : Bool) (d a b : BitVec 6) (s : State) : Host.Outcome State Fault Refusal :=
  scalar2 x (.smul x d a b) s d a b (fun a b => a * b)

/-- `smulh` (R224). -/
def execSmulh (x : Bool) (d a b : BitVec 6) (s : State) : Host.Outcome State Fault Refusal :=
  scalar2 x (.smulh x d a b) s d a b mulHigh

/-- `smulhw` (R224). -/
def execSmulhw (x : Bool) (d a b : BitVec 6) (s : State) : Host.Outcome State Fault Refusal :=
  scalar2 x (.smulhw x d a b) s d a b mulHighU

/-- `sdiv` (R224). -/
def execSdiv (x : Bool) (d a b : BitVec 6) (s : State) : Host.Outcome State Fault Refusal :=
  scalarDiv x (.sdiv x d a b) s d a b divS

/-- `sdivw` (R224). -/
def execSdivw (x : Bool) (d a b : BitVec 6) (s : State) : Host.Outcome State Fault Refusal :=
  scalarDiv x (.sdivw x d a b) s d a b divU

/-- `srem` (R224). -/
def execSrem (x : Bool) (d a b : BitVec 6) (s : State) : Host.Outcome State Fault Refusal :=
  scalarDiv x (.srem x d a b) s d a b remS

/-- `sremw` (R224). -/
def execSremw (x : Bool) (d a b : BitVec 6) (s : State) : Host.Outcome State Fault Refusal :=
  scalarDiv x (.sremw x d a b) s d a b remU

/-- `smin` (R229). -/
def execSmin (x : Bool) (d a b : BitVec 6) (s : State) : Host.Outcome State Fault Refusal :=
  scalar2 x (.smin x d a b) s d a b minS

/-- `smax` (R229). -/
def execSmax (x : Bool) (d a b : BitVec 6) (s : State) : Host.Outcome State Fault Refusal :=
  scalar2 x (.smax x d a b) s d a b maxS

/-- `sminw` (R229). -/
def execSminw (x : Bool) (d a b : BitVec 6) (s : State) : Host.Outcome State Fault Refusal :=
  scalar2 x (.sminw x d a b) s d a b minU

/-- `smaxw` (R229). -/
def execSmaxw (x : Bool) (d a b : BitVec 6) (s : State) : Host.Outcome State Fault Refusal :=
  scalar2 x (.smaxw x d a b) s d a b maxU

/-- `saddi` (R225). -/
def execSaddi (x : Bool) (d a : BitVec 6) (i : BitVec 12) (s : State) : Host.Outcome State Fault Refusal :=
  scalar1 x (.saddi x d a i) s d a fun a => a + i.signExtend 64

/-- `sandi` (R225). -/
def execSandi (x : Bool) (d a : BitVec 6) (i : BitVec 12) (s : State) : Host.Outcome State Fault Refusal :=
  scalar1 x (.sandi x d a i) s d a fun a => a &&& i.signExtend 64

/-- `sori` (R225). -/
def execSori (x : Bool) (d a : BitVec 6) (i : BitVec 12) (s : State) : Host.Outcome State Fault Refusal :=
  scalar1 x (.sori x d a i) s d a fun a => a ||| i.signExtend 64

/-- `sxori` (R225). -/
def execSxori (x : Bool) (d a : BitVec 6) (i : BitVec 12) (s : State) : Host.Outcome State Fault Refusal :=
  scalar1 x (.sxori x d a i) s d a fun a => a ^^^ i.signExtend 64

/-- `sshli` (R226). -/
def execSshli (x : Bool) (d a c : BitVec 6) (s : State) : Host.Outcome State Fault Refusal :=
  scalar1 x (.sshli x d a c) s d a fun a => shiftL a c.toNat

/-- `sshri` (R226). -/
def execSshri (x : Bool) (d a c : BitVec 6) (s : State) : Host.Outcome State Fault Refusal :=
  scalar1 x (.sshri x d a c) s d a fun a => shiftR a c.toNat

/-- `ssrai` (R226). -/
def execSsrai (x : Bool) (d a c : BitVec 6) (s : State) : Host.Outcome State Fault Refusal :=
  scalar1 x (.ssrai x d a c) s d a fun a => shiftA a c.toNat

/-- `smovi` (R227). -/
def execSmovi (x : Bool) (d : BitVec 6) (i : BitVec 18) (s : State) : Host.Outcome State Fault Refusal :=
  issueWave x (.smovi x d i) s fun _ v => v.setS d.toNat (i.signExtend 64)

/-- `smovl` (R227). -/
def execSmovl (x : Bool) (d : BitVec 6) (i : BitVec 32) (s : State) : Host.Outcome State Fault Refusal :=
  issueWave x (.smovl x d i) s fun _ v => v.setS d.toNat (i.signExtend 64)

/-- `smovh`: the high half; the low half stays (R227). -/
def execSmovh (x : Bool) (d : BitVec 6) (i : BitVec 32) (s : State) : Host.Outcome State Fault Refusal :=
  issueWave x (.smovh x d i) s fun k v => v.setS d.toNat (i ++ (k.s d).setWidth 32)

/-- `scmp` (R228). -/
def execScmp (x : Bool) (f : BitVec 3) (d a b : BitVec 6) (s : State) : Host.Outcome State Fault Refusal :=
  scalar2 x (.scmp x f d a b) s d a b fun a b => Word.ofBool (scalarCond f.toNat a b)

/-- `spopc` (R230). -/
def execSpopc (x : Bool) (d a : BitVec 6) (s : State) : Host.Outcome State Fault Refusal :=
  scalar1 x (.spopc x d a) s d a fun a => BitVec.ofNat 64 (popc 64 a.toNat)

/-- `sclz`: 64 for zero (R230). -/
def execSclz (x : Bool) (d a : BitVec 6) (s : State) : Host.Outcome State Fault Refusal :=
  scalar1 x (.sclz x d a) s d a fun a => BitVec.ofNat 64 (clz 64 a.toNat)

/-- `sctz`: 64 for zero (R230). -/
def execSctz (x : Bool) (d a : BitVec 6) (s : State) : Host.Outcome State Fault Refusal :=
  scalar1 x (.sctz x d a) s d a fun a => BitVec.ofNat 64 (ctz 64 a.toNat)

/-! ### Status registers (R235 to R238) -/

/-- The value of a status register at an issue of the path (R236): the counts are those before the reading instruction (R238). -/
def statusRead (k : Site) (n : Nat) : Word :=
  match n with
  | 0 => k.l.fmode.setWidth 64
  | 1 => k.v.fstat.setWidth 64
  | 2 => k.v.wstat
  | 3 => k.l.sig
  | 4 => k.v.icount
  | 5 => k.v.cycle
  | 6 => BitVec.ofNat 64 k.w.team
  | 7 => BitVec.ofNat 64 k.l.nteams
  | 8 => BitVec.ofNat 64 k.w.lid
  | 32 => (k.v.loopc 0).setWidth 64
  | 33 => (k.v.loopc 1).setWidth 64
  | 34 => (k.v.loopc 2).setWidth 64
  | _ => k.v.elog.getD (n - 16) 0

/-- Write a status register under its access code (R72, R236, R237); what is set in the same cycle stands (R247). -/
def statusWrite (v : Wave) (n : Nat) (x : Word) : Wave :=
  match n with
  | 1 => { v with fstat := fstatRaise (fstatWrite v.fstat x) v.newF }
  | 2 => { v with wstat := wstatWrite v.wstat x ||| v.newW }
  | 16 => v.newE.foldl Wave.putElog { v with elog := List.replicate 4 0 }
  | 32 => v.setLc 0 (x.setWidth 32)
  | 33 => v.setLc 1 (x.setWidth 32)
  | 34 => v.setLc 2 (x.setWidth 32)
  | _ => v

/-- `rdsr` (R235). -/
def execRdsr (x : Bool) (d : BitVec 6) (i : BitVec 12) (s : State) : Host.Outcome State Fault Refusal :=
  issueWave x (.rdsr x d i) s fun k v => v.setS d.toNat (statusRead k i.toNat)

/-- `wrsr` (R235). -/
def execWrsr (x : Bool) (a : BitVec 6) (i : BitVec 12) (s : State) : Host.Outcome State Fault Refusal :=
  issueWave x (.wrsr x a i) s fun k v => statusWrite v i.toNat (k.s a)

/-- `nop`: counts in ICOUNT and does nothing else (R213). -/
def execNop (x : Bool) (s : State) : Host.Outcome State Fault Refusal :=
  issueWave x (.nop x) s fun _ v => v

end Sys2Proof.Machine
end

