-- ==== Sys2Proof/Machine/Launching.lean ====
section
/-! DEFINITION. Accepting a launch: the kernel header and its checks (R206, R207), the reads at its start, its signature (R327, R328, R349),
the prologue of an indirect launch (R329 to R331). -/

namespace Sys2Proof.Machine

/-! ### The kernel header -/

/-- The fields of a header (R206). -/
def Header.ofNat (n : Nat) : Header :=
  { enc := bits n 32 8, vregs := bits n 40 8, sregs := bits n 48 8, waves := bits n 56 8, spad := bits n 64 32, cohort := bits n 96 8,
    det := n.testBit 104, strict := n.testBit 105, args := bits n 112 16, entry := bits n 128 32, codelen := bits n 160 32,
    tags := (List.range 4).map fun j => bits n (192 + 16 * j) 16, seals := (List.range 4).map fun j => n.testBit (256 + j),
    itag := bits n 264 16, ika := bits n 280 3 + 1, ikb := sx 32 (bits n 320 32), isecond := n.testBit 283, isec := sx 32 (bits n 352 32),
    ikeep := n.testBit 284, istrict := n.testBit 285, iva := bits n 288 7, ivb := bits n 296 7, inum := bits n 304 4 + 1 }

/-- Every zero field of a header is zero. -/
def headerZero (n : Nat) : Bool :=
  bits n 384 128 == 0 && bits n 308 12 == 0 && !n.testBit 303 && !n.testBit 295 && bits n 286 2 == 0 && bits n 260 4 == 0 && bits n 106 6 == 0
/-- Every other field of the inheritance clause is zero. -/
def inheritZero (n : Nat) : Bool := bits n 280 6 == 0 && bits n 288 7 == 0 && bits n 296 7 == 0 && bits n 304 4 == 0 && bits n 320 64 == 0

/-- Tags are distinct and fill the slots from t0 up (R35, R206). -/
def tagsOk (ts : List Nat) : Bool :=
  ts.zipIdx.all fun p => p.1 == 0 ||
    (!((ts.take p.2).contains p.1) && (ts.take p.2).all (· != 0))

/-- The inheritance clause is admissible (R43, R207). -/
def inheritOk (n : Nat) (h : Header) : Bool :=
  if h.itag = 0 then inheritZero n
  else
    h.iva + h.inum ≤ h.alloc &&
    (!h.isecond || (h.ivb + h.inum ≤ h.alloc && h.isec != 0 && (h.iva + h.inum ≤ h.ivb || h.ivb + h.inum ≤ h.iva)))

/-- The third group of checks. -/
def headerOk (n : Nat) (h : Header) : Bool :=
  0 < h.vregs && h.vregs ≤ 96 && 0 < h.sregs && h.sregs ≤ 64 && 0 < h.waves && h.waves ≤ 16 && h.cohort ≤ 192 &&
  h.args % 8 == 0 && h.args ≤ 4096 && h.spad ≤ 131072 && 0 < h.codelen && h.codelen % 4 == 0 && h.waves * h.alloc ≤ Config.rowsPerCore &&
  h.entry % 4 == 0 && 64 ≤ h.entry && h.entry < 64 + h.codelen && headerZero n && inheritOk n h && tagsOk h.tags &&
  (h.enc != 1 || h.tags.all (· == 0))

/-- The status of the first check that a header fails; 0 when it passes (R207). -/
def headerStatus (n : Nat) : Nat :=
  let h := Header.ofNat n
  if bits n 0 32 != 0x004B4853 then 1
  else if h.enc == 0 || 3 < h.enc then 2
  else if headerOk n h then 0 else 1

/-! ### The reads of a start (R327 step 4) -/

/-- What loading a launch comes to: its header, argument block and signature; a refusal; a page fault. -/
inductive LoadRes where
  | ok (h : Header) (args : List Byte) (sig : Word)
  | refuse (status : Nat)
  | fault (va : Nat) (cause level : Nat)
  deriving DecidableEq, Repr

/-- A read at a start: R92 over the range, then the bytes. -/
def State.startRead (s : State) (ctx : Nat) (k : AccKind) (a : Word) (n : Nat) (f : List Byte → LoadRes) : LoadRes :=
  if n = 0 then f []
  else if badVA a || badVA (a + BitVec.ofNat 64 (n - 1)) then .refuse 0x0B
  else match s.readVA false 0 ctx k a n with
    | .ok bs => f bs
    | .bad => .refuse 0x0B
    | .poison => .refuse 0x0E
    | .refused => .refuse 0x0D
    | .fault va c lv => .fault va c lv

/-- The bytes that a signature covers after the code (R349). -/
def signed (fmode : W32) (items : Nat) (args tmpl : List Byte) : List Byte :=
  leBytes 4 fmode.toNat ++ leBytes 4 items ++ args ++ tmpl ++ [0x01]

/-- Steps 4 to 7 of R327 for a launch; `argsAt` names the argument block in memory, none when the packet carried it. -/
def State.loadImage (s : State) (l : Launch) (argsAt : Option (Word × Nat)) : LoadRes :=
  if l.kernel.toNat % 64 != 0 then .refuse 1
  else s.startRead l.ctx .load l.kernel 64 fun hb =>
    let n := leNat hb
    let h := Header.ofNat n
    if headerStatus n != 0 then .refuse (headerStatus n)
    else s.startRead l.ctx .fetch (l.kernel + 64) h.codelen fun code =>
      let rest := fun args : List Byte => s.startRead l.ctx .load l.tmplAddr (64 * l.ntempl) fun tmpl =>
        if args.length != h.args then .refuse 1
        else if l.fmode &&& 0xFFFFE008 != 0 then .refuse 3
        else if (match s.ctx? l.ctx with | some c => c.privsize / 8192 | none => 0) < h.waves then .refuse 6
        else .ok h args (BitVec.ofNat 64 (leNat (shake256 (hb ++ code ++ signed l.fmode l.items args tmpl) 8)))
      match argsAt with
      | some (a, len) => s.startRead l.ctx .load a len rest
      | none => rest l.args

/-! ### Making and starting a launch (R328) -/

/-- A header before it is read. -/
def Header.blank : Header := Header.ofNat 0

/-- The next LAUNCHID (R328). -/
def nextLaunchId (n : Nat) : Nat := if n = 0xFFFFFFFF then 1 else n + 1

/-- The launch fields of a packet (R319), after a prologue has overridden them (R329). -/
structure LaunchFields where
  items : Nat
  fmode : W32
  batch : Nat
  ntempl : Nat
  arglen : Nat
  home : Nat
  tmpl : Word
  argAddr : Word
  kernel : Word
  deriving DecidableEq, Repr

def launchFields (b : BitVec 512) (p : Option Prologue) : LaunchFields :=
  let f : LaunchFields :=
    { items := (b.extractLsb' 480 32).toNat, fmode := b.extractLsb' 448 32, batch := (b.extractLsb' 432 16).toNat,
      ntempl := (b.extractLsb' 416 16).toNat, arglen := (b.extractLsb' 400 16).toNat, home := (b.extractLsb' 384 2).toNat,
      tmpl := b.extractLsb' 320 64, argAddr := b.extractLsb' 256 64, kernel := b.extractLsb' 192 64 }
  match p with
  | none => f
  | some q =>
    let r := fun i => q.regs.getD i 0
    { f with items := (r 0).toNat % 2 ^ 32, fmode := (r 1).setWidth 32, argAddr := r 2, kernel := r 3, tmpl := r 4,
             ntempl := (r 5).toNat % 2 ^ 16, batch := (r 6).toNat % 2 ^ 16 }

/-- BATCH as it acts (R319). -/
def batchOf (n : Nat) : Nat := if n = 0 then 16 else if 1024 < n then 1024 else n

/-- Enter a launch that has passed step 1; its number comes back. -/
def State.newLaunch (s : State) (l : Launch) : Nat × State :=
  let f := s.fresh
  (s.nextLid, { f.2 with launches := tdel s.nextLid s.launches ++ [(s.nextLid, { l with order := f.1 })], nextLid := nextLaunchId s.nextLid })

/-- A launch that has been entered and not loaded. -/
def Launch.entered (ctx : Nat) (queue packet : Option Nat) (f : LaunchFields) (args : List Byte) (handle : Word) (parent : Option Nat) : Launch :=
  { ctx := ctx, queue := queue, packet := packet, kernel := f.kernel, hdr := Header.blank, items := f.items, fmode := f.fmode,
    batch := batchOf f.batch, args := args, tmplAddr := f.tmpl, ntempl := f.ntempl, homeSpan := f.home, nteams := 0, nextTeam := 0,
    handed := [], batches := List.replicate 4 [], st := .starting, sig := 0, kill := none, tickets := List.replicate 8 0, marked := [],
    timelines := List.replicate 16 Timeline.zero, handle := handle, parent := parent, detSaved := false, order := 0 }

/-- Where the argument block of a launch lies: in the packet's fields, or nowhere when the packet brought it. -/
def State.argsAt (s : State) (l : Launch) : Option (Word × Nat) :=
  (l.packet.bind s.packet?).map fun p => let f := launchFields p.body p.prologue; (f.argAddr, f.arglen)

/-- Errors that last, in what a start reads, mark their frames and are counted (R374, R376): each read comes after the one before it was good. -/
def State.noteStart (s : State) (l : Launch) (argsAt : Option (Word × Nat)) : State :=
  if s.lasting.isEmpty then s
  else
    let read := fun (a : State × Bool) (k : AccKind) (va : Word) (n : Nat) =>
      if a.2 && n ≠ 0 then (a.1.noteVA false 0 l.ctx k va n, match a.1.readVA false 0 l.ctx k va n with | .ok _ => true | _ => false) else a
    let n := match s.readVA false 0 l.ctx .load l.kernel 64 with | .ok hb => leNat hb | _ => 0
    let a := read (s, l.kernel.toNat % 64 == 0) .load l.kernel 64
    let a := read (a.1, a.2 && headerStatus n == 0) .fetch (l.kernel + 64) (Header.ofNat n).codelen
    let a := match argsAt with | some (va, len) => read a .load va len | none => a
    (read a .load l.tmplAddr (64 * l.ntempl)).1

/-- Steps 4 to 7 for an entered launch: a page fault holds it (R364, UNIT 4). -/
def State.loadLaunch (s : State) (lid : Nat) : State :=
  match s.launch? lid with
  | none => s
  | some l =>
    let read := s.loadImage l (s.argsAt l)
    let s := s.noteStart l (s.argsAt l)
    match read with
    | .refuse st => s.refuseLaunch lid l st
    | .fault va c lv => (s.enterFault (BitVec.ofNat 64 va) lid 0 0 l.ctx 4 c false lv (.launch lid)).2
    | .ok h args sig => s.modLaunch lid fun l =>
        { l with hdr := h, args := args, sig := sig, nteams := (l.items + h.threads - 1) / h.threads }

/-- The heir dependence of a launch is met for some team, or cohort (R44, R327 step 8). -/
def State.heirMet (s : State) (lid : Nat) (l : Launch) : Bool :=
  l.hdr.itag == 0 || (List.range l.units).any fun u => (l.unitTeams u).all fun t => s.heirReady lid l t

/-- Step 8, and the start itself: HEAD passes the packet, the home of the handle hears of the launch (R328, R332, R398). -/
def State.startLaunch (s : State) (lid : Nat) : State :=
  match s.launch? lid with
  | none => s
  | some l =>
    if l.st != .starting || l.nteams = 0 || !s.heirMet lid l then s
    else if l.hdr.istrict && s.tagVoid l then s.refuseLaunch lid l 4
    else
      let s := (s.modLaunch lid fun l => { l with st := .running }).notify l.handle (.placed lid)
      match l.packet with
      | some pid => (s.modPacket pid fun p => { p with lid := lid }).startPacket pid
      | none => s

/-- A launch that has been entered goes as far as it can. -/
def State.advanceLaunch (s : State) (lid : Nat) : State :=
  match s.launch? lid with
  | some l => if l.nteams = 0 && !s.startFault lid then (s.loadLaunch lid).startLaunch lid else s.startLaunch lid
  | none => s

/-! ### The prologue (R329, R330) -/

/-- A scalar register of a prologue: s0 to s15. -/
def proReg (r : BitVec 6) : Bool := r.toNat < 16
def proGet (regs : List Word) (r : BitVec 6) : Word := regs.getD r.toNat 0

/-- The load of a prologue: none when it page-faults, breaks R92 or R93 (an acquire load takes its natural alignment) or reads poison. A tail
register reads as R316 says. -/
def State.proLoad (s : State) (ctx : Nat) (a : Word) : Option Word :=
  if a.toNat % 8 ≠ 0 then none else
  match s.readVA false 0 ctx .load a 8 with
  | .ok bs =>
    let at' := (s.translate false 0 ctx .load a.toNat).loc
    (match at' with
      | some l => if s.isWindow l then some (BitVec.ofNat 64 (leNat ((s.readWindow l 8).map (·.1)))) else some (BitVec.ofNat 64 (leNat bs))
      | none => none)
  | _ => none

/-- What one word of a prologue writes: its register and value; none when the word is not admitted. -/
def State.proWord (s : State) (ctx : Nat) (regs : List Word) (i : Instr) : Option (BitVec 6 × Word) :=
  let g := proGet regs
  let two := fun (d a b : BitVec 6) (f : Word → Word → Word) => if proReg d && proReg a && proReg b then some (d, f (g a) (g b)) else none
  let one := fun (d a : BitVec 6) (f : Word → Word) => if proReg d && proReg a then some (d, f (g a)) else none
  match i with
  | .nop _ => some (0, g 0)
  | .sadd _ d a b => two d a b (· + ·)
  | .ssub _ d a b => two d a b (· - ·)
  | .sand _ d a b => two d a b (· &&& ·)
  | .sor _ d a b => two d a b (· ||| ·)
  | .sxor _ d a b => two d a b (· ^^^ ·)
  | .sshl _ d a b => two d a b fun x y => shiftL x (regCount y)
  | .sshr _ d a b => two d a b fun x y => shiftR x (regCount y)
  | .ssra _ d a b => two d a b fun x y => shiftA x (regCount y)
  | .smul _ d a b => two d a b (· * ·)
  | .smulh _ d a b => two d a b mulHigh
  | .smulhw _ d a b => two d a b mulHighU
  | .sdiv _ d a b => two d a b divS
  | .sdivw _ d a b => two d a b divU
  | .srem _ d a b => two d a b remS
  | .sremw _ d a b => two d a b remU
  | .saddi _ d a k => one d a fun x => x + k.signExtend 64
  | .sandi _ d a k => one d a fun x => x &&& k.signExtend 64
  | .sori _ d a k => one d a fun x => x ||| k.signExtend 64
  | .sxori _ d a k => one d a fun x => x ^^^ k.signExtend 64
  | .sshli _ d a c => one d a fun x => shiftL x c.toNat
  | .sshri _ d a c => one d a fun x => shiftR x c.toNat
  | .ssrai _ d a c => one d a fun x => shiftA x c.toNat
  | .smovi _ d k => if proReg d then some (d, k.signExtend 64) else none
  | .scmp _ f d a b => two d a b fun x y => Word.ofBool (scalarCond f.toNat x y)
  | .smin _ d a b => two d a b minS
  | .smax _ d a b => two d a b maxS
  | .sminw _ d a b => two d a b minU
  | .smaxw _ d a b => two d a b maxU
  | .spopc _ d a => one d a fun x => BitVec.ofNat 64 (popc 64 x.toNat)
  | .sclz _ d a => one d a fun x => BitVec.ofNat 64 (clz 64 x.toNat)
  | .sctz _ d a => one d a fun x => BitVec.ofNat 64 (ctz 64 x.toNat)
  | .smovl _ d k => if proReg d then some (d, k.signExtend 64) else none
  | .smovh _ d k => if proReg d then some (d, k ++ (g d).setWidth 32) else none
  | .tnow _ d => if proReg d then some (d, BitVec.ofNat 64 s.now) else none
  | .sld _ d a k => if proReg d && proReg a then (s.proLoad ctx (g a + k.signExtend 64)).map fun v => (d, v) else none
  | _ => none

/-- The word at a place of a prologue, with its operand word; none when it is no word that a prologue admits in form. -/
def proInstr (words : List Nat) (i : Nat) : Option Instr :=
  match words[i]? with
  | some w => if isLongMajor w && words.length ≤ i + 1 then none
    else (decodeWords w (words.getD (i + 1) 0)).filter Instr.legal
  | none => none

/-- Run the words from one on: the registers at the end, or the offset of the word that fails. -/
def State.proRun (s : State) (ctx : Nat) (words : List Nat) : Nat → Nat → List Word → Nat ⊕ List Word
  | 0, _, regs => .inr regs
  | n + 1, i, regs =>
    if words.length ≤ i then .inr regs
    else match proInstr words i with
      | none => .inl (4 * i)
      | some ins => match s.proWord ctx regs ins with
        | none => .inl (4 * i)
        | some (d, v) => State.proRun s ctx words n (i + ins.words) (setAt regs d.toNat v)

/-- The addresses that a run loads from. -/
def State.proLoads (s : State) (ctx : Nat) (words : List Nat) : Nat → Nat → List Word → List Word
  | 0, _, _ => []
  | n + 1, i, regs =>
    match proInstr words i with
    | none => []
    | some ins =>
      (match ins with | .sld _ _ a k => [proGet regs a + k.signExtend 64].filter fun v => v.toNat % 8 == 0 | _ => []) ++
      match s.proWord ctx regs ins with
      | none => []
      | some (d, v) => State.proLoads s ctx words n (i + ins.words) (setAt regs d.toNat v)

/-- The registers with which the first run begins (R329). -/
def proInit (b : BitVec 512) : List Word :=
  let f := launchFields b none
  [BitVec.ofNat 64 f.items, f.fmode.setWidth 64, f.argAddr, f.kernel, f.tmpl, BitVec.ofNat 64 f.ntempl, BitVec.ofNat 64 f.batch, 0, 0] ++
  List.replicate 7 0

/-- What a run of a prologue decides (R331): to stop with a status and an OFFSET, or to launch, with or without another run after it. -/
inductive ProEnd where
  | stop (status off : Nat)
  | launch (p : Prologue)
  deriving DecidableEq, Repr

/-- The registers with which a run begins: REP is the number of launches already made. -/
def Prologue.start (p : Prologue) : List Word := setAt (setAt p.regs 7 (BitVec.ofNat 64 p.rep)) 8 0

/-- One run. -/
def State.proEnd (s : State) (ctx : Nat) (p : Prologue) : ProEnd :=
  match s.proRun ctx p.words p.words.length 0 p.start with
  | .inl off => .stop 0x1A off
  | .inr regs =>
    let act := regs.getD 8 0
    if 2 < act.toNat then .stop 0x1A (4 * p.words.length)
    else if act == 1 || (regs.getD 0 0).toNat % 2 ^ 32 = 0 then .stop 5 0
    else .launch { p with regs := regs, rep := p.rep + 1, rerun := act == 2 && p.rep < 65535 }

/-- A run of a packet's prologue: its launch is entered, or the packet is over. -/
def State.runPrologue (s : State) (pid : Nat) : State :=
  match s.packet? pid with
  | none => s
  | some p =>
    match p.prologue with
    | none => s
    | some q =>
      let run := s.proEnd p.ctx q
      let s := (s.proLoads p.ctx q.words q.words.length 0 q.start).foldl (fun s a => s.noteVA false 0 p.ctx .load a 8) s
      match run with
      | .stop st off =>
        s.completePacket pid { status := st, code := 0, offset := off, lid := p.lid,
                               sig := match s.launch? p.lid with | some l => l.sig | none => 0 }
      | .launch q' =>
        let s := s.modPacket pid fun p => { p with prologue := some q' }
        let n := s.newLaunch (Launch.entered p.ctx (some p.q) (some pid) (launchFields p.body (some q')) [] 0 none)
        n.2.advanceLaunch n.1

/-- The launch of a packet that has not started. -/
def State.startingOf (s : State) (pid : Nat) : Option (Nat × Launch) :=
  s.launches.find? fun p => p.2.packet == some pid && p.2.st == .starting

/-- The launch that a packet holds can go on: the fault of its start is resolved, or its heir dependence is met. -/
def State.canAdvance (s : State) (lid : Nat) (l : Launch) : Bool :=
  if l.nteams = 0 then !s.startFault lid else s.heirMet lid l

/-- PROLOGUE_REPEAT: the launch of the last run has retired with SUCCESS and the prologue runs again (R331, R332); or the launch of a later
run, held at its start, goes on. No launch starts while the queue is halted (R351). -/
def execPrologueRepeat (pid : Nat) (s : State) : Host.Outcome State Fault Refusal :=
  match s.packet? pid with
  | none => .fault (.cannotOccur "PROLOGUE_REPEAT")
  | some p =>
    let halted := match s.queue? p.q with | some k => k.st == .halted | none => false
    match s.startingOf pid with
    | some (lid, l) => stepIf "PROLOGUE_REPEAT" (p.started && !halted && s.canAdvance lid l) s (s.advanceLaunch lid)
    | none =>
      let ready := p.started && !halted && (match p.prologue with | some q => q.rerun | none => false) &&
        (match s.launch? p.lid with | some l => l.st == .closed && l.kill.isNone | none => false)
      stepIf "PROLOGUE_REPEAT" ready s (s.runPrologue pid)

end Sys2Proof.Machine
end

