-- ==== Sys2Proof/Machine/MemoryInstr.lean ====
section
/-! DEFINITION. The meanings of the memory instructions: loads, stores, acquires, releases, fences, prefetch, atomics, presence, stages,
timelines, copies at issue (R231, R232, R279 to R295). -/

namespace Sys2Proof.Machine

/-! ### What the memory instructions share -/

/-- A lane's address breaks R92: its first byte, or its last where the access may be misaligned (R416). -/
def laneBad (aligned : Bool) (r : MemReq) (q : LaneReq) : Bool :=
  !r.sp && (badVA q.addr || (!aligned && badVA (q.addr + BitVec.ofNat 64 (r.w - 1))))
/-- A lane's address breaks the natural alignment of R93. -/
def laneMisaligned (r : MemReq) (q : LaneReq) : Bool := !r.sp && q.addr.toNat % r.w != 0

/-- The shared effect of every load, store and atomic: the checks of all lanes (R281), then the lanes whose pages are mapped and whose
lines are present start, and the path parks on the rest (R100, R282). -/
def memAccess (k : Site) (u : State) (ctr : Nat) (aligned : Bool) (r : MemReq) (qs : List LaneReq) : State :=
  if qs.any (laneBad aligned r) then u.killHere k 0x0B
  else if aligned && qs.any (laneMisaligned r) then u.killHere k 0x0C
  else
    let r := { r with lanes := qs }
    let f := u.post k ctr r.dst.toList (.mem r [] [] 0)
    let a := f.2.startLanes k.w r qs
    match a.kill with
    | some st => (u.noteLanes k.w r qs).killHere k st
    | none =>
      let t := f.2.addStarted k.w f.1 r a
      let t := if r.sp then t.performSpad k.w f.1 else t
      let t := if r.det && k.l.hdr.det then t.modWave k.w fun v => v.modPend f.1 fun p => { p with held := true } else t
      t.parkMem k.w k.pid f.1 k.p.pc r a

/-- The lane requests of R279: address A + B, data D in sub-element 0. -/
def laneReqs (k : Site) (a b : BitVec 7) (data : Nat → Word) : List LaneReq :=
  k.lanes.map fun l => { lane := l, addr := k.op64 a l + k.op64 b l, d0 := data l, d1 := 0 }

/-- A memory request of the issuing path. -/
def memReq (x : Bool) (k : Site) (op : AccOp) (sp : Bool) (w : Nat) (dst : Option Reg) : MemReq :=
  { op := op, sp := sp, w := w, fmt := 0, dst := dst, acq := none, rel := none, remote := false, det := false, pid := k.pid, sw := x }

/-- Bytes of a lane access of type T (R280). -/
def accBytes (t : BitVec 3) : Nat := typeWidth t / 8

/-- A plain load of each active lane. -/
def laneLoad (x : Bool) (i : Instr) (s : State) (sp : Bool) (t : BitVec 3) (d a b : BitVec 7) : Host.Outcome State Fault Refusal :=
  issue x i s fun k u =>
    (memAccess k u 0 false (memReq x k .load sp (accBytes t) (some (vReg d))) (laneReqs k a b fun _ => 0), true)

/-- A plain store of each active lane. -/
def laneStore (x : Bool) (i : Instr) (s : State) (sp : Bool) (t : BitVec 3) (d a b : BitVec 7) : Host.Outcome State Fault Refusal :=
  issue x i s fun k u =>
    (memAccess k u 1 false (memReq x k .store sp (accBytes t) none) (laneReqs k a b fun l => (k.v.vreg d.toNat).lane l), true)

/-! ### Scalar loads and stores -/

/-- The one lane request of `sld` and `sst`: the lowest active lane's (R231). -/
def scalarReq (k : Site) (a : BitVec 6) (i : BitVec 12) (data : Word) : List LaneReq :=
  (k.lanes.take 1).map fun l => { lane := l, addr := k.s a + i.signExtend 64, d0 := data, d1 := 0 }

/-- `sld` (R231). -/
def execSld (x : Bool) (d a : BitVec 6) (i : BitVec 12) (s : State) : Host.Outcome State Fault Refusal :=
  issue x (.sld x d a i) s fun k u => (memAccess k u 0 false (memReq x k .load false 8 (some (sReg d))) (scalarReq k a i 0), true)

/-- `sst` (R231). -/
def execSst (x : Bool) (d a : BitVec 6) (i : BitVec 12) (s : State) : Host.Outcome State Fault Refusal :=
  issue x (.sst x d a i) s fun k u => (memAccess k u 1 false (memReq x k .store false 8 none) (scalarReq k a i (k.s d)), true)

/-- `sldk`: a doubleword of the argument block; zero beyond it (R232). -/
def execSldk (x : Bool) (d : BitVec 6) (i : BitVec 12) (s : State) : Host.Outcome State Fault Refusal :=
  issue x (.sldk x d i) s fun k u =>
    let v := if k.l.hdr.args ≤ i.toNat then 0 else leNat ((k.l.args.drop i.toNat).take 8)
    (u.postResult k 0 [sReg d] [.s d.toNat (BitVec.ofNat 64 v)] 0, true)

/-! ### Lane loads and stores -/

/-- `vld` (R284). -/
def execVld (x : Bool) (t : BitVec 3) (d a b : BitVec 7) (s : State) : Host.Outcome State Fault Refusal :=
  laneLoad x (.vld x t d a b) s false t d a b

/-- `vst` (R284). -/
def execVst (x : Bool) (t : BitVec 3) (d a b : BitVec 7) (s : State) : Host.Outcome State Fault Refusal :=
  laneStore x (.vst x t d a b) s false t d a b

/-- `vldsp` (R284). -/
def execVldsp (x : Bool) (t : BitVec 3) (d a b : BitVec 7) (s : State) : Host.Outcome State Fault Refusal :=
  laneLoad x (.vldsp x t d a b) s true t d a b

/-- `vstsp` (R284). -/
def execVstsp (x : Bool) (t : BitVec 3) (d a b : BitVec 7) (s : State) : Host.Outcome State Fault Refusal :=
  laneStore x (.vstsp x t d a b) s true t d a b

/-- `vldacq` (R286, R287). -/
def execVldacq (x : Bool) (t : BitVec 3) (d a b : BitVec 7) (scope : BitVec 3) (rem sp : BitVec 1) (s : State) :
    Host.Outcome State Fault Refusal :=
  issue x (.vldacq x t d a b scope rem sp) s fun k u =>
    let r := { memReq x k .load (sp == 1) (accBytes t) (some (vReg d)) with
      acq := some (effScope (sp == 1) scope.toNat), remote := rem == 1 }
    (memAccess k u 0 true r (laneReqs k a b fun _ => 0), true)

/-- `vstrel` (R286, R287). -/
def execVstrel (x : Bool) (t : BitVec 3) (d a b : BitVec 7) (scope : BitVec 3) (sp : BitVec 1) (s : State) :
    Host.Outcome State Fault Refusal :=
  issue x (.vstrel x t d a b scope sp) s fun k u =>
    let r := { memReq x k .store (sp == 1) (accBytes t) none with rel := some (effScope (sp == 1) scope.toNat) }
    (memAccess k u 1 true r (laneReqs k a b fun l => (k.v.vreg d.toNat).lane l), true)

/-! ### Fence, prefetch, atomics -/

/-- `fence`: kind 0 acquire, 1 release, 2 both, 3 full (R114, R288). -/
def execFence (x : Bool) (r : BitVec 1) (sc : BitVec 3) (k : BitVec 2) (s : State) : Host.Outcome State Fault Refusal :=
  issue x (.fence x r sc k) s fun q u =>
    let f := u.fresh
    let fe : Fence := { id := f.1, kind := k.toNat, scope := sc.toNat, remote := r == 1, needLoads := k != 1, needStores := k != 0 }
    ((f.2.modWave q.w fun v => { v with fences := v.fences ++ [fe] }).settleFence q.w fe, true)

/-- The line that a prefetch names, when its page is mapped device memory of this node. -/
def State.prefetchLine (s : State) (core ctx : Nat) (a : Word) : Option Nat :=
  if badVA a then none
  else match s.translate true core ctx .load a.toNat with
    | .ok pa false _ _ => some (pa / 128 * 128)
    | _ => none

/-- `vprf`: the hint `.near` brings each line into the core's load cache; nothing faults (R289). -/
def execVprf (x : Bool) (h a b : BitVec 7) (s : State) : Host.Outcome State Fault Refusal :=
  issue x (.vprf x h a b) s fun k u =>
    let core := s.coreOf k.w.teamRef
    let lines := k.lanes.filterMap fun l => u.prefetchLine core k.l.ctx (k.op64 a l + k.op64 b l)
    (if h == 1 then lines.foldl (fun u p => (List.range 16).foldl (fun u j => u.fillCache core (p + 8 * j)) u) u else u, true)

/-- `vatom` (R107, R290). -/
def execVatom (x : Bool) (t : BitVec 3) (d a b : BitVec 7) (op : BitVec 4) (ord : BitVec 2) (scope : BitVec 3) (rem sp det : BitVec 1)
    (s : State) : Host.Outcome State Fault Refusal :=
  issue x (.vatom x t d a b op ord scope rem sp det) s fun k u =>
    let sc := effScope (sp == 1) scope.toNat
    let r := { memReq x k (.atom op) (sp == 1) (accBytes t) (some (vReg d)) with
      fmt := (floatFormat t).getD 0, acq := if ord.getLsbD 0 then some sc else none,
      rel := if ord.getLsbD 1 then some sc else none, remote := rem == 1, det := det == 1 }
    let qs := k.lanes.map fun l => ({
      lane := l, addr := k.op64 a l, d0 := k.opT t b l,
      d1 := if op == 9 then (k.v.vreg (b.toNat + 1)).lane l else 0 } : LaneReq)
    (memAccess k u 0 true r qs, true)

/-! ### Presence and stages -/

/-- The first line that `spclr` and `spwait` name (R291). -/
def firstLine (k : Site) (a : BitVec 6) : Nat :=
  if k.l.hdr.spadP = 0 then 0 else (k.s a).toNat % 2 ^ 17 % k.l.hdr.spadP / 128
/-- The lines that they name. -/
def namedLines (k : Site) (a : BitVec 6) (n : BitVec 10) : List Nat := lineRange k.l.hdr.spadP (firstLine k a) (n.toNat + 1)

/-- The wave's own earlier stores to the named lines come first (R118). -/
def State.drainLines (s : State) (k : Site) (ls : List Nat) : State :=
  s.drainOwn k.w (ls.map fun l => (.spad k.w.teamRef (128 * l), 128))

/-- `spclr` (R101, R291). -/
def execSpclr (x : Bool) (a : BitVec 6) (n : BitVec 10) (s : State) : Host.Outcome State Fault Refusal :=
  issue x (.spclr x a n) s fun k u =>
    let ls := namedLines k a n
    (((u.drainLines k ls).modTeam k.w.teamRef fun t => t.clearLines ls).settleIf u.spadStores, true)

/-- `spclr.fill` (R101, R291). -/
def execSpclrFill (x : Bool) (a : BitVec 6) (n : BitVec 10) (s : State) : Host.Outcome State Fault Refusal :=
  issue x (.spclrFill x a n) s fun k u =>
    let ls := namedLines k a n
    (((u.drainLines k ls).modTeam k.w.teamRef fun t => t.fillLines ls).wakeMemory, true)

/-- `spwait` (R101, R291). -/
def execSpwait (x : Bool) (a : BitVec 6) (n : BitVec 10) (s : State) : Host.Outcome State Fault Refusal :=
  issue x (.spwait x a n) s fun k u =>
    let ready := match u.team? k.w.teamRef with | some t => t.hasLines (namedLines k a n) | none => true
    (if ready then u else u.modWave k.w fun v => v.parkPath k.pid (.lines (firstLine k a) (n.toNat + 1)) k.p.pc, true)

/-- `starm` (R104, R292). -/
def execStarm (x : Bool) (a b c : BitVec 6) (p : BitVec 3) (s : State) : Host.Outcome State Fault Refusal :=
  issue x (.starm x a b c p) s fun k u =>
    let l := u.stageLoc k.w.teamRef (k.s a).toNat
    let u := u.drainOwn k.w [(l, 128)]
    let rank := if k.l.hdr.cohort = 0 then 0 else (k.s c).toNat % 256
    let u := match l with
      | .spad t off => u.modTeam t fun q =>
          q.putSlot off p.toNat { (q.stageSlot off p.toNat) with
            expect := (k.s b).toNat % 2 ^ 32, rank := rank, armed := true, forfeit := false }
      | _ => u
    ((u.noteStage l).settleStages, true)

/-- `stwait` (R105, R293). -/
def execStwait (x : Bool) (d a : BitVec 6) (s : State) : Host.Outcome State Fault Refusal :=
  issue x (.stwait x d a) s fun k u =>
    let l := u.stageLoc k.w.teamRef (k.s a).toNat
    let u := ((u.drainOwn k.w [(l, 128)]).noteStage l).forfeits
    (if u.stageReady l then u.finishStage k.w k.pid d.toNat l
     else u.modWave k.w fun v => v.parkPath k.pid (.stage d.toNat ((k.s a).toNat % 2 ^ 32)) k.p.pc, true)

/-! ### Timelines and copies -/

/-- `tlwait` (R124, R294). -/
def execTlwait (x : Bool) (c : BitVec 4) (a : BitVec 6) (s : State) : Host.Outcome State Fault Refusal :=
  issue x (.tlwait x c a) s fun k u =>
    (if (k.s a).toNat ≤ (u.timeline k.w.lid c.toNat).value then u.dropCache (s.coreOf k.w.teamRef)
     else u.modWave k.w fun v => v.parkPath k.pid (.timeline c.toNat (k.s a)) k.p.pc, true)

/-- `tlrd` (R294). -/
def execTlrd (x : Bool) (d : BitVec 6) (c : BitVec 4) (s : State) : Host.Outcome State Fault Refusal :=
  issue x (.tlrd x d c) s fun k u => ((u.post k 0 [sReg d] (.tlread d.toNat c.toNat)).2, true)

/-- The blank template of a copy that is not accepted yet. -/
def Template.blank : Template :=
  { tlctx := 0, prod := 0, sten := false, dkind := 0, pdim := 0, stage := 0, idxcount := 0, dpitch := 0, rows := 0, cols := 0,
    idxaddr := 0, dest := 0, coord := [0, 0, 0, 0], srcrec := 0 }
/-- The blank record of a copy that is not accepted yet. -/
def TensorRec.blank : TensorRec :=
  { cbaddr := 0, scaleaddr := 0, blk := 0, fmt := 0, stride := [0, 0, 0, 0], dim := [0, 0, 0, 0], base := 0 }

/-- `cpy`: the start word goes to the channel; the wave issues nothing more until the copy is accepted and counted (R145, R295). -/
def execCpy (x : Bool) (n : BitVec 3) (a : BitVec 6) (s : State) : Host.Outcome State Fault Refusal :=
  issue x (.cpy x n a) s fun k u =>
    let f := u.fresh
    let w := (k.s a).toNat
    let p := f.2.post k 4 [] (.copy f.1)
    let c : Copy := { cid := f.1, cluster := clusterOf (s.coreOf k.w.teamRef), chan := n.toNat, lid := some k.w.lid, packet := none,
                      ctx := k.l.ctx, w := k.w, op := p.1, off := k.p.pc, param := sx 48 (w / 2 ^ 16), index := w % 2 ^ 16,
                      accepted := false, tmpl := Template.blank, trec := TensorRec.blank, num := 0, tl := 0, pieces := [],
                      uncounted := [], stall := none, status := 0 }
    ({ p.2 with copies := p.2.copies ++ [c] }, true)

end Sys2Proof.Machine
end

