-- ==== Sys2Proof/Machine/FrontEnd.lean ====
section
/-! DEFINITION. The front-end array: packets of a ring and their form (R317, R318), rounds (R324), the commands of R319 but for PREEMPT and
FAULT_RESOLVED, the actions of QUEUE_CONTROL (R320). -/

namespace Sys2Proof.Machine

/-! ### The packet at the head of a slot's ring -/

/-- The packet that a lane can take: its slot, its queue, unit 0 and the units after it as numbers, and whether a unit is poisoned. -/
structure Front where
  slot : Nat
  q : Nat
  k : Queue
  n : Nat
  more : List Nat
  bad : Bool
  deriving DecidableEq, Repr

def Front.op (f : Front) : Nat := bits f.n 0 8
def Front.fence (f : Front) : Bool := f.n.testBit 16
def Front.len (f : Front) : Nat := bits f.n 24 4
def Front.compl (f : Front) : Nat := bits f.n 64 64
def Front.utag (f : Front) : Nat := bits f.n 32 32
def Front.pwords (f : Front) : Nat := bits f.n 386 7

/-- The queue that a hardware slot holds. -/
def State.slotQueue (s : State) (slot : Nat) : Option (Nat × Queue) :=
  s.queues.find? fun p => p.2.slot == some slot && !p.2.loading

/-- Unit `u` of a queue's ring, read from its feeder's memory (R317). -/
def State.ringUnit (s : State) (k : Queue) (u : Nat) : Option Nat :=
  let a := k.ringBase.toNat + 64 * (u % 2 ^ (k.ringLog + 6))
  if k.feeder = s.fabric.node then some (s.num a 64) else (tget k.feeder s.nodes).map fun m => leNat (mreadN a 64 m)

/-- Unit `u` of a ring in this node's memory is poisoned: it is read, and not used (R415). -/
def State.unitBad (s : State) (k : Queue) (u : Nat) : Bool :=
  k.feeder == s.fabric.node && s.poisonedRange (k.ringBase.toNat + 64 * (u % 2 ^ (k.ringLog + 6))) 64

/-- The command is known and LEN is its length (R318, R319). -/
def Front.sized (f : Front) : Bool :=
  if f.op == 2 then 1 ≤ f.pwords && f.pwords ≤ 64 && f.len == (f.pwords + 15) / 16 else 1 ≤ f.op && f.op ≤ 0x0C && f.len == 0

/-- A packet of a queue that the front end has taken and not started: it is in parse. -/
def State.inParse (s : State) (q : Nat) : Bool := s.packets.any fun p => p.q == q && !p.started

/-- The packet at HEAD, when the lane could take it: the queue is RESIDENT, TAIL covers the packet, no packet is in parse, its context is
enabled, and its tenant is not resetting (R311). A poisoned unit 0 gives the packet no field (R415). -/
def State.front (s : State) (slot : Nat) : Option Front :=
  match s.slotQueue slot with
  | none => none
  | some (q, k) =>
    let live := match s.ctx? k.ctx with | some c => c.en | none => false
    let off := match s.tenant? k.tenant with | some t => t.st == 2 | none => false
    if k.st != .resident || k.saveReq || !k.en || !live || off || s.inParse q || k.tail ≤ k.head then none
    else match s.ringUnit k k.head with
      | none => none
      | some n =>
        let bad := s.unitBad k k.head
        let f : Front := { slot := slot, q := q, k := k, n := if bad then 0 else n, more := [], bad := bad }
        if !f.sized then some f
        else if k.tail < k.head + f.len + 1 then none
        else some { f with more := (List.range f.len).map fun i => (s.ringUnit k (k.head + 1 + i)).getD 0,
                           bad := (List.range f.len).any fun i => s.unitBad k (k.head + 1 + i) }

/-! ### Form (R318) -/

/-- A mask of the bits [hi:lo]. -/
def span (hi lo : Nat) : Nat := (2 ^ (hi - lo + 1) - 1) * 2 ^ lo
/-- The bits that R317 assigns to fields. -/
def headerFields : Nat := span 127 64 + span 63 32 + span 27 24 + span 16 16 + span 7 0
/-- The bits that R319 assigns to the fields of a command. -/
def commandFields (op : Nat) : Nat :=
  match op with
  | 1 => span 511 400 + span 385 192
  | 2 => span 511 400 + span 392 192
  | 3 => span 143 128
  | 4 => span 143 128 + span 255 192
  | 5 => span 143 128 + span 255 192
  | 6 => span 255 192 + span 303 256 + span 307 304
  | 7 => span 143 128
  | 8 => span 255 192 + span 319 256
  | 0x0A => span 159 128
  | 0x0B => span 191 128 + span 192 192
  | 0x0C => span 139 128 + span 143 140 + span 146 144
  | _ => 0

/-- COMPL is 0, or a multiple of 32 with bits [63:52] zero. -/
def Front.complOk (f : Front) : Bool := f.compl % 32 == 0 && f.compl < 2 ^ 52

/-- The prologue words of a packet. -/
def Front.words (f : Front) : List Nat := (List.range f.pwords).map fun i => bits (f.more.getD (i / 16) 0) (32 * (i % 16)) 32

/-- The fields of QUEUE_CONTROL. -/
def Front.qnum (f : Front) : Nat := bits f.n 128 12
def Front.action (f : Front) : Nat := bits f.n 140 4
/-- The fields of FAULT_RESOLVED. -/
def Front.entry (f : Front) : Nat := bits f.n 128 64
def Front.kill (f : Front) : Bool := f.n.testBit 192

/-- A packet breaks the rules of its form, or has a poisoned unit. -/
def State.badForm (s : State) (f : Front) : Bool :=
  f.bad || !f.sized || f.n &&& (headerFields ||| commandFields f.op) != f.n || !f.complOk ||
  (f.op == 1 && bits f.n 480 32 == 0) ||
  (f.op == 2 && (f.more.getLast?.getD 0) / 2 ^ (32 * ((f.pwords - 1) % 16 + 1)) != 0) ||
  (f.op == 0x0B && f.kill && f.entry == 0) ||
  (f.op == 0x0C && (3 < f.action ||
    (match s.queue? f.qnum with | some k => k.tenant != f.k.tenant | none => true)))

/-! ### Rounds (R324) -/

/-- The place of a command in a round; what is no command comes last. -/
def roundRank (op : Nat) : Nat :=
  match op with
  | 0x0A => 0 | 0x0B => 1 | 0x0C => 2 | 3 => 3 | 9 => 4 | 7 => 5 | 5 => 6 | 4 => 7 | 6 => 8 | 8 => 9 | 1 => 10 | 2 => 11 | _ => 12

/-- A slot has a complete, startable packet: FENCE holds it until every earlier packet of the queue has completed (R317). -/
def State.startable (s : State) (slot : Nat) : Bool :=
  match s.front slot with
  | some f => s.badForm f || !f.fence || !(s.packets.any fun p => p.q == f.q)
  | none => false

/-- The slots that still run in the round; when none is left, a new round takes every slot with a startable packet. -/
def State.inRound (s : State) : List Nat :=
  match s.round.filter s.startable with
  | [] => (List.range Config.slots).filter s.startable
  | l => l

/-- A QUEUE_CONTROL of the round is still to halt the queue of a slot (R325). -/
def State.haltAhead (s : State) (f : Front) : Bool :=
  s.inRound.any fun i => i != f.slot && match s.front i with
    | some g => g.op == 0x0C && g.action == 0 && g.qnum == f.q && !s.badForm g
    | none => false
/-- The turn of a slot in its round: no slot of the round has a packet of an earlier kind (R324). Of the QUEUE_CONTROLs one whose queue another halts comes after
that one; where they halt each other in a ring the lowest slot is first (R325; DESIGN CHOICE, log entry 69). A PREEMPT or a FAULT_RESOLVED of a queue that is halted
in the same round runs before the halt, as that order has it, though R325 lets the halt run first (DESIGN CHOICE, log entry 69). -/
def State.myTurn (s : State) (f : Front) : Bool :=
  let halts := (s.inRound.filterMap s.front).filter fun g => g.op == 0x0C
  s.inRound.contains f.slot &&
  (s.inRound.all fun i => match s.front i with | some g => roundRank f.op ≤ roundRank g.op | none => true) &&
  (f.op != 0x0C || !s.haltAhead f || halts.all fun g => s.haltAhead g && Nat.ble f.slot g.slot)

/-! ### Taking a packet -/

/-- A queue gives up its slot, as in a save: AGE := PRIO when it has one (R318, R326). -/
def Queue.giveUp (k : Queue) (st : QueueSt) : Queue :=
  { k with slot := none, loading := false, saveReq := false, wasOff := false, st := st, age := if k.slot.isSome then k.prio else k.age }

/-- A packet that is not run: its record, and its queue enters ERROR; HEAD stays (R318). For a packet with a poisoned unit R415 names no outcome: it
is not run either, and its record, which a poisoned unit 0 cannot ask for, says POISON (DESIGN CHOICE, log entry 37). -/
def State.badPacket (s : State) (f : Front) : State :=
  (if f.complOk then s.writeRecord f.k.ctx (BitVec.ofNat 64 f.compl) (BitVec.ofNat 64 f.utag) (Report.of (if f.bad then 0x0E else 6)) else s).updQueue f.q fun k => k.giveUp .error

/-- A taken packet. -/
def Front.packet (f : Front) (pid : Nat) : Packet0 :=
  let b : BitVec 512 := BitVec.ofNat 512 f.n
  { pid := pid, q := f.q, ctx := f.k.ctx, order := pid, compl := BitVec.ofNat 64 f.compl, utag := f.utag, body := b,
    prologue := if f.op == 2 then some { regs := proInit b, words := f.words, rep := 0, rerun := false } else none,
    lid := 0, saving := [], savedLid := 0, started := false }

/-- Errors that last, in the units of the packet at HEAD, mark their frames and are counted (R374, R376). -/
def State.notePacket (s : State) (f : Front) : State :=
  if f.k.feeder = s.fabric.node then
    (List.range (f.len + 1)).foldl (fun s u => s.noteRead (f.k.ringBase.toNat + 64 * ((f.k.head + u) % 2 ^ (f.k.ringLog + 6))) 64) s
  else s

/-- The command of a slot runs: its form is checked, the packet is taken, and HEAD passes it when it starts. -/
def command (name : String) (slot : BitVec 6) (s : State) (mine : Front → Bool) (starts : Bool) (run : Front → Nat → State → State) :
    Host.Outcome State Fault Refusal :=
  match s.front slot.toNat with
  | none => .fault (.cannotOccur name)
  | some f =>
    if !mine f || !s.myTurn f then .fault (.cannotOccur name)
    else
      let t := State.notePacket { s with round := s.inRound.filter (· ≠ f.slot) } f
      if s.badForm f then done s (t.badPacket f)
      else
        let p := t.fresh
        let u := { p.2 with packets := p.2.packets ++ [f.packet p.1] }
        done s (run f p.1 (if starts then u.startPacket p.1 else u))

/-- A packet that completes with a status of its own. -/
def State.completeWith (s : State) (pid status : Nat) : State := s.completePacket pid (Report.of status)

/-! ### LAUNCH and LAUNCH_INDIRECT (R319, R327) -/

/-- A launch that its lane holds goes on, or its lane takes a new packet. -/
def launching (name : String) (op : Nat) (slot : BitVec 6) (s : State) (run : Front → Nat → State → State) : Host.Outcome State Fault Refusal :=
  match s.slotQueue slot.toNat with
  | none => .fault (.cannotOccur name)
  | some (q, _) =>
    match s.packets.find? fun p => p.q == q && !p.started && p.op == op with
    | some p =>
      (match s.startingOf p.pid with
        | some (lid, l) => stepIf name (s.canAdvance lid l) s (s.advanceLaunch lid)
        | none => .fault (.cannotOccur name))
    | none => command name slot s (fun f => f.op == op) false run

/-- LAUNCH: the launch is entered and goes through steps 4 to 8 of R327. -/
def execLaunch (slot : BitVec 6) (s : State) : Host.Outcome State Fault Refusal :=
  launching "LAUNCH" 1 slot s fun f pid s =>
    let n := s.newLaunch (Launch.entered f.k.ctx (some f.q) (some pid) (launchFields (BitVec.ofNat 512 f.n) none) [] 0 none)
    n.2.advanceLaunch n.1

/-- LAUNCH_INDIRECT: the prologue runs first. -/
def execLaunchIndirect (slot : BitVec 6) (s : State) : Host.Outcome State Fault Refusal :=
  launching "LAUNCH_INDIRECT" 2 slot s fun _ pid s => s.runPrologue pid

/-! ### Events -/

/-- The event of a packet. -/
def Front.event (f : Front) : Nat := bits f.n 128 16
/-- The doubleword [255:192] of a packet. -/
def Front.dword (f : Front) : Nat := bits f.n 192 64

/-- EVENT_SIGNAL. -/
def execEventSignal (slot : BitVec 6) (s : State) : Host.Outcome State Fault Refusal :=
  command "EVENT_SIGNAL" slot s (fun f => f.op == 3) true fun f pid s => (s.signal f.k.tenant f.event).completeWith pid 0

/-- EVENT_WAIT: the queue is WAITING until the count reaches VALUE (R319, R340). -/
def execEventWait (slot : BitVec 6) (s : State) : Host.Outcome State Fault Refusal :=
  command "EVENT_WAIT" slot s (fun f => f.op == 4) true fun f pid s =>
    if f.dword ≤ s.eventCount f.k.tenant f.event then s.completeWith pid 0
    else
      let s := s.updQueue f.q fun k => { k with st := .waiting, waitEv := f.event, waitVal := f.dword, waitSince := s.now }
      (s.addWaiter f.k.tenant f.event f.dword (.queue f.q pid)).2

/-- EVENT_AT: the code of R303 goes to CODE. -/
def execEventAt (slot : BitVec 6) (s : State) : Host.Outcome State Fault Refusal :=
  command "EVENT_AT" slot s (fun f => f.op == 5) true fun f pid s =>
    let r := s.timed f.k.tenant f.event f.dword none
    r.2.completePacket pid { Report.of 0 with code := r.1 }

/-! ### COPY, ESTATE_DROP, INVOKE, COMPLETE -/

/-- The lowest cluster of a tenant: a COPY packet's copy reads through its tensor address engine. -/
def State.lowCluster (s : State) (tenant : Nat) : Nat :=
  match s.tenant? tenant with | some t => ((List.range 16).find? fun i => t.clusters.getLsbD i).getD 0 | none => 0

/-- COPY: the copy takes its number and is handed to a channel on the context's behalf (R321). -/
def execCopy (slot : BitVec 6) (s : State) : Host.Outcome State Fault Refusal :=
  command "COPY" slot s (fun f => f.op == 6) true fun f pid s =>
    let n := s.fresh
    let tl := bits f.n 304 4
    let num := (match s.ctx? f.k.ctx with | some k => k.copyTl.getD tl Timeline.zero | none => Timeline.zero).issue
    let c : Copy := { cid := n.1, cluster := s.lowCluster f.k.tenant, chan := 0, lid := none, packet := some pid, ctx := f.k.ctx,
                      w := ⟨0, 0, 0⟩, op := 0, off := 0, param := sx 48 (bits f.n 256 48), index := 0, accepted := false,
                      tmpl := Template.blank, trec := TensorRec.blank, num := num.1, tl := tl, pieces := [], uncounted := [],
                      stall := none, status := 0 }
    State.modCtx { n.2 with copies := n.2.copies ++ [c] } f.k.ctx fun k => { k with copyTl := setAt k.copyTl tl num.2 }

/-- ESTATE_DROP (R51). -/
def execEstateDrop (slot : BitVec 6) (s : State) : Host.Outcome State Fault Refusal :=
  command "ESTATE_DROP" slot s (fun f => f.op == 7) true fun f pid s => (s.dropTag f.k.ctx f.event).completeWith pid 0

/-- An INVOKE leaves for its target, or its handle breaks with UNREACHABLE (R180). -/
def State.sendInvoke (s : State) : FabReq → State
  | .invoke _ node ctx parent slot handle kernel items fmode estate args =>
    if s.reachable node then s.inject s.now node (.invoke ctx kernel items fmode estate args handle parent) else s.breakHandle slot 6 0
  | _ => s

/-- The handle of a request (R180). -/
def FabReq.handle : FabReq → Word
  | .invoke _ _ _ _ _ h _ _ _ _ _ => h
  | .done [.s _ h] => h
  | _ => 0

/-- INVOKE: as `invk`; a read that fails ends the command (R319); errors that last in the record or the argument block mark their frames and are counted (R374,
R376). -/
def execInvoke (slot : BitVec 6) (s : State) : Host.Outcome State Fault Refusal :=
  command "INVOKE" slot s (fun f => f.op == 8) true fun f pid s =>
    let read := readInvocation (s.readVA false 0 f.k.ctx .load) (BitVec.ofNat 64 f.dword)
    let rec' := s.readVA false 0 f.k.ctx .load (BitVec.ofNat 64 f.dword) 64
    let s := s.noteVA false 0 f.k.ctx .load (BitVec.ofNat 64 f.dword) 64
    let s := match read, rec' with
      | .ok r _, _ => s.noteVA false 0 f.k.ctx .load r.argaddr r.arglen
      | .stop .poison, .ok bs => s.noteVA false 0 f.k.ctx .load (InvRec.ofNat (leNat bs)).argaddr (InvRec.ofNat (leNat bs)).arglen
      | _, _ => s
    match read with
    | .ok r args =>
      let q := s.prepareInvoke 0 f.k.ctx r args (bits f.n 256 16) (bits f.n 272 16) none
      (q.2.sendInvoke q.1).completePacket pid { Report.of 0 with sig := q.1.handle }
    | .stop .bad => s.completeWith pid 0x0B
    | .stop .poison => s.completeWith pid 0x0E
    | .stop _ => s.completeWith pid 0x0D

/-- COMPLETE: it completes when every earlier packet of the queue has (R319). -/
def execComplete (slot : BitVec 6) (s : State) : Host.Outcome State Fault Refusal :=
  command "COMPLETE" slot s (fun f => f.op == 9) true fun f _ s => State.settleCompletes s.packets.length s f.q

/-! ### QUEUE_CONTROL (R320) -/

/-- A packet in parse is given back: it has not started, HEAD stays before it, and its launch is not made (R325, R351). -/
def State.dropParse (s : State) (q : Nat) : State :=
  let pids := (s.packets.filter fun p => p.q == q && !p.started).map (·.pid)
  let lids := (s.launches.filter fun p => match p.2.packet with | some pid => pids.contains pid | none => false).map (·.1)
  let s := lids.foldl (fun s lid => (s.modLaunch lid fun l => { l with st := .closed }).settleAccount lid) s
  { s with
    packets := s.packets.filter fun p => !pids.contains p.pid,
    launches := s.launches.filter fun p => !lids.contains p.1,
    faults := s.faults.map fun f => match f.holder with
      | .launch lid => if lids.contains lid then { f with holder := .nothing } else f
      | _ => f }

/-- Halt. -/
def State.haltQueue (s : State) (q : Nat) : State :=
  match s.queue? q with
  | some k => if k.st == .halted || k.st == .error then s else (s.dropParse q).updQueue q fun k => k.giveUp .halted
  | none => s

/-- Resume. -/
def Queue.resume (k : Queue) : Queue :=
  match k.st with
  | .halted => if k.head < k.tail then k.wake else { k with st := .idle, age := k.prio }
  | .error => { k with st := .pending }
  | _ => k

/-- Discard to TAIL. -/
def State.discardQueue (s : State) (q : Nat) : State :=
  (s.dropParse q).updQueue q fun k =>
    { k with head := k.tail, st := if k.st == .error || k.st == .halted then .idle else k.st }

/-- The actions of QUEUE_CONTROL on the named queue; the packet completes at once. -/
def queueControl (action : Nat) (slot : BitVec 6) (s : State) (name : String) (act : State → Nat → Front → State) :
    Host.Outcome State Fault Refusal :=
  command name slot s (fun f => f.op == 0x0C && f.action == action) true fun f pid s => (act s f.qnum f).completeWith pid 0

/-- QUEUE_CONTROL halt. -/
def execQueueControlHalt (slot : BitVec 6) (s : State) : Host.Outcome State Fault Refusal :=
  queueControl 0 slot s "QUEUE_CONTROL_HALT" fun s q _ => s.haltQueue q

/-- QUEUE_CONTROL resume. -/
def execQueueControlResume (slot : BitVec 6) (s : State) : Host.Outcome State Fault Refusal :=
  queueControl 1 slot s "QUEUE_CONTROL_RESUME" fun s q _ => s.updQueue q Queue.resume

/-- QUEUE_CONTROL discard to TAIL. -/
def execQueueControlDiscard (slot : BitVec 6) (s : State) : Host.Outcome State Fault Refusal :=
  queueControl 2 slot s "QUEUE_CONTROL_DISCARD" fun s q _ => s.discardQueue q

/-- QUEUE_CONTROL set PRIO; AGE is unchanged. -/
def execQueueControlSetPrio (slot : BitVec 6) (s : State) : Host.Outcome State Fault Refusal :=
  queueControl 3 slot s "QUEUE_CONTROL_SET_PRIO" fun s q f => s.updQueue q fun k => { k with prio := bits f.n 144 3 }

/-- A packet that is no command, or a QUEUE_CONTROL of no action, is met in its round (R318). -/
def State.meetBadPacket (s : State) (slot : Nat) : Option State :=
  match s.front slot with
  | some f =>
    if s.myTurn f && ((f.op == 0 || 0x0C < f.op) || (f.op == 0x0C && 3 < f.action)) then
      some ((State.notePacket { s with round := s.inRound.filter (· ≠ f.slot) } f).badPacket f)
    else none
  | none => none

end Sys2Proof.Machine
end

