-- ==== Sys2Proof/Machine/FabricEvents.lean ====
section
/-! DEFINITION. The fabric: injection, ports and watermarks, the router's merge, the weir and what it delivers, the culvert, stalls, link
errors, fabric time, accesses of other nodes (R170 to R177, R180, R360, R379, R388 to R399). -/

namespace Sys2Proof.Machine

/-! ### Injection (R170, R176, R177, R180) -/

/-- What R170 makes of a stamp. -/
inductive StampCase where
  | now (stamp : Nat)
  | future (stamp : Nat)
  | refused (status : Nat)
  deriving DecidableEq, Repr

def State.stampCase (s : State) : Option Nat → StampCase
  | none => .now s.now
  | some t =>
    if t < s.floorF || 32767 ≤ (tget t s.fabric.stampCount).getD 0 then .refused 1
    else if t ≤ s.now then .now t
    else if t ≤ s.now + 2 ^ 24 then .future t
    else .refused 2

/-- Fabric instructions of a wave leave in program order: none issued before one is still to leave. -/
def Wave.firstToLeave (v : Wave) (op : Nat) : Bool :=
  !(v.pend.any fun p => p.id < op && match p.kind with
    | .fab (.done _) _ => false
    | .fab _ sent => !sent
    | _ => false)

/-- The fabric-scope releases that a wave made before an operation are complete: its packet follows them (R126). -/
def State.fabReleased (s : State) (w : WaveRef) (op : Nat) : Bool :=
  !((s.queue ++ s.buffer).any fun r => r.w == w && r.op < op && r.rel == some 4) &&
  (match s.wave? w with
    | some v => !(v.pend.any fun p => p.id < op && match p.kind with
        | .mem r todo _ _ => r.rel == some 4 && (p.unperformed || !todo.isEmpty) && r.op != .load
        | _ => false) && !(v.fences.any fun f => f.id < op && f.scope == 4 && f.needStores)
    | none => true)

/-- An ordered send or atomic is tried, once the held packets whose stamps have come are out: refused, held for its stamp, or sent. An `oatom` that
is sent awaits its answer. -/
def State.trySend (s₀ : State) (w : WaveRef) (op : Nat) (q : FabReq) (stamp : Option Nat) (dst : Nat) (body : Payload) (waits : Bool) :
    Option State :=
  let s := s₀.flushDue
  let sent := fun (s : State) => s.modWave w fun v => v.modPend op fun p => { p with kind := .fab q true }
  match s.stampCase stamp with
  | .refused st => some (s.deliver w op (q.refused st) 0)
  | .future t =>
    if 256 ≤ s.fabric.future.length then none
    else
      let f := s.fresh
      some (sent { f.2 with fabric := { f.2.fabric with
        future := f.2.fabric.future ++ [{ pid := f.1, stamp := t, dst := dst, body := body, w := w, op := op }] } })
  | .now t =>
    if !s.reachable dst then some (s.deliver w op (q.refused 3) 0)
    else if waits then some (sent (s.sendOrdered t dst body))
    else some ((s.sendOrdered t dst body).deliver w op (q.refused 0) 0)

/-- The wave's earlier accesses to the bytes of its ordered atomic come before it: it does not leave before they are performed (R118). Ordered atomics on one
location follow one another in key order (R177). -/
def State.atomicWaits (s : State) (w : WaveRef) (op : Nat) (q : FabReq) : Bool :=
  (s.fabLocs w op q).any fun x => s.accessWaits w op x.1 x.2 || (s.queue ++ s.buffer).any fun r => r.w == w && r.op < op && r.overlaps x.1 x.2

/-- FB_COMPLETE: a fabric instruction's packet is injected or refused, or its results are written; one that waits for a place goes on when there is one
(R170). -/
def execFbComplete (w : WaveRef) (op : Nat) (s : State) : Host.Outcome State Fault Refusal :=
  match s.wave? w with
  | none => .fault (.cannotOccur "FB_COMPLETE")
  | some v =>
    match v.pend? op with
    | none => .fault (.cannotOccur "FB_COMPLETE")
    | some p =>
      let some? := fun (o : Option State) => match o with
        | some t => stepIf "FB_COMPLETE" (v.firstToLeave op && s.fabReleased w op) s t
        | none => .fault (.cannotOccur "FB_COMPLETE")
      match p.kind with
      | .fab (.done ws) _ => done s (s.deliver w op ws 0)
      | .fab (.parked _ pid _) _ =>
        let t := s.replay w op
        let goes := match ((t.wave? w).bind fun v => v.pend? op).map Pend.kind with | some (.fab (.parked ..) _) => false | _ => true
        stepIf "FB_COMPLETE" (s.present w && (v.path? pid).any (fun p => !p.isParked) && goes) s t
      | .fab (.osend d dst ctx mbox bs stamp) false =>
        some? (s.trySend w op (.osend d dst ctx mbox bs stamp) stamp dst (.osend ctx mbox bs) false)
      | .fab (.oatom d st node pa o wide a b stamp) false =>
        if s.atomicWaits w op (.oatom d st node pa o wide a b stamp) then .fault (.cannotOccur "FB_COMPLETE")
        else some? (s.trySend w op (.oatom d st node pa o wide a b stamp) stamp node (.oatom pa o wide a b (s.ctxOf w.lid) w op) true)
      | .fab (.invoke d node ctx parent slot h kernel items fmode estate args) false =>
        stepIf "FB_COMPLETE" (v.firstToLeave op && s.released w op 4) s
          ((s.sendInvoke (.invoke d node ctx parent slot h kernel items fmode estate args)).deliver w op [.s d h] 0)
      | _ => .fault (.cannotOccur "FB_COMPLETE")

/-- HELD_PACKET_INJECT: the held packet of least stamp leaves when Now reaches its stamp. -/
def execHeldPacketInject (s : State) : Host.Outcome State Fault Refusal :=
  match s.leastFuture with
  | some f => stepIf "HELD_PACKET_INJECT" (f.stamp ≤ s.now) s (s.releaseFuture f)
  | none => .fault (.cannotOccur "HELD_PACKET_INJECT")

/-! ### Keys and watermarks (R171, R391, R393) -/

/-- Key order: stamp, source, source sequence, which counts modulo 2^16. -/
def keyBefore (t : Nat) (src seq : Nat) (t' : Nat) (src' seq' : Nat) : Bool :=
  t < t' || (t == t' && (src < src' || (src == src' && (let d := (seq' + 65536 - seq) % 65536; 1 ≤ d && d ≤ 32767))))
def packetBefore (a b : Packet) : Bool := keyBefore a.stamp a.src.toNat a.seq.toNat b.stamp b.src.toNat b.seq.toNat

/-- The packet of least key. -/
def leastPacket (ps : List Packet) : Option Packet :=
  ps.foldl (fun (b : Option Packet) p => match b with | none => some p | some q => if packetBefore p q then some p else some q) none

/-- A key lies before the last delivery. -/
def State.beforeDlv (s : State) (p : Packet) : Bool :=
  s.fabric.dlvAny && keyBefore p.stamp p.src.toNat p.seq.toNat s.fabric.dlvStamp s.fabric.dlvSrc s.fabric.dlvSeq

/-- A port that has, or had, a peer counts in a minimum while it is not excised. -/
def Port.counts (q : Port) : Bool := q.peerKind != 0 && !q.excise

/-- The minimum watermark over the ports that count and feed an output, and the loopback (R392). -/
def State.feedWM (s : State) (port : Nat) : Nat :=
  let feeds := match s.fabric.ports[port]? with | some q => q.feeds | none => 0
  (s.fabric.ports.zipIdx.filter fun p => p.1.counts && p.2 != port && feeds.getLsbD p.2).foldl (fun m p => min m p.1.wm) s.floorF

/-- The minimum watermark over the ports that count, but for one, and the loopback, whose watermark is the injector's floor. -/
def State.minWM (s : State) (but : Option Nat) : Nat :=
  (s.fabric.ports.zipIdx.filter fun p => p.1.counts && but != some p.2).foldl (fun m p => min m p.1.wm) s.floorF

/-- Raise a watermark. -/
def State.raiseWM (s : State) (port wm : Nat) : State :=
  s.modPort port fun q => if q.wm < wm then { q with wm := wm, lastAdv := s.now } else q

def bump32 (n : Nat) : Nat := if n < 0xFFFFFFFF then n + 1 else n

/-! ### What the weir delivers (R173 to R177, R180, R398, R399) -/

/-- The descriptor of a mailbox, when it can be read (R174, R175, R358). Memory holds what was last written to it: TAIL and DROPS that software stored count
as the part's, and bits that R7 says read zero stay as they stand and are not looked at (DESIGN CHOICE, log entry 67). -/
def State.mailbox (s : State) (ctx mbox : Nat) : Option (Ctx × Word × Nat) :=
  match s.ctx? ctx with
  | some c =>
    if !c.en then none
    else
      let a := c.mboxbase + BitVec.ofNat 64 (32 * mbox)
      (match s.readVA false 0 ctx .load a 32 with
        | .ok bs =>
          let d := leNat bs
          if d.testBit 72 && 6 ≤ bits d 64 4 && bits d 64 4 ≤ 11 then some (c, a, d) else none
        | _ => none)
  | none => none

/-- A mailbox descriptor that is read marks the frames of errors that last, its own and those of the walk (R358, R374, R376). -/
def State.noteMailbox (s : State) (ctx mbox : Nat) : State :=
  match s.ctx? ctx with
  | some c => if c.en then s.noteVA false 0 ctx .load (c.mboxbase + BitVec.ofNat 64 (32 * mbox)) 32 else s
  | none => s

/-- Count a dropped packet. -/
def State.mailDrop (s : State) (ctx : Nat) (a : Word) (d : Nat) : State :=
  s.writeOrFault ctx 0 (a + 12) (leBytes 4 (bits d 96 32 + 1))

/-- The header of a mailbox record (R175). -/
def mailHeader (pk : Packet) (len room : Nat) (late : Bool) : List Byte :=
  leBytes 32 (pk.stamp % 2 ^ 64 + pk.src.toNat * 2 ^ 64 + pk.seq.toNat * 2 ^ 80 + len * 2 ^ 96 + (if room < len then 2 ^ 112 else 0) +
    (if late then 2 ^ 113 else 0))

/-- Deliver a message to a mailbox (R175). -/
def State.deliverMail (s : State) (pk : Packet) (ctx mbox : Nat) (bs : List Byte) (late : Bool) : State :=
  let s := s.noteMailbox ctx mbox
  match s.mailbox ctx mbox with
  | none => s
  | some (_, a, d) =>
    let tail := bits d 192 64
    if 2 ^ bits d 68 4 ≤ (tail + 2 ^ 64 - bits d 128 64) % 2 ^ 64 then s.mailDrop ctx a d
    else
      let size := 2 ^ bits d 64 4
      let at' := BitVec.ofNat 64 (bits d 0 64 + tail % 2 ^ bits d 68 4 * size)
      let rec' := mailHeader pk bs.length (size - 32) late ++ bs.take (size - 32)
      match s.writeVA ctx at' rec' with
      | some t => t.writeOrFault ctx 0 (a + 24) (leBytes 8 ((tail + 1) % 2 ^ 64))
      | none => s.writeOrFault ctx 0 at' rec'

/-- The answer of an ordered atomic to its wave (R177): the old value. A poisoned one kills the launch, as an `sld` that would receive it does, since a scalar
register has no poison to carry (R283; DESIGN CHOICE, log entry 69). -/
def State.answerAtomic (s : State) (w : WaveRef) (ref : Nat) (old : List (Byte × Bool)) : State :=
  match (s.wave? w).bind fun v => v.pend? ref with
  | some p =>
    if old.any (·.2) then s.killLaunch w.lid 0x0E p.off 0
    else s.modWave w fun v => v.modPend ref fun p => match p.kind with
      | .fab (.oatom d st ..) _ => { p with kind := .fab (.done [.s d (BitVec.ofNat 64 (leNat (old.map (·.1)))), .s st 0]) true }
      | _ => p
  | none => s

/-- The modes of an atomic that rounds nothing. -/
def noModes : FMode := FMode.ofWord 0

/-- A place in the queue window. -/
def inWindow (pa n : Nat) : Bool := 0x3E0000000000 ≤ pa && pa + n ≤ 0x3E0000008000

/-- Apply an ordered atomic at this node, its home. In the queue window it reads zero and writes nothing, whichever node sent it (R316); another
node's that names neither device memory nor the window is refused. -/
def State.applyAtomic (s : State) (pk : Packet) (pa : Nat) (op : BitVec 4) (wide : Bool) (val cmp : Word) (w : WaveRef) (ref : Nat) : State :=
  let n := if wide then 8 else 4
  let own := pk.src.toNat == s.fabric.node
  if !rangeDevice pa n then
    (if own then s.answerAtomic w ref []
     else { s with output := s.output ++ [if inWindow pa n then .answer pk.src.toNat true (List.replicate n (0, false)) else .answer pk.src.toNat false []] })
  else
    let old := s.readHome (.home pa) n
    let t := (s.writeHome pa (leBytes n (atomOp op.toNat n 0 noModes (leNat (old.map (·.1))) val.toNat cmp.toNat))).noteRead pa n
    let t := t.dropCached (fun _ => true) (.home pa) n
    if own then t.answerAtomic w ref old else { t with output := t.output ++ [.answer pk.src.toNat true old] }

/-- A notice at the home of its handle (R398). A BROKEN notice comes from the location, except that the parent's home sends some: one from that
node counts as the location's when its reason is FAULT (DEDUCED, log entry 40). An entry whose location becomes known when that node is in the excised-node list already does
not break by it: only a node that enters the list breaks entries (DESIGN CHOICE, log entry 69). -/
def HandleEnt.notice (e : HandleEnt) (src now : Nat) : NoticeEvent → HandleEnt
  | .location node => if e.st = 0 && !e.lfinal then { e with location := node.toNat, lfinal := true } else e
  | .placed lid =>
    if e.st = 0 then { (if e.lfinal then e else { e with location := src, lfinal := true }) with st := 1, lid := lid } else e
  | .resolved =>
    if e.st ≤ 1 then { (if e.lfinal then e else { e with location := src, lfinal := true }) with st := 2, status := 0, doneTime := now } else e
  | .broken r st =>
    if e.st ≤ 1 then
      let e := if !e.lfinal && (r == 1 || src != handleHome e.parent) then { e with location := src, lfinal := true } else e
      { e with st := 3, reason := r, status := st, doneTime := now }
    else e

/-- An invocation joins those that are held for a LOCATION, in key order (R399). -/
def holdInvoke (pk : Packet) (l : List Packet) : List Packet :=
  l.takeWhile (fun p => !packetBefore pk p) ++ [pk] ++ l.dropWhile (fun p => !packetBefore pk p)

/-- Deliver one packet: a mailbox record, an atomic, an invocation, a notice (R393). STATUS beside the REFUSED of a full hold is 0, where R399 names none (DESIGN CHOICE, log
entry 69). -/
def State.deliverPacket (s : State) (pk : Packet) (late : Bool) : State :=
  match pk.body with
  | .osend ctx mbox bs => s.deliverMail pk ctx mbox bs late
  | .oatom pa op wide val cmp _ w ref => s.applyAtomic pk pa op wide val cmp w ref
  | .invoke .. =>
    if pkParent pk = 0 then { s with fabric := { s.fabric with delivered := s.fabric.delivered ++ [pk] } }
    else match s.forwardInvoke pk with
      | some t => t
      | none =>
        if s.fabric.heldInv.length < 4096 then { s with fabric := { s.fabric with heldInv := holdInvoke pk s.fabric.heldInv } }
        else s.notify (pkChild pk) (.broken 4 0)
  | .notice slot gen ev =>
    match tget slot s.fabric.handles with
    | some e => if e.gen = gen && e.notice pk.src.toNat s.now ev != e then s.putHandle slot (e.notice pk.src.toNat s.now ev) else s
    | none => s

/-- WEIR_DELIVER: the held packet of least key, when its stamp lies below the minimum watermark (R393). -/
def execWeirDeliver (s : State) : Host.Outcome State Fault Refusal :=
  match leastPacket s.fabric.held with
  | none => .fault (.cannotOccur "WEIR_DELIVER")
  | some pk =>
    let t := { s with fabric := { s.fabric with held := s.fabric.held.filter (· ≠ pk), dlvStamp := pk.stamp, dlvSrc := pk.src.toNat,
                                                dlvSeq := pk.seq.toNat, dlvAny := true } }
    stepIf "WEIR_DELIVER" (pk.stamp < s.minWM none && s.device.phase == 6) s (t.deliverPacket pk false)

/-! ### Arrivals (R391, R393, R396) -/

/-- Send a packet on a port: it stands in the retry buffer until the peer acknowledges it; what the port has promised by it stands (R389, R392). -/
def State.sendOn (s : State) (port : Nat) (pk : Packet) : State :=
  { s with output := s.output ++ [Output.packet port pk] }.modPort port fun q =>
    { q with lastSent := s.now, retry := q.retry ++ [pk], sentWM := if pk.late then q.sentWM else max q.sentWM pk.stamp }

/-- The target context of a late message or atomic drops it. An `oatom` names no context: the policy is that of the context of the receiver with the number of its
issuer's (DESIGN CHOICE, log entry 69). -/
def State.dropsLate (s : State) (pk : Packet) : Bool :=
  let pol := fun c => match s.ctx? c with | some k => k.latepol | none => false
  match pk.body with
  | .osend ctx _ _ => pol ctx
  | .oatom _ _ _ _ _ ctx _ _ => pol ctx
  | _ => false

/-- A late packet (R396). -/
def State.latePacket (s : State) (port : Nat) (pk : Packet) : State :=
  if pk.dst.toNat ≠ s.fabric.node then
    match s.portTo pk.dst.toNat with
    | some o => (s.sendOn o { pk with late := true }).modPort port fun q => { q with lateCnt := bump32 q.lateCnt }
    | none => s.modPort port fun q => { q with dropCnt := bump32 q.dropCnt }
  else if s.dropsLate pk then
    let s := s.modPort port fun q => { q with dropCnt := bump32 q.dropCnt }
    match pk.body with
    | .osend ctx mbox _ =>
      let t := s.noteMailbox ctx mbox
      (match s.mailbox ctx mbox with | some (_, a, d) => t.mailDrop ctx a d | none => t)
    | _ => s
  else (s.deliverPacket pk true).modPort port fun q => { q with lateCnt := bump32 q.lateCnt }

/-- ORDERED_PACKET_ARRIVAL: before READY it is discarded (R406); a late one is handled at once; another raises the port's watermark and joins
the held packets, or the merge of its route. -/
def execOrderedPacketArrival (port : BitVec 4) (pk : Packet) (s : State) : Host.Outcome State Fault Refusal :=
  match s.fabric.ports[port.toNat]? with
  | none => .fault (.cannotOccur "ORDERED_PACKET_ARRIVAL")
  | some q =>
    let t :=
      if s.device.phase ≠ 6 then s
      else if pk.late || (q.excise && s.beforeDlv pk) then s.latePacket port.toNat pk
      else
        let s := s.raiseWM port.toNat pk.stamp
        if pk.dst.toNat = s.fabric.node then { s with fabric := { s.fabric with held := s.fabric.held ++ [pk] } }
        else match s.portTo pk.dst.toNat with
          | some o => s.modPort o fun q => { q with merge := q.merge ++ [pk] }
          | none => s
    stepIf "ORDERED_PACKET_ARRIVAL" q.up s t

/-- BEACON_ARRIVAL. -/
def execBeaconArrival (port : BitVec 4) (wm : BitVec 64) (s : State) : Host.Outcome State Fault Refusal :=
  match s.fabric.ports[port.toNat]? with
  | none => .fault (.cannotOccur "BEACON_ARRIVAL")
  | some q => stepIf "BEACON_ARRIVAL" q.up s (s.raiseWM port.toNat wm.toNat)

/-- CULVERT_ARRIVAL: the invocation waits for its parent's launch (R181); before READY it is discarded (R406). -/
def execCulvertArrival (pk : Packet) (s : State) : Host.Outcome State Fault Refusal :=
  let own := s.fabric.culvertIn.contains pk
  let s1 := { s with fabric := { s.fabric with culvertIn := s.fabric.culvertIn.filter (· ≠ pk), waitingInv := s.fabric.waitingInv ++ [pk] } }
  let inOrder := !own || s.fabric.culvertIn.head? == some pk
  let isInv := pkParent pk != 0
  stepIf "CULVERT_ARRIVAL" (isInv && inOrder) s (if s.device.phase = 6 then s1.settleInvokes else s)

/-! ### Departures (R392) -/

/-- The port is a router's output: another input feeds it, excised or not. Otherwise the injector alone sends on it (R392). -/
def State.isRouter (s : State) (port : Nat) : Bool :=
  match s.fabric.ports[port]? with
  | some o => s.fabric.ports.zipIdx.any fun p => p.1.peerKind != 0 && p.2 != port && o.feeds.getLsbD p.2
  | none => false

/-- The kind and the watermark of a beacon on a port: F from the injector, OutWM from a router's output; never less than what the port has sent
(R392). -/
def State.outWM (s : State) (port : Nat) : Nat × Nat :=
  match s.fabric.ports[port]? with
  | some q => if s.isRouter port then (1, max q.sentWM (q.merge.foldl (fun m p => min m p.stamp) (s.feedWM port))) else (0, s.floorF)
  | none => (0, 0)

/-- BEACON_SEND: the port has been idle for one beacon period. -/
def execBeaconSend (port : BitVec 4) (s : State) : Host.Outcome State Fault Refusal :=
  match s.fabric.ports[port.toNat]? with
  | none => .fault (.cannotOccur "BEACON_SEND")
  | some q =>
    let o := s.outWM port.toNat
    stepIf "BEACON_SEND" (q.up && q.lastSent + 16 * s.fabric.beacon ≤ s.now && (s.isRouter port.toNat || q.merge.isEmpty)) s
      ({ s with output := s.output ++ [Output.beacon port.toNat o.1 o.2 q.outSeq] }.modPort port.toNat fun q =>
        { q with lastSent := s.now, outSeq := (q.outSeq + 1) % 65536, sentWM := max q.sentWM o.2 })

/-- An ordered atomic of this node reaches its home at another node: it is applied there in the order in which this node's packets arrive, and
answered; a home that refuses it kills the launch with PAGE_FAULT (R177, R360). -/
def State.applyAway (s : State) (pk : Packet) : State :=
  match pk.body with
  | .oatom pa op wide val cmp _ w ref =>
    if pk.src.toNat ≠ s.fabric.node then s
    else if !s.fabOk pk.dst.toNat pa then
      let off := match (s.wave? w).bind fun v => v.pend? ref with | some p => p.off | none => 0
      s.killLaunch w.lid 0x0D off 0
    else if isWindowAddr pa then s.answerAtomic w ref []
    else match tget pk.dst.toNat s.nodes with
      | some m =>
        let n := if wide then 8 else 4
        let old := (mreadN pa n m).map fun b => (b, false)
        let bs := leBytes n (atomOp op.toNat n 0 noModes (leNat (old.map (·.1))) val.toNat cmp.toNat)
        ({ s with nodes := tmod pk.dst.toNat (mwriteAll (bs.zipIdx.map fun (p : Byte × Nat) => (pa + p.2, p.1))) s.nodes }).answerAtomic w ref old
      | none => s
  | _ => s

/-- The peer of a port acknowledges the oldest packet of its retry buffer: it has arrived (R389). -/
def State.linkAck (s : State) (port : Nat) : Option State :=
  match s.fabric.ports[port]? with
  | some q => (match q.retry with
    | pk :: rest => if q.up then some ((s.modPort port fun q => { q with retry := rest }).applyAway pk) else none
    | [] => none)
  | none => none

/-- ROUTER_FORWARD: the packet of least key of a port's merge leaves when its stamp lies below every watermark that feeds the port; what the
injector alone sends leaves at once. -/
def execRouterForward (port : BitVec 4) (s : State) : Host.Outcome State Fault Refusal :=
  match s.fabric.ports[port.toNat]? with
  | none => .fault (.cannotOccur "ROUTER_FORWARD")
  | some q =>
    match leastPacket q.merge with
    | none => .fault (.cannotOccur "ROUTER_FORWARD")
    | some pk =>
      let t := s.modPort port.toNat fun q => { q with merge := q.merge.filter (· ≠ pk) }
      stepIf "ROUTER_FORWARD" (q.up && (!s.isRouter port.toNat || pk.stamp < s.feedWM port.toNat)) s (t.sendOn port.toNat pk)

/-! ### Stalls and link errors (R379, R388, R389, R394) -/

/-- The header of a packet is malformed: LEN above 17, CLASS 5 to 7, a zero field that is not zero (R388). -/
def badHeader (h : BitVec 128) : Bool := 17 < bits h.toNat 11 5 || 5 ≤ bits h.toNat 8 3 || bits h.toNat 0 4 != 0

/-- A packet with a malformed header arrives: it is discarded, and counted in the port's CRCERR (R388). -/
def State.discardHeader (s : State) (port : Nat) (h : BitVec 128) : Option State :=
  match s.fabric.ports[port]? with
  | some q => if q.up && badHeader h then some (s.modPort port fun q => { q with crcErr := bump32 q.crcErr }) else none
  | none => none

/-- A port keeps a held packet back: its stamp lies below the minimum over the other ports and not below this port's watermark. -/
def State.keepsBack (s : State) (port : Nat) : Bool :=
  match s.fabric.ports[port]? with
  | some q => q.counts && s.fabric.held.any fun p => p.stamp < s.minWM (some port) && q.wm ≤ p.stamp
  | none => false

/-- Note, for each port, from when it has kept a packet back (R394). -/
def State.noteBlocked (s : State) : State :=
  (List.range s.fabric.ports.length).foldl (fun s p =>
    let b := s.keepsBack p
    s.modPort p fun q => { q with blocked := if b then some (q.blocked.getD s.now) else none }) s

/-- The time at which a port that keeps a packet back stalls: STALL µs after the last of what starts its test (R394). -/
def State.stallTime (s : State) (port : Nat) (q : Port) : Option Nat :=
  match q.blocked with
  | some t => if !q.stalled && s.keepsBack port then some (max t (max q.lastAdv q.rearm) + s.fabric.stall * Config.ticksPerUs) else none
  | none => none
/-- The times at which ports stall. -/
def State.stallTimes (s : State) : List Nat := s.fabric.ports.zipIdx.filterMap fun p => s.stallTime p.2 p.1

/-- PORT_STALL: for STALL µs the watermark has not advanced and a held packet has been kept back. -/
def execPortStall (port : BitVec 4) (s : State) : Host.Outcome State Fault Refusal :=
  match s.fabric.ports[port.toNat]? with
  | none => .fault (.cannotOccur "PORT_STALL")
  | some q =>
    stepIf "PORT_STALL" ((s.stallTime port.toNat q).any fun t => Nat.ble t s.now) s
      ({ s with output := s.output ++ [Output.stalledPort port.toNat] }.modPort port.toNat fun q => { q with stalled := true })

/-- A packet that has lost its route takes another one, or is handled as UNREACHABLE (R379). -/
def State.reroute (s : State) (pk : Packet) : State :=
  match s.portTo pk.dst.toNat with
  | some o => s.modPort o fun q => { q with merge := q.merge ++ [pk] }
  | none =>
    if pk.src.toNat ≠ s.fabric.node then s
    else match pk.body with
      | .invoke .. => s.breakHandle (handleSlot (pkChild pk)) 6 0
      | .oatom _ _ _ _ _ _ w ref => s.modWave w fun v => v.modPend ref fun p => match p.kind with
          | .fab q _ => { p with kind := .fab (.done (q.refused 3)) true }
          | _ => p
      | _ => s

/-- FLIT_CRC_ERROR: a flit of this port is bad. `sends` 0: it was received here, and a resend is requested; 1 to 15: it was sent that often and
is sent again; 16: the link is taken down, and what it held is sent by other routes in its order. -/
def execFlitCrcError (port : BitVec 4) (sends : Nat) (s : State) : Host.Outcome State Fault Refusal :=
  match s.fabric.ports[port.toNat]? with
  | none => .fault (.cannotOccur "FLIT_CRC_ERROR")
  | some q =>
    let p := port.toNat
    let t :=
      if sends = 0 then (s.countError 2 p 1).modPort p fun q => { q with crcErr := bump32 q.crcErr }
      else if sends < 16 then (s.countError 2 p 1).modPort p fun q => { q with resends := bump32 q.resends }
      else
        let s := (s.countError 2 p 2).modPort p fun q => { q with up := false, routable := false, merge := [], retry := [] }
        (q.retry ++ q.merge).foldl State.reroute s
    stepIf "FLIT_CRC_ERROR" (q.up && sends ≤ 16) s t

/-! ### Fabric time (R390) -/

/-- The offset from the grandmaster is known: behind by more than 1 µs the clock is stepped; otherwise it runs fast or slow until it has
caught up. Fabric time never decreases. -/
def Fabric.adjust (f : Fabric) (offset : Int) : Fabric :=
  let f := { f with offset := offset }
  if offset < -(Config.ticksPerUs : Int) then { f with now := f.now + offset.natAbs, slew := 0 } else { f with slew := -5 * offset }

/-- The data set of this part's own clock, folded as an announcement's: priority 128, class 6 with a timing input and else 248, the node (PRESUMED
from the default profile of IEEE 1588, log entry 64). -/
def Fabric.clockRank (f : Fabric) : Nat := 128 * 2 ^ 96 + (if f.timing then 6 else 248) * 2 ^ 88 + 128 * 2 ^ 64 + f.node

/-- The port towards the grandmaster: the one that is up with the best announcement, when that is better than this part's own clock, which is
otherwise the grandmaster (R390). -/
def Fabric.slavePort (f : Fabric) : Option Nat :=
  (f.ports.zipIdx.foldl (fun (b : Option (Nat × Nat)) p => match p.1.up, p.1.ptp.announced, b with
    | true, some r, none => if r < f.clockRank then some (p.2, r) else none
    | true, some r, some x => if r < x.2 then some (p.2, r) else b
    | _, _, _ => b) none).map (·.1)

/-- Change what IEEE 1588 keeps at a port. -/
def State.modPtp (s : State) (port : Nat) (f : PtpPort → PtpPort) : State := s.modPort port fun q => { q with ptp := f q.ptp }

/-- The offset that a delay response completes: half of what the way there exceeds the way back by (R390). -/
def PtpPort.offset (p : PtpPort) (received : Nat) : Option Int :=
  match p.origin, p.arrived, p.asked with
  | some t1, some t2, some t3 => some ((((t2 : Int) - t1) - ((received : Int) - t3)) / 2)
  | _, _, _ => none

/-- PTP_MESSAGE: a message of IEEE 1588 arrives on a port that is up. An announcement counts for the choice of the grandmaster; `sync` and its
follow-up count on the port towards it; a delay request is answered where this part is the master; a delay response gives the offset, which
corrects the clock. -/
def execPtpMessage (m : PtpArrival) (s : State) : Host.Outcome State Fault Refusal :=
  match s.fabric.ports[m.port.toNat]? with
  | none => .fault (.cannotOccur "PTP_MESSAGE")
  | some q =>
    let p := m.port.toNat
    let slave := s.fabric.slavePort == some p
    stepIf "PTP_MESSAGE" q.up s (match m.msg with
      | .announce r => s.modPtp p fun x => { x with announced := some r }
      | .sync o => if slave then s.modPtp p fun x => { x with origin := o, arrived := some s.now } else s
      | .followUp o => if slave then s.modPtp p fun x => { x with origin := some o } else s
      | .delayReq => if slave then s else { s with output := s.output ++ [.ptp p (.delayResp s.now)] }
      | .delayResp t4 =>
        match (if slave then q.ptp.offset t4 else none) with
        | some d => let t := s.modPtp p fun x => { x with asked := none }; { t with fabric := t.fabric.adjust d }
        | none => s)

/-- What the part sends on its ports that are up in a synchronisation interval: a delay request towards the grandmaster; on the others the
announcement of the best clock, and a two-step `sync` (R390). -/
def Fabric.ptpSends (f : Fabric) : List (Nat × PtpMsg) :=
  let best := match f.slavePort with
    | some p => (match f.ports[p]? with | some q => q.ptp.announced.getD f.clockRank | none => f.clockRank)
    | none => f.clockRank
  (f.ports.zipIdx.filter (·.1.up)).flatMap fun p =>
    if f.slavePort == some p.2 then [(p.2, .delayReq)] else [(p.2, .announce best), (p.2, .sync none), (p.2, .followUp f.now)]

/-- There is something to keep time with: a port that is up, or a timing input. -/
def Fabric.hasTime (f : Fabric) : Bool := f.timing || f.ports.any (·.up)

/-- PTP_SYNC_INTERVAL: the part sends its messages and judges its lock over the last eight intervals; as grandmaster it has no offset. Where no port is up and
there is no timing input no interval is kept, and LOCKED stands (R390, R405; DESIGN CHOICE, log entry 45). -/
def execPtpSyncInterval (s : State) : Host.Outcome State Fault Refusal :=
  let f := s.fabric
  let off := if f.slavePort.isNone then 0 else f.offset
  let hist := ((decide (off.natAbs * 2 ≤ f.skew)) :: f.lockHist).take 8
  let lock := hist.length == 8 && hist.all id
  let lost := f.locked && !lock
  let ports := match f.slavePort with
    | some p => f.ports.zipIdx.map fun (x : Port × Nat) => if x.2 == p && x.1.ptp.arrived.isSome then { x.1 with ptp := { x.1.ptp with asked := some f.now } } else x.1
    | none => f.ports
  let t := { s with fabric := { f with offset := off, lockHist := hist, locked := lock, syncLost := f.syncLost || lost, ports := ports },
                    output := s.output ++ (f.ptpSends.map fun (x : Nat × PtpMsg) => Output.ptp x.1 x.2) ++ (if lost then [.syncLost] else []) }
  stepIf "PTP_SYNC_INTERVAL" (s.device.powered && f.hasTime) s t

/-! ### Accesses of other nodes (R316, R360) -/

/-- FABRIC_MAPPED_ACCESS: performed in this node's device memory or queue window, or refused. The on-chip map is refused whole: a kernel of another node
cannot name it (R112). -/
def execFabricMappedAccess (src : BitVec 16) (r : FabAccess) (s : State) : Host.Outcome State Fault Refusal :=
  let node := src.toNat
  let answer := fun (s : State) (ok : Bool) (bs : List (Byte × Bool)) => { s with output := s.output ++ [.answer node ok bs] }
  let own := Loc.node s.fabric.node
  let t :=
    if s.device.phase ≠ 6 then s
    else match r with
      | .load pa n =>
        if n = 0 then answer s false []
        else if inWindow pa n then answer s true (s.readWindow (own pa) n)
        else if rangeDevice pa n then answer (s.noteRead pa n) true (s.readHome (.home pa) n) else answer s false []
      | .store pa bs =>
        if bs.isEmpty then answer s false []
        else if inWindow pa bs.length then
          answer (if bs.length = 8 && pa % 8 = 0 then s.tailWrite node ((pa - 0x3E0000000000) / 8) (leNat bs) else s) true []
        else if rangeDevice pa bs.length then answer (s.writeHome pa bs) true [] else answer s false []
      | .atomic pa op wide val cmp =>
        let n := if wide then 8 else 4
        if inWindow pa n then answer s true (List.replicate n (0, false))
        else if rangeDevice pa n && pa % n = 0 && op.toNat ≤ 9 then
          answer ((s.writeHome pa (leBytes n (atomOp op.toNat n 0 noModes (s.num pa n) val.toNat cmp.toNat))).noteRead pa n) true (s.readHome (.home pa) n)
        else answer s false []
  done s t

/-! ### Invocations delivered to this node (R180, R181, R324, R413) -/

/-- A delivered INVOKE is taken between rounds, in delivery order, once those before it have started (R319, R324): it becomes a launch of its context, or is refused. -/
def State.takeInvoke (s : State) : Option State :=
  match s.fabric.delivered with
  | [] => none
  | pk :: rest =>
    if !(s.round.filter s.startable).isEmpty || (s.launches.any fun l => l.2.queue.isNone && l.2.st == .starting) then none
    else
      let s := { s with fabric := { s.fabric with delivered := rest } }
      match pk.body with
      | .invoke ctx kernel items fmode _ args h parent =>
        let place : Option (Nat × Option Nat) :=
          if parent = 0 then some (ctx, none)
          else match s.parentState parent with
            | .retired c lid => some (c, if (handleFlags parent).testBit 0 then some lid else none)
            | _ => none
        (match place with
          | none => some (s.refuseHandle h 6)
          | some (c, heir) =>
            let ok := match s.ctx? c with
              | some k => k.en && (match s.tenant? k.tenant with | some t => t.en && t.st == 1 | none => false)
              | none => false
            if !ok || items = 0 then some (s.refuseHandle h 6)
            else
              let f : LaunchFields := { items := items, fmode := fmode, batch := 16, ntempl := 0, arglen := 0, home := 0, tmpl := 0,
                                        argAddr := 0, kernel := kernel }
              let n := s.newLaunch (Launch.entered c none none f args h heir)
              some (n.2.advanceLaunch n.1))
      | _ => some s

/-- PORT_LINK_UP: a trained link enters the routing set, with its peer (R402, R405). -/
def execPortLinkUp (port : BitVec 4) (peer : BitVec 16) (kind : BitVec 2) (s : State) : Host.Outcome State Fault Refusal :=
  match s.fabric.ports[port.toNat]? with
  | none => .fault (.cannotOccur "PORT_LINK_UP")
  | some q =>
    stepIf "PORT_LINK_UP" (!q.up && (kind == 1 || kind == 2) && s.device.powered) s
      (s.modPort port.toNat fun q => { q with up := true, routable := true, peer := peer.toNat, peerKind := kind.toNat })

end Sys2Proof.Machine
end

