-- ==== Sys2Proof/Machine/Mgmt.lean ====
section
/-! DEFINITION. The privileged register space: who may reach which block (R308, R400, R406, R407), the blocks as they read, and what a write
does (R309 to R314, R320, R377, R395, R401 to R403, R407 to R410). -/

namespace Sys2Proof.Machine

/-! ### Who may write what (R308, R406, R407) -/

/-- A doubleword of the privileged space. -/
inductive MgmtReg where
  | tenant (t i : Nat) | ctx (c i : Nat) | queue (q i : Nat) | fabric (i : Nat) | port (p i : Nat) | handles (i : Nat) | excised (k : Nat)
  | errors (i : Nat) | device | nonce (i : Nat) | report (i : Nat) | blob (i : Nat) | frame (i : Nat)
  deriving DecidableEq, Repr

/-- The doubleword at an offset; none for an offset that R308 does not list. -/
def mgmtReg (off : Nat) : Option MgmtReg :=
  let inBlock := fun base n : Nat => base ≤ off && off < base + n
  if off % 8 ≠ 0 then none
  else if inBlock 0x1000 512 then some (.tenant ((off - 0x1000) / 32) ((off - 0x1000) % 32 / 8))
  else if inBlock 0x100000 65536 then some (.ctx ((off - 0x100000) / 64) ((off - 0x100000) % 64 / 8))
  else if inBlock 0x200000 65536 then some (.queue ((off - 0x200000) / 16) ((off - 0x200000) % 16 / 8))
  else if inBlock 0x300000 64 then some (.fabric ((off - 0x300000) / 8))
  else if inBlock 0x300100 1024 then some (.port ((off - 0x300100) / 64) ((off - 0x300100) % 64 / 8))
  else if inBlock 0x300800 16 then some (.handles ((off - 0x300800) / 8))
  else if inBlock 0x300A00 512 then some (.excised ((off - 0x300A00) / 8))
  else if inBlock 0x300C00 32 then some (.errors ((off - 0x300C00) / 8))
  else if inBlock 0x301000 8 then some .device
  else if inBlock 0x301080 64 then some (.nonce ((off - 0x301080) / 8))
  else if inBlock 0x301100 448 then some (.report ((off - 0x301100) / 8))
  else if inBlock 0x302000 8192 then some (.blob ((off - 0x302000) / 8))
  else if inBlock 0x304000 8192 then some (.frame ((off - 0x304000) / 8))
  else none

/-- A block of a tenant that nothing has written. -/
def Tenant.blank : Tenant := { raw := 0, en := false, st := 0, events := [], faultSeq := 0, deficit := 0 }
/-- A context block that nothing has written. -/
def Ctx.blank : Ctx := { raw := 0, en := false, voids := [], seq := 0, copyTl := [] }
def State.tenantBlock (s : State) (t : Nat) : Tenant := (s.tenant? t).getD Tenant.blank
def State.ctxBlock (s : State) (c : Nat) : Ctx := (s.ctx? c).getD Ctx.blank

/-- The tenant whose OWNER may reach a doubleword. -/
def State.ownerTenant (s : State) : MgmtReg → Option Nat
  | .ctx c _ => some (s.ctxBlock c).tenant
  | .queue q _ => some (match s.queue? q with | some k => k.tenant | none => 0)
  | _ => none

/-- The source is among those that R308 names for the block. -/
def State.sourceOk (s : State) (src : MgmtSrc) (r : MgmtReg) : Bool :=
  match src with
  | .sideband => (match r with | .device => true | .nonce _ => true | .report _ => true | .blob _ => true | _ => false)
  | .node n =>
    s.device.sysv && (match r with
      | .blob _ => false
      | _ => s.device.sysnode == n.toNat ||
        (match s.ownerTenant r with | some t => (s.tenantBlock t).owner == n.toNat | none => false))

/-- A write is accepted: by its source, and before READY only to the blob window and the nonce by the sideband (R406). -/
def State.writeOk (s : State) (src : MgmtSrc) (r : MgmtReg) : Bool :=
  s.sourceOk src r &&
  (s.device.phase == 6 || match src, r with | .sideband, .blob _ => true | .sideband, .nonce _ => true | _, _ => false)

/-- A read is accepted: the device and fabric blocks answer any node before READY and while SYSV is 0 (R400, R406, R407). -/
def State.readOk (s : State) (src : MgmtSrc) (r : MgmtReg) : Bool :=
  match src, r with
  | .node n, .device => s.device.phase != 6 || !s.device.sysv || s.device.sysnode == n.toNat
  | .node n, .fabric _ => s.device.phase != 6 || !s.device.sysv || s.device.sysnode == n.toNat
  | .sideband, .report _ => true
  | .sideband, .device => true
  | _, _ => s.sourceOk src r && s.device.phase == 6

/-- Refused with MAP_RANGE: nothing changes (R308). -/
def State.refuse (s : State) (src : MgmtSrc) : State := { s with output := s.output ++ [.refusal src] }

/-- A write to a doubleword, when it is accepted. -/
def mgmt (src : MgmtSrc) (r : MgmtReg) (s : State) (write : State → State) : Host.Outcome State Fault Refusal :=
  done s (if s.writeOk src r then write s else s.refuse src)

/-! ### The blocks as they read -/

def bit (b : Bool) (i : Nat) : Nat := if b then 2 ^ i else 0
/-- Doubleword `i` of a block. -/
def dwordOf (block i : Nat) : Word := BitVec.ofNat 64 (block / 2 ^ (64 * i))

/-- A tenant block (R309). -/
def Tenant.block (t : Tenant) : Nat := t.raw.toNat + bit t.en 66 + t.st * 2 ^ 68
/-- A context block (R312). -/
def Ctx.block (c : Ctx) : Nat := c.raw.toNat + bit c.en 0
/-- A queue directory entry (R314). -/
def Queue.entry (k : Queue) : Nat := k.qcbAddr + k.tenant * 2 ^ 64 + bit k.en 68
/-- The fabric block (R401). -/
def Fabric.block (f : Fabric) : Nat :=
  f.now % 2 ^ 64 * 2 ^ 448 + (f.offset % 2 ^ 64).toNat * 2 ^ 384 + f.dlvStamp % 2 ^ 64 * 2 ^ 320 + f.dlvSrc * 2 ^ 304 + f.dlvSeq * 2 ^ 288 +
  f.stall * 2 ^ 256 + f.beacon * 2 ^ 240 + f.skew * 2 ^ 224 + f.node * 2 ^ 208 + bit f.syncLost 1 + bit f.locked 0
/-- A port block (R402). -/
def Port.block (q : Port) : Nat :=
  q.wm % 2 ^ 64 * 2 ^ 448 + q.lastAdv % 2 ^ 64 * 2 ^ 384 + q.crcErr * 2 ^ 352 + q.resends * 2 ^ 320 + q.lateCnt * 2 ^ 288 + q.dropCnt * 2 ^ 256 +
  q.peer * 2 ^ 240 + q.peerKind * 2 ^ 8 + bit q.stalled 2 + bit q.excise 1 + bit q.up 0
/-- The handle table block (R403). -/
def Fabric.handleBlock (f : Fabric) : Nat := f.heldInv.length * 2 ^ 64 + f.htBase + bit f.htEn 0
/-- A UNIT within the range of its UKIND (R377). -/
def unitOk (kind unit : Nat) : Bool :=
  match kind with | 0 => unit < 3072 | 1 => unit < 8 | 2 => unit < 16 | _ => unit == 0
/-- The error block (R377). -/
def Device.errorBlock (d : Device) : Nat :=
  let c := if unitOk d.ukind d.unit then (tget (d.ukind, d.unit) d.counts).getD (0, 0, 0) else (0, 0, 0)
  c.2.2 * 2 ^ 224 + c.2.1 * 2 ^ 192 + c.1 * 2 ^ 160 + d.frames.length * 2 ^ 64 + bit d.pfovf 16 + d.ukind * 2 ^ 14 + d.unit
/-- The device block (R407); LOCKCLK reads as it was last written, though it takes effect at the next boundary (R6, R410). -/
def Device.block (d : Device) : Nat :=
  d.sysnode * 2 ^ 48 + bit d.sysv 32 + d.failcode * 2 ^ 24 + bit d.thermtrip 23 + bit d.cfgbad 22 + bit d.pwrexc 21 +
  bit ((d.lockNext.map (·.1)).getD d.lockclk) 20 +
  bit d.atrdy 19 + d.phase

/-- Doubleword `i` of a list of bytes. -/
def bytesDword (bs : List Byte) (i : Nat) : Word := BitVec.ofNat 64 (leNat ((bs.drop (8 * i)).take 8))

/-- What a doubleword reads as; a queue directory entry that nothing has written reads 0 (DESIGN CHOICE, log entry 4). -/
def State.regValue (s : State) : MgmtReg → Word
  | .tenant t i => dwordOf (s.tenantBlock t).block i
  | .ctx c i => dwordOf (s.ctxBlock c).block i
  | .queue q i => dwordOf (match s.queue? q with | some k => k.entry | none => 0) i
  | .fabric i => dwordOf s.fabric.block i
  | .port p i => dwordOf (match s.fabric.ports[p]? with | some q => q.block | none => 0) i
  | .handles i => dwordOf s.fabric.handleBlock i
  | .excised k => BitVec.ofNat 64 ((tget k s.fabric.excised).getD 0).toNat
  | .errors i => dwordOf s.device.errorBlock i
  | .device => BitVec.ofNat 64 s.device.block
  | .nonce i => bytesDword s.device.nonce i
  | .report i => bytesDword s.device.report i
  | .blob i => BitVec.ofNat 64 (leNat (mreadN (8 * i) 8 s.device.blob))
  | .frame i => BitVec.ofNat 64 (match tget i s.device.frames with | some f => 2 ^ 63 + f * 2 ^ 14 | none => 0)

/-- A management read: the doubleword, or none for MAP_RANGE (R308). A read changes nothing, so it is no step. -/
def State.mgmtRead (s : State) (src : MgmtSrc) (off : Nat) : Option Word :=
  match mgmtReg off with
  | some r => if s.readOk src r then some (s.regValue r) else none
  | none => none

/-! ### Fields written -/

/-- Put a doubleword into a block. -/
def putDword {n : Nat} (b : BitVec n) (i : Nat) (v : Word) : BitVec n :=
  (b &&& ~~~(BitVec.ofNat n (2 ^ 64 - 1) <<< (64 * i))) ||| (BitVec.ofNat n v.toNat <<< (64 * i))

/-- The RW fields of a tenant block but EN (R309). -/
def tenantFields : BitVec 256 := BitVec.ofNat 256 (span 255 252 + span 237 192 + span 173 128 + span 127 70 + span 63 0)
/-- The RW fields of a context block but EN; PTBASE has bits [45:0] (R312). -/
def ctxFields : BitVec 512 := BitVec.ofNat 512 (span 511 256 + span 237 64 + span 19 16 + span 2 1)

/-- Zero device memory: only listed bytes need a write. A unit zeroed whole loses its poison (R375). -/
def State.zeroHome (s : State) (a n : Nat) : State :=
  let mine := fun x : Nat => a ≤ x && x < a + n
  let hit := sunion (((s.mem.map (·.1)) ++ (s.wlog.map (·.1))).filter mine) []
  { s with wlog := (hit.map fun x => (x, (0 : Byte))).reverse ++ s.wlog,
           mempoison := s.mempoison.filter fun u => !(a ≤ u * 32 && u * 32 + 32 ≤ a + n) }

/-- Zero bytes at a virtual address of a context, page by page; pages that do not translate are left (log entry 41), and table entries whose errors last are
counted (R358, R376). -/
def State.zeroVA (s : State) (ctx : Nat) : Nat → Nat → Nat → State
  | 0, _, _ => s
  | k + 1, va, n =>
    if n = 0 then s
    else
      let m := min n (2 ^ 14 - va % 2 ^ 14)
      let s := s.noteWalk false 0 ctx .store va
      let t := match (s.translate false 0 ctx .store va).loc with
        | some (.home pa) => s.zeroHome pa m
        | some (.node d pa) => { s with nodes := tmod d (fun x => x.filter fun e => !(pa ≤ e.1 && e.1 < pa + m)) s.nodes }
        | _ => s
      t.zeroVA ctx k (va + m) (n - m)

/-! ### Tenants (R309 to R311, R339) -/

/-- The checks of R310 against every enabled tenant. -/
def State.tenantOk (s : State) (t : Nat) (k : Tenant) : Bool :=
  let others := s.tenants.filter fun p => p.1 != t && p.2.en
  k.hbase + k.hcount ≤ 1048576 &&
  (others.all fun p => k.clusters &&& p.2.clusters == 0 && k.pcgrp &&& p.2.pcgrp == 0 &&
    (k.hcount == 0 || p.2.hcount == 0 || k.hbase + k.hcount ≤ p.2.hbase || p.2.hbase + p.2.hcount ≤ k.hbase)) &&
  others.foldl (fun n p => n + p.2.wheel) k.wheel ≤ 4095

/-- Handle slots of a tenant's share have been used by no handle (R184). -/
def State.freeHandles (s : State) (t : Nat) : State :=
  let k := s.tenantBlock t
  State.settleHeld (State.wakeHandles { s with fabric := { s.fabric with
    handles := s.fabric.handles.filter fun e => !(k.hbase ≤ e.1 && e.1 < k.hbase + k.hcount) } })

/-- EN is written 1 to a tenant that is off: the block is checked, then the tenant is active and its SPILL region is zeroed (R310, R339). -/
def State.enableTenant (s : State) (t : Nat) : State :=
  let k := s.tenantBlock t
  if k.en || k.st == 2 then s
  else if !s.tenantOk t k then s
  else (State.zeroHome { s with tenants := tput t { k with en := true, st := 1, events := [], faultSeq := 0, deficit := 0 } s.tenants }
    (k.spill / 4096 * 4096) 0x480000).freeHandles t

/-- The last team of a launch has retired in this cycle: its retirement is under way, though a store or a copy may be outstanding (R125). -/
def State.overNow (s : State) (lid : Nat) (l : Launch) : Bool :=
  let mine := s.teams.filter fun t => t.1.lid == lid
  l.st == .running && mine.length == l.nteams && (mine.all fun t => t.2.st == .retired) && mine.any fun t => t.2.placedAt == s.cycles
/-- Whether a queue's packets stay: those of launches that were killed, or whose retirement is under way, complete with their records. -/
def State.keptPacket (s : State) (p : Packet0) : Bool :=
  s.launches.any fun l => l.2.packet == some p.pid && (l.2.st == .killed || s.overNow l.1 l.2)

/-- Queues of enabled entries lose their slots and are left IDLE; the QCB of an entry with EN 0 is its administrator's (R314); what they had started but for killed launches is gone, and so is what was in parse.
What a queue has started stays when its entry is disabled and its slot given up (DESIGN CHOICE, log entry 44). -/
def State.idleQueues (s : State) (which : Queue → Bool) : State :=
  let qs := (s.queues.filter fun p => (p.2.en || p.2.slot.isSome) && which p.2).map (·.1)
  let gone := fun (p : Packet0) => qs.contains p.q && !s.keptPacket p
  let pids := (s.packets.filter gone).map (·.pid)
  let s := { s with
    packets := s.packets.filter fun p => !gone p,
    copies := s.copies.filter (fun c => match c.packet with | some pid => !pids.contains pid | none => true),
    waiters := s.waiters.filter (fun a => match a.who with | .queue q _ => !qs.contains q | .path .. => true) }
  qs.foldl (fun s q => s.updQueue q fun k => k.giveUp .idle) s

/-- Every launch that a test names is killed with KILLED (R311, R313). -/
def State.killAll (s : State) (which : Nat → Launch → Bool) : State :=
  (s.launches.filter fun p => which p.1 p.2 && p.2.st != .closed).foldl (fun s p => s.killLaunch p.1 0x19 0 0) s

/-- A context is gone: its estates are freed, its copies stop, and its translations are dropped. -/
def State.clearCtx (s : State) (c : Nat) : State :=
  let s := s.putGranules (s.granules.filter fun g => g.ctx ≠ c)
  { (s.modCtx c fun k => { k with en := false, voids := [], seq := 0, copyTl := [] }) with
    copies := s.copies.filter (fun k => !(k.ctx == c && k.lid.isNone)), tlb := s.tlb.filter (fun e => e.ctx ≠ c),
    walks := s.walks.filter (fun e => e.ctx ≠ c) }

/-- RESET is written 1: STATE 2; the launches are killed and the queues lose their slots (R311). The reset ends by a step of its own, when
the killed launches have written their records. -/
def State.beginReset (s : State) (t : Nat) : State :=
  let ofT := fun (s : State) (_ : Nat) (l : Launch) => s.tenantOfCtx l.ctx == t
  let s := { s with tenants := tput t { s.tenantBlock t with st := 2 } s.tenants,
                    wheel := s.wheel.filter (fun e => e.tenant ≠ t) }
  (s.killAll (ofT s)).idleQueues fun k => k.tenant == t

/-- The contexts of a tenant. -/
def State.ctxsOf (s : State) (t : Nat) : List Nat := (s.ctxs.filter fun p => p.2.en && p.2.tenant == t).map (·.1)

/-- The end of a reset: the contexts are destroyed; handle entries, events, waiters, scheduled signals and fault entries are freed; the tenant is off. -/
def State.endReset (s : State) (t : Nat) : Option State :=
  if (s.tenantBlock t).st ≠ 2 then none
  else if s.launches.any fun l => s.tenantOfCtx l.2.ctx == t && l.2.st != .closed then none
  else
    let s := (s.ctxsOf t).foldl (fun s c => s.clearCtx c) s
    let s := { s with faults := s.faults.filter (fun f => f.tenant ≠ t), waiters := s.waiters.filter (fun a => a.tenant ≠ t),
                      wheel := s.wheel.filter (fun e => e.tenant ≠ t), signals := s.signals.filter (fun g => g.tenant ≠ t) }
    some (State.modTenant (s.freeHandles t) t fun k => { k with en := false, st := 0, events := [], faultSeq := 0, deficit := 0 })

/-- A write to a tenant block: while EN is 1 only RESET counts (R310). -/
def State.writeTenant (s : State) (t i : Nat) (v : Word) : State :=
  let k := s.tenantBlock t
  let s := if k.en then s else
    { s with tenants := tput t { k with raw := putDword k.raw i v &&& tenantFields } s.tenants }
  if i ≠ 1 then s
  else
    let s := if v.getLsbD 2 then s.enableTenant t else s
    if v.getLsbD 3 && (s.tenantBlock t).st != 2 then s.beginReset t else s

/-- TENANT_ENABLE: EN is written 1. -/
def execTenantEnable (src : MgmtSrc) (t : BitVec 4) (s : State) : Host.Outcome State Fault Refusal :=
  mgmt src (.tenant t.toNat 1) s fun s => s.enableTenant t.toNat

/-- TENANT_RESET: RESET is written 1. -/
def execTenantReset (src : MgmtSrc) (t : BitVec 4) (s : State) : Host.Outcome State Fault Refusal :=
  mgmt src (.tenant t.toNat 1) s fun s => if (s.tenantBlock t.toNat).st == 2 then s else s.beginReset t.toNat

/-! ### Contexts (R312, R313) -/

/-- The checks of R313. -/
def State.createOk (s : State) (k : Ctx) : Bool :=
  let park := (k.raw.extractLsb' 160 32).toNat
  let swap := (k.raw.extractLsb' 128 32).toNat
  (match s.tenant? k.tenant with | some t => t.en && t.st == 1 && !outOfRange t.pcgrp k.ptroot 16384 | none => false) &&
  (park == 0 || (100 ≤ park && park ≤ 60000000)) && (swap == 0 || (256 ≤ swap && swap ≤ 65536)) && 8192 ≤ k.privsize

/-- EN is written 1 to a context that is not there: after the checks it is created; its reserve and the TAIL and DROPS of its mailboxes are
zeroed (R313). -/
def State.createCtx (s : State) (c : Nat) : State :=
  let k := s.ctxBlock c
  if k.en || !s.createOk k then s
  else
    let s := { s with ctxs := tput c { k with en := true, voids := [], seq := 0, copyTl := List.replicate 16 Timeline.zero } s.ctxs }
    let n := k.ressize
    let s := s.zeroVA c (n / 2 ^ 14 + 2) (k.resbase.toNat % 2 ^ 52) n
    (List.range 256).foldl (fun s m =>
      let a := k.mboxbase.toNat % 2 ^ 52 + 32 * m
      (s.zeroVA c 2 (a + 12) 4).zeroVA c 2 (a + 24) 8) s

/-- The entry of a handle that a launch is to resolve. -/
def Launch.resolves (l : Launch) (node slot : Nat) (e : HandleEnt) : Bool :=
  l.handle != 0 && handleHome l.handle == node && handleSlot l.handle == slot && handleGen l.handle == e.gen

/-- EN is written 0: the context is destroyed (R313). A launch that has met every condition of its retirement, or whose last team has retired in this cycle, is
not killed: the one retires first, the other once its stores and copies are over, with SUCCESS (R325). -/
def State.destroyCtx (s : State) (c : Nat) : State :=
  if !(s.ctxBlock c).en then s
  else
    let s := (s.launches.filter fun p => p.2.ctx == c && s.canRetire p.1 p.2).foldl (fun s p => s.retireLaunch p.1 p.2) s
    let ended := s.launches.filter fun p => p.2.ctx == c && s.overNow p.1 p.2
    let s := s.killAll fun lid l => l.ctx == c && !(ended.any fun p => p.1 == lid)
    let s := s.idleQueues fun k => k.ctx == c
    let s := s.fabric.handles.foldl (fun s e =>
      if e.2.ctx == c && e.2.st ≤ 1 && !(ended.any fun p => p.2.resolves s.fabric.node e.1 e.2) then s.breakHandle e.1 1 0x19 else s) s
    s.clearCtx c

/-- A write to a context block: while EN is 1 only EN counts (R312). -/
def State.writeCtx (s : State) (c i : Nat) (v : Word) : State :=
  let k := s.ctxBlock c
  if k.en then (if i = 0 && !v.getLsbD 0 then s.destroyCtx c else s)
  else
    let s := { s with ctxs := tput c { k with raw := putDword k.raw i v &&& ctxFields } s.ctxs }
    if i = 0 && v.getLsbD 0 then s.createCtx c else s

/-- CONTEXT_CREATE: EN is written 1. -/
def execContextCreate (src : MgmtSrc) (c : BitVec 10) (s : State) : Host.Outcome State Fault Refusal :=
  mgmt src (.ctx c.toNat 0) s fun s => s.createCtx c.toNat

/-- CONTEXT_DESTROY: EN is written 0. -/
def execContextDestroy (src : MgmtSrc) (c : BitVec 10) (s : State) : Host.Outcome State Fault Refusal :=
  mgmt src (.ctx c.toNat 0) s fun s => s.destroyCtx c.toNat

/-! ### Queues (R314, R320) -/

/-- A directory entry with what the part keeps of its queue; one that nothing has written yet reads zero (DESIGN CHOICE, log entry 4). -/
def State.entryOf (s : State) (q : Nat) : Queue := (s.queue? q).getD (Queue.ofImage 0 0 0)

/-- EN is written 1 to a directory entry: the QCB is read, and the queue is PENDING or IDLE: at once, or with the save that EN = 0 has asked for
(R320). A tenant has at most 1,024 enabled entries (R314); what the ring of a resetting tenant holds is discarded (R311). A QCB
with a poisoned byte is not used: EN stays 0 (R415; DESIGN CHOICE, log entry 37). -/
def State.enableQueue (s : State) (q : Nat) : State :=
  let k := s.entryOf q
  if k.en || 1024 ≤ (s.queues.filter fun p => p.2.tenant == k.tenant && p.2.en).length then s
  else if s.poisonedRange k.qcbAddr 256 then s.noteRead k.qcbAddr 256
  else
      let s := { s with queues := tput q k s.queues }
      let n : Queue := { Queue.ofImage k.qcbAddr k.tenant (s.num k.qcbAddr 256) with en := true }
      let n : Queue := if (s.tenant? k.tenant).any (fun t => t.st == 2) then { n with head := n.tail } else n
      (s.noteRead k.qcbAddr 256).updQueue q fun k =>
        if k.slot.isSome then { n with slot := k.slot, st := k.st, since := k.since, saveReq := k.saveReq, wasOff := k.wasOff, waitSince := k.waitSince }
        else if n.head < n.tail then n.wake else n

/-- EN is written 0: a queue that holds a slot is saved at its packet boundary; the queue is left IDLE (R320). -/
def State.disableQueue (s : State) (q : Nat) : State :=
  match s.queue? q with
  | none => s
  | some k =>
    if !k.en then s
    else if k.slot.isSome && !k.loading then s.updQueue q fun k => { k with en := false, saveReq := true, wasOff := true }
    else s.updQueue q fun k => { k.giveUp .idle with en := false }

/-- A write to a directory entry: while EN is 1 only EN counts, and while its queue still holds a slot, for a save that EN = 0 has asked for, QCBADDR and TENANT stand
(DESIGN CHOICE, log entry 41). -/
def State.writeQueue (s : State) (q i : Nat) (v : Word) : State :=
  let k := s.entryOf q
  if i = 0 then
    if k.en || k.slot.isSome then s else { s with queues := tput q { k with qcbAddr := v.toNat } s.queues }
  else if !v.getLsbD 4 then
    let s := s.disableQueue q
    if k.en || k.slot.isSome then s else { s with queues := tput q { k with tenant := v.toNat % 16 } s.queues }
  else if k.en then s
  else
    let s := if k.slot.isSome then s else { s with queues := tput q { k with tenant := v.toNat % 16 } s.queues }
    s.enableQueue q

/-- QUEUE_ENABLE: EN is written 1. -/
def execQueueEnable (src : MgmtSrc) (q : BitVec 12) (s : State) : Host.Outcome State Fault Refusal :=
  mgmt src (.queue q.toNat 1) s fun s => s.enableQueue q.toNat

/-- QUEUE_DISABLE: EN is written 0. -/
def execQueueDisable (src : MgmtSrc) (q : BitVec 12) (s : State) : Host.Outcome State Fault Refusal :=
  mgmt src (.queue q.toNat 1) s fun s => s.disableQueue q.toNat

/-! ### The fabric's blocks (R395, R401 to R403) -/

/-- A write to the fabric block: each field within its range; NODE while it is zero; SYNCLOST by writing 1 (R401). -/
def Fabric.write (f : Fabric) (i : Nat) (v : Word) : Fabric :=
  match i with
  | 0 => if v.getLsbD 1 then { f with syncLost := false } else f
  | 3 =>
    let node := bits v.toNat 16 16
    let skew := bits v.toNat 32 16
    let beacon := bits v.toNat 48 16
    let f := if 16 ≤ skew then f.setSkew skew else f
    { f with node := if f.node = 0 then node else f.node,
             beacon := if 64 ≤ beacon && beacon ≤ 4096 then beacon else f.beacon }
  | 4 =>
    let stall := bits v.toNat 0 32
    if 1 ≤ stall && stall ≤ 1000000 then { f with stall := stall } else f
  | _ => f

/-- EXCISE is written (R395): 1 at once; 0 only while the port's watermark lies above the stamp of DLV. -/
def State.writeExcise (s : State) (p : Nat) (v : Bool) : State :=
  s.modPort p fun q => if v then { q with excise := true } else if s.fabric.dlvStamp < q.wm then { q with excise := false } else q

/-- A write to a port block (R402): STALLED is cleared by writing 1, which re-arms its test (R394). -/
def State.writePort (s : State) (p i : Nat) (v : Word) : State :=
  if i ≠ 0 then s
  else
    let s := if v.getLsbD 2 then s.modPort p fun q => if q.stalled then { q with stalled := false, rearm := s.now, blocked := none } else q else s
    s.writeExcise p (v.getLsbD 1)

/-- A write to the handle table block (R403): HTBASE while EN is 0. -/
def State.writeHandles (s : State) (i : Nat) (v : Word) : State :=
  if i ≠ 0 then s
  else { s with fabric := { s.fabric with htBase := if s.fabric.htEn then s.fabric.htBase else v.toNat % 2 ^ 46 / 2 ^ 25 * 2 ^ 25,
                                          htEn := v.getLsbD 0 } }

/-- An excised-node entry is written: V breaks the entries located at NODE, and waits on handles of that home end (R398, R403). -/
def State.writeExcised (s : State) (k : Nat) (v : BitVec 17) : State :=
  let s := { s with fabric := { s.fabric with excised := if v = 0 then tdel k s.fabric.excised else tput k v s.fabric.excised } }
  if !v.getLsbD 16 then s
  else
    let node := (v.extractLsb' 0 16).toNat
    let s := s.fabric.handles.foldl (fun s e =>
      if e.2.lfinal && e.2.location == node && e.2.st != 3 then s.breakHandle e.1 2 0 else s) s
    s.wakeHandles.settleHeld

/-- PORT_EXCISE: EXCISE is written 1. -/
def execPortExcise (src : MgmtSrc) (p : BitVec 4) (s : State) : Host.Outcome State Fault Refusal :=
  mgmt src (.port p.toNat 0) s fun s => s.writeExcise p.toNat true

/-- PORT_EXCISE_CLEAR: EXCISE is written 0. -/
def execPortExciseClear (src : MgmtSrc) (p : BitVec 4) (s : State) : Host.Outcome State Fault Refusal :=
  mgmt src (.port p.toNat 0) s fun s => s.writeExcise p.toNat false

/-- NODE_EXCISE: V and NODE of an excised-node entry are written. -/
def execNodeExcise (src : MgmtSrc) (k : BitVec 6) (node : BitVec 16) (s : State) : Host.Outcome State Fault Refusal :=
  mgmt src (.excised k.toNat) s fun s => s.writeExcised k.toNat (1#1 ++ node)

/-! ### Errors (R377) -/

/-- A write to the error block. -/
def Device.writeErrors (d : Device) (i : Nat) (v : Word) : Device :=
  if i ≠ 0 then d
  else { d with pfovf := d.pfovf && !v.getLsbD 16, ukind := bits v.toNat 14 2, unit := bits v.toNat 0 12 }

/-- V of a poisoned-frame entry is written 1: the mark is cleared and the entry is free; copies of the frame in load caches go, so that it reads as
its contents stand (R377). -/
def State.clearFrame (s : State) (i : Nat) : State :=
  let f := (tget i s.device.frames).getD 0
  { s with device := { s.device with frames := tdel i s.device.frames }, cache := s.cache.filter fun e => e.1.2 / 2 ^ 11 ≠ f }

/-- POISON_FRAME_CLEAR. -/
def execPoisonFrameClear (src : MgmtSrc) (i : BitVec 10) (s : State) : Host.Outcome State Fault Refusal :=
  mgmt src (.frame i.toNat) s fun s => s.clearFrame i.toNat

/-! ### The device (R407 to R410) -/

/-- The part after DEVRESET: every launch and tenant is lost and bring-up restarts at phase 1; each of PHASE, PWREXC and THERMTRIP that changes raises
an in-band interrupt (R407). Fabric time, the floor and the source sequence count of R306 go on, and memory, which is outside the statement of R407, stands as it is (DESIGN CHOICE,
log entry 42). -/
def State.devReset (s : State) : State :=
  { State.reset with
    mem := s.mem, wlog := s.wlog, mempoison := s.mempoison, lasting := s.lasting, nodes := s.nodes, cycles := s.cycles, nextId := s.nextId,
    fabric := { Fabric.reset with now := s.fabric.now, floor := s.floorF, nextSeq := s.fabric.nextSeq },
    device := { Device.reset with powered := true, phase := 1 },
    output := s.output ++ ([s.device.phase != 1, s.device.pwrexc, s.device.thermtrip].filter id).map (fun _ => .inBand), agenda := s.agenda }

/-- The next boundary of 10 µs after a time. -/
def nextTenUs (t : Nat) : Nat := (t / (10 * Config.ticksPerUs) + 1) * (10 * Config.ticksPerUs)

/-- PWREXC changes: an in-band interrupt (R407). -/
def State.setPwrexc (s : State) (v : Bool) : State :=
  if s.device.pwrexc == v then s
  else { s with device := { s.device with pwrexc := v }, output := s.output ++ [.inBand] }

/-- A written LOCKCLK takes effect when its boundary has come (R410). -/
def Device.lockDue (d : Device) (now : Nat) : Device :=
  match d.lockNext with
  | some (v, t) => if t ≤ now then { d with lockclk := v, lockNext := none } else d
  | none => d

/-- A write to the device block (R407): PWREXC by writing 1; LOCKCLK from the next boundary; SYSNODE, SYSV and DEVRESET by the sideband alone. -/
def State.writeDevice (s : State) (src : MgmtSrc) (v : Word) : State :=
  let side := src == .sideband
  if side && v.getLsbD 18 then s.devReset
  else
    let s := if v.getLsbD 21 then s.setPwrexc false else s
    let d := { s.device.lockDue s.now with lockNext := some (v.getLsbD 20, nextTenUs s.now) }
    { s with device := if side && !d.sysv then { d with sysnode := bits v.toNat 48 16, sysv := v.getLsbD 32 } else d }

/-- DEVRESET: the sideband writes 1 to it; over the fabric the field is not written (R407). A part that stopped on over-temperature waits for it
at any phase (R411). -/
def execDevreset (s : State) : Host.Outcome State Fault Refusal :=
  done s (if s.device.phase == 6 || s.device.thermtrip then s.devReset else s.refuse .sideband)

/-- LOCKCLK_APPLY: a written LOCKCLK takes effect at the boundary (R410). -/
def execLockclkApply (s : State) : Host.Outcome State Fault Refusal :=
  match s.device.lockNext with
  | some (_, t) => stepIf "LOCKCLK_APPLY" (t ≤ s.now) s { s with device := s.device.lockDue s.now }
  | none => .fault (.cannotOccur "LOCKCLK_APPLY")

/-- Replace bytes of a list from a place on. -/
def putList (l : List Byte) (at' : Nat) (bs : List Byte) : List Byte := l.take at' ++ bs ++ l.drop (at' + bs.length)

/-- A doubleword of the nonce is written: the last one starts the report (R408). -/
def Device.writeNonce (d : Device) (k : Nat) (v : Word) : Device :=
  let d := { d with nonce := putList d.nonce (8 * k) (leBytes 8 v.toNat) }
  if k = 7 then { d with atNonce := some d.nonce, atrdy := false } else d

/-- ATTEST_NONCE_WRITE. -/
def execAttestNonceWrite (src : MgmtSrc) (k : BitVec 3) (value : BitVec 64) (s : State) : Host.Outcome State Fault Refusal :=
  mgmt src (.nonce k.toNat) s fun s => { s with device := s.device.writeNonce k.toNat value }

/-- The bitmap of fenced clusters. -/
def Device.fencedMap (d : Device) : Nat := (List.range 16).foldl (fun n k => n + bit (d.fencedClusters.contains k) k) 0

/-- A list made `n` bytes long, with zeros at its end where it is shorter. -/
def padTo (n : Nat) (l : List Byte) : List Byte := (l ++ List.replicate n 0).take n

/-- Bytes 0 to 319 of a report; the public key is 57 bytes and the signature 114, each followed by zeros (R408). -/
def State.reportBody (s : State) (nonce : List Byte) : List Byte :=
  let d := s.device
  padTo 64 nonce ++ padTo 57 Config.devicePublicKey ++ List.replicate 7 0 ++ padTo 64 Config.romMeasurement ++
  (if d.blobUsed.isEmpty then List.replicate 64 0 else shake256 d.blobUsed 64) ++
  padTo 64 (leBytes 8 d.block ++ leBytes 2 s.fabric.node ++ leBytes 8 s.now ++ leBytes 2 d.fencedMap)

/-- ATTEST_REPORT_READY: the report of the latest nonce is written and signed (R408). -/
def execAttestReportReady (s : State) : Host.Outcome State Fault Refusal :=
  match s.device.atNonce with
  | none => .fault (.cannotOccur "ATTEST_REPORT_READY")
  | some n =>
    let b := s.reportBody n
    done s { s with device := { s.device with
      report := b ++ padTo 114 (Config.deviceSign b) ++ List.replicate 14 0, atNonce := none, atrdy := true } }

/-- A doubleword of the blob window is written; once PHASE has passed 5 it is ignored (R409). -/
def Device.writeBlob (d : Device) (i : Nat) (v : Word) : Device :=
  if 5 < d.phase then d
  else { d with blob := mwriteAll ((leBytes 8 v.toNat).zipIdx.map fun p => (8 * i + p.2, p.1)) d.blob }

/-! ### A write to any doubleword -/

/-- What a write to a doubleword does. -/
def State.writeReg (s : State) (src : MgmtSrc) (v : Word) : MgmtReg → State
  | .tenant t i => s.writeTenant t i v
  | .ctx c i => s.writeCtx c i v
  | .queue q i => s.writeQueue q i v
  | .fabric i => { s with fabric := s.fabric.write i v }
  | .port p i => s.writePort p i v
  | .handles i => s.writeHandles i v
  | .excised k => s.writeExcised k (v.extractLsb' 0 17)
  | .errors i => { s with device := s.device.writeErrors i v }
  | .device => s.writeDevice src v
  | .nonce k => { s with device := s.device.writeNonce k v }
  | .report _ => s
  | .blob i => { s with device := s.device.writeBlob i v }
  | .frame i => if v.getLsbD 63 then s.clearFrame i else s

/-- MGMT_REGISTER_WRITE: a doubleword of the privileged space is written, or the access is refused with MAP_RANGE (R308). -/
def execMgmtRegisterWrite (src : MgmtSrc) (off : BitVec 32) (value : BitVec 64) (s : State) : Host.Outcome State Fault Refusal :=
  match mgmtReg off.toNat with
  | some r => mgmt src r s fun s => s.writeReg src value r
  | none => done s (s.refuse src)

end Sys2Proof.Machine
end

