-- ==== Sys2Proof/Machine/BringUp.lean ====
section
/-! DEFINITION. Power, bring-up and its phases, the configuration blob, temperature and power (R405 to R412), and the issue of a word that is
no instruction (R203). -/

namespace Sys2Proof.Machine

/-! ### Power (R405, R411) -/

/-- The part after power was lost: what it held is gone, every byte of its memory with the rest; the world outside it is as it was. -/
def State.unpowered (s : State) : State :=
  { State.reset with wlog := s.mem.map fun p => (p.1, unwritten), nodes := s.nodes, nextId := s.nextId, output := s.output, agenda := s.agenda }

/-- POWER_ON: bring-up starts at POWER. -/
def execPowerOn (s : State) : Host.Outcome State Fault Refusal :=
  stepIf "POWER_ON" (!s.device.powered) s { s with device := { s.device with powered := true, phase := 0, phaseTime := 0 } }

/-- POWER_OFF. -/
def execPowerOff (s : State) : Host.Outcome State Fault Refusal := stepIf "POWER_OFF" s.device.powered s s.unpowered

/-! ### Phases (R405, R406) -/

def msTicks (n : Nat) : Nat := n * 1000 * Config.ticksPerUs
/-- The time limit of a phase. -/
def phaseLimit : Nat → Nat
  | 0 => msTicks 50 | 1 => msTicks 300 | 2 => msTicks 50 | 3 => msTicks 10000 | 4 => msTicks 100 | _ => msTicks 10

/-- The FAILCODE that a phase can write. -/
def failCodeOk (phase code : Nat) : Bool :=
  match phase with
  | 0 => code == 1 || code == 2
  | 1 => 0x10 ≤ code && code ≤ 0x17
  | 3 => code == 0x20 || code == 0x21
  | 4 => (0x30 ≤ code && code ≤ 0x33) || code == 0x38
  | _ => false

/-- The phase is past its limit: time since the end of the phase before it is that of the part's own clock, which no step of fabric time moves. -/
def Device.late (d : Device) : Bool := 5 * phaseLimit d.phase < d.phaseTime

/-- PHASE changes: an in-band interrupt (R407). -/
def State.toPhase (s : State) (p : Nat) : State :=
  { s with device := { s.device with phase := p, phaseTime := 0 }, output := s.output ++ [.inBand] }

/-- The part goes no further. -/
def State.failPhase (s : State) (code : Nat) : State :=
  State.toPhase { s with device := { s.device with failcode := code } } 7

/-! ### The configuration blob (R409) -/

def Device.blobNum (d : Device) (off n : Nat) : Nat := leNat (mreadN off n d.blob)

/-- The frames that a blob names. -/
def Device.blobFrames (d : Device) : List Nat := (List.range (d.blobNum 4 2)).map fun i => d.blobNum (64 + 8 * i) 8

/-- A blob that the part accepts. -/
def Device.blobOk (d : Device) : Bool :=
  let npf := d.blobNum 4 2
  let stall := d.blobNum 8 4
  let beacon := d.blobNum 12 2
  let skew := d.blobNum 14 2
  d.blobNum 0 4 == 0x474643 && npf ≤ 1000 && d.blobNum 16 48 == 0 && 1 ≤ stall && stall ≤ 1000000 && 64 ≤ beacon && beacon ≤ 4096 &&
  16 ≤ skew && (d.blobFrames.all fun a => a % 16384 == 0 && a < 2 ^ 46 && rangeDevice a 16384) &&
  d.blobNum (64 + 8 * npf + 114) 14 == 0 && Config.blobSignatureOk (mreadN 0 (192 + 8 * npf) d.blob)

/-- CONFIG: an accepted blob's values apply and its frames are marked; a refused one sets CFGBAD; a window with MAGIC 0 holds none. -/
def State.configure (s : State) : State :=
  let d := s.device
  if d.blobNum 0 4 = 0 then s
  else if !d.blobOk then { s with device := { d with cfgbad := true } }
  else
    let f := s.fabric
    let s := { s with
      fabric := { f.setSkew (d.blobNum 14 2) with node := if d.blobNum 6 2 = 0 then f.node else d.blobNum 6 2, stall := d.blobNum 8 4, beacon := d.blobNum 12 2 },
      device := { d with blobUsed := mreadN 0 (192 + 8 * d.blobNum 4 2) d.blob } }
    d.blobFrames.foldl (fun s a => s.markFrame a) s

/-- READY: the counts are zeroed; tenants and contexts are off (R406). -/
def State.ready (s : State) : State :=
  let t := { s with device := { s.device with counts := [] },
                    tenants := s.tenants.map fun (p : Nat × Tenant) => (p.1, { p.2 with en := false, st := 0 }),
                    ctxs := s.ctxs.map fun (p : Nat × Ctx) => (p.1, { p.2 with en := false }) }
  t.toPhase 6

/-- Every cluster of a span is fenced. -/
def spanFenced (clusters : List Nat) (span : Nat) : Bool := (List.range 4).all fun k => clusters.contains (4 * span + k)

/-- The part's clock is in order: it is locked, with a port up or a timing input, or it is grandmaster on its timing input (R405). -/
def Fabric.synced (f : Fabric) : Bool := (f.locked && f.hasTime) || (f.timing && f.slavePort.isNone)

/-- A FAILCODE that the phase can write as the part stands: SYNC fails for want of any source of time, or without lock. -/
def State.codeFits (s : State) (code : Nat) : Bool :=
  let f := s.fabric
  failCodeOk s.device.phase code && (code != 0x20 || !(f.ports.any (·.up) || f.timing)) && (code != 0x21 || !f.synced)

/-- The FAILCODE of a phase that runs past its limit: a SELFTEST names a span only when every cluster of it is fenced, and SYNC tells a part without
any source of time from one without lock; a phase without a code of its own writes 0 (log entry 45). -/
def State.lateCode (s : State) (code : Nat) : Bool :=
  let f := s.fabric
  match s.device.phase with
  | 2 => code == 0
  | 3 => code == if f.ports.any (·.up) || f.timing then 0x21 else 0x20
  | 4 => code == 0x38 || (0x30 ≤ code && code ≤ 0x33 && spanFenced s.device.fencedClusters (code - 0x30))
  | 5 => code == 0
  | p => failCodeOk p code

/-- A report that the phase can give: it names units that the part has (R8). -/
def State.reportOk (s : State) (r : PhaseReport) : Bool :=
  let c := r.code.toNat
  (r.cores.all fun u => decide (u < Config.cores)) && (r.quads.all fun u => decide (u < 768)) &&
  (r.clusters.all fun u => decide (u < Config.clusters)) &&
  if c = 0 then (s.device.phase != 4 || (List.range 4).all fun k => !spanFenced r.clusters k) && (s.device.phase != 3 || s.fabric.synced)
  else s.codeFits c && (if 0x30 ≤ c && c ≤ 0x33 then spanFenced r.clusters (c - 0x30) else true)

/-- Self-test fences what failed it, whether the part goes on or not (R405). -/
def State.selfTest (s : State) (r : PhaseReport) : State :=
  if s.device.phase = 4 then
    { s with device := { s.device with fencedCores := sunion r.cores [], fencedQuads := sunion r.quads [], fencedClusters := sunion r.clusters [] } }
  else s

/-- The phase ends well: CONFIG applies the blob, READY follows. -/
def State.endPhase (s : State) : State :=
  match s.device.phase with
  | 5 => s.configure.ready
  | p => s.toPhase (p + 1)

/-- BRINGUP_PHASE_COMPLETE: the phase ends within its limit, well or by a failure. -/
def execBringupPhaseComplete (r : PhaseReport) (s : State) : Host.Outcome State Fault Refusal :=
  let d := s.device
  stepIf "BRINGUP_PHASE_COMPLETE" (d.powered && d.phase < 6 && !d.thermtrip && !d.late && s.reportOk r) s
    (if r.code = 0 then (s.selfTest r).endPhase else (s.selfTest r).failPhase r.code.toNat)

/-- BRINGUP_PHASE_TIMEOUT: a phase past its limit fails. -/
def execBringupPhaseTimeout (code : BitVec 8) (s : State) : Host.Outcome State Fault Refusal :=
  let d := s.device
  stepIf "BRINGUP_PHASE_TIMEOUT" (d.powered && d.phase < 6 && !d.thermtrip && d.late && s.lateCode code.toNat) s
    (s.failPhase code.toNat)

/-! ### Temperature and power (R410, R411) -/

/-- THERMTRIP: the part stops; its launches are lost and write no record. PHASE stays where it is (R412). -/
def execThermtrip (s : State) : Host.Outcome State Fault Refusal :=
  stepIf "THERMTRIP" s.device.powered s
    (if s.device.thermtrip then s
    else { s with device := { s.device with thermtrip := true }, output := s.output ++ [.inBand],
                  waves := [], teams := [], launches := [], queue := [], buffer := [], copies := [], quads := [], packets := [],
                  signals := [], takes := [], waiters := [], wheel := [], loopBufs := [], loopWants := [], chip := [], cur := none })

/-- POWER_EXCURSION: in locked-clock mode PWREXC is set and the system node is told; otherwise the part only lowers its clock. -/
def execPowerExcursion (s : State) : Host.Outcome State Fault Refusal :=
  stepIf "POWER_EXCURSION" (s.device.powered && !s.device.thermtrip) s
    (if s.device.lockclk then State.setPwrexc { s with output := s.output ++ [.powerExcursion] } true else s)

/-! ### A word that is no instruction (R191, R203) -/

/-- UNASSIGNED_ENCODING: the word of the path at its issue is none of the map: its launch is killed, with ILLOP, or with ILLCLAUSE when the
word's major is a long form's and its clause ends before the second word (R190). -/
def execUnassignedEncoding (s : State) : Host.Outcome State Fault Refusal :=
  match s.site? with
  | none => .fault .noIssuingPath
  | some k =>
    match s.wordAt k with
    | .word none w _ =>
      if !k.free s then done s (s.usedCycle k)
      else
        let cut := isLongMajor w && decide (k.p.fall < k.p.pc + 8)
        done s (State.killLaunch { s with cur := none } k.w.lid (if cut then 9 else 8) k.p.pc 0)
    | _ => .fault (.cannotOccur "UNASSIGNED_ENCODING")

end Sys2Proof.Machine
end

