-- ==== Sys2Proof/Machine/Convert.lean ====
section
/-! DEFINITION. The meanings of division, square root, special functions, rounding, conversion, quantisation and scales (R262 to R268). -/

namespace Sys2Proof.Machine

/-- `vdiv` (R262). -/
def execVdiv (x : Bool) (t : BitVec 3) (d a b : BitVec 7) (s : State) : Host.Outcome State Fault Refusal :=
  vectorSfu x (.vdiv x t d a b) s t d a b fun md a b _ =>
    byType t (fun _ => plain 0) fun f => fDiv md f false (fread md f a) (fread md f b)

/-- `vsqrt` (R262). -/
def execVsqrt (x : Bool) (t : BitVec 3) (d a : BitVec 7) (s : State) : Host.Outcome State Fault Refusal :=
  vectorSfu x (.vsqrt x t d a) s t d a a fun md a _ _ => byType t (fun _ => plain 0) fun f => fSqrt md f (fread md f a)

/-- `vsfu` (R263, R90). -/
def execVsfu (x : Bool) (t : BitVec 3) (d a f : BitVec 7) (s : State) : Host.Outcome State Fault Refusal :=
  vectorSfu x (.vsfu x t d a f) s t d a a fun md a _ _ =>
    byType t (fun _ => plain 0) fun g => sfuElem md g f.toNat (fread md g a)

/-- `vround` (R264): the named mode, or RMODE for `.dyn`. -/
def execVround (x : Bool) (t : BitVec 3) (d a : BitVec 7) (m : BitVec 3) (s : State) : Host.Outcome State Fault Refusal :=
  vectorFixed x (.vround x t d a m) s t d a a fun md a _ _ =>
    byType t (fun _ => plain 0) fun f => fRound md (if m = 4 then md.rm else m.toNat) f (fread md f a)

/-- One lane of a conversion by parts: destination sub-element i from source i + H × nd, zero bits where there is none (R68, R265). -/
def convertLane (ws wd h : Nat) (f : Nat → FRes) (src : Word) : Word × Nat :=
  let ns := 64 / ws
  let nd := 64 / wd
  let rs := (List.range nd).map fun i => if i + h * nd < ns then f (elem ws src (i + h * nd)) else ⟨0, 0⟩
  (packElems wd (rs.map (·.bits)), orFlags rs)

/-- `vcvt` (R265). -/
def execVcvt (x : Bool) (d a : BitVec 7) (h : BitVec 3) (dfmt sfmt : BitVec 4) (s : State) : Host.Outcome State Fault Refusal :=
  issueWave x (.vcvt x d a h dfmt sfmt) s fun k v => v.putLanes d (laneResults k.lanes fun l =>
    convertLane (formatWidth sfmt.toNat) (formatWidth dfmt.toNat) h.toNat (cvtElem k.fm dfmt.toNat sfmt.toNat)
      (k.operand (formatWidth sfmt.toNat) (codeFormat sfmt.toNat) a l))

/-- The scale of a lane: an e8m0 code in bits [7:0], or an f32 in bits [31:0] (R87). -/
def scaleOf (md : FMode) (f32 : Bool) (v : Word) : FV := if f32 then fread md 1 (v.toNat % 2 ^ 32) else fdecode 6 (v.toNat % 256)

/-- `vqnt` (R266, R87). -/
def execVqnt (x : Bool) (d a b : BitVec 7) (h : BitVec 3) (k1 : BitVec 1) (qfmt sfmt : BitVec 4) (s : State) :
    Host.Outcome State Fault Refusal :=
  issue x (.vqnt x d a b h k1 qfmt sfmt) s fun k u =>
    let f32 := k1 == 1
    let r := laneResults k.lanes fun l =>
      let sc := scaleOf k.fm f32 (if f32 && 120 ≤ b.toNat then k.operand 32 (some 1) b l else k.op64 b l)
      convertLane (formatWidth sfmt.toNat) (formatWidth qfmt.toNat) h.toNat
        (fun e => quantElem k.fm qfmt.toNat (fread k.fm sfmt.toNat e) sc)
        (k.operand (formatWidth sfmt.toNat) (codeFormat sfmt.toNat) a l)
    (u.postResult k 2 [vReg d] [.v d.toNat r.1] r.2, true)

/-- `vdqnt`: the scale is the prior lane of the destination (R267, R88). -/
def execVdqnt (x : Bool) (t : BitVec 3) (d a : BitVec 7) (h : BitVec 3) (k1 : BitVec 1) (q : BitVec 3) (s : State) :
    Host.Outcome State Fault Refusal :=
  issue x (.vdqnt x t d a h k1 q) s fun k u =>
    let qf := qselFormat q
    let df := (floatFormat t).getD 1
    let nq := 64 / formatWidth qf
    let nd := 64 / typeWidth t
    let r := laneResults k.lanes fun l =>
      let sc := scaleOf k.fm (k1 == 1) ((k.v.vreg d.toNat).lane l)
      let src := k.operand (formatWidth qf) (codeFormat qf) a l
      let rs := (List.range nd).map fun i =>
        dequantElem k.fm df (elemValue k.fm qf (if i + h.toNat * nd < nq then elem (formatWidth qf) src (i + h.toNat * nd) else 0)) sc
      (packElems (typeWidth t) (rs.map (·.bits)), orFlags rs)
    (u.postResult k 2 [vReg d] [.v d.toNat r.1] r.2, true)

/-- `vamax`: one scale code for each block of 16 or 32 flat elements, from its active lanes (R268, R89). -/
def execVamax (x : Bool) (t : BitVec 3) (d a : BitVec 7) (l1 : BitVec 1) (q : BitVec 3) (s : State) : Host.Outcome State Fault Refusal :=
  issue x (.vamax x t d a l1 q) s fun k u =>
    let w := typeWidth t
    let f := (floatFormat t).getD 1
    let per := (if l1 == 1 then 32 else 16) / (64 / w)
    let code := fun l => scaleCode (qselFormat2 q)
      ((k.lanes.filter fun j => j / per == l / per).flatMap fun j => (elemsOf w (k.opT t a j)).map (fread k.fm f))
    let r := laneResults k.lanes fun l => (BitVec.ofNat 64 (code l).bits, (code l).flags)
    (u.postResult k 2 [vReg d] [.v d.toNat r.1] r.2, true)
where
  /-- The target formats of `vamax`: 0 e4m3, 1 e5m2, 2 f16, 3 bf16, 4 i8 (R268). -/
  qselFormat2 (q : BitVec 3) : Nat := match q.toNat with | 0 => 4 | 1 => 5 | 2 => 3 | 3 => 2 | _ => 11

end Sys2Proof.Machine
end

