-- ==== Sys2Proof/Machine/CrossLane.lean ====
section
/-! DEFINITION. The meanings of the cross-lane instructions (R269 to R277). -/

namespace Sys2Proof.Machine

/-- The element at a flat index of a vector register (R68, R269). -/
def flatElem (w : Nat) (r : VReg) (i : Nat) : Nat := elem w (r.lane (i / (64 / w))) (i % (64 / w))

/-- A cross-lane result, counted on XL (R250). -/
def postXl (u : State) (k : Site) (d : BitVec 7) (ls : List (Nat × Word × Nat)) : State :=
  u.postResult k 7 [vReg d] [.v d.toNat ls] 0

/-- `vshf` (R270). -/
def execVshf (x : Bool) (t : BitVec 3) (d a b : BitVec 7) (s : State) : Host.Outcome State Fault Refusal :=
  issue x (.vshf x t d a b) s fun k u =>
    let w := typeWidth t
    (postXl u k d (k.lanes.map fun l =>
      (l, packElems w ((elemsOf w (k.opT t b l)).map fun i => flatElem w (k.v.vreg a.toNat) (i % (32 * (64 / w)))), 0)), true)

/-- `vbcst` (R271). -/
def execVbcst (x : Bool) (d a i : BitVec 7) (s : State) : Host.Outcome State Fault Refusal :=
  issue x (.vbcst x d a i) s fun k u => (postXl u k d (k.lanes.map fun l => (l, (k.v.vreg a.toNat).lane i.toNat, 0)), true)

/-- `vext`: once per issue, whatever lanes are active (R272). -/
def execVext (x : Bool) (t : BitVec 3) (d a i : BitVec 7) (s : State) : Host.Outcome State Fault Refusal :=
  issue x (.vext x t d a i) s fun k u =>
    (u.postResult k 7 [.s d.toNat] [.s d.toNat (BitVec.ofNat 64 (flatElem (typeWidth t) (k.v.vreg a.toNat) i.toNat))] 0, true)

/-- `vins`: one element of one lane, when the lane is active; the write is of that element alone, so what it does not cover stands as it
is when the result lands, poison too (R273, R249). -/
def execVins (x : Bool) (t : BitVec 3) (d a i : BitVec 7) (s : State) : Host.Outcome State Fault Refusal :=
  issue x (.vins x t d a i) s fun k u =>
    let w := typeWidth t
    let n := 64 / w
    let l := i.toNat / n
    (u.postResult k 7 [vReg d] (if k.active l then [.e d.toNat l w (i.toNat % n) (k.v.sreg a.toNat).toNat] else []) 0, true)

/-- `vmovm`: the lanes that the mask selects, packed into the lowest active lanes; zero in the rest (R274). -/
def execVmovm (x : Bool) (d a : BitVec 7) (m : BitVec 3) (s : State) : Host.Outcome State Fault Refusal :=
  issue x (.vmovm x d a m) s fun k u =>
    let src := k.lanes.filter fun l => (k.v.mask m.toNat).getLsbD l
    (postXl u k d (k.lanes.zipIdx.map fun p =>
      (p.1, (match src[p.2]? with | some l => (k.v.vreg a.toNat).lane l | none => 0), 0)), true)

/-- `vidx`: operand plus flat index times step (R275). -/
def execVidx (x : Bool) (t : BitVec 3) (d a i : BitVec 7) (s : State) : Host.Outcome State Fault Refusal :=
  issueWave x (.vidx x t d a i) s fun k v =>
    let w := typeWidth t
    v.putLanes d (laneResults k.lanes fun l =>
      (packElems w ((elemsOf w (k.opT t a l)).zipIdx.map fun e => toElem w ((e.1 : Int) + (l * (64 / w) + e.2 : Nat) * i.toInt)), 0))

/-- A reduction over elements in flat order: 0 add, 1 min, 2 max, 3 and, 4 or, 5 xor (R85, R276). -/
def reduce (md : FMode) (t : BitVec 3) (op : Nat) (xs : List Nat) : FRes :=
  let w := typeWidth t
  match op with
  | 3 => plain (xs.foldl (fun a b => a &&& b) (2 ^ w - 1))
  | 4 => plain (xs.foldl (fun a b => a ||| b) 0)
  | 5 => plain (xs.foldl (fun a b => a ^^^ b) 0)
  | 0 => byType t (fun w => plain (xs.foldl (fun a b => (a + b) % 2 ^ w) 0)) (fun f =>
      let vs := xs.map (fread md f)
      exactSum md f vs vs)
  | op => byType t
      (fun _ => match xs with | [] => plain 0 | e :: es => plain (es.foldl (fun a b => (eMin md t (op == 2) a b).bits) e))
      (fun f => fMinMaxAll md f (op == 2) (xs.map (fread md f)))

/-- `vred`: the reduction of the active elements in every sub-element of every active lane (R276). -/
def execVred (x : Bool) (t : BitVec 3) (d a o : BitVec 7) (s : State) : Host.Outcome State Fault Refusal :=
  issue x (.vred x t d a o) s fun k u =>
    let w := typeWidth t
    let r := reduce k.fm t o.toNat (k.lanes.flatMap fun l => elemsOf w (k.opT t a l))
    (u.postResult k 2 [vReg d] [.v d.toNat (k.lanes.map fun l => (l, replicateElem w r.bits, 0))] r.flags, true)

/-- `vscan`: at each active element, the reduction of the active elements up to it (R277). -/
def execVscan (x : Bool) (t : BitVec 3) (d a o : BitVec 7) (s : State) : Host.Outcome State Fault Refusal :=
  issue x (.vscan x t d a o) s fun k u =>
    let w := typeWidth t
    let all := k.lanes.flatMap fun l => elemsOf w (k.opT t a l)
    let r := laneResults (List.range k.lanes.length) fun j =>
      let rs := (List.range (64 / w)).map fun i => reduce k.fm t o.toNat (all.take (j * (64 / w) + i + 1))
      (packElems w (rs.map (·.bits)), orFlags rs)
    let lanes := (k.lanes.zip r.1).map fun p => (p.1, p.2.2)
    (u.postResult k 2 [vReg d] [.v d.toNat lanes] r.2, true)

end Sys2Proof.Machine
end

