-- ==== Sys2Proof/Machine/EngineInstr.lean ====
section
/-! DEFINITION. The meanings of the matrix engine's instructions: joining a gang, the sluice, the baton, member instructions
(R156 to R165, R297 to R299). What the engine computes happens when it completes an operation. -/

namespace Sys2Proof.Machine

/-- The quad of the issuing wave. -/
def Site.quad (k : Site) (s : State) : Nat := quadOf (s.coreOf k.w.teamRef)
/-- The gang of a quad and the index of a wave that is a live member of it. -/
def State.memberOf (s : State) (q : Nat) (w : WaveRef) : Option (Gang × Nat) :=
  match (s.quad q).gang with
  | some g => (g.members.findIdx? fun m => m.1 == w && m.2).map fun i => (g, i)
  | none => none

/-- An instruction of a wave that is in no gang kills its launch (R297). -/
def asMember (x : Bool) (i : Instr) (s : State) (body : Site → State → Nat → Gang → Nat → State) : Host.Outcome State Fault Refusal :=
  issue x i s fun k u =>
    let q := k.quad s
    match u.memberOf q k.w with
    | none => (u.killHere k 0x17, false)
    | some (g, j) => (body k u q g j, true)

/-! ### Gangs -/

/-- Two waves are of one team, or of teams of one cohort (R156). -/
def State.sameScope (s : State) (l : Launch) (a b : WaveRef) : Bool :=
  let coh := fun w : WaveRef => match s.team? w.teamRef with | some t => t.cohort | none => 0
  a.lid == b.lid && (a.team == b.team || (l.hdr.cohort != 0 && coh a == coh b))

/-- A join that R156 forbids: the wave is a member or waits for a gang, or the key is in use with another n. -/
def badJoin (k : Site) (u : State) (q n key : Nat) : Bool :=
  let t := u.quad q
  (u.memberOf q k.w).isSome || (t.joins.any fun j => j.w == k.w) ||
  (t.joins.any fun j => u.sameScope k.l j.w k.w && j.key == key && j.n != n) ||
  (match t.gang with
    | some g => g.key == key && g.n != n && (match g.members.head? with | some m => u.sameScope k.l m.1 k.w | none => false)
    | none => false)

/-- `mgang` (R156). -/
def execMgang (x : Bool) (n : BitVec 3) (k : BitVec 6) (s : State) : Host.Outcome State Fault Refusal :=
  issue x (.mgang x n k) s fun p u =>
    let q := p.quad s
    let key := (p.s k).toNat % 2 ^ 16
    if badJoin p u q n.toNat key then (u.killHere p 0x17, false)
    else
      let t := u.quad q
      let u := u.setQuad q { t with joins := t.joins ++ [{ w := p.w, pid := p.pid, key := key, n := n.toNat, clk := p.v.lclk }] }
      ((u.modWave p.w fun v => v.parkPath p.pid .mgang p.p.pc).formGang q, true)

/-- `mgang.leave`: from a wave in no gang it does nothing (R156, R297). -/
def execMgangLeave (x : Bool) (s : State) : Host.Outcome State Fault Refusal :=
  issue x (.mgangLeave x) s fun k u =>
    let q := k.quad s
    (if (u.memberOf q k.w).isSome then u.leaveGang q k.w else u, true)

/-! ### The sluice -/

/-- An operation enters the engine's order (R163). -/
def State.enqueue (s : State) (q : Nat) (i : Instr) (ms : List (WaveRef × Nat × Nat)) (scalar : Word) (data : List (Nat × Word)) : State :=
  let u := s.quad q
  s.setQuad q { u with ops := u.ops ++ [{ instr := i, members := ms, scalar := scalar, row := 0, stall := none, stalled := 0,
                                          data := data, flags := 0, noted := [] }] }

/-- When every live member has arrived and the baton is free, the instruction passes the sluice (R157, R347). -/
def State.trySluice (s : State) (q : Nat) : State :=
  let u := s.quad q
  match u.gang with
  | none => s
  | some g =>
    let live := (g.members.filter (·.2)).map (·.1)
    let arr := live.filterMap fun w => u.arrivals.find? fun a => a.w == w
    match arr with
    | [] => s
    | a :: _ =>
      if g.holder.isSome || arr.length < live.length then s
      else
        let clk := arr.foldl (fun m a => max m a.clk) 0 + 1
        let s := s.setQuad q { u with arrivals := u.arrivals.filter fun b => !(arr.any fun c => c.op == b.op) }
        let s := s.enqueue q a.instr (arr.map fun b => (b.w, b.op, b.off)) a.scalar []
        arr.foldl (fun s b => (s.modWave b.w fun v => v.unpark b.pid).raiseClock b.w clk) s

/-- A sluice instruction: the holder of the baton runs it alone, whatever others wait with; any other member parks until all have arrived and the
baton is free. An arrival of theirs with another encoding than one that waits kills the launch (R157, R158). -/
def sluice (x : Bool) (i : Instr) (s : State) (scalar : Site → Word) : Host.Outcome State Fault Refusal :=
  asMember x i s fun k u q g j =>
    let t := u.quad q
    let f := u.post k 3 [] (.engine q)
    if g.holder == some j then f.2.enqueue q i [(k.w, f.1, k.p.pc)] (scalar k) []
    else if t.arrivals.any fun a => a.instr != i then u.killHere k 0x17
    else
      let t := f.2.quad q
      let a : Arrival := { w := k.w, pid := k.pid, instr := i, scalar := scalar k, off := k.p.pc, op := f.1, clk := k.v.lclk }
      let u := f.2.setQuad q { t with arrivals := t.arrivals ++ [a] }
      (u.modWave k.w fun v => v.parkPath k.pid .sluice k.p.pc).trySluice q

/-- `mres` (R160). -/
def execMres (x : Bool) (n : BitVec 3) (a : BitVec 6) (s : State) : Host.Outcome State Fault Refusal :=
  sluice x (.mres x n a) s fun k => k.s a

/-- `mrel` (R160). -/
def execMrel (x : Bool) (n : BitVec 3) (s : State) : Host.Outcome State Fault Refusal := sluice x (.mrel x n) s fun _ => 0

/-- `mma` (R161). -/
def execMma (x : Bool) (d a b : BitVec 3) (s : State) : Host.Outcome State Fault Refusal := sluice x (.mma x d a b) s fun _ => 0

/-- `mzero` (R163). -/
def execMzero (x : Bool) (d : BitVec 3) (s : State) : Host.Outcome State Fault Refusal := sluice x (.mzero x d) s fun _ => 0

/-- `mst` (R163). -/
def execMst (x : Bool) (c : BitVec 3) (a : BitVec 6) (s : State) : Host.Outcome State Fault Refusal :=
  sluice x (.mst x c a) s fun k => k.s a

/-- `gate.sig` (R165). -/
def execGateSig (x : Bool) (d a : BitVec 3) (s : State) : Host.Outcome State Fault Refusal := sluice x (.gateSig x d a) s fun _ => 0

/-- `gate.tanh` (R165). -/
def execGateTanh (x : Bool) (d a : BitVec 3) (s : State) : Host.Outcome State Fault Refusal := sluice x (.gateTanh x d a) s fun _ => 0

/-- `gate.mul` (R165). -/
def execGateMul (x : Bool) (d a b : BitVec 3) (s : State) : Host.Outcome State Fault Refusal := sluice x (.gateMul x d a b) s fun _ => 0

/-- `gate.add` (R165). -/
def execGateAdd (x : Bool) (d a b : BitVec 3) (s : State) : Host.Outcome State Fault Refusal := sluice x (.gateAdd x d a b) s fun _ => 0

/-- `gate.lerp` (R165). -/
def execGateLerp (x : Bool) (d a b : BitVec 3) (s : State) : Host.Outcome State Fault Refusal := sluice x (.gateLerp x d a b) s fun _ => 0

/-- `gate.scale` (R165). -/
def execGateScale (x : Bool) (d a : BitVec 3) (c : BitVec 6) (s : State) : Host.Outcome State Fault Refusal :=
  sluice x (.gateScale x d a c) s fun k => k.s c

/-! ### Member instructions (R163, R164, R298) -/

/-- A member instruction enters the engine's order when it issues, with the lanes and data it reads then. -/
def memberOp (x : Bool) (i : Instr) (s : State) (dests : List Reg) (scalar : Site → Word) (data : Site → List (Nat × Word)) :
    Host.Outcome State Fault Refusal :=
  asMember x i s fun k u q _ _ =>
    let f := u.post k 3 dests (.engine q)
    f.2.enqueue q i [(k.w, f.1, k.p.pc)] (scalar k) (data k)

/-- `mrd` (R163). -/
def execMrd (x : Bool) (d : BitVec 7) (c : BitVec 3) (i : BitVec 6) (s : State) : Host.Outcome State Fault Refusal :=
  memberOp x (.mrd x d c i) s [vReg d] (fun k => k.s i) fun k => k.lanes.map fun l => (l, 0)

/-- `mwr`: the active lanes' data, as read at issue (R163, R195). -/
def execMwr (x : Bool) (d : BitVec 3) (v : BitVec 7) (i : BitVec 6) (s : State) : Host.Outcome State Fault Refusal :=
  memberOp x (.mwr x d v i) s [] (fun k => k.s i) fun k => k.lanes.map fun l => (l, (k.v.vreg v.toNat).lane l)

/-- `mld`: nothing visible changes (R163). -/
def execMld (x : Bool) (n : BitVec 3) (k : BitVec 32) (s : State) : Host.Outcome State Fault Refusal :=
  memberOp x (.mld x n k) s [] (fun _ => 0) fun _ => []

/-- `rstat.f32` (R164). -/
def execRstat (x : Bool) (d : BitVec 7) (c : BitVec 3) (s : State) : Host.Outcome State Fault Refusal :=
  memberOp x (.rstat x d c) s (vRange d.toNat 3) (fun _ => 0) fun k => k.lanes.map fun l => (l, 0)

/-! ### The baton (R158, R298) -/

/-- `baton take`. -/
def execBatonTake (x : Bool) (s : State) : Host.Outcome State Fault Refusal :=
  asMember x (.batonTake x) s fun k u q g j =>
    if g.holder == some j then u
    else (u.modWave k.w fun v => v.parkPath k.pid .baton k.p.pc).wakeBaton q

/-- `baton pass`: a non-holder's is a no-op. -/
def execBatonPass (x : Bool) (s : State) : Host.Outcome State Fault Refusal :=
  asMember x (.batonPass x) s fun _ u q g j =>
    if g.holder == some j then
      let t := u.quad q
      ((u.setQuad q { t with gang := some { g with holder := none, turn := nextTurn g j } }).wakeBaton q).trySluice q
    else u

/-- `baton query`: holder in [2:0], turn in [6:4], bit 7 set if held. While it is not held, R158 gives no holder: [2:0] read 0 (DESIGN CHOICE, log
entry 69). -/
def execBatonQuery (x : Bool) (d : BitVec 6) (s : State) : Host.Outcome State Fault Refusal :=
  asMember x (.batonQuery x d) s fun k u _ g _ =>
    let v := (g.holder.getD 0) + g.turn * 16 + (if g.holder.isSome then 128 else 0)
    u.modWave k.w fun w => w.setS d.toNat (BitVec.ofNat 64 v)

end Sys2Proof.Machine
end

