-- ==== Sys2Proof/Machine/EngineEvents.lean ====
section
/-! DEFINITION. The completion of a matrix engine operation: rows of `mma` and `mst`, records, gates, statistics, residue errors
(R159 to R168, R298, R378). -/

namespace Sys2Proof.Machine

/-- Why an engine operation does not go on. -/
inductive EngStop where
  | wait
  | fault (va : Word) (cause level : Nat) (wr : Bool)
  | kill (status : Nat) (va : Word)
  deriving DecidableEq, Repr

/-- What an operation of the engine comes to: the quad after it, rows committed, flags, the bad elements, scales and codebook entries that it met, those
of the B operand marked, and what stops it. -/
structure EngRun where
  quad : Quad
  row : Nat
  flags : Nat
  errs : List (Bool × Word)
  stop : Option EngStop
  deriving DecidableEq, Repr

/-- Errors join others: a scale or codebook entry that several elements use is one error (R167). -/
def joinErrors (l : List (Bool × Word)) (b : Bool) (es : List Word) : List (Bool × Word) :=
  es.foldl (fun l e => if l.contains (b, e) then l else l ++ [(b, e)]) l

def RowRead.halt : RowRead → EngStop
  | .kill st va => .kill st va
  | .fault va c l => .fault va c l false
  | _ => .wait

/-- The live members of the gang of a quad, and the waves that issued an operation (R163, R167). -/
def State.engineMembers (s : State) (q : Nat) (o : EngOp) : List WaveRef :=
  let live : List WaveRef := match (s.quad q).gang with | some g => (g.members.filter (·.2)).map (·.1) | none => []
  o.members.foldl (fun l m => if l.contains m.1 then l else l ++ [m.1]) live

/-! ### `mma` (R161, R162) -/

/-- Rows of `mma` from one up, until the last, a stop, or the row given. -/
def State.mmaRows (s : State) (cluster ctx : Nat) (md : FMode) (kind L : Nat) (ra : OperRec) (b : List (List FV)) (d until' : Nat) :
    Nat → EngRun → EngRun
  | 0, r => r
  | n + 1, r =>
    if until' ≤ r.row then r
    else match s.operRow cluster ctx md ra r.row ra.k d with
      | .ok vs es =>
        let x := mmaRow md kind L (r.quad.row d r.row) vs b
        State.mmaRows s cluster ctx md kind L ra b d until' n
          { r with quad := r.quad.setRow d r.row x.1, row := r.row + 1, flags := r.flags ||| x.2, errs := joinErrors r.errs false es }
      | o => { r with stop := some o.halt }

/-- Run an `mma` from its row progress up to a row. -/
def State.runMma (s : State) (u : Quad) (cluster ctx : Nat) (md : FMode) (o : EngOp) (d a b until' : Nat) : EngRun :=
  let r : EngRun := { quad := u, row := o.row, flags := o.flags, errs := [], stop := none }
  match tget a u.ranges, tget b u.ranges with
  | some ra, some rb =>
    match pairing ra.fmt rb.fmt with
    | some (kind, L) =>
      if a = b || ra.roleB || !rb.roleB || ra.k != rb.k then { r with stop := some (.kill 0x15 0) }
      else match s.operTile cluster ctx md rb (if kind = 1 then 32 else 64) d with
        | .ok rows es =>
          s.mmaRows cluster ctx md kind L ra rows d until' 64
            { r with quad := u.setTag d (match kind with | 1 => 1 | 2 => 2 | _ => 0), errs := joinErrors [] true es }
        | .stop o => { r with stop := some o.halt }
    | none => { r with stop := some (.kill 0x15 0) }
  | _, _ => { r with stop := some (.kill 0x15 0) }

/-! ### Records and `mst` (R160, R163) -/

/-- Read the record of `mres` or `mst`: its address, then its bytes (R154, R160, R415, R416). -/
def State.engRecord (s : State) (cluster ctx : Nat) (a : Word) : EngStop ⊕ Nat :=
  if badVA a then .inl (.kill 0x0B a)
  else if a.toNat % 64 != 0 then .inl (.kill 0x15 a)
  else match s.engVirtual cluster ctx a 64 with
    | .ok bs => if bs.any (·.2) then .inl (.kill 0x0E a) else .inr (leNat (bs.map (·.1)))
    | .wait => .inl .wait
    | .fault va c l => .inl (.fault va c l false)
    | .kill st va => .inl (.kill st va)

/-- `mres`: the record is checked, the range is reserved when the operand buffer has room. -/
def State.runMres (s : State) (u : Quad) (cluster ctx : Nat) (o : EngOp) (n : Nat) (team : TeamRef) : EngRun :=
  let r : EngRun := { quad := u, row := o.row, flags := 0, errs := [], stop := none }
  match s.engRecord cluster ctx o.scalar with
  | .inl e => { r with stop := some e }
  | .inr x =>
    let q := OperRec.ofNat x team
    let rest := tdel n u.ranges
    if q.bad x then { r with stop := some (.kill 0x15 0) }
    else if 65536 < rest.foldl (fun k p => k + p.2.size) q.size then { r with stop := some (.kill 0x16 0) }
    else { r with quad := { u with ranges := tput n q rest, badRanges := u.badRanges.filter (· ≠ n) } }

/-- The stores of a tile row, at their homes; or what stops them. -/
def State.mstStores (s : State) (cluster ctx : Nat) (es : List (Word × List Byte × Nat)) : Option EngStop × List Landing :=
  es.foldl (fun acc e => match acc.1 with
    | some _ => acc
    | none => (e.2.1.zipIdx).foldl (fun acc b => match acc.1 with
      | some _ => acc
      | none =>
        let va := e.1 + BitVec.ofNat 64 b.2
        if badVA va then (some (.kill 0x0B va), acc.2)
        else match s.translate false cluster ctx .store va.toNat with
          | .fault c l => (some (.fault va c l true), acc.2)
          | .poison => (some (.kill 0x0E va), acc.2)
          | .ok pa fab node _ =>
            if fab && !s.fabOk node pa then (some (.kill 0x0D va), acc.2)
            else (none, acc.2 ++ [{ loc := if fab then .node node pa else .home pa, byte := b.1, bad := false }])) acc) (none, [])

/-- Rows of `mst` from one up. -/
def mstRows (cluster ctx : Nat) (md : FMode) (r : TensorRec) (c : Nat) (u : Quad) : Nat → Nat → State → Nat × Option EngStop × State
  | 0, i, s => (i, none, s)
  | n + 1, i, s =>
    if 64 ≤ i then (i, none, s)
    else
      let x := s.mstStores cluster ctx (u.mstRow md r c i)
      match x.1 with
      | some e => (i, some e, s)
      | none => mstRows cluster ctx md r c u n (i + 1) (s.land x.2)

/-- `mst` from its row progress: the rows are written; the flags are those of the whole tile. -/
def State.runMst (s : State) (u : Quad) (cluster ctx : Nat) (md : FMode) (o : EngOp) (c : Nat) : EngRun × State :=
  let r : EngRun := { quad := u, row := o.row, flags := 0, errs := [], stop := none }
  match s.engRecord cluster ctx o.scalar with
  | .inl e => ({ r with stop := some e }, s)
  | .inr x =>
    let t := TensorRec.ofNat x
    if t.bad x o.scalar || !mstFormat (u.tag c) t then ({ r with stop := some (.kill 0x15 0) }, s)
    else
      let w := mstRows cluster ctx md t c u 65 o.row s
      let fl := (List.range 64).foldl (fun f i => (u.mstRow md t c i).foldl (fun f e => f ||| e.2.2) f) 0
      ({ r with row := w.1, flags := fl, stop := w.2.1 }, w.2.2)

/-! ### One operation -/

/-- Register writes of the member that issued an operation, and flags of its own (R163, R164). -/
structure MemberResult where
  ws : List RegWrite
  own : Nat
  deriving DecidableEq, Repr

/-- The lanes of `rstat.f32`: rows 2l and 2l + 1. -/
def rstatLanes (md : FMode) (u : Quad) (c d : Nat) (ls : List Nat) : MemberResult :=
  let st := ls.map fun l => (l, statRow md (u.row c (2 * l)), statRow md (u.row c (2 * l + 1)))
  let col := fun (f : FRes × FRes × FRes → FRes) => st.map fun e => (e.1, packElems 32 [(f e.2.1).bits, (f e.2.2).bits], 0)
  { ws := [.v d (col (·.1)), .v (d + 1) (col (·.2.1)), .v (d + 2) (col (·.2.2))],
    own := st.foldl (fun g e => g ||| orFlags [e.2.1.1, e.2.1.2.1, e.2.1.2.2, e.2.2.1, e.2.2.2.1, e.2.2.2.2]) 0 }

/-- The gate of a sluice instruction, when it is one: operation, destination, operand, second operand. -/
def gateOf (u : Quad) (i : Instr) (scalar : Word) : Option (Nat × Nat × Nat × (Nat → Nat → Nat)) :=
  match i with
  | .gateSig _ d a => some (0, d.toNat, a.toNat, fun _ _ => 0)
  | .gateTanh _ d a => some (1, d.toNat, a.toNat, fun _ _ => 0)
  | .gateMul _ d a b => some (2, d.toNat, a.toNat, u.elem32 b.toNat)
  | .gateAdd _ d a b => some (3, d.toNat, a.toNat, u.elem32 b.toNat)
  | .gateLerp _ d a b => some (4, d.toNat, a.toNat, u.elem32 b.toNat)
  | .gateScale _ d a _ => some (5, d.toNat, a.toNat, fun _ _ => scalar.toNat % 2 ^ 32)
  | _ => none

/-- An operation consumes a poisoned half of the accumulators, or a poisoned reservation record (R249, R383, log entry 43). -/
def Quad.consumesPoison (u : Quad) (o : EngOp) : Bool :=
  match o.instr with
  | .mma _ d a b => u.tileBad d.toNat o.row || u.badRanges.contains a.toNat || u.badRanges.contains b.toNat
  | .mst _ c _ => u.tileBad c.toNat o.row
  | .rstat _ _ c => o.data.any fun p => (List.range 128).any fun h => u.rowBad c.toNat (2 * p.1 + h / 64) (h % 64)
  | .gateSig _ _ a => u.tileBad a.toNat 0
  | .gateTanh _ _ a => u.tileBad a.toNat 0
  | .gateMul _ _ a b => u.tileBad a.toNat 0 || u.tileBad b.toNat 0
  | .gateAdd _ _ a b => u.tileBad a.toNat 0 || u.tileBad b.toNat 0
  | .gateLerp _ d a b => u.tileBad a.toNat 0 || u.tileBad b.toNat 0 || u.tileBad d.toNat 0
  | .gateScale _ _ a _ => u.tileBad a.toNat 0
  | _ => false

/-- What the head operation of a quad does, up to a row: its run, what its issuer receives, the state with its stores. -/
def State.runEngine (s : State) (q : Nat) (o : EngOp) (until' : Nat) : EngRun × MemberResult × State :=
  let u := s.quad q
  let w := (o.members.head?.map (·.1)).getD ⟨0, 0, 0⟩
  let ctx := s.ctxOf w.lid
  let cluster := s.quadAt q / 48
  let md := s.fmOf w
  let quiet : MemberResult := { ws := [], own := 0 }
  let fine := fun u : Quad => ({ quad := u, row := o.row, flags := 0, errs := [], stop := none } : EngRun)
  let r := o.scalar.toNat % 64
  if u.consumesPoison o then ({ fine u with stop := some (.kill 0x0E 0) }, quiet, s)
  else match o.instr with
  | .mma _ d a b => (s.runMma u cluster ctx md o d.toNat a.toNat b.toNat until', quiet, s)
  | .mres _ n _ => (s.runMres u cluster ctx o n.toNat w.teamRef, quiet, s)
  | .mrel _ n => (fine { u with ranges := tdel n.toNat u.ranges, badRanges := u.badRanges.filter (· ≠ n.toNat) }, quiet, s)
  | .mzero _ d => (fine (u.zeroTile d.toNat), quiet, s)
  | .mst _ c _ => let x := s.runMst u cluster ctx md o c.toNat; (x.1, quiet, x.2)
  | .mrd _ d c _ =>
    let row := u.row c.toNat r
    (fine u, { ws := [.v d.toNat (o.data.map fun p => (p.1, row.getD p.1 0,
      (if u.rowBad c.toNat r (2 * p.1) then 1 else 0) + (if u.rowBad c.toNat r (2 * p.1 + 1) then 2 else 0)))], own := 0 }, s)
  | .mwr _ d _ _ => (fine (u.setLanes d.toNat r o.data), quiet, s)
  | .rstat _ d c => (fine u, rstatLanes md u c.toNat d.toNat (o.data.map (·.1)), s)
  | i => match gateOf u i o.scalar with
    | some g => let x := u.gate md g.1 g.2.1 g.2.2.1 g.2.2.2; ({ fine x.1 with flags := x.2 }, quiet, s)
    | none => (fine u, quiet, s)

/-- The head operation of a quad waits for an absent line (R162). -/
def State.engineWaits (s : State) (q : Nat) : Bool :=
  match (s.quad q).ops with
  | o :: _ => o.stall.isNone && (s.runEngine q o 64).1.stop == some .wait
  | [] => false

/-- Errors of an operation's fetches reach every member: EZERO and ELOG. What a restart after a page fault meets again is noted already (R162, R167). -/
def State.noteErrors (s : State) (ms : List WaveRef) (o : EngOp) (errs : List (Bool × Word)) : State :=
  let new := (errs.filter fun e => !o.noted.contains e).map (·.2)
  if new.isEmpty then s
  else ms.foldl (fun s w => s.modWave w fun v => new.foldl Wave.addElog (v.raise fEZERO)) s

/-- What a fetch could not read, by its ELOG entry: errors that last mark their frames and are counted (R167, R374, R376). -/
def State.noteFetch (s : State) (cluster ctx : Nat) (ra rb : OperRec) (e : Bool × Word) : State :=
  let n := e.2.toNat
  let row := bits n 32 16
  let col := bits n 16 16
  let r := if e.1 then rb else ra
  let w := formatWidth r.fmt / 8
  match bits n 60 3 with
  | 0 =>
    if r.space then s
    else if r.fmt = 7 then s.noteVA false cluster ctx .load (BitVec.ofInt 64 (r.addr.toNat + row * r.stride + (col / 2 : Nat))) 1
    else s.noteVA false cluster ctx .load (BitVec.ofInt 64 (r.addr.toNat + row * r.stride + (col * w : Nat))) w
  | 1 => s.noteVA false cluster ctx .load (r.scaleaddr + BitVec.ofNat 64 (if r.roleB then col * 64 + row else row * r.nb + col)) 1
  | _ => s.noteVA false cluster ctx .load (r.cbaddr + BitVec.ofNat 64 (2 * col)) 2

/-- Errors that last, in what an operation read (R358, R374). -/
def State.noteEngine (s : State) (cluster ctx : Nat) (u : Quad) (o : EngOp) (r : EngRun) : State :=
  if s.lasting.isEmpty then s
  else
    let s := match o.instr with
      | .mma _ _ a b => (match tget a.toNat u.ranges, tget b.toNat u.ranges with
          | some ra, some rb => r.errs.foldl (fun s e => s.noteFetch cluster ctx ra rb e) s
          | _, _ => s)
      | _ => s
    match r.stop with
    | some (.kill 0x0E va) => if va = 0 then s else s.noteVA false cluster ctx .load va (match o.instr with | .mma .. => 1 | _ => 64)
    | _ => s

/-- An `mma` fetches its operands into the operand buffer (R160, R162). -/
def EngOp.fetches (o : EngOp) (u : Quad) : Quad := match o.instr with | .mma .. => { u with obuf := [], fetched := true } | _ => u

/-- The key of engine state that no saved team holds, so that its operations run. -/
def State.orphaned (s : State) (q : Nat) : Bool := 768 ≤ q && !(s.teams.any fun t => t.2.gangAt == some q)

/-- An operation is done: results, flags of every member and of the issuer, MX (R73, R163). -/
def State.endEngine (s : State) (q : Nat) (o : EngOp) (r : EngRun) (m : MemberResult) : State :=
  let ms := s.engineMembers q o
  let s := s.setQuad q (o.fetches { r.quad with ops := r.quad.ops.drop 1 })
  let s := (ms.foldl (fun s w => s.modWave w fun v => v.raise r.flags) s).noteErrors ms o r.errs
  let s := o.members.foldl (fun s x => s.modWave x.1 fun v =>
    (if v.ended then v else (v.applyWrites m.ws).raise m.own).endPend x.2.1) s
  if s.orphaned q && (s.quad q).ops.isEmpty then { s with quads := tdel q s.quads } else s.formGang q

/-- The rows committed so far are kept with the operation. -/
def State.keepRows (s : State) (q : Nat) (o : EngOp) (r : EngRun) (stall : Option Nat) : State :=
  let o' := { o with row := r.row, flags := r.flags, stall := stall, stalled := 0, noted := o.noted ++ r.errs.filter fun e => !o.noted.contains e }
  (s.setQuad q (o.fetches { r.quad with ops := o' :: r.quad.ops.drop 1 })).noteErrors (s.engineMembers q o) o r.errs

/-- An engine operation is stopped: a page fault stalls it at its row progress, an error kills the launch with the word of member 0 (R162, R417). -/
def State.stopEngine (s : State) (q : Nat) (o : EngOp) (r : EngRun) (e : EngStop) : State :=
  let m := o.members.head?.getD (⟨0, 0, 0⟩, 0, 0)
  match e with
  | .fault va c l wr =>
    let f := s.enterFault va m.1.lid r.row 0 (s.ctxOf m.1.lid) 3 c wr l (.engine q)
    f.2.keepRows q o r (some f.1)
  | .kill st _ => s.killLaunch m.1.lid st m.2.2 0
  | .wait => s

/-- Teams of other launches are saved from a unit that is fenced, as a PREEMPT saves them: the balance of each account is set to 0 (R378, R380). -/
def State.saveOthers (s : State) (lid : Nat) (holds : Nat → Bool) : State :=
  let others := (s.teams.filter fun t => t.2.onCore && holds t.2.core && t.1.lid != lid).map (·.1)
  let s := others.foldl (fun s t => s.modAccount t.lid fun _ => 0) s
  others.foldl State.haltForSave s

/-- A key above the quads that holds no engine state. -/
def State.freeKey (s : State) : Nat := ((List.range (s.quads.length + 1)).find? fun i => (tget (768 + i) s.quads).isNone).getD 0 + 768
/-- What a dissolved gang whose teams have all retired has left on a quad that is fenced, the stores of an `mst`, runs to its end on another engine: it
moves to a key of its own (R163, R378, R386; DESIGN CHOICE, log entry 69: the rules move engine state with its teams only). -/
def State.moveOrphans (s : State) (q : Nat) : State :=
  let u := s.quad q
  if u.gang.isSome || u.ops.isEmpty || (s.engineOwner u).isSome then s
  else (s.setQuad s.freeKey { u with joins := [], arrivals := [] }).setQuad q { u with ops := [], ranges := [] }
/-- A lasting error in the logic of a quad's engine: the engine is fenced, its launch is killed, teams of other launches on the quad's cores are
saved: members, those that wait for the engine, those that could still come to use it (R166, R378, R385). -/
def State.fenceQuad (s : State) (q lid off : Nat) : State :=
  let s := State.countError { s with device := { s.device with fencedQuads := sins q s.device.fencedQuads } } 0 (4 * q) 2
  ((s.killLaunch lid 0x18 off 0).saveOthers lid fun c => quadOf c == q).moveOrphans q

/-- A member of an engine operation is not being saved or saved out; one whose team has retired does not hold it (R32, R163, R381). -/
def State.engineFree (s : State) (w : WaveRef) : Bool :=
  match s.team? w.teamRef with | some t => t.st != .halting && t.st != .saved | none => true

/-- ENGINE_OP_COMPLETE: the head operation of a quad runs to its end, or to what stops it. -/
def execEngineOpComplete (quad : Nat) (report : EngineReport) (s : State) : Host.Outcome State Fault Refusal :=
  match (s.quad quad).ops with
  | [] => .fault (.cannotOccur "ENGINE_OP_COMPLETE")
  | o :: _ =>
    let isMma := match o.instr with | .mma .. => true | _ => false
    let still := o.members.any fun m => !s.engineFree m.1
    if o.stall.isSome || still || (768 ≤ quad && !s.orphaned quad) || s.device.fencedQuads.contains (s.quadAt quad) || (report != .clean && !isMma) then
      .fault (.cannotOccur "ENGINE_OP_COMPLETE")
    else
      let last := match report with | .residue r => r | _ => 64
      let x := s.runEngine quad o last
      let m := o.members.head?.getD (⟨0, 0, 0⟩, 0, 0)
      let t := x.2.2.noteEngine (s.quadAt quad / 48) (s.ctxOf m.1.lid) (s.quad quad) o x.1
      match x.1.stop, report with
      | some .wait, _ => .fault (.cannotOccur "ENGINE_OP_COMPLETE")
      | some e, _ => done s (t.stopEngine quad o x.1 e)
      | none, .residue r =>
        stepIf "ENGINE_OP_COMPLETE" (decide (r < 64) && decide (o.row ≤ r)) s ((t.keepRows quad o x.1 none).fenceQuad (s.quadAt quad) m.1.lid m.2.2)
      | none, .retried => done s ((t.countError 0 (4 * s.quadAt quad) 1).endEngine quad o x.1 x.2.1)
      | none, .clean => done s (t.endEngine quad o x.1 x.2.1)

end Sys2Proof.Machine
end

