-- ==== Sys2Proof/Machine/Sched.lean ====
section
/-! DEFINITION. The queue scheduler core: tail writes, decisions, ageing, saves and loads of queues (R316, R326). -/

namespace Sys2Proof.Machine

/-- TAIL_WRITE (R316); discarded before READY (R406). -/
def execTailWrite (src : BitVec 16) (q : BitVec 12) (value : BitVec 64) (s : State) : Host.Outcome State Fault Refusal :=
  done s (if s.device.phase = 6 then s.tailWrite src.toNat q.toNat value.toNat else s)

/-! ### Decisions -/

/-- The PENDING queue of a tenant that is placed next: the highest AGE, ties to the lower QNUM. -/
def State.nextPending (s : State) (t : Nat) : Option (Nat × Queue) :=
  (s.queues.filter fun p => p.2.tenant == t && p.2.en && p.2.st == .pending && p.2.slot.isNone && !((s.tenant? t).any fun k => k.st == 2)).foldl
    (fun (b : Option (Nat × Queue)) p => match b with
      | none => some p
      | some o => if o.2.age < p.2.age || (p.2.age == o.2.age && p.1 < o.1) then some p else some o) none

/-- The slots that queues hold or are being loaded into, of one tenant or of all. -/
def State.heldSlots (s : State) (t : Option Nat) : List Nat :=
  s.queues.foldl (fun l p => match p.2.slot with
    | some i => if (match t with | some x => p.2.tenant == x | none => true) then sins i l else l
    | none => l) []

/-- A queue that holds a slot of a tenant, loaded and not about to be saved. -/
def State.settled (s : State) (t : Nat) : List (Nat × Queue) :=
  s.queues.filter fun p => p.2.tenant == t && p.2.slot.isSome && !p.2.loading && !p.2.saveReq && p.2.st == .resident

/-- The idle queue of the lowest slot. -/
def State.idleQueue (s : State) (t : Nat) : Option (Nat × Queue) :=
  ((s.settled t).filter fun p => p.2.head == p.2.tail && !s.inParse p.1).foldl (fun (b : Option (Nat × Queue)) p => match b with
    | none => some p
    | some o => if p.2.slot.getD 0 < o.2.slot.getD 0 then some p else some o) none

/-- The resident queue of least AGE, ties to the higher slot, among those resident for 40 µs. -/
def State.weakest (s : State) (t : Nat) : Option (Nat × Queue) :=
  ((s.settled t).filter fun p => p.2.since + 40 * Config.ticksPerUs ≤ s.now).foldl (fun (b : Option (Nat × Queue)) p => match b with
    | none => some p
    | some o => if p.2.age < o.2.age || (p.2.age == o.2.age && o.2.slot.getD 0 < p.2.slot.getD 0) then some p else some o) none

/-- A queue begins to load into a slot. -/
def Queue.intoSlot (k : Queue) (i : Nat) : Queue := { k with slot := some i, loading := true }

/-- One placement of the loop of R326; none when the queue to be placed next cannot be. -/
def State.placeQueue (s : State) (t : Nat) : Option State :=
  match s.nextPending t, s.tenant? t with
  | some (q, k), some tn =>
    let free := (List.range Config.slots).find? fun i => !(s.heldSlots none).contains i
    match (if (s.heldSlots (some t)).length < tn.slotm1 + 1 then free else none), s.idleQueue t, s.weakest t with
    | some i, _, _ => some (s.updQueue q fun k => k.intoSlot i)
    | none, some (r, o), _ => some ((s.updQueue r fun k => k.giveUp .idle).updQueue q fun k => k.intoSlot (o.slot.getD 0))
    | none, none, some (r, o) =>
      if o.age < k.age then some ((s.updQueue r fun k => { k with saveReq := true }).updQueue q fun k => k.intoSlot (o.slot.getD 0)) else none
    | none, none, none => none
  | _, _ => none

/-- The decision for one tenant. -/
def State.decideTenant : Nat → State → Nat → State
  | 0, s, _ => s
  | n + 1, s, t => match s.placeQueue t with | some s' => State.decideTenant n s' t | none => s

/-- A decision: the tenants are served in the order of their numbers, which R326 leaves open (DESIGN CHOICE, log entry 69). -/
def State.decide (s : State) : State :=
  let s := (List.range 16).foldl (fun s t => State.decideTenant s.queues.length s t) s
  { s with schedDue := false, schedTick := s.now / (10 * Config.ticksPerUs) }

/-- An ageing is due (R326). -/
def State.ageingDue (s : State) : Bool := s.ageTick < s.now / (50 * Config.ticksPerUs)
/-- A decision is due. -/
def State.decisionDue (s : State) : Bool := s.schedDue || s.schedTick < s.now / (10 * Config.ticksPerUs)

/-- QSCHED_DECISION. -/
def execQschedDecision (s : State) : Host.Outcome State Fault Refusal :=
  stepIf "QSCHED_DECISION" (s.decisionDue && !s.ageingDue) s s.decide

/-- QUEUE_AGEING: at a multiple of 50 µs every PENDING queue's AGE rises, saturating at 15, and a decision follows. -/
def execQueueAgeing (s : State) : Host.Outcome State Fault Refusal :=
  let qs := s.queues.filter fun p => p.2.st == .pending
  let t := qs.foldl (fun s p => s.updQueue p.1 fun k => { k with age := min 15 (k.age + 1) }) s
  stepIf "QUEUE_AGEING" s.ageingDue s { t.decide with ageTick := s.ageTick + 1 }

/-! ### Saves and loads -/

/-- The STATE of a queue that has been saved: it stays PENDING; one whose directory entry was disabled is IDLE, or, enabled again, PENDING when its
ring holds packets (R320, R326). -/
def Queue.savedAs (k : Queue) : QueueSt := if k.wasOff && !(k.en && k.head < k.tail) then .idle else .pending

/-- QUEUE_SAVE: at its packet boundary the queue gives up its slot. -/
def execQueueSave (slot : BitVec 6) (s : State) : Host.Outcome State Fault Refusal :=
  match s.slotQueue slot.toNat with
  | none => .fault (.cannotOccur "QUEUE_SAVE")
  | some (q, k) =>
    stepIf "QUEUE_SAVE" (k.saveReq && !s.inParse q) s (s.updQueue q fun k => k.giveUp k.savedAs)

/-- QUEUE_LOAD_COMPLETE: AGE := PRIO, and residence counts from now. -/
def execQueueLoadComplete (slot : BitVec 6) (s : State) : Host.Outcome State Fault Refusal :=
  match s.queues.find? fun p => p.2.slot == some slot.toNat && p.2.loading with
  | none => .fault (.cannotOccur "QUEUE_LOAD_COMPLETE")
  | some (q, _) =>
    stepIf "QUEUE_LOAD_COMPLETE" (s.slotQueue slot.toNat).isNone s
      (s.updQueue q fun k => { k with st := .resident, loading := false, since := s.now, age := k.prio })

/-- The EVENT_WAIT of a queue in a slot has been unmet for 100 µs (R326). -/
def State.waitOver (s : State) (k : Queue) : Bool := k.st == .waiting && k.waitSince + 100 * Config.ticksPerUs ≤ s.now
/-- A queue is to give up its slot since its wait has been unmet for so long. -/
def State.waitDue (s : State) : Bool := s.queues.any fun p => p.2.slot.isSome && !p.2.loading && s.waitOver p.2

/-- EVENT_WAIT_SLOT_RELEASE: a wait unmet for 100 µs gives up the slot; a queue that is to be saved is then saved (R320). -/
def execEventWaitSlotRelease (slot : BitVec 6) (s : State) : Host.Outcome State Fault Refusal :=
  match s.slotQueue slot.toNat with
  | none => .fault (.cannotOccur "EVENT_WAIT_SLOT_RELEASE")
  | some (q, k) =>
    stepIf "EVENT_WAIT_SLOT_RELEASE" (s.waitOver k) s
      (s.updQueue q fun k => k.giveUp (if k.saveReq then k.savedAs else .waiting))

end Sys2Proof.Machine
end

