-- ==== Sys2Proof/Machine/FaultResolve.lean ====
section
/-! DEFINITION. FAULT_RESOLVED: resolving fault entries, invalidating translations, resuming what they hold (R296, R363, R367, R368). -/

namespace Sys2Proof.Machine

/-- Drop the cached translations of a context that cover an address, and the context's directory and region entries: a walk that begins later sees
the tables as they stand (R362, R363). -/
def State.dropPage (s : State) (ctx va : Nat) : State :=
  { s with tlb := s.tlb.filter fun e => !(e.ctx == ctx && e.page ≤ va && va < e.page + e.size), walks := s.walks.filter fun e => e.ctx ≠ ctx }
/-- Drop every cached translation and walk-cache entry of a context (R363). -/
def State.dropCtx (s : State) (ctx : Nat) : State :=
  { s with tlb := s.tlb.filter fun e => e.ctx ≠ ctx, walks := s.walks.filter fun e => e.ctx ≠ ctx }

/-- A path that a code fetch holds fetches again, with a new walk; a fault on the way is a new entry (R364, R367). -/
def State.refetch (s : State) (f : FaultRec) (w : WaveRef) (pid : Nat) : State :=
  let core := s.coreOf w.teamRef
  let s := s.noteWalk true core f.ctx .fetch f.va.toNat
  match s.translate true core f.ctx .fetch f.va.toNat with
  | .fault c lv =>
    let g := s.enterFault f.va w.lid f.lanes f.off f.ctx 1 c false lv (.path w pid none)
    g.2.modWave w fun v => v.modPath pid fun p => { p with park := .fault g.1, since := 0 }
  | _ => s.modWave w fun v => v.unpark pid

/-- What a fault holds goes on, with a new walk (R367). A wave that is not running goes on when it runs again (R296, R368). -/
def State.resumeFault (s : State) (f : FaultRec) : State :=
  match f.holder with
  | .path w _ (some op) => if s.running w then s.replay w op else s
  | .path w pid none => if s.running w then s.refetch f w pid else s
  | .brk w pid => if s.running w then s.modWave w fun v => v.unpark pid else s
  | .copy cid => s.modCopy cid fun c => { c with stall := none }
  | .engine _ => { s with quads := s.quads.map fun (p : Nat × Quad) =>
      (p.1, { p.2 with ops := p.2.ops.map fun o => if o.stall == some f.fid then { o with stall := none, stalled := 0 } else o }) }
  | .launch lid => (match s.launch? lid with | some l => if l.queue.isNone then s.advanceLaunch lid else s | none => s)
  | .nothing => s

/-- The launch, or the COPY packet, of an entry is killed (R367). -/
def State.killFault (s : State) (f : FaultRec) : State :=
  if f.lid ≠ 0 then s.killLaunch f.lid (if f.unit = 5 then 0x19 else 0x0D) f.off 0
  else match f.holder with
    | .copy cid => (match s.copies.find? (·.cid == cid) with | some c => s.copyFail c 0x0D | none => s)
    | _ => s

/-- The unresolved entries of a tenant up to a sequence, ascending. -/
def State.openFaults (s : State) (tenant n : Nat) : List FaultRec :=
  s.faults.filter fun f => f.tenant == tenant && !f.resolved && f.seq ≤ n

/-- Entries that resume together do so in ascending SEQ (R367). -/
def resumeOrder (fs : List FaultRec) : List FaultRec :=
  fs.foldl (fun l f => l.takeWhile (fun g => g.seq ≤ f.seq) ++ [f] ++ l.dropWhile (fun g => g.seq ≤ f.seq)) []

/-- Resolve entries up to one; the one that a kill names is not resumed. -/
def State.resolveFaults (s : State) (tenant ctx n : Nat) (kill : Bool) : State :=
  let fs := s.openFaults tenant n
  let s := { s with faults := s.faults.map fun (f : FaultRec) => if fs.any (fun g => g.fid == f.fid) then { f with resolved := true } else f }
  let s := fs.foldl (fun s (f : FaultRec) => if f.unit == 5 then s else (s.dropPage ctx f.va.toNat).dropPage f.ctx f.va.toNat) s
  (resumeOrder fs).foldl (fun s (f : FaultRec) => if kill && f.seq == n then s.killFault f else s.resumeFault f) s

/-- The packet of a FAULT_RESOLVED: what it resolves is resolved; it completes by a step of its own. -/
def resolving (name : String) (slot : BitVec 6) (s : State) (mine : Front → Bool) (run : Front → State → State) :
    Host.Outcome State Fault Refusal :=
  command name slot s (fun f => f.op == 0x0B && mine f) true fun f _ s => run f s

/-- FAULT_RESOLVED with sequence n > 0. -/
def execFaultResolved (slot : BitVec 6) (s : State) : Host.Outcome State Fault Refusal :=
  resolving "FAULT_RESOLVED" slot s (fun f => !f.kill && f.entry != 0) fun f s => s.resolveFaults f.k.tenant f.k.ctx f.entry false

/-- FAULT_RESOLVED with KILL: entry n is killed instead of resumed; with sequence 0 the packet is malformed. -/
def execFaultResolvedKill (slot : BitVec 6) (s : State) : Host.Outcome State Fault Refusal :=
  resolving "FAULT_RESOLVED_KILL" slot s (fun f => f.kill) fun f s => s.resolveFaults f.k.tenant f.k.ctx f.entry true

/-- FAULT_RESOLVED with sequence 0: every cached translation of the context is dropped. -/
def execFaultResolvedInvalidate (slot : BitVec 6) (s : State) : Host.Outcome State Fault Refusal :=
  resolving "FAULT_RESOLVED_INVALIDATE" slot s (fun f => !f.kill && f.entry == 0) fun f s => s.dropCtx f.k.ctx

/-- An operation has an access that is translated and not yet performed: a load or an atomic, an ordered atomic on its way. Lanes that wait on a
page are not translated. -/
def Pend.inFlight (p : Pend) : Bool :=
  match p.kind with
  | .mem r _ parts _ => !r.sp && parts.any (·.val.isNone)
  | .fab (.oatom ..) _ => true
  | _ => false

/-- The packets of this node that are on their way: held for delivery here, in the merge of a port, or in its retry buffer. -/
def State.onTheWay (s : State) : List Packet := s.fabric.held ++ s.fabric.ports.flatMap fun p => p.merge ++ p.retry
/-- An ordered atomic of this node, of a context, that was translated before a packet was taken. -/
def isAtomicOf (node ctx pid : Nat) (p : Packet) : Bool :=
  match p.body with | .oatom _ _ _ _ _ c _ ref => p.src.toNat == node && c == ctx && ref < pid | _ => false
/-- Every access of a context that was translated before a packet was taken has been performed: loads, atomics, those of killed launches that are on
their way included, and acknowledged stores (R363, R369). -/
def State.accessesDone (s : State) (ctx pid : Nat) : Bool :=
  let mine := fun r : StoreRec => s.ctxOf r.w.lid == ctx && r.sid < pid && !r.loc.isSpad
  !(s.queue.any mine) && !(s.buffer.any mine) && !(s.onTheWay.any (isAtomicOf s.fabric.node ctx pid)) &&
  s.waves.all fun p => s.ctxOf p.1.lid != ctx || !(p.2.pend.any fun o => o.id < pid && o.inFlight)

/-- A FAULT_RESOLVED packet completes (R363). -/
def State.completeResolve (s : State) (pid : Nat) : Option State :=
  match s.packet? pid with
  | some p =>
    if p.op == 0x0B && s.accessesDone p.ctx pid then some (s.completeWith pid 0) else none
  | none => none

end Sys2Proof.Machine
end

