-- ==== Sys2Proof/Machine/Masks.lean ====
section
/-! DEFINITION. The meanings of the mask instructions (R233). -/

namespace Sys2Proof.Machine

/-- `mand` (R233). -/
def execMand (x : Bool) (d a b : BitVec 3) (s : State) : Host.Outcome State Fault Refusal :=
  issueWave x (.mand x d a b) s fun k v => v.setM d.toNat (k.v.mask a.toNat &&& k.v.mask b.toNat)

/-- `mor` (R233). -/
def execMor (x : Bool) (d a b : BitVec 3) (s : State) : Host.Outcome State Fault Refusal :=
  issueWave x (.mor x d a b) s fun k v => v.setM d.toNat (k.v.mask a.toNat ||| k.v.mask b.toNat)

/-- `mxor` (R233). -/
def execMxor (x : Bool) (d a b : BitVec 3) (s : State) : Host.Outcome State Fault Refusal :=
  issueWave x (.mxor x d a b) s fun k v => v.setM d.toNat (k.v.mask a.toNat ^^^ k.v.mask b.toNat)

/-- `mandn` (R233). -/
def execMandn (x : Bool) (d a b : BitVec 3) (s : State) : Host.Outcome State Fault Refusal :=
  issueWave x (.mandn x d a b) s fun k v => v.setM d.toNat (k.v.mask a.toNat &&& ~~~(k.v.mask b.toNat))

/-- `mnot` (R233). -/
def execMnot (x : Bool) (d a : BitVec 3) (s : State) : Host.Outcome State Fault Refusal :=
  issueWave x (.mnot x d a) s fun k v => v.setM d.toNat (~~~(k.v.mask a.toNat))

/-- `mmov` (R233). -/
def execMmov (x : Bool) (d a : BitVec 3) (s : State) : Host.Outcome State Fault Refusal :=
  issueWave x (.mmov x d a) s fun k v => v.setM d.toNat (k.v.mask a.toNat)

/-- `mfroms` (R233). -/
def execMfroms (x : Bool) (d : BitVec 3) (r : BitVec 6) (s : State) : Host.Outcome State Fault Refusal :=
  issueWave x (.mfroms x d r) s fun k v => v.setM d.toNat ((k.s r).setWidth 32)

/-- `mtos` (R233). -/
def execMtos (x : Bool) (a : BitVec 3) (r : BitVec 6) (s : State) : Host.Outcome State Fault Refusal :=
  issueWave x (.mtos x a r) s fun k v => v.setS r.toNat ((k.v.mask a.toNat).setWidth 64)

/-- `mpopc` (R233). -/
def execMpopc (x : Bool) (a : BitVec 3) (r : BitVec 6) (s : State) : Host.Outcome State Fault Refusal :=
  issueWave x (.mpopc x a r) s fun k v => v.setS r.toNat (BitVec.ofNat 64 (popc 32 (k.v.mask a.toNat).toNat))

/-- `mffs` (R233). -/
def execMffs (x : Bool) (a : BitVec 3) (r : BitVec 6) (s : State) : Host.Outcome State Fault Refusal :=
  issueWave x (.mffs x a r) s fun k v => v.setS r.toNat (BitVec.ofNat 64 (ctz 32 (k.v.mask a.toNat).toNat))

/-- Index of the highest one bit, or 32 (R233). -/
def highestBit (m : W32) : Nat := if m = 0 then 32 else Nat.log2 m.toNat

/-- `mfls` (R233). -/
def execMfls (x : Bool) (a : BitVec 3) (r : BitVec 6) (s : State) : Host.Outcome State Fault Refusal :=
  issueWave x (.mfls x a r) s fun k v => v.setS r.toNat (BitVec.ofNat 64 (highestBit (k.v.mask a.toNat)))

end Sys2Proof.Machine
end

