-- ==== Sys2Proof/Machine/Preempt.lean ====
section
/-! DEFINITION. Pre-emption: PREEMPT, the save image, saving a team, restoring one, saves that let a deterministic launch go on
(R342, R348, R380 to R385). -/

namespace Sys2Proof.Machine

/-! ### PREEMPT (R380) -/

/-- The running launches that a PREEMPT names: all of its context, or one. -/
def State.named (s : State) (ctx lid : Nat) : List Nat :=
  (s.launches.filter fun p => p.2.st == .running && p.2.ctx == ctx && (lid == 0 || p.1 == lid)).map (·.1)

/-- The teams of a launch that are on cores. -/
def State.onCores (s : State) (lid : Nat) : List TeamRef := (s.teams.filter fun t => t.1.lid == lid && t.2.onCore).map (·.1)

/-- The teams of a launch that are being saved. -/
def State.beingSaved (s : State) (lid : Nat) : List TeamRef :=
  (s.teams.filter fun t => t.1.lid == lid && t.2.onCore && !t.2.imgBlocks.isEmpty).map (·.1)

/-- PREEMPT: the balance of each named launch's account is set to 0, its teams halt, and the packet waits for their saves. -/
def execPreempt (slot : BitVec 6) (s : State) : Host.Outcome State Fault Refusal :=
  command "PREEMPT" slot s (fun f => f.op == 0x0A) true fun f pid s =>
    let lids := s.named f.k.ctx (bits f.n 128 32)
    let s := lids.foldl (fun s l => s.modAccount l fun _ => 0) s
    let s := lids.foldl (fun s l => (s.onCores l).foldl State.haltForSave s) s
    (s.modPacket pid fun p => { p with saving := lids.flatMap s.beingSaved }).settleSaves

/-! ### The save image (R382) -/

/-- The place of a path's split record in the berm, counted from its bottom; 0xFFFFFFFF for none. -/
def Wave.recIndex (v : Wave) (p : Path) : Nat :=
  match p.srec with
  | some r => (v.recs.reverse.findIdx? fun q => q.rid == r).getD 0xFFFFFFFF
  | none => 0xFFFFFFFF

/-- A path's slot of 16 bytes: PC, MASK, AGE, record. -/
def Wave.slotImage (v : Wave) : Option Path → List Byte
  | some p => leBytes 4 p.pc ++ leBytes 4 p.mask.toNat ++ leBytes 4 p.age ++ leBytes 4 (v.recIndex p)
  | none => leBytes 12 0 ++ leBytes 4 0xFFFFFFFF

/-- A path's clause: header offset, word index, switch wait. -/
def Wave.clauseImage (v : Wave) : Option Path → List Byte
  | some p => leBytes 4 p.hdr ++ leBytes 2 (if p.inClause then (p.pc - p.hdr) / 4 else 0) ++ leBytes 2 (if v.switchWait then 1 else 0)
  | none => leBytes 8 0

/-- Park kind and its object. -/
def State.parkImage (s : State) (o : Option Path) : List Byte :=
  let pad := fun (k : Nat) (xs : List Nat) => leBytes 8 k ++ (xs ++ List.replicate (3 - xs.length) 0).flatMap fun x => leBytes 8 x
  match (match o with | some p => p.park | none => Park.none) with
  | .none => pad 0 []
  | .line op => pad 1 [0, op]
  | .payload op => pad 1 [1, op]
  | .lines f n => pad 1 [2, f, n]
  | .bar c n => pad 2 [n + (if c then 16 else 0)]
  | .ticket k past => pad 3 [k, if past then 1 else 0]
  | .stage d off => pad 4 [off, d]
  | .timeline c n => pad 5 [c, n.toNat]
  | .baton => pad 6 []
  | .event wid d => (match s.waiters.find? (·.wid == wid) with | some a => pad 7 [a.ev, a.value, d] | none => pad 7 [0, 0, d])
  | .handle d h => pad 8 [h.toNat, d]
  | .fault fid => (match s.faults.find? (·.fid == fid) with | some f => pad 9 [f.seq] | none => pad 9 [0])
  | .sluice => pad 10 []
  | .mgang => pad 11 []

/-- The park of a path as the 32 bytes of an image name it. An event of its own gives the path a waiter of its own (R342). -/
def State.readPark (s : State) (w : WaveRef) (pid n : Nat) : State :=
  let x := fun i => n >>> (64 * (i + 1)) % 2 ^ 64
  let s := { s with waiters := s.waiters.filter fun a => a.who != .path w pid }
  let put := fun (s : State) (k : Park) => s.modWave w fun v => v.modPath pid fun p => { p with park := k }
  match n % 2 ^ 64 with
  | 1 => put s (match x 0 with | 0 => .line (x 1) | 1 => .payload (x 1) | _ => .lines (x 1) (x 2))
  | 2 => put s (.bar (x 0 / 16 != 0) (x 0 % 16))
  | 3 => put s (.ticket (x 0 % 8) (x 1 % 2 == 1))
  | 4 => put s (.stage (x 1 % 64) (x 0))
  | 5 => put s (.timeline (x 0 % 16) (BitVec.ofNat 64 (x 1)))
  | 6 => put s .baton
  | 7 => let f := s.addWaiter (s.tenantOf w.lid) (x 0 % 2 ^ 16) (x 1) (.path w pid); put f.2 (.event f.1 (x 2 % 64))
  | 8 => put s (.handle (x 1 % 64) (BitVec.ofNat 64 (x 0)))
  | 9 => put s (match s.faults.find? fun f => f.tenant == s.tenantOf w.lid && f.seq == x 0 with | some f => .fault f.fid | none => .none)
  | 10 => put s .sluice
  | 11 => put s .mgang
  | _ => put s .none

/-- The parks and the clauses of a wave's slots, as an image gives them: the class and the COUNT of a clause come from its header. -/
def State.readSlots (s : State) (m : Images) (l : Launch) (w : WaveRef) (o : Nat) : State :=
  [(0, fun v : Wave => v.slot0), (1, fun v : Wave => v.slot1)].foldl (fun s p =>
    match (s.wave? w).bind p.2 with
    | none => s
    | some q =>
      let s := if m.changed (o + 768 + 32 * p.1) 32 then s.readPark w q.pid (m.num (o + 768 + 32 * p.1) 32) else s
      if m.changed (o + 752 + 8 * p.1) 4 then
        match s.readVA true (s.coreOf w.teamRef) l.ctx .fetch (l.kernel + BitVec.ofNat 64 q.hdr) 4 with
        | .ok bs => s.modWave w fun v => v.modPath q.pid fun q => { q with cls := headerClass (leNat bs), count := headerCount (leNat bs) }
        | _ => s
      else s) s

/-- The unfinished lanes of the memory instruction that a path waits on. -/
def Wave.unfinished (v : Wave) : Option Path → Nat
  | some p => (v.pend.findSome? fun q => match q.kind with
      | .mem r todo _ _ => if r.pid == p.pid && !todo.isEmpty then some (todoMask todo) else none
      | _ => none).getD 0
  | none => 0

/-- A wave section. -/
def State.waveImage (s : State) (v : Wave) : List Byte :=
  (v.sregs.flatMap fun x => leBytes 8 x.toNat) ++ (v.masks.flatMap fun x => leBytes 4 x.toNat) ++
  v.slotImage v.slot0 ++ v.slotImage v.slot1 ++ (v.lc.flatMap fun x => leBytes 4 x.toNat) ++ leBytes 4 v.bermDepth ++
  (v.loops.flatMap fun r => leBytes 4 r.start ++ leBytes 4 r.last ++ leBytes 8 (r.order + (if r.active then 2 ^ 63 else 0))) ++
  (v.leave.flatMap fun m => leBytes 2 m.first ++ leBytes 2 m.count ++ leBytes 4 m.mask.toNat) ++
  (v.elog.flatMap fun x => leBytes 8 x.toNat) ++
  leBytes 8 v.fstat.toNat ++ leBytes 8 v.wstat.toNat ++ leBytes 8 v.icount.toNat ++ leBytes 8 v.cycle.toNat ++ leBytes 8 v.lskip.toNat ++
  (v.ctr.flatMap fun n => leBytes 1 n) ++ v.clauseImage v.slot0 ++ v.clauseImage v.slot1 ++
  s.parkImage v.slot0 ++ s.parkImage v.slot1 ++ leBytes 4 (v.unfinished v.slot0) ++ leBytes 4 (v.unfinished v.slot1) ++
  List.replicate 184 0

/-- The waves that have arrived at barrier `n` of a team, as a mask. -/
def Team.arrivedMask (t : Team) (cohort : Bool) (n : Nat) : Nat :=
  (t.bars.filter fun b => b.cohort == cohort && b.n == n).foldl (fun m b => b.arrived.foldl (fun m a => m ||| 2 ^ a.1) m) 0

/-- The header of an image. -/
def State.imageHeader (s : State) (t : TeamRef) (k : Team) : List Byte :=
  let live := (s.liveWaves t).foldl (fun m w => m ||| 2 ^ w.wave) 0
  let came := fun i => k.arrivedMask true i != 0 && k.arrivedMask true i ||| live == k.arrivedMask true i
  let f := (List.range 16).foldl (fun n i => n + k.arrivedMask false i * 2 ^ (768 + 16 * i)) 0 +
    k.taken.toNat * 2 ^ 760 +
    (List.range 16).foldl (fun n i => n + (if came i then 2 ^ (744 + i) else 0)) 0 +
    k.rank * 2 ^ 736 + (if s.ownGang t then 2 ^ 704 + (if (s.quad (quadOf k.core)).gang.isSome then 2 ^ 705 else 0) else 0) + k.haltTime % 2 ^ 64 * 2 ^ 640 + t.lid * 2 ^ 608 + t.team * 2 ^ 576 +
    s.imgBytes t * 2 ^ 544 + (match k.haltEsc with | some e => e.span * 2 ^ 528 + e.slot * 2 ^ 512 + e.count * 2 ^ 448 | none => 0)
  leBytes 128 f

/-- A reservation record: the operand record it was made from (R159). -/
def OperRec.image (r : OperRec) : List Byte :=
  leBytes 64 (r.addr.toNat + r.scaleaddr.toNat * 2 ^ 64 + r.cbaddr.toNat * 2 ^ 128 + (r.stride % 2 ^ 32).toNat * 2 ^ 192 +
    r.k % 2 ^ 32 * 2 ^ 224 + r.nb * 2 ^ 256 + r.fmt * 2 ^ 272 + r.blk * 2 ^ 276 + (if r.space then 2 ^ 278 else 0) +
    (if r.roleB then 2 ^ 279 else 0))

/-- The gang state of an image: accumulators, reservation records by range name, the gang record. -/
def Quad.image (u : Quad) : List Byte :=
  ((List.range 512).flatMap fun i => let row := (tget i u.acc).getD []; (List.range 32).flatMap fun j => leBytes 8 (row.getD j 0).toNat) ++
  ((List.range 16).flatMap fun i => match tget i u.ranges with | some r => r.image | none => List.replicate 64 0) ++
  (match u.gang with
    | some g => leBytes 4 g.lid ++ leBytes 4 g.key ++ leBytes 4 g.n ++ leBytes 4 g.turn ++
        leBytes 4 (match g.holder with | some h => h + 1 | none => 0) ++
        leBytes 4 ((g.members.zipIdx.filter fun m => m.1.2).foldl (fun n m => n + 2 ^ m.2) 0) ++ leBytes 8 0
    | none => leBytes 32 0) ++
  (u.tags.flatMap fun t => leBytes 1 t) ++ List.replicate 24 0

/-- The image of a team. -/
def State.teamImage (s : State) (t : TeamRef) (l : Launch) (k : Team) : List Byte :=
  let vs := (List.range l.hdr.waves).filterMap fun i => s.wave? ⟨t.lid, t.team, i⟩
  s.imageHeader t k ++ vs.flatMap s.waveImage ++ s.imageBody t l k ++ (if s.ownGang t then (s.quad (quadOf k.core)).image else [])

/-- Write the image over its blocks (R382). -/
def State.writeImage (s : State) (ctx : Nat) (blocks : List Nat) (img : List Byte) : State :=
  match s.ctx? ctx with
  | some c => blocks.zipIdx.foldl (fun s b => (s.writeVA ctx (c.imageAddr blocks (8192 * b.2)) ((img.drop (8192 * b.2)).take 8192)).getD s) s
  | none => s

/-! ### Saving a team (R381) -/

/-- Results that a save waits for, since they land in the image: those of the started lanes of loads and atomics that no logical clock holds, of SFU and XL
operations, of timeline reads. -/
def Pend.lands (p : Pend) : Bool :=
  match p.kind with
  | .mem r _ parts _ => r.op != .store && !parts.isEmpty && !p.held
  | .result .. => true
  | .tlread .. => true
  | _ => false

/-- No access of a wave and no store on its way can take effect now: what is left of the wave's accesses comes after lanes or a fabric instruction of it that are
replayed after the restore. Such loads do not land in the image, but are performed after the restore, behind what they follow: R127 and R381 let loads in flight land,
R118 keeps the order at one location, and R296 replays the lane only then (DESIGN CHOICE, log entry 69). -/
def State.stuckHere (s : State) (w : WaveRef) (v : Wave) : Bool :=
  (v.pend.any fun p => match p.kind with | .mem _ todo _ _ => !todo.isEmpty | .fab (.parked ..) _ => true | _ => false) &&
  (v.pend.all fun p => match p.kind with
    | .mem _ _ parts _ => ((List.range parts.length).all fun i => !s.canPerform w p i) && (wholeLanes parts).isEmpty
    | .result .. => false
    | .tlread .. => false
    | _ => true) &&
  !(s.queue.any fun r => s.canEnter r || s.canDrain r) && !(s.buffer.any s.canPerformStore)

/-- Every result of a wave that lands in its team's image has landed, as far as it can (R381). -/
def State.landed (s : State) (w : WaveRef) : Bool :=
  match s.wave? w with | some v => !(v.pend.any Pend.lands) || s.stuckHere w v | none => true

/-- The engine state that leaves the quad with a team: its waiting joins, and the engine state that it owns, under a key of their own. -/
def State.takeEngine (s : State) (t : TeamRef) : Option Nat × State :=
  let q := quadOf (s.coreOf t)
  let u := s.quad q
  let mine := u.joins.filter fun j => j.w.teamRef == t
  let own := s.ownGang t
  if !own && mine.isEmpty then (none, s)
  else
    let key := s.freeKey
    let v := if own then { u with joins := mine } else { Quad.reset with joins := mine }
    let u := { u with joins := u.joins.filter fun j => j.w.teamRef != t }
    let u := if own then { u with gang := none, ranges := [], ops := [], arrivals := [] } else u
    (some key, ((s.setQuad q u).setQuad key v).formGang q)

/-- The stores on their way that the waves of a team had before them: its own, its core's queue, its cluster's buffer, and what it had brought
along (R127). -/
def State.leftBehind (s : State) (t : TeamRef) (k : Team) : List Nat :=
  ((s.queue.filter fun r => r.w.teamRef == t || (!r.held && k.has t false r)) ++ s.buffer.filter (k.has t true)).map (·.sid)

/-- What the saved teams of a cohort have before them is one: each of them may acquire after the restore what another had seen before it (R127). -/
def State.shareCarry (s : State) (t : TeamRef) : State :=
  match s.team? t with
  | none => s
  | some k =>
    let of := fun (e : TeamRef × Team) => e.1 == t || (e.1.lid == t.lid && (s.launch? t.lid).any (fun l => l.hdr.cohort != 0) && e.2.cohort == k.cohort && e.2.st == .saved)
    let all := (s.teams.filter of).foldl (fun c e => sunion e.2.carry c) []
    { s with teams := s.teams.map fun e => if of e then (e.1, { e.2 with carry := all }) else e }

/-- A row that counted as a team's own counts by itself once the team has left its core (R37, R380). -/
def Granule.leaveTeam (t : TeamRef) (g : Granule) : Granule :=
  { g with inTeam := g.inTeam && !(g.lid == t.lid && g.team == t.team), takenBy := if g.takenBy == some t then none else g.takenBy }

/-- TEAM_SAVE_COMPLETE: the results in flight have landed and the numbers of its faults stand (R370); the image is written, the engine state leaves its quad, the core is free.
A bad table entry on the way to the image kills the launch (R358). -/
def execTeamSaveComplete (t : TeamRef) (s : State) : Host.Outcome State Fault Refusal :=
  match s.team? t, s.launch? t.lid with
  | some k, some l =>
    let ws := (List.range l.hdr.waves).map fun i => (⟨t.lid, t.team, i⟩ : WaveRef)
    let now := fun (f : FaultRec) => f.cycle == s.cycles && match f.holder with | .path w _ _ => w.teamRef == t | .brk w _ => w.teamRef == t | _ => false
    let ready := k.st == .halting && ws.all s.landed && !(s.faults.any now)
    let s1 := ws.foldl (fun s w => s.dropLoopBufs w [0, 1, 2]) s
    let img := match s1.team? t with | some k => s1.teamImage t l k | none => []
    let e := s1.takeEngine t
    let s2 := (e.2.writeImage l.ctx k.imgBlocks img).modTeam t fun k =>
      { k with st := .saved, charged := k.charged + (s.cycles - k.placedAt), gangAt := e.1, image := img, carry := s.leftBehind t k }
    let s2 := s2.shareCarry t
    let s2 := { s2 with granules := s2.granules.map (Granule.leaveTeam t) }
    let s3 := { s2 with packets := s2.packets.map fun (p : Packet0) => if p.saving.contains t then { p with savedLid := max p.savedLid t.lid } else p }
    stepIf "TEAM_SAVE_COMPLETE" ready s
      (if s.imageTable l.ctx .store k.imgBlocks then ((s.noteTable l.ctx .store k.imgBlocks).killLaunch t.lid 0x0E 0 0).settleSaves
       else s3.settleSaves.settleAccount t.lid)
  | _, _ => .fault (.cannotOccur "TEAM_SAVE_COMPLETE")

/-! ### Restoring teams (R342, R383) -/

/-- The image of a saved team has a byte with a lasting error in a range. -/
def State.imageBad (s : State) (ctx : Nat) (blocks : List Nat) (from' n : Nat) : Bool :=
  match s.ctx? ctx with
  | some c => (List.range ((n + 3) / 4)).any fun i =>
      match s.translate false 0 ctx .load (c.imageAddr blocks (from' + 4 * i)).toNat with
      | .ok pa false _ _ => s.poisonedAt pa
      | _ => false
  | none => false

/-- An image that is read marks the frames of errors that last, and these are counted (R374, R376). -/
def State.noteImage (s : State) (t : TeamRef) : State :=
  match s.team? t, s.ctx? (s.ctxOf t.lid) with
  | some k, some c => if s.lasting.isEmpty then s
    else (List.range k.imgBlocks.length).foldl (fun s i =>
      s.noteVA false 0 (s.ctxOf t.lid) .load (c.imageAddr k.imgBlocks (8192 * i)) (min 8192 (k.image.length - 8192 * i))) s
  | _, _ => s

/-- The gang state of an image whose header has GANG cleared is not there; one with BATON cleared holds no baton state (R382). GANG set in an image
without gang state brings none (DESIGN CHOICE, log entry 69). -/
def Images.gang (m : Images) (u : Quad) : Quad :=
  if !(m.num 88 1).testBit 0 then { Quad.reset with joins := u.joins }
  else if !(m.num 88 1).testBit 1 then { u with gang := u.gang.map fun g => { g with holder := none, turn := 0 } }
  else u

/-- The gang state at `o`: accumulators, reservation records, the gang record, format tags. -/
def Images.quad (m : Images) (o : Nat) (t : TeamRef) (u : Quad) : Quad :=
  let q := o + 132096
  { u with
    acc := (List.range 512).foldl (fun a i =>
      let row := (tget i u.acc).getD (List.replicate 32 0)
      let new := m.fields (o + 256 * i) 8 (BitVec.ofNat 64) row
      if new = row then a else tput i new a) u.acc,
    ranges := (List.range 16).foldl (fun g i => m.field (o + 131072 + 64 * i) 64 (fun n => tput i (OperRec.ofNat n t) g) g) u.ranges,
    gang := u.gang.map fun g => { g with
      lid := m.field q 4 id g.lid, key := m.field (q + 4) 4 id g.key, n := m.field (q + 8) 4 id g.n,
      members := g.members.zipIdx.map fun x => (x.1.1, m.field (q + 20) 4 (fun b => b.testBit x.2) x.1.2), turn := m.field (q + 12) 4 id g.turn, holder := m.field (q + 16) 4 (fun n => if n = 0 then none else some (n - 1)) g.holder },
    tags := m.fields (q + 32) 1 id u.tags }

/-- The data of a saved team, with what software has written over its image. -/
def State.readImage (s : State) (t : TeamRef) : State :=
  match s.team? t, s.launch? t.lid with
  | some k, some l =>
    if s.imageStands t then s
    else
      let m : Images := { old := k.image, new := s.imageNow l.ctx k }
      let n := l.hdr.waves
      let a := l.hdr.alloc
      let rows := l.imageRows
      let spad := rows + 264 * a * n
      let p := l.hdr.spadP
      let s := (List.range n).foldl (fun s i => s.modWave ⟨t.lid, t.team, i⟩
        (m.wave (128 + 1024 * i) (rows + 256 * a * i) (rows + 256 * a * n + 8 * a * i))) s
      let s := (List.range n).foldl (fun s i => s.readSlots m l ⟨t.lid, t.team, i⟩ (128 + 1024 * i)) s
      let clk := fun i => match s.wave? ⟨t.lid, t.team, i⟩ with | some v => v.lclk | none => 0
      let live := maskOf ((s.liveWaves t).map (·.wave))
      let s := s.modTeam t fun k => m.bars live clk s.nextId (m.team spad p k)
      match k.gangAt with
      | some key => if Nat.blt l.imageGang k.image.length then s.setQuad key (m.gang (m.quad l.imageGang t (s.quad key))) else s
      | none => s
  | _, _ => s

/-- Errors in the rows, the scratchpad and the engine state of an image poison the halves concerned (R383). -/
def State.imagePoison (s : State) (t : TeamRef) (l : Launch) (k : Team) : State :=
  let n := l.hdr.waves
  let a := l.hdr.alloc
  let rows := l.imageRows
  let bad := fun from' => s.imageBad l.ctx k.imgBlocks from' 4
  if !(s.imageBad l.ctx k.imgBlocks rows (k.image.length - rows)) then s
  else
    let s := (List.range n).foldl (fun s i => s.modWave ⟨t.lid, t.team, i⟩ fun v =>
      { v with vregs := v.vregs.zipIdx.map fun r => { r.1 with poison := (List.range 64).foldl (fun (p : BitVec 64) h =>
          if bad (rows + 256 * (a * i + r.2) + 4 * h) then p ||| (1#64 <<< h) else p) r.1.poison } }) s
    let base := rows + 264 * a * n
    let s := s.modTeam t fun k => { k with spoison := (List.range (l.hdr.spadP / 4)).foldl (fun l h => if bad (base + 4 * h) then sins h l else l) k.spoison }
    match k.gangAt with
    | some key => if Nat.ble k.image.length l.imageGang then s
      else s.modQuad key fun u => { u with
        bad := ((List.range (512 * 64)).filter fun h => bad (l.imageGang + 4 * h)).foldl (fun b h => sins h b) u.bad,
        badRanges := ((List.range 16).filter fun i => s.imageBad l.ctx k.imgBlocks (l.imageGang + 131072 + 64 * i) 64).foldl (fun b i => sins i b) u.badRanges }
    | none => s

/-- The engine state of a restored team goes to its quad. -/
def State.giveEngine (s : State) (t : TeamRef) (key : Option Nat) : State :=
  match key with
  | none => s
  | some key =>
    let q := quadOf (s.coreOf t)
    let v := s.quad key
    let u := s.quad q
    let u := if v.waves.isEmpty then { u with joins := u.joins ++ v.joins } else { v with joins := u.joins ++ v.joins }
    State.setQuad { s with quads := tdel key s.quads } q u

/-- An event that a restored path waits for: it is tested as a new waiter (R342). -/
def State.reenter (s : State) (w : WaveRef) (pid wid d : Nat) : State :=
  match s.waiters.find? (·.wid == wid) with
  | none => s
  | some a =>
    let s := { s with waiters := s.waiters.filter (·.wid ≠ wid) }
    let c := s.eventCount a.tenant a.ev
    if a.value ≤ c then
      (s.dropCache (s.coreOf w.teamRef)).modWave w fun v => (v.setS d (BitVec.ofNat 64 c)).unpark pid
    else
      let f := s.addWaiter a.tenant a.ev a.value (.path w pid)
      f.2.modWave w fun v => v.modPath pid fun p => { p with park := .event f.1 d }

/-- A path of a restored team that is parked on an event goes on, or waits afresh. -/
def State.retest (s : State) (w : WaveRef) (p : Path) : State :=
  match p.park with
  | .event wid d => s.reenter w p.pid wid d
  | _ => s

/-- What an entry that has been resolved in the meantime holds among the restored teams goes on (R296, R367). -/
def State.retestFault (s : State) (ts : List TeamRef) (f : FaultRec) : State :=
  let holds := fun (w : WaveRef) (pid : Nat) => ts.contains w.teamRef &&
    ((s.wave? w).bind fun v => v.path? pid).any fun p => p.park == .fault f.fid
  if f.resolved && (match f.holder with | .path w pid _ => holds w pid | .brk w pid => holds w pid | _ => false) then s.resumeFault f else s

/-- One team returns to a core, as its image stands. -/
def State.restoreTeam (s : State) (t : TeamRef) (core : Nat) : State :=
  match s.team? t, s.launch? t.lid with
  | some k, some l =>
    let s := ((s.noteImage t).readImage t).imagePoison t l k
    let s := s.evict (s.movableBut core fun _ => false) (s.rowsUsed core + l.hdr.waves * l.hdr.alloc - Config.rowsPerCore)
    let places := (s.freePlaces core).take l.hdr.waves
    ((s.modTeam t fun k => { k with core := core, places := places, st := .resident, placedAt := s.cycles, imgBlocks := [], gangAt := none, image := [] }).giveEngine
      t k.gangAt).dropCache core
  | _, _ => s

/-- Every park of the restored teams is tested afresh; resolved faults go on in the order of their SEQ (R367). -/
def State.retestAll (s : State) (lid : Nat) (ts : List TeamRef) : State :=
  let s := (s.waves.filter fun e => ts.contains e.1.teamRef).foldl (fun s e => e.2.paths.foldl (fun s p => s.retest e.1 p) s) s
  let s := (resumeOrder s.faults).foldl (fun s f => s.retestFault ts f) s
  let s := (s.wakeMemory.wakeTickets lid).wakeHandles
  ts.foldl (fun s t => (s.formGang (quadOf (s.coreOf t))).wakeBaton (quadOf (s.coreOf t))) s

/-- TEAM_RESTORE: a saved team, or a saved cohort, goes onto cores that can take it, as R337 picks. A lasting error in a header, a wave section or a
table entry on the way kills the launch with POISON (R383, R358). -/
def execTeamRestore (ts : List TeamRef) (cores : List Nat) (s : State) : Host.Outcome State Fault Refusal :=
  match ts with
  | [] => .fault (.cannotOccur "TEAM_RESTORE")
  | t0 :: _ =>
    match s.launch? t0.lid with
    | none => .fault (.cannotOccur "TEAM_RESTORE")
    | some l =>
      match s.pick (s.tenantOfCtx l.ctx) s.wants with
      | none => .fault (.cannotOccur "TEAM_RESTORE")
      | some (lid, s') =>
        let ok := lid == t0.lid && s.restores lid l && (s.savedUnits lid l).contains ts && s.restoreFits lid l ts cores
        let bad := ts.any fun t => match s.team? t with
          | some k => s.imageTable l.ctx .load k.imgBlocks || s.imageBad l.ctx k.imgBlocks 0 (128 + 1024 * l.hdr.waves)
          | none => false
        let t := if bad then (ts.foldl State.noteImage s).killLaunch lid 0x0E 0 0
          else (((ts.zip cores).foldl (fun s p => s.restoreTeam p.1 p.2) s').retestAll lid ts).modAccount lid fun d => d - (1024 * ts.length : Nat)
        stepIf "TEAM_RESTORE" ok s t

/-! ### Saves of a deterministic launch (R348) -/

/-- An outstanding operation that will come to its end whatever det operations are held. -/
def State.comes (s : State) (w : WaveRef) (v : Wave) (o : Pend) : Bool :=
  !o.held && match o.kind with
    | .mem r todo parts _ => if r.op == .store then (s.queue ++ s.buffer).any fun q => q.w == w && q.op == o.id && (s.canEnter q || (s.finishStore q.sid).isSome)
        else todo.isEmpty && ((List.range parts.length).any (s.canPerform w o) || parts.all fun q => q.val.isSome)
    | .ecl .. => v.estateTurn o.id
    | .equery .. => v.estateTurn o.id
    | .edrop _ => v.estateTurn o.id
    | _ => true

/-- A wave cannot go on: each of its paths waits at a barrier, a sluice or for a gang, or can issue nothing before a det operation that is held. -/
def State.onDet (s : State) (w : WaveRef) (v : Wave) : Bool :=
  (v.paths.all fun p => match p.park with
    | .bar .. => true
    | .sluice => true
    | .mgang => true
    | .none => v.pend.any (·.held) && p.yielded.isNone && !(v.pend.any (s.comes w v))
    | _ => false) &&
  !((s.eligiblePaths (s.coreOf w.teamRef)).any fun k => k.w == w && !(s.lookAt k).held k)

/-- The machine without what a launch has saved out and what of it has not started. -/
def State.onlyRunning (s : State) (lid : Nat) : State :=
  let out := fun (t : TeamRef) => t.lid == lid && (s.team? t).any fun k => k.st == .saved
  { s with
    launches := tmod lid (fun (l : Launch) => { l with nteams := 0 }) s.launches
    waves := s.waves.filter fun e => !out e.1.teamRef
    teams := s.teams.map fun e => if out e.1 then (e.1, { e.2 with st := .retired }) else e }
/-- A det operation of key (c, i) waits for teams that have not started, and for nothing else; teams that were saved so that others could start count with those
(DESIGN CHOICE, log entry 69: the launch has to make progress whatever room it has, R350). -/
def State.unstartedHold (s : State) (lid c i : Nat) (self : WaveRef → Bool) : Bool :=
  !(s.detClear lid c i self) && (s.onlyRunning lid).detClear lid c i self

/-- Some det operation of a launch, held or the completion of a phase, waits for teams that have not started, and for nothing else. -/
def State.heldByUnstarted (s : State) (lid : Nat) : Bool :=
  (s.waves.any fun e => e.1.lid == lid && !((s.team? e.1.teamRef).any fun k => k.st == .saved) &&
    e.2.pend.any fun o => o.held && s.unstartedHold lid o.clk (logicalId e.1) (· == e.1)) ||
  (s.fullPhases lid).any fun b => s.phaseReady b && match b with
    | .cohort _ c _ => let a := s.lastArrival b; s.unstartedHold lid a.1 (logicalId a.2) fun w => (s.cohortTeams lid c).contains w.teamRef
    | .team .. => false

/-- Every running wave of a deterministic launch waits, and a det operation is held by teams that have not started, or that are saved out: the running teams
are saved so that these can start. -/
def State.detSave (s : State) (lid : Nat) : Option State :=
  match s.launch? lid with
  | some l =>
    let live := s.waves.filter fun p => p.1.lid == lid && !p.2.ended && s.running p.1
    let t := (s.onCores lid).foldl State.haltForSave (s.modLaunch lid fun l => { l with detSaved := true })
    if l.hdr.det && l.st == .running && (s.unplaced lid l || !(s.savedUnits lid l).isEmpty) && (live.all fun p => s.onDet p.1 p.2) &&
       s.heldByUnstarted lid && (t.beingSaved lid).length != (s.beingSaved lid).length then
      some t
    else none
  | none => none

end Sys2Proof.Machine
end

