-- ==== Sys2Proof/Machine/Vector.lean ====
section
/-! DEFINITION. The meanings of vector arithmetic, logic, shifts, counts, compares, select and move (R253 to R261). -/

namespace Sys2Proof.Machine

/-- `vadd` (R253). -/
def execVadd (x : Bool) (t : BitVec 3) (d a b : BitVec 7) (s : State) : Host.Outcome State Fault Refusal :=
  vectorFixed x (.vadd x t d a b) s t d a b fun md a b _ => eAdd md t a b

/-- `vsub` (R253). -/
def execVsub (x : Bool) (t : BitVec 3) (d a b : BitVec 7) (s : State) : Host.Outcome State Fault Refusal :=
  vectorFixed x (.vsub x t d a b) s t d a b fun md a b _ => eSub md t a b

/-- `vmul` (R253). -/
def execVmul (x : Bool) (t : BitVec 3) (d a b : BitVec 7) (s : State) : Host.Outcome State Fault Refusal :=
  vectorFixed x (.vmul x t d a b) s t d a b fun md a b _ => eMul md t a b

/-- `vmulh` (R253). -/
def execVmulh (x : Bool) (t : BitVec 3) (d a b : BitVec 7) (s : State) : Host.Outcome State Fault Refusal :=
  vectorFixed x (.vmulh x t d a b) s t d a b fun _ a b _ => eMulh (typeWidth t) a b

/-- `vmulhw` (R253). -/
def execVmulhw (x : Bool) (t : BitVec 3) (d a b : BitVec 7) (s : State) : Host.Outcome State Fault Refusal :=
  vectorFixed x (.vmulhw x t d a b) s t d a b fun _ a b _ => eMulhw (typeWidth t) a b

/-- `vfma` (R253, R254). -/
def execVfma (x : Bool) (t : BitVec 3) (d a b : BitVec 7) (s : State) : Host.Outcome State Fault Refusal :=
  vectorFixed x (.vfma x t d a b) s t d a b fun md a b d => eFma md t false a b d

/-- `vfnma` (R253, R254). -/
def execVfnma (x : Bool) (t : BitVec 3) (d a b : BitVec 7) (s : State) : Host.Outcome State Fault Refusal :=
  vectorFixed x (.vfnma x t d a b) s t d a b fun md a b d => eFma md t true a b d

/-- `vmin` (R253). -/
def execVmin (x : Bool) (t : BitVec 3) (d a b : BitVec 7) (s : State) : Host.Outcome State Fault Refusal :=
  vectorFixed x (.vmin x t d a b) s t d a b fun md a b _ => eMin md t false a b

/-- `vmax` (R253). -/
def execVmax (x : Bool) (t : BitVec 3) (d a b : BitVec 7) (s : State) : Host.Outcome State Fault Refusal :=
  vectorFixed x (.vmax x t d a b) s t d a b fun md a b _ => eMin md t true a b

/-- `vminw` (R253). -/
def execVminw (x : Bool) (t : BitVec 3) (d a b : BitVec 7) (s : State) : Host.Outcome State Fault Refusal :=
  vectorFixed x (.vminw x t d a b) s t d a b fun _ a b _ => eMinw false a b

/-- `vmaxw` (R253). -/
def execVmaxw (x : Bool) (t : BitVec 3) (d a b : BitVec 7) (s : State) : Host.Outcome State Fault Refusal :=
  vectorFixed x (.vmaxw x t d a b) s t d a b fun _ a b _ => eMinw true a b

/-- `vaddsat` (R257). -/
def execVaddsat (x : Bool) (t : BitVec 3) (d a b : BitVec 7) (s : State) : Host.Outcome State Fault Refusal :=
  vectorFixed x (.vaddsat x t d a b) s t d a b fun _ a b _ => eAddsat (typeWidth t) a b

/-- `vand` (R258). -/
def execVand (x : Bool) (t : BitVec 3) (d a b : BitVec 7) (s : State) : Host.Outcome State Fault Refusal :=
  vectorFixed x (.vand x t d a b) s t d a b fun _ a b _ => plain (a &&& b)

/-- `vor` (R258). -/
def execVor (x : Bool) (t : BitVec 3) (d a b : BitVec 7) (s : State) : Host.Outcome State Fault Refusal :=
  vectorFixed x (.vor x t d a b) s t d a b fun _ a b _ => plain (a ||| b)

/-- `vxor` (R258). -/
def execVxor (x : Bool) (t : BitVec 3) (d a b : BitVec 7) (s : State) : Host.Outcome State Fault Refusal :=
  vectorFixed x (.vxor x t d a b) s t d a b fun _ a b _ => plain (a ^^^ b)

/-- `vshl` (R258). -/
def execVshl (x : Bool) (t : BitVec 3) (d a b : BitVec 7) (s : State) : Host.Outcome State Fault Refusal :=
  vectorFixed x (.vshl x t d a b) s t d a b fun _ a b _ => eShl (typeWidth t) a b

/-- `vshr` (R258). -/
def execVshr (x : Bool) (t : BitVec 3) (d a b : BitVec 7) (s : State) : Host.Outcome State Fault Refusal :=
  vectorFixed x (.vshr x t d a b) s t d a b fun _ a b _ => eShr (typeWidth t) a b

/-- `vsra` (R258). -/
def execVsra (x : Bool) (t : BitVec 3) (d a b : BitVec 7) (s : State) : Host.Outcome State Fault Refusal :=
  vectorFixed x (.vsra x t d a b) s t d a b fun _ a b _ => eSra (typeWidth t) a b

/-- `vceq` (R260). -/
def execVceq (x : Bool) (t : BitVec 3) (d a b : BitVec 7) (s : State) : Host.Outcome State Fault Refusal :=
  vectorFixed x (.vceq x t d a b) s t d a b fun md a b _ => eCmp md t 0 a b

/-- `vclt` (R260). -/
def execVclt (x : Bool) (t : BitVec 3) (d a b : BitVec 7) (s : State) : Host.Outcome State Fault Refusal :=
  vectorFixed x (.vclt x t d a b) s t d a b fun md a b _ => eCmp md t 2 a b

/-- `vcle` (R260). -/
def execVcle (x : Bool) (t : BitVec 3) (d a b : BitVec 7) (s : State) : Host.Outcome State Fault Refusal :=
  vectorFixed x (.vcle x t d a b) s t d a b fun md a b _ => eCmp md t 3 a b

/-- `vcltw` (R260). -/
def execVcltw (x : Bool) (t : BitVec 3) (d a b : BitVec 7) (s : State) : Host.Outcome State Fault Refusal :=
  vectorFixed x (.vcltw x t d a b) s t d a b fun md a b _ => eCmp md t 6 a b

/-- `vsel` (R261). -/
def execVsel (x : Bool) (t : BitVec 3) (d a b : BitVec 7) (s : State) : Host.Outcome State Fault Refusal :=
  vectorFixed x (.vsel x t d a b) s t d a b fun _ a b d => eSel (typeWidth t) a b d

/-- `vabs` (R253, R254). -/
def execVabs (x : Bool) (t : BitVec 3) (d a : BitVec 7) (s : State) : Host.Outcome State Fault Refusal :=
  vectorFixed x (.vabs x t d a) s t d a a fun _ a _ _ => eAbs t a

/-- `vneg` (R253, R254). -/
def execVneg (x : Bool) (t : BitVec 3) (d a : BitVec 7) (s : State) : Host.Outcome State Fault Refusal :=
  vectorFixed x (.vneg x t d a) s t d a a fun _ a _ _ => eNeg t a

/-- `vnot` (R258). -/
def execVnot (x : Bool) (t : BitVec 3) (d a : BitVec 7) (s : State) : Host.Outcome State Fault Refusal :=
  vectorFixed x (.vnot x t d a) s t d a a fun _ a _ _ => eNot (typeWidth t) a

/-- `vpopc` (R258). -/
def execVpopc (x : Bool) (t : BitVec 3) (d a : BitVec 7) (s : State) : Host.Outcome State Fault Refusal :=
  vectorFixed x (.vpopc x t d a) s t d a a fun _ a _ _ => plain (popc (typeWidth t) a)

/-- `vclz` (R258). -/
def execVclz (x : Bool) (t : BitVec 3) (d a : BitVec 7) (s : State) : Host.Outcome State Fault Refusal :=
  vectorFixed x (.vclz x t d a) s t d a a fun _ a _ _ => plain (clz (typeWidth t) a)

/-- `vmov` (R261). -/
def execVmov (x : Bool) (t : BitVec 3) (d a : BitVec 7) (s : State) : Host.Outcome State Fault Refusal :=
  vectorFixed x (.vmov x t d a) s t d a a fun _ a _ _ => plain a

/-- `vfmal`: a × b + c, without the prior destination (R255). -/
def execVfmal (x : Bool) (t : BitVec 3) (d a b c : BitVec 7) (s : State) : Host.Outcome State Fault Refusal :=
  issueWave x (.vfmal x t d a b c) s fun k v => v.putLanes d (laneResults k.lanes fun l =>
    elementwise (typeWidth t) (eFma k.fm t false) (k.opT t a l) (k.opT t b l) (k.opT t c l))

/-- The sub-element value of `vmovl` (R256): an f64 takes the f32 value widened exactly, a NaN keeping its sign, quiet bit and payload. -/
def movlBits (t : BitVec 3) (i : BitVec 32) : Nat :=
  match t.toNat with
  | 0 => (i.signExtend 64).toNat
  | 4 =>
    match fdecode 1 i.toNat with
    | .nan n _ m _ => (if n then 2 ^ 63 else 0) + 0x7FF * 2 ^ 52 + m * 2 ^ 29
    | v => (cvtFF (FMode.ofWord 0) 0 v).bits
  | _ => i.toNat % 2 ^ typeWidth t

/-- `vmovl` (R256). -/
def execVmovl (x : Bool) (t : BitVec 3) (d : BitVec 7) (i : BitVec 32) (s : State) : Host.Outcome State Fault Refusal :=
  issueWave x (.vmovl x t d i) s fun k v =>
    v.putLanes d (laneResults k.lanes fun _ => (replicateElem (typeWidth t) (movlBits t i), 0))

/-- `vcmp`: sub-element 0 of each active lane into one mask bit; the bits of other lanes are 0 (R259). -/
def execVcmp (x : Bool) (t : BitVec 3) (c : BitVec 4) (m : BitVec 3) (a b : BitVec 7) (s : State) : Host.Outcome State Fault Refusal :=
  issueWave x (.vcmp x t c m a b) s fun k v =>
    let r := fun l => condElem k.fm t c.toNat (elem (typeWidth t) (k.opT t a l) 0) (elem (typeWidth t) (k.opT t b l) 0)
    (v.setM m.toNat (maskOf (k.lanes.filter fun l => (r l).1))).raise (k.lanes.foldl (fun g l => g ||| (r l).2) 0)

end Sys2Proof.Machine
end

