-- ==== Sys2Proof/Machine/Dispatch.lean ====
section
/-! DEFINITION. One arm for each instruction and step: its meaning. -/

namespace Sys2Proof.Machine

def exec (i : Instr) (s : State) : Host.Outcome State Fault Refusal :=
  match i with
  | .nop x => Sys2Proof.Machine.execNop x s
  | .jmp x o => Sys2Proof.Machine.execJmp x o s
  | .bany x k o => Sys2Proof.Machine.execBany x k o s
  | .ball x k o => Sys2Proof.Machine.execBall x k o s
  | .bnone x k o => Sys2Proof.Machine.execBnone x k o s
  | .split x k o => Sys2Proof.Machine.execSplit x k o s
  | .join x => Sys2Proof.Machine.execJoin x s
  | .call x d o => Sys2Proof.Machine.execCall x d o s
  | .jind x a => Sys2Proof.Machine.execJind x a s
  | .loop x n o => Sys2Proof.Machine.execLoop x n o s
  | .loopx x n o => Sys2Proof.Machine.execLoopx x n o s
  | .exit x => Sys2Proof.Machine.execExit x s
  | .bar x n => Sys2Proof.Machine.execBar x n s
  | .barCohort x n => Sys2Proof.Machine.execBarCohort x n s
  | .tkwait x n => Sys2Proof.Machine.execTkwait x n s
  | .tktake x n => Sys2Proof.Machine.execTktake x n s
  | .wait x w => Sys2Proof.Machine.execWait x w s
  | .sadd x d a b => Sys2Proof.Machine.execSadd x d a b s
  | .ssub x d a b => Sys2Proof.Machine.execSsub x d a b s
  | .sand x d a b => Sys2Proof.Machine.execSand x d a b s
  | .sor x d a b => Sys2Proof.Machine.execSor x d a b s
  | .sxor x d a b => Sys2Proof.Machine.execSxor x d a b s
  | .sshl x d a b => Sys2Proof.Machine.execSshl x d a b s
  | .sshr x d a b => Sys2Proof.Machine.execSshr x d a b s
  | .ssra x d a b => Sys2Proof.Machine.execSsra x d a b s
  | .smul x d a b => Sys2Proof.Machine.execSmul x d a b s
  | .smulh x d a b => Sys2Proof.Machine.execSmulh x d a b s
  | .smulhw x d a b => Sys2Proof.Machine.execSmulhw x d a b s
  | .sdiv x d a b => Sys2Proof.Machine.execSdiv x d a b s
  | .sdivw x d a b => Sys2Proof.Machine.execSdivw x d a b s
  | .srem x d a b => Sys2Proof.Machine.execSrem x d a b s
  | .sremw x d a b => Sys2Proof.Machine.execSremw x d a b s
  | .saddi x d a im => Sys2Proof.Machine.execSaddi x d a im s
  | .sandi x d a im => Sys2Proof.Machine.execSandi x d a im s
  | .sori x d a im => Sys2Proof.Machine.execSori x d a im s
  | .sxori x d a im => Sys2Proof.Machine.execSxori x d a im s
  | .sshli x d a c => Sys2Proof.Machine.execSshli x d a c s
  | .sshri x d a c => Sys2Proof.Machine.execSshri x d a c s
  | .ssrai x d a c => Sys2Proof.Machine.execSsrai x d a c s
  | .smovi x d im => Sys2Proof.Machine.execSmovi x d im s
  | .smovl x d im => Sys2Proof.Machine.execSmovl x d im s
  | .smovh x d im => Sys2Proof.Machine.execSmovh x d im s
  | .scmp x f d a b => Sys2Proof.Machine.execScmp x f d a b s
  | .smin x d a b => Sys2Proof.Machine.execSmin x d a b s
  | .smax x d a b => Sys2Proof.Machine.execSmax x d a b s
  | .sminw x d a b => Sys2Proof.Machine.execSminw x d a b s
  | .smaxw x d a b => Sys2Proof.Machine.execSmaxw x d a b s
  | .spopc x d a => Sys2Proof.Machine.execSpopc x d a s
  | .sclz x d a => Sys2Proof.Machine.execSclz x d a s
  | .sctz x d a => Sys2Proof.Machine.execSctz x d a s
  | .sld x d a im => Sys2Proof.Machine.execSld x d a im s
  | .sst x d a im => Sys2Proof.Machine.execSst x d a im s
  | .sldk x d im => Sys2Proof.Machine.execSldk x d im s
  | .rdsr x d im => Sys2Proof.Machine.execRdsr x d im s
  | .wrsr x a im => Sys2Proof.Machine.execWrsr x a im s
  | .mand x d a b => Sys2Proof.Machine.execMand x d a b s
  | .mor x d a b => Sys2Proof.Machine.execMor x d a b s
  | .mxor x d a b => Sys2Proof.Machine.execMxor x d a b s
  | .mandn x d a b => Sys2Proof.Machine.execMandn x d a b s
  | .mnot x d a => Sys2Proof.Machine.execMnot x d a s
  | .mmov x d a => Sys2Proof.Machine.execMmov x d a s
  | .mfroms x d r => Sys2Proof.Machine.execMfroms x d r s
  | .mtos x a r => Sys2Proof.Machine.execMtos x a r s
  | .mpopc x a r => Sys2Proof.Machine.execMpopc x a r s
  | .mffs x a r => Sys2Proof.Machine.execMffs x a r s
  | .mfls x a r => Sys2Proof.Machine.execMfls x a r s
  | .vadd x t d a b => Sys2Proof.Machine.execVadd x t d a b s
  | .vsub x t d a b => Sys2Proof.Machine.execVsub x t d a b s
  | .vmul x t d a b => Sys2Proof.Machine.execVmul x t d a b s
  | .vmulh x t d a b => Sys2Proof.Machine.execVmulh x t d a b s
  | .vmulhw x t d a b => Sys2Proof.Machine.execVmulhw x t d a b s
  | .vfma x t d a b => Sys2Proof.Machine.execVfma x t d a b s
  | .vfnma x t d a b => Sys2Proof.Machine.execVfnma x t d a b s
  | .vmin x t d a b => Sys2Proof.Machine.execVmin x t d a b s
  | .vmax x t d a b => Sys2Proof.Machine.execVmax x t d a b s
  | .vminw x t d a b => Sys2Proof.Machine.execVminw x t d a b s
  | .vmaxw x t d a b => Sys2Proof.Machine.execVmaxw x t d a b s
  | .vabs x t d a => Sys2Proof.Machine.execVabs x t d a s
  | .vneg x t d a => Sys2Proof.Machine.execVneg x t d a s
  | .vfmal x t d a b c => Sys2Proof.Machine.execVfmal x t d a b c s
  | .vmovl x t d im => Sys2Proof.Machine.execVmovl x t d im s
  | .vaddsat x t d a b => Sys2Proof.Machine.execVaddsat x t d a b s
  | .vand x t d a b => Sys2Proof.Machine.execVand x t d a b s
  | .vor x t d a b => Sys2Proof.Machine.execVor x t d a b s
  | .vxor x t d a b => Sys2Proof.Machine.execVxor x t d a b s
  | .vnot x t d a => Sys2Proof.Machine.execVnot x t d a s
  | .vshl x t d a b => Sys2Proof.Machine.execVshl x t d a b s
  | .vshr x t d a b => Sys2Proof.Machine.execVshr x t d a b s
  | .vsra x t d a b => Sys2Proof.Machine.execVsra x t d a b s
  | .vpopc x t d a => Sys2Proof.Machine.execVpopc x t d a s
  | .vclz x t d a => Sys2Proof.Machine.execVclz x t d a s
  | .vcmp x t c m a b => Sys2Proof.Machine.execVcmp x t c m a b s
  | .vceq x t d a b => Sys2Proof.Machine.execVceq x t d a b s
  | .vclt x t d a b => Sys2Proof.Machine.execVclt x t d a b s
  | .vcle x t d a b => Sys2Proof.Machine.execVcle x t d a b s
  | .vcltw x t d a b => Sys2Proof.Machine.execVcltw x t d a b s
  | .vsel x t d a b => Sys2Proof.Machine.execVsel x t d a b s
  | .vmov x t d a => Sys2Proof.Machine.execVmov x t d a s
  | .vdiv x t d a b => Sys2Proof.Machine.execVdiv x t d a b s
  | .vsqrt x t d a => Sys2Proof.Machine.execVsqrt x t d a s
  | .vsfu x t d a f => Sys2Proof.Machine.execVsfu x t d a f s
  | .vround x t d a m => Sys2Proof.Machine.execVround x t d a m s
  | .vcvt x d a h dfmt sfmt => Sys2Proof.Machine.execVcvt x d a h dfmt sfmt s
  | .vqnt x d a b h k qfmt sfmt => Sys2Proof.Machine.execVqnt x d a b h k qfmt sfmt s
  | .vdqnt x t d a h k q => Sys2Proof.Machine.execVdqnt x t d a h k q s
  | .vamax x t d a l q => Sys2Proof.Machine.execVamax x t d a l q s
  | .vshf x t d a b => Sys2Proof.Machine.execVshf x t d a b s
  | .vbcst x d a im => Sys2Proof.Machine.execVbcst x d a im s
  | .vext x t d a im => Sys2Proof.Machine.execVext x t d a im s
  | .vins x t d a im => Sys2Proof.Machine.execVins x t d a im s
  | .vmovm x d a m => Sys2Proof.Machine.execVmovm x d a m s
  | .vidx x t d a im => Sys2Proof.Machine.execVidx x t d a im s
  | .vred x t d a o => Sys2Proof.Machine.execVred x t d a o s
  | .vscan x t d a o => Sys2Proof.Machine.execVscan x t d a o s
  | .vld x t d a b => Sys2Proof.Machine.execVld x t d a b s
  | .vst x t d a b => Sys2Proof.Machine.execVst x t d a b s
  | .vldsp x t d a b => Sys2Proof.Machine.execVldsp x t d a b s
  | .vstsp x t d a b => Sys2Proof.Machine.execVstsp x t d a b s
  | .vldacq x t d a b scope rem sp => Sys2Proof.Machine.execVldacq x t d a b scope rem sp s
  | .vstrel x t d a b scope sp => Sys2Proof.Machine.execVstrel x t d a b scope sp s
  | .fence x r sc k => Sys2Proof.Machine.execFence x r sc k s
  | .vprf x h a b => Sys2Proof.Machine.execVprf x h a b s
  | .vatom x t d a b op ord scope rem sp det => Sys2Proof.Machine.execVatom x t d a b op ord scope rem sp det s
  | .spclr x a n => Sys2Proof.Machine.execSpclr x a n s
  | .spclrFill x a n => Sys2Proof.Machine.execSpclrFill x a n s
  | .spwait x a n => Sys2Proof.Machine.execSpwait x a n s
  | .starm x a b c p => Sys2Proof.Machine.execStarm x a b c p s
  | .stwait x d a => Sys2Proof.Machine.execStwait x d a s
  | .tlwait x c a => Sys2Proof.Machine.execTlwait x c a s
  | .tlrd x d c => Sys2Proof.Machine.execTlrd x d c s
  | .cpy x n a => Sys2Proof.Machine.execCpy x n a s
  | .mgang x n k => Sys2Proof.Machine.execMgang x n k s
  | .mgangLeave x => Sys2Proof.Machine.execMgangLeave x s
  | .mres x n a => Sys2Proof.Machine.execMres x n a s
  | .mrel x n => Sys2Proof.Machine.execMrel x n s
  | .mma x d a b => Sys2Proof.Machine.execMma x d a b s
  | .mzero x d => Sys2Proof.Machine.execMzero x d s
  | .mrd x d sc im => Sys2Proof.Machine.execMrd x d sc im s
  | .mwr x d sc im => Sys2Proof.Machine.execMwr x d sc im s
  | .mst x c a => Sys2Proof.Machine.execMst x c a s
  | .mld x n k => Sys2Proof.Machine.execMld x n k s
  | .rstat x d sc => Sys2Proof.Machine.execRstat x d sc s
  | .gateSig x d a => Sys2Proof.Machine.execGateSig x d a s
  | .gateTanh x d a => Sys2Proof.Machine.execGateTanh x d a s
  | .gateMul x d a b => Sys2Proof.Machine.execGateMul x d a b s
  | .gateAdd x d a b => Sys2Proof.Machine.execGateAdd x d a b s
  | .gateLerp x d a b => Sys2Proof.Machine.execGateLerp x d a b s
  | .gateScale x d a sc => Sys2Proof.Machine.execGateScale x d a sc s
  | .batonTake x => Sys2Proof.Machine.execBatonTake x s
  | .batonPass x => Sys2Proof.Machine.execBatonPass x s
  | .batonQuery x d => Sys2Proof.Machine.execBatonQuery x d s
  | .leave x n a c => Sys2Proof.Machine.execLeave x n a c s
  | .leaveClr x n => Sys2Proof.Machine.execLeaveClr x n s
  | .ecl x m d k t c => Sys2Proof.Machine.execEcl x m d k t c s
  | .eclKeep x m d k t c => Sys2Proof.Machine.execEclKeep x m d k t c s
  | .edrop x t => Sys2Proof.Machine.execEdrop x t s
  | .equery x m k t => Sys2Proof.Machine.execEquery x m k t s
  | .trap x c => Sys2Proof.Machine.execTrap x c s
  | .brk x c => Sys2Proof.Machine.execBrk x c s
  | .tnow x d => Sys2Proof.Machine.execTnow x d s
  | .cyc x d => Sys2Proof.Machine.execCyc x d s
  | .icount x d => Sys2Proof.Machine.execIcount x d s
  | .evsig x e => Sys2Proof.Machine.execEvsig x e s
  | .evwait x d e n => Sys2Proof.Machine.execEvwait x d e n s
  | .hwait x d h => Sys2Proof.Machine.execHwait x d h s
  | .hpoll x d h => Sys2Proof.Machine.execHpoll x d h s
  | .yield x => Sys2Proof.Machine.execYield x s
  | .evtime x d e t after => Sys2Proof.Machine.execEvtime x d e t after s
  | .osend x d n p len => Sys2Proof.Machine.execOsend x d n p len s
  | .osendAt x d n p t len => Sys2Proof.Machine.execOsendAt x d n p t len s
  | .oatom x d a b sc op wide => Sys2Proof.Machine.execOatom x d a b sc op wide s
  | .oatomAt x d a b sc t op wide => Sys2Proof.Machine.execOatomAt x d a b sc t op wide s
  | .invk x d n a => Sys2Proof.Machine.execInvk x d n a s
  | .invh x d h a => Sys2Proof.Machine.execInvh x d h a s
  | .bermSwap w => Sys2Proof.Machine.execBermSwap w s
  | .yieldWindowEnd w slot => Sys2Proof.Machine.execYieldWindowEnd w slot s
  | .parkTimeout p => Sys2Proof.Machine.execParkTimeout p s
  | .barrierPhaseComplete b => Sys2Proof.Machine.execBarrierPhaseComplete b s
  | .ticketAdvance lid k => Sys2Proof.Machine.execTicketAdvance lid k s
  | .loadReturn w op => Sys2Proof.Machine.execLoadReturn w op s
  | .storeAck sid => Sys2Proof.Machine.execStoreAck sid s
  | .sfuResult w op => Sys2Proof.Machine.execSfuResult w op s
  | .xlResult w op => Sys2Proof.Machine.execXlResult w op s
  | .ecComplete w op => Sys2Proof.Machine.execEcComplete w op s
  | .fbComplete w op => Sys2Proof.Machine.execFbComplete w op s
  | .launchRetire lid => Sys2Proof.Machine.execLaunchRetire lid s
  | .teamSeal t => Sys2Proof.Machine.execTeamSeal t s
  | .prologueRepeat pid => Sys2Proof.Machine.execPrologueRepeat pid s
  | .teamPlace tenant cores => Sys2Proof.Machine.execTeamPlace tenant cores s
  | .waveBirth w => Sys2Proof.Machine.execWaveBirth w s
  | .detOpEffect d => Sys2Proof.Machine.execDetOpEffect d s
  | .copyAccept cid => Sys2Proof.Machine.execCopyAccept cid s
  | .copyArrival cid piece => Sys2Proof.Machine.execCopyArrival cid piece s
  | .engineOpComplete quad report => Sys2Proof.Machine.execEngineOpComplete quad report s
  | .faultEntryWrite tenant => Sys2Proof.Machine.execFaultEntryWrite tenant s
  | .killRecordWrite lid => Sys2Proof.Machine.execKillRecordWrite lid s
  | .wheelFire eid => Sys2Proof.Machine.execWheelFire eid s
  | .spillwayRelease tenant wid => Sys2Proof.Machine.execSpillwayRelease tenant wid s
  | .eventWaitSlotRelease slot => Sys2Proof.Machine.execEventWaitSlotRelease slot s
  | .tailWrite src q value => Sys2Proof.Machine.execTailWrite src q value s
  | .queueSave slot => Sys2Proof.Machine.execQueueSave slot s
  | .queueLoadComplete slot => Sys2Proof.Machine.execQueueLoadComplete slot s
  | .launch slot => Sys2Proof.Machine.execLaunch slot s
  | .launchIndirect slot => Sys2Proof.Machine.execLaunchIndirect slot s
  | .eventSignal slot => Sys2Proof.Machine.execEventSignal slot s
  | .eventWait slot => Sys2Proof.Machine.execEventWait slot s
  | .eventAt slot => Sys2Proof.Machine.execEventAt slot s
  | .copy slot => Sys2Proof.Machine.execCopy slot s
  | .estateDrop slot => Sys2Proof.Machine.execEstateDrop slot s
  | .invoke slot => Sys2Proof.Machine.execInvoke slot s
  | .complete slot => Sys2Proof.Machine.execComplete slot s
  | .preempt slot => Sys2Proof.Machine.execPreempt slot s
  | .faultResolved slot => Sys2Proof.Machine.execFaultResolved slot s
  | .faultResolvedKill slot => Sys2Proof.Machine.execFaultResolvedKill slot s
  | .faultResolvedInvalidate slot => Sys2Proof.Machine.execFaultResolvedInvalidate slot s
  | .queueControlHalt slot => Sys2Proof.Machine.execQueueControlHalt slot s
  | .queueControlResume slot => Sys2Proof.Machine.execQueueControlResume slot s
  | .queueControlDiscard slot => Sys2Proof.Machine.execQueueControlDiscard slot s
  | .queueControlSetPrio slot => Sys2Proof.Machine.execQueueControlSetPrio slot s
  | .teamSaveComplete t => Sys2Proof.Machine.execTeamSaveComplete t s
  | .teamRestore ts cores => Sys2Proof.Machine.execTeamRestore ts cores s
  | .tenantEnable src t => Sys2Proof.Machine.execTenantEnable src t s
  | .tenantReset src t => Sys2Proof.Machine.execTenantReset src t s
  | .contextCreate src c => Sys2Proof.Machine.execContextCreate src c s
  | .contextDestroy src c => Sys2Proof.Machine.execContextDestroy src c s
  | .queueEnable src q => Sys2Proof.Machine.execQueueEnable src q s
  | .queueDisable src q => Sys2Proof.Machine.execQueueDisable src q s
  | .portExcise src p => Sys2Proof.Machine.execPortExcise src p s
  | .portExciseClear src p => Sys2Proof.Machine.execPortExciseClear src p s
  | .nodeExcise src k node => Sys2Proof.Machine.execNodeExcise src k node s
  | .poisonFrameClear src im => Sys2Proof.Machine.execPoisonFrameClear src im s
  | .attestNonceWrite src k value => Sys2Proof.Machine.execAttestNonceWrite src k value s
  | .mgmtRegisterWrite src off value => Sys2Proof.Machine.execMgmtRegisterWrite src off value s
  | .orderedPacketArrival port pk => Sys2Proof.Machine.execOrderedPacketArrival port pk s
  | .beaconArrival port wm => Sys2Proof.Machine.execBeaconArrival port wm s
  | .beaconSend port => Sys2Proof.Machine.execBeaconSend port s
  | .routerForward port => Sys2Proof.Machine.execRouterForward port s
  | .culvertArrival pk => Sys2Proof.Machine.execCulvertArrival pk s
  | .portStall port => Sys2Proof.Machine.execPortStall port s
  | .flitCrcError port sends => Sys2Proof.Machine.execFlitCrcError port sends s
  | .ptpMessage m => Sys2Proof.Machine.execPtpMessage m s
  | .bringupPhaseComplete r => Sys2Proof.Machine.execBringupPhaseComplete r s
  | .bringupPhaseTimeout code => Sys2Proof.Machine.execBringupPhaseTimeout code s
  | .fabricMappedAccess src r => Sys2Proof.Machine.execFabricMappedAccess src r s
  | .portLinkUp port peer kind => Sys2Proof.Machine.execPortLinkUp port peer kind s
  | .qschedDecision => Sys2Proof.Machine.execQschedDecision s
  | .queueAgeing => Sys2Proof.Machine.execQueueAgeing s
  | .lockclkApply => Sys2Proof.Machine.execLockclkApply s
  | .attestReportReady => Sys2Proof.Machine.execAttestReportReady s
  | .weirDeliver => Sys2Proof.Machine.execWeirDeliver s
  | .powerOn => Sys2Proof.Machine.execPowerOn s
  | .thermtrip => Sys2Proof.Machine.execThermtrip s
  | .powerExcursion => Sys2Proof.Machine.execPowerExcursion s
  | .powerOff => Sys2Proof.Machine.execPowerOff s
  | .ptpSyncInterval => Sys2Proof.Machine.execPtpSyncInterval s
  | .heldPacketInject => Sys2Proof.Machine.execHeldPacketInject s
  | .devreset => Sys2Proof.Machine.execDevreset s
  | .unassignedEncoding => Sys2Proof.Machine.execUnassignedEncoding s

end Sys2Proof.Machine
end

