-- ==== Sys2Proof/Machine/OnChip.lean ====
section
/-! DEFINITION. Accesses to the privileged on-chip physical map (R110, R111): register files, scratchpads, accumulators and operand buffers by physical
address. Which initiators there are besides the copy engines, and where in a core's register file and scratchpad a team's rows and bytes lie, the spec
does not say (log entry 65). Kernels do not reach the map but by the names of register-row destinations (R112). -/

namespace Sys2Proof.Machine

/-! ### What lies where -/

/-- What a row of a register file holds. -/
inductive RowHolder where
  | reg (w : WaveRef) (v : Nat)
  | granule (gid : Nat)
  | free
  deriving DecidableEq, Repr

/-- The teams on a core. -/
def State.teamsOn (s : State) (core : Nat) : List TeamRef := (s.teams.filter fun t => t.2.onCore && t.2.core == core).map (·.1)

/-- The rows of a core's register file in order: its teams' registers, wave by wave, then the granules that stand apart (DESIGN CHOICE, log
entry 65). -/
def State.rowHolders (s : State) (core : Nat) : List RowHolder :=
  ((s.teamsOn core).flatMap fun t => match s.launch? t.lid with
    | some l => (List.range l.hdr.waves).flatMap fun w => (List.range l.hdr.alloc).map (RowHolder.reg ⟨t.lid, t.team, w⟩)
    | none => []) ++
  (s.granules.filter fun g => g.core == some core && !s.riding g).map fun g => .granule g.gid

/-- The team, and the offset within its allocation, of a byte of a core's scratchpad (DESIGN CHOICE, log entry 65). -/
def State.spadHolder (s : State) (core off : Nat) : Option (TeamRef × Nat) :=
  go (s.teamsOn core) off
where
  go : List TeamRef → Nat → Option (TeamRef × Nat)
    | [], _ => none
    | t :: ts, o =>
      let p := match s.launch? t.lid with | some l => l.hdr.spadP | none => 0
      if o < p then some (t, o) else go ts (o - p)

/-- A byte of a row. -/
def VReg.byte (r : VReg) (i : Nat) : Byte := (r.lane (i / 8) >>> (8 * (i % 8))).setWidth 8
/-- A row with one byte written; the half that it ends, when its four bytes are written, holds good data again. -/
def VReg.setByte (r : VReg) (i : Nat) (b : Byte) (whole : Bool) : VReg :=
  let l := i / 8
  let old := r.lane l
  let new := (old &&& ~~~((0xFF#64) <<< (8 * (i % 8)))) ||| (b.setWidth 64 <<< (8 * (i % 8)))
  let half := i % 8 / 4
  r.setLane l new (if whole then r.pois l &&& (if half = 0 then 2 else 1) else r.pois l)

/-! ### Reading and writing -/

/-- Storage of a register file or a scratchpad that a team or a granule has; that of an engine once a gang has formed on it since READY: the accumulators and the
operand buffer read zero from the first one on (R156). -/
def State.chipHeld (s : State) (core kind off : Nat) : Bool :=
  match kind with
  | 0 => off / 256 < (s.rowHolders core).length
  | 1 => (s.spadHolder core off).isSome
  | _ => (s.quad (quadOf core)).lastLid.isSome
/-- Storage that has been taken holds what its new owner has in it, and no longer what the map wrote (DESIGN CHOICE, log entry 65). -/
def State.settleChip (s : State) : State :=
  if s.chip.isEmpty then s else { s with chip := s.chip.filter fun e => !s.chipHeld e.1.1 e.1.2.1 e.1.2.2 }

/-- Where the part keeps what the map wrote to storage that nothing has: the four cores of a quad name the same accumulators and operand buffer. -/
def chipKey (core kind off : Nat) : Nat × Nat × Nat := (if 2 ≤ kind then 4 * quadOf core else core, kind, off)
/-- The granule that has taken a row of a wave that has ended over in place (R37): it is the one of the lowest slot that marks the row, by its tag and its
position in the estate (R35). -/
def State.rider (s : State) (w : WaveRef) (n : Nat) : Option Granule :=
  match s.wave? w, s.launch? w.lid with
  | some v, some l =>
    if !v.ended then none
    else ((bequests v).find? fun b => b.2.2.1 == n).bind fun b => s.granules.find? fun g =>
      g.inTeam && s.riding g && g.lid == w.lid && g.team == w.team && g.keybase == w.team * (32 * l.hdr.waves) + w.wave * 32 &&
      g.tag == l.hdr.tags.getD b.1 0 && g.regidx == b.2.1
  | _, _ => none

/-- A byte of the map: storage of a core by kind and offset; where nothing has it, what the map last wrote. -/
def State.chipByte (s : State) (core kind off : Nat) (free : Byte) : Byte :=
  let u := s.quad (quadOf core)
  let free := (tget (chipKey core kind off) s.chip).getD free
  if 2 ≤ kind && u.lastLid.isNone then free else
  match kind with
  | 0 => (match (s.rowHolders core)[off / 256]? with
      | some (.reg w v) => (match s.wave? w with | some x => (x.vreg v).byte (off % 256) | none => free)
      | some (.granule g) => (match s.granules.find? fun h => h.gid == g with | some h => h.row.byte (off % 256) | none => free)
      | _ => free)
  | 1 => (match s.spadHolder core off with | some (t, o) => (s.readLoc (.spad t o)).1 | none => free)
  | 2 => ((((tget (off / 256) u.acc).getD []).getD (off % 256 / 8) 0) >>> (8 * (off % 8))).setWidth 8
  | _ => if u.fetched && !(u.obuf.any fun e => e.1 == off) then free else mread off u.obuf

/-- A byte of the map is written; `whole` when the access covers the aligned four bytes that it lies in. A row that a granule has taken over in place is the granule's
too. -/
def State.setChipByte (s : State) (core kind off : Nat) (b : Byte) (whole : Bool) : State :=
  let q := quadOf core
  let u := s.quad q
  let put := fun (s : State) (g : Nat) => { s with granules := s.granules.map fun (h : Granule) =>
    if h.gid == g then { h with row := h.row.setByte (off % 256) b whole } else h }
  if 2 ≤ kind && u.lastLid.isNone then { s with chip := tput (chipKey core kind off) b s.chip } else
  match kind with
  | 0 => (match (s.rowHolders core)[off / 256]? with
      | some (.reg w v) =>
        let t := s.modWave w fun x => x.setV v ((x.vreg v).setByte (off % 256) b whole)
        (match s.rider w v with | some g => put t g.gid | none => t)
      | some (.granule g) => put s g
      | _ => { s with chip := tput (core, kind, off) b s.chip })
  | 1 => (match s.spadHolder core off with
      | some (t, o) => s.writeLoc (.spad t o) [b]
      | none => { s with chip := tput (core, kind, off) b s.chip })
  | 2 =>
    let row := (tget (off / 256) u.acc).getD (List.replicate 32 0)
    let old := row.getD (off % 256 / 8) 0
    let new := (old &&& ~~~((0xFF#64) <<< (8 * (off % 8)))) ||| (b.setWidth 64 <<< (8 * (off % 8)))
    s.setQuad q { u with acc := tput (off / 256) (setAt row (off % 256 / 8) new) u.acc }
  | _ => s.setQuad q { u with obuf := if u.fetched then tput off b u.obuf else mwrite off b u.obuf }

/-- The storage that an access names, all of its bytes in one kind of one core; none when R111 refuses it. -/
def onChipRange (pa n : Nat) : Option (Nat × Nat × Nat) :=
  match onChip pa, onChip (pa + n - 1) with
  | some a, some b => if n ≠ 0 ∧ a.1 = b.1 ∧ a.2.1 = b.2.1 then some a else none
  | _, _ => none

/-- A privileged read of the map: the bytes, or no data and the status MAP_RANGE (R111). -/
def State.mapRead (s : State) (pa n : Nat) : State :=
  match onChipRange pa n with
  | some (core, kind, off) =>
    let f := s.fresh
    { f.2 with output := s.output ++ [.map 0 ((List.range n).map fun i => s.chipByte core kind (off + i) (Config.onChipByte (pa + i) f.1))] }
  | none => { s with output := s.output ++ [.map 0x1B []] }

/-- A privileged write of the map: performed, or refused with MAP_RANGE (R111). What stages of a scratchpad now hold is acted on. -/
def State.mapWrite (s : State) (pa : Nat) (bs : List Byte) : State :=
  match onChipRange pa bs.length with
  | some (core, kind, off) =>
    let t := bs.zipIdx.foldl (fun s b => s.setChipByte core kind (off + b.2) b.1 (off ≤ (off + b.2) / 4 * 4 && (off + b.2) / 4 * 4 + 4 ≤ off + bs.length)) s
    State.settleIf { t with output := s.output ++ [.map 0 []] } (kind == 1)
  | none => { s with output := s.output ++ [.map 0x1B []] }

end Sys2Proof.Machine
end

