-- ==== Sys2Proof/Machine/Turns.lean ====
section
/-! DEFINITION. What moves next: the turns that the agenda can ask for, the passing of time, and the turn that is taken when the agenda asks for
none. -/

namespace Sys2Proof.Machine

/-! ### A core issues -/

/-- What a core's turn does (R9, R338): one instruction of one path, or what its clause entry or its fetch comes to. -/
def coreIssue (core : Nat) (s : State) : Host.Outcome State Fault Refusal :=
  if s.issued.contains core then .fault (.cannotOccur "CORE")
  else match s.pickPath core with
    | none => .fault (.cannotOccur "CORE")
    | some (_, .stop t) => done s t
    | some (k, .word (some i) _ t) => exec i (t.grant k)
    | some (k, .word none _ t) => exec .unassignedEncoding (t.grant k)

/-- Cores that hold a team. -/
def State.busyCores (s : State) : List Nat := s.teams.foldl (fun l t => if t.2.onCore then sins t.2.core l else l) []
/-- Cores that still have a path to issue in this cycle, ascending. -/
def State.readyCores (s : State) : List Nat := s.busyCores.filter s.coreReady

/-- Causes of death so far. -/
def State.kills (s : State) : List (Option (Nat × Nat × Nat)) := s.launches.map fun l => l.2.kill
/-- The members that the gang of a quad still expects. -/
def State.expected (s : State) (q : Nat) : Nat := match (s.quad q).gang with | some g => (g.members.filter (·.2)).length | none => 0
/-- What a core that is still to issue would do to the state has a property. -/
def State.coreWould (s : State) (core : Nat) (p : State → Bool) : Bool := match coreIssue core s with | .next t => p t | _ => false
/-- A core's turn ends a gang member of the quad without killing a launch. -/
def State.endsMember (s : State) (q core : Nat) : Bool := s.coreWould core fun t => t.kills == s.kills && t.expected q < s.expected q
/-- A core's turn completes a group of joins for the engine of a quad. -/
def State.fillsGroup (s : State) (q core : Nat) : Bool :=
  s.coreWould core fun t => (s.fullGroups q).length < (t.fullGroups q).length || ((s.quad q).gang.isNone && (t.quad q).gang.isSome)

/-- The core whose arrival completed the gang that a turn formed on a quad: of the last of its joins that waited before, or of the turn itself
(`self`). -/
def State.formedBy (s : State) (self : Option Nat) (q : Nat) (g : Gang) : Nat :=
  let js := (s.quad q).joins.filter fun j => g.members.any fun m => m.1 == j.w
  match self, js.getLast? with
  | some c, some j => if js.length < g.members.length then c else s.coreOf j.w.teamRef
  | some c, none => c
  | none, some j => s.coreOf j.w.teamRef
  | none, none => 0

/-- A turn's gang forms in order: of the arrivals that compete for a free engine in one cycle the one from the lowest core forms first (R299). -/
def State.gangsInTurn (s : State) (self : Option Nat) (t : State) : Bool :=
  t.quads.all fun e =>
    match e.2.gang with
    | some g => 768 ≤ e.1 || (match (s.quad e.1).gang with | some h => h.members.map (·.1) == g.members.map (·.1) | none => false) ||
        !(s.readyCores.any fun c => quadOf c == e.1 && self != some c && Nat.blt c (s.formedBy self e.1 g) && s.fillsGroup e.1 c)
    | none => true

/-- Where a kill has its cause: a core, and instructions of waves by their places in the order of issue. -/
structure Cause where
  core : Nat
  instrs : List (WaveRef × Nat)
  deriving DecidableEq, Repr
/-- The cause of a turn's kill, where it lies on a core: a copy's on the first core of its cluster, a quad's on its first, that of a fenced cluster on its first,
that of a restored cohort on the first that is given (DESIGN CHOICE, log entry 69: the rule orders cores only). -/
def Turn.cause (s : State) : Turn → Option Cause :=
  let of := fun (w : WaveRef) (n : Nat) => some { core := s.coreOf w.teamRef, instrs := [(w, n)] : Cause }
  let on := fun (c : Nat) => some { core := c, instrs := [] : Cause }
  let park := fun (w : WaveRef) (p : Option Path) => of w (match p with | some p => s.parkNo w p | none => 0)
  let engine := fun (q : Nat) => some { core := 4 * s.quadAt q, instrs := match (s.quad q).ops with | o :: _ => o.members.map fun m => (m.1, m.2.1) | [] => [] : Cause }
  let copy := fun (cid : Nat) => (s.copies.find? (·.cid == cid)).map fun c => { core := 192 * c.cluster, instrs := if c.lid.isSome then [(c.w, c.op)] else [] : Cause }
  fun t => match t with
  | .core c => (match s.pickPath c with | some (k, _) => some { core := c, instrs := [(k.w, s.nextId)] } | none => on c)
  | .event (.parkTimeout (.slot w slot1)) => park w ((s.wave? w).bind fun v => if slot1 then v.slot1 else v.slot0)
  | .event (.parkTimeout (.berm w i)) => park w ((s.wave? w).bind fun v => v.spilled[i]?)
  | .event (.parkTimeout (.engine q)) => engine q
  | .event (.engineOpComplete q _) => engine q
  | .event (.bermSwap w) => on (s.coreOf w.teamRef)
  | .event (.loadReturn w op) => of w op
  | .event (.fbComplete w op) => of w op
  | .event (.ecComplete w op) => of w op
  | .event (.detOpEffect (.op w op)) => of w op
  | .event (.storeAck sid) => ((s.queue ++ s.buffer).find? (·.sid == sid)).map fun r => { core := s.coreOf r.w.teamRef, instrs := [(r.w, r.op)] }
  | .event (.teamSaveComplete t) => on (s.coreOf t)
  | .event (.teamRestore _ cores) => on (cores.headD 0)
  | .event (.teamPlace _ cores) => on (cores.headD 0)
  | .event (.copyAccept cid) => copy cid
  | .event (.copyArrival cid _) => copy cid
  | .perform w op _ => of w op
  | .logicError k u _ => on (match k with | 0 => u | 1 => 4 * u | _ => 192 * u)
  | _ => none

/-- What has passed its park limit is an earlier cause than a turn's: within one wave by the earlier instruction, else on a lower core, or on the same one
unless the turn is a timeout as well (R373). -/
def Late.first (x : Late) (t : Turn) (c : Cause) : Bool :=
  match c.instrs.find? fun e => e.1 == x.w with
  | some e => Nat.blt x.no e.2
  | none => Nat.blt x.core c.core || (x.core == c.core && match t with | .event (.parkTimeout _) => false | _ => true)

/-- Of the causes of a kill in one cycle the one on the lowest core is first: what must happen in the cycle on a lower core, an issue or a passed
park limit, comes before; within one wave the cause of the earlier instruction is first (R373). -/
def State.killsInTurn (s : State) (t : Turn) (u : State) : Bool :=
  u.kills == s.kills || match t.cause s with
    | some c => !(s.readyCores.any fun d => Nat.blt d c.core && s.coreWould d fun v => v.kills != s.kills) && !(s.late.any fun x => x.first t c)
    | none => true

/-- A park that has passed its limit is not released before its launch is killed (R26). -/
def State.lateInTurn (s u : State) : Bool :=
  s.late.all fun x => (u.late.any fun y => y.w == x.w && y.id == x.id && y.engine == x.engine) || match u.launch? x.w.lid with | some l => l.st == .killed || l.st == .closed | none => true

/-- The turns of a cycle are in order (R26, R299, R373); a core that completes a rendezvous at its sluice comes after those that end a member in the
cycle (R168). -/
def State.inTurn (s : State) (t : Turn) (u : State) : Bool :=
  s.killsInTurn t u && s.lateInTurn u && s.gangsInTurn (match t with | .core c => some c | _ => none) u &&
  match t with
  | .core c =>
    let q := quadOf c
    !((u.quad q).arrivals.length < (s.quad q).arrivals.length && u.expected q == s.expected q) ||
      !(s.readyCores.any fun d => d != c && quadOf d == q && s.endsMember q d)
  | _ => true

/-! ### Time passes -/

/-- One cycle, with ticks beyond those of the clock at its full rate. CYCLE of a wave, the ages of its paths and the times of
their parks stand from its team's halt on, while the save still runs: R238, R19 and R26 speak of resident and of saved out only (DESIGN CHOICE,
log entry 69). -/
def State.tick (s : State) (extra : Nat) : State :=
  let f := s.fabric.tick
  let f := { f with now := f.now + extra }
  let d := f.now - s.fabric.now
  let ready := s.device.phase == 6
  let waits := (s.quads.filter fun q => match q.2.ops with | o :: _ => o.stall.isSome || s.engineWaits q.1 | [] => false).map (·.1)
  let t := { s with
    device := { s.device with phaseTime := if s.device.phase < 6 then s.device.phaseTime + 64 + 5 * extra else s.device.phaseTime },
    cycles := s.cycles + 1, issued := [], loopWants := [], beat := 0, fabric := f,
    schedTick := if ready then s.schedTick else f.now / (10 * Config.ticksPerUs),
    ageTick := if ready then s.ageTick else f.now / (50 * Config.ticksPerUs),
    divHold := (s.divHold.map fun (p : Nat × Nat) => (p.1, p.2 - 1)).filter (fun p => p.2 ≠ 0),
    waves := s.waves.map fun (e : WaveRef × Wave) => if s.present e.1 then (e.1, e.2.tick d) else (e.1, e.2.settled),
    quads := s.quads.map fun (q : Nat × Quad) => if 768 ≤ q.1 && !s.orphaned q.1 then q else if waits.contains q.1 then
        (q.1, { q.2 with ops := match q.2.ops with | o :: os => { o with stalled := o.stalled + d } :: os | [] => [] })
      else (q.1, { q.2 with ops := match q.2.ops with | o :: os => { o with stalled := 0 } :: os | [] => [] }) }
  let u := { t with waves := t.waves.map fun (e : WaveRef × Wave) =>
    (e.1, { e.2 with slot0 := e.2.slot0.map t.pruneOwed, slot1 := e.2.slot1.map t.pruneOwed }) }
  u.noteBlocked

/-- A swap is due in a running wave, or the window of a `yield` on one of its paths is over (R23, R245). -/
def State.waveDue (s : State) (w : WaveRef) (v : Wave) : Bool :=
  s.running w && (((s.dueSwap w v).isSome && v.victim.isSome) || v.paths.any Path.windowOver)
/-- What the part does at a time of its own is still to be done: a path that has reached its swap threshold or passed the park limit, the end of a
`yield` window, a phase of bring-up past its limit, a held packet whose stamp has come, a port whose stall test has run out, an ageing or a decision of the queue scheduler core at a multiple of its
period, a slot that a queue has waited in for 100 µs, a written LOCKCLK at its boundary (R23, R26, R170, R245, R326, R394, R405, R410). Without power, or after it stopped on over-temperature, the part does none of it (R411). -/
def State.overdue (s : State) : Bool :=
  s.device.powered && !s.device.thermtrip &&
  ((s.device.phase < 6 && s.device.late) || (s.fabric.future.any fun f => f.stamp ≤ s.now) || !s.late.isEmpty || (s.waves.any fun e => s.waveDue e.1 e.2) ||
  (s.stallTimes.any fun t => Nat.ble t s.now) ||
  (s.device.phase == 6 && (s.ageingDue || s.waitDue || s.schedTick < s.now / (10 * Config.ticksPerUs) ||
    match s.device.lockNext with | some (_, t) => t ≤ s.now | none => false)))
/-- The times of their own that ticks are not to pass: stamps of held packets, the next decision and the next ageing of the queue scheduler core, the ends of its
queues' waits in their slots, the ends of the ports' stall tests, the boundary of a written LOCKCLK (R170, R326, R394, R410). -/
def State.ownTimes (s : State) : List Nat :=
  s.fabric.future.map (·.stamp) ++ s.stallTimes ++
  ((s.queues.filter fun p => p.2.st == .waiting && p.2.slot.isSome).map fun p => p.2.waitSince + 100 * Config.ticksPerUs) ++ [10 * Config.ticksPerUs * (s.schedTick + 1), 50 * Config.ticksPerUs * (s.ageTick + 1)] ++
  (match s.device.lockNext with | some (_, t) => [t] | none => [])
/-- Extra ticks would pass a time of the part's own, or a cycle would pass the time by which a wheel entry fires (R343). -/
def State.passes (s : State) (extra : Nat) : Bool :=
  (extra != 0 && s.ownTimes.any fun t => t ≤ s.now + extra) || s.wheel.any fun e => e.time + 1024 < (s.tick extra).now

/-- A number of cycles pass; none when a core would have issued in one of them, or what is due at its time would be left behind. The first takes
the extra ticks. -/
def State.elapse : Nat → Nat → State → Option State
  | 0, _, s => some s
  | n + 1, extra, s =>
    if !s.readyCores.isEmpty || s.overdue || (s.device.phase == 6 && !s.device.thermtrip && s.passes extra) then none else State.elapse n 0 (s.tick extra)

/-! ### Errors that the part detects (R374, R376, R378) -/

/-- A unit of 32 bytes of device memory: its error lasts, or was soft. -/
def State.memError (s : State) (unit : Nat) (lasting : Bool) : State :=
  if lasting then { s with lasting := sins unit s.lasting } else s.countError 1 (unit * 32 / 2 ^ 36) 1

/-- A half of a lane register (half 2l + h of its row). -/
def State.regError (s : State) (w : WaveRef) (v half : Nat) (lasting : Bool) : State :=
  let s := s.countError 0 (s.coreOf w.teamRef) (if lasting then 2 else 1)
  if lasting then s.modWave w fun x => x.setV v { (x.vreg v) with poison := (x.vreg v).poison ||| (1#64 <<< half) } else s

/-- A half of a granule's row on chip (R58, R374). -/
def State.rowError (s : State) (gid half : Nat) (lasting : Bool) : Option State :=
  match s.granules.find? fun g => g.gid == gid with
  | some g => (match g.core with
    | some c =>
      let s := s.countError 0 c (if lasting then 2 else 1)
      some (if lasting then { s with granules := s.granules.map fun (h : Granule) =>
        if h.gid == gid then { h with row := { h.row with poison := h.row.poison ||| (1#64 <<< half) } } else h } else s)
    | none => none)
  | none => none

/-- An aligned doubleword of a scratchpad. -/
def State.spadError (s : State) (t : TeamRef) (dword : Nat) (lasting : Bool) : State :=
  let s := s.countError 0 (s.coreOf t) (if lasting then 2 else 1)
  if lasting then s.modTeam t fun k => { k with spoison := sunion [2 * dword, 2 * dword + 1] k.spoison } else s

/-- Cores of a unit that can be fenced: 0 a core, 1 a quad, 2 a cluster. -/
def unitHolds (kind unit core : Nat) : Bool :=
  match kind with | 0 => core == unit | 1 => quadOf core == unit | _ => clusterOf core == unit

/-- A lasting error in a unit's logic: the unit is fenced, the launch that found it is killed, the teams of others are saved (R378). -/
def State.logicError (s : State) (kind unit lid : Nat) : State :=
  if kind = 1 then
    let off := match (s.quad unit).ops with
      | o :: _ => (match o.members with | m :: _ => if m.1.lid == lid then m.2.2 else 0 | [] => 0)
      | [] => 0
    s.fenceQuad unit lid off
  else
    let d := s.device
    let d := if kind = 0 then { d with fencedCores := sins unit d.fencedCores } else { d with fencedClusters := sins unit d.fencedClusters }
    let s := State.countError { s with device := d } 0 (if kind = 0 then unit else 192 * unit) 2
    (s.killLaunch lid 0x18 0 0).saveOthers lid (unitHolds kind unit)

/-! ### The turns -/

/-- A turn that answers a state only under a condition. -/
def turnOf (name : String) (s : State) (o : Option State) : Host.Outcome State Fault Refusal :=
  match o with | some t => done s t | none => .fault (.cannotOccur name)

/-- Turns by which the part goes on in a state without power, or after it stopped on over-temperature (R405, R411). -/
def Turn.wakes (s : State) : Turn → Bool
  | .elapse .. => true
  | .event .powerOn => true
  | .event .powerOff => true
  | .event .devreset => s.device.powered
  | .remote .. => true
  | _ => false

/-- How far in its cycle a turn belongs: a copy's arrival comes before the issues of its cycle (R102), retirements, seals, the start of a tenant
reset and the end of a context after them (R325), and placements, PREEMPT and the wheel after those (R62, R351, R385). Of the fabric, an excision comes before an arrival and that
before the stall test (R404); of the package, a phase's end before a write, and a power excursion before LOCKCLK changes (R412). -/
def Turn.beat : Turn → Option Nat
  | .event (.copyArrival ..) => some 0
  | .event (.portExcise ..) => some 0
  | .event (.bringupPhaseComplete _) => some 0
  | .event .powerExcursion => some 0
  | .core _ => some 1
  | .event (.orderedPacketArrival ..) => some 1
  | .event (.beaconArrival ..) => some 1
  | .event (.teamSeal _) => some 2
  | .event (.launchRetire _) => some 2
  | .event (.contextDestroy ..) => some 2
  | .event (.tenantReset ..) => some 2
  | .event (.mgmtRegisterWrite _ off _) => some (match mgmtReg off.toNat with | some (.port ..) => 0 | _ => 2)
  | .event (.portStall _) => some 2
  | .event .lockclkApply => some 3
  | .event (.teamPlace ..) => some 3
  | .event (.teamRestore ..) => some 3
  | .event (.preempt _) => some 3
  | .event (.wheelFire _) => some 3
  | _ => none

/-- The cycle has not come past the turn's place in it, and no core is still to issue before what follows the issues. -/
def State.inBeat (s : State) (t : Turn) : Bool :=
  match t.beat with
  | some b => s.beat ≤ b && (b < 2 || s.readyCores.isEmpty)
  | none => true

/-- The outcome of a turn at its place in the cycle; what the on-chip map wrote to storage that is now taken is gone, and a loop buffer that the turn has released
goes to a wave whose `loop` found none in the cycle. -/
def State.paced (s : State) (t : Turn) (o : Host.Outcome State Fault Refusal) : Host.Outcome State Fault Refusal :=
  if s.inBeat t then
    match o with
    | .next u => if s.inTurn t u then .next { u.settleChip.grantLoops with beat := t.beat.getD u.beat } else .fault (.cannotOccur "ORDER")
    | o => o
  else .fault (.cannotOccur "ORDER")

/-- What a turn does. -/
def turnEffect (t : Turn) (s : State) : Host.Outcome State Fault Refusal :=
  match t with
  | .core c => coreIssue c s
  | .event i => exec i s
  | .elapse n extra => turnOf "ELAPSE" s (if n = 0 || (extra ≠ 0 && s.device.lockclk) then none else s.elapse n extra)
  | .drain sid => turnOf "DRAIN" s ((s.queue.find? fun r => r.sid == sid && s.canDrain r).map s.drainStore)
  | .enter sid => turnOf "ENTER" s ((s.queue.find? fun r => r.sid == sid && s.canEnter r).map s.enterStore)
  | .perform w op i => turnOf "PERFORM" s (match (s.wave? w).bind fun v => v.pend? op with
      | some p => if s.canPerform w p i then some ((s.perform w p i).settleIf p.onSpad) else none
      | none => none)
  | .cacheFill c a => turnOf "CACHE_FILL" s (if c < Config.cores && isDevice a then some (s.fillCache c a) else none)
  | .cacheDrop c a => done s { s with cache := tdel (c, a / 8) s.cache }
  | .tlbFill oc u c va => turnOf "TLB_FILL" s (if va < 2 ^ 52 && u < (if oc then Config.cores else Config.clusters) && (match s.ctx? c with | some k => k.en | none => false) then
      some (s.tlbFill oc u c va) else none)
  | .walkFill k c lvl va => turnOf "WALK_FILL" s (if k < Config.clusters && va < 2 ^ 52 && (match s.ctx? c with | some x => x.en | none => false) then
      s.walkFill k c (min lvl 2) va else none)
  | .walkDrop e => done s { s with walks := s.walks.filter (· ≠ e) }
  | .tlbDrop e => done s { s with tlb := s.tlb.filter (· ≠ e) }
  | .signal gid => turnOf "SIGNAL" s (match s.signals.find? fun g => g.gid == gid && s.released g.w g.op 3 with
      | some g => some (State.signal { s with signals := s.signals.filter (·.gid ≠ gid) } g.tenant g.ev)
      | none => none)
  | .fenceMet w id => turnOf "FENCE" s (match (s.wave? w).bind fun v => v.fences.find? (·.id == id) with
      | some f => if s.fenceReady w f then some (s.settleFence w f) else none
      | none => none)
  | .invokeTaken => turnOf "INVOKE_TAKEN" s s.takeInvoke
  | .copyCount cid => turnOf "COPY_COUNT" s (match s.copies.find? fun c => c.cid == cid && !c.uncounted.isEmpty with
      | some c => let t := s.copyCount c; if t == s then none else some t
      | none => none)
  | .memError u l => turnOf "ERROR" s (if isDevice (u * 32) then some (s.memError u l) else none)
  | .regError w v h l => turnOf "ERROR" s (if s.present w && h < 64 then some (s.regError w v h l) else none)
  | .spadError t d l => turnOf "ERROR" s (if (s.team? t).any Team.onCore then some (s.spadError t d l) else none)
  | .logicError k u lid => turnOf "ERROR" s
      (if k ≤ 2 && (s.teams.any fun t => t.1.lid == lid && t.2.onCore && unitHolds k u t.2.core) then some (s.logicError k u lid) else none)
  | .corrected k u => turnOf "ERROR" s (if k ≤ 3 && (k != 0 || u < 3072) && (k != 1 || u < 8) && (k != 2 || u < 16) && (k != 3 || u == 0) then
      some (s.countError k u 0) else none)
  | .rowError g h l => turnOf "ERROR" s (if h < 64 then s.rowError g h l else none)
  | .hubError l => done s (s.countError 3 0 (if l then 2 else 1))
  | .remoteRefuses n f on => turnOf "REMOTE" s (if n = s.fabric.node then none else
      some { s with fabric := { s.fabric with refuses := if on then (n, f) :: s.fabric.refuses.filter (· ≠ (n, f)) else s.fabric.refuses.filter (· ≠ (n, f)) } })
  | .feeds p m => turnOf "ROUTE" s (if p < 16 then some (s.modPort p fun q => { q with feeds := m }) else none)
  | .linkAck p => turnOf "LINK_ACK" s (s.linkAck p)
  | .badHeader p h => turnOf "BAD_HEADER" s (s.discardHeader p h)
  | .mapRead pa n => done s (s.mapRead pa n)
  | .mapWrite pa bs => done s (s.mapWrite pa bs)
  | .timingInput on => done s { s with fabric := { s.fabric with timing := on } }
  | .remote n a v => turnOf "REMOTE" s (if n = s.fabric.node then none else
      some { s with nodes := tput n (mwrite a v ((tget n s.nodes).getD [])) s.nodes })
  | .remoteHandle h v => turnOf "REMOTE" s (if handleHome (BitVec.ofNat 64 h) = s.fabric.node then none else
      some (State.wakeHandles { s with fabric := { s.fabric with remoteHandles := tput h v s.fabric.remoteHandles } }))
  | .route n p => turnOf "ROUTE" s (match p with
      | some p => if p < 16 then some { s with fabric := { s.fabric with
          routes := tput n (p :: ((tget n s.fabric.routes).getD []).filter (· ≠ p)) s.fabric.routes } } else none
      | none => some { s with fabric := { s.fabric with routes := tdel n s.fabric.routes } })
  | .badPacket slot => turnOf "BAD_PACKET" s (s.meetBadPacket slot)
  | .resolveDone pid => turnOf "RESOLVE_DONE" s (s.completeResolve pid)
  | .detSave lid => turnOf "DET_SAVE" s (s.detSave lid)
  | .resetDone t => turnOf "RESET_DONE" s (s.endReset t)

/-- One turn. -/
def runTurn (t : Turn) (s : State) : Host.Outcome State Fault Refusal :=
  if (!s.device.powered || s.device.thermtrip) && !t.wakes s then .fault (.cannotOccur "STOPPED")
  else s.paced t (turnEffect t s)

/-! ### The turn taken when the agenda asks for none -/

/-- The command that a slot holds, as a step. -/
def Front.step (f : Front) : Option Turn :=
  let sl := BitVec.ofNat 6 f.slot
  match f.op with
  | 1 => some (.event (.launch sl)) | 2 => some (.event (.launchIndirect sl)) | 3 => some (.event (.eventSignal sl))
  | 4 => some (.event (.eventWait sl)) | 5 => some (.event (.eventAt sl)) | 6 => some (.event (.copy sl))
  | 7 => some (.event (.estateDrop sl)) | 8 => some (.event (.invoke sl)) | 9 => some (.event (.complete sl))
  | 0x0A => some (.event (.preempt sl))
  | 0x0B => some (.event (if f.kill then .faultResolvedKill sl else if f.entry == 0 then .faultResolvedInvalidate sl else .faultResolved sl))
  | 0x0C => (match f.action with
      | 0 => some (.event (.queueControlHalt sl)) | 1 => some (.event (.queueControlResume sl))
      | 2 => some (.event (.queueControlDiscard sl)) | 3 => some (.event (.queueControlSetPrio sl)) | _ => some (.badPacket f.slot))
  | _ => some (.badPacket f.slot)

/-- Steps that concern a wave. -/
def waveTurns (w : WaveRef) (v : Wave) : List Turn :=
  v.pend.flatMap (fun p => [.event (.loadReturn w p.id), .event (.sfuResult w p.id), .event (.xlResult w p.id), .event (.detOpEffect (.op w p.id)),
    .event (.ecComplete w p.id), .event (.fbComplete w p.id)]) ++
  v.fences.map (fun f => .fenceMet w f.id) ++
  [.event (.bermSwap w), .event (.yieldWindowEnd w false), .event (.yieldWindowEnd w true), .event (.parkTimeout (.slot w false)),
   .event (.parkTimeout (.slot w true))] ++
  (List.range v.spilled.length).map fun i => .event (.parkTimeout (.berm w i))

/-- Steps that concern a team. -/
def teamTurns (t : TeamRef) (k : Team) : List Turn :=
  k.bars.flatMap (fun b => if b.cohort then
      [.event (.barrierPhaseComplete (.cohort t.lid k.cohort (BitVec.ofNat 4 b.n))), .event (.detOpEffect (.phase t.lid k.cohort (BitVec.ofNat 4 b.n)))]
    else [.event (.barrierPhaseComplete (.team t (BitVec.ofNat 4 b.n)))]) ++
  [.event (.teamSaveComplete t), .event (.teamSeal t)]

/-- The cores on which a unit of a launch is tried: each core that its tenant has for a single team, the first of a cluster that are free for
a cohort, full or short. -/
def State.coreChoices (s : State) (lid : Nat) (l : Launch) : List (List Nat) :=
  let tn := s.tenantOfCtx l.ctx
  let ks := (List.range Config.clusters).filter fun k => match s.tenant? tn with | some t => t.clusters.getLsbD k | none => false
  let coresOf := fun k => (List.range Config.coresPerCluster).map (192 * k + ·)
  if l.hdr.cohort = 0 then (ks.flatMap coresOf).map fun c => [c]
  else
    let last := l.nteams % l.hdr.cohort
    ks.flatMap fun k =>
      let free := (coresOf k).filter fun c => s.roomFor lid l c Config.rowsPerCore
      free.take l.hdr.cohort :: if last = 0 then [] else [free.take last]

/-- The cores of a cluster on which a saved unit is tried, when it has them: for each gang the first quad whose engine is free and that has cores
enough for its teams, for the other teams the first cores that are left (R383). -/
def State.restoreChoice (s : State) (lid : Nat) (l : Launch) (ts : List TeamRef) (k : Nat) : Option (List Nat) :=
  let free := ((List.range Config.coresPerCluster).map (192 * k + ·)).filter fun c => s.roomFor lid l c (s.movableBut c fun _ => false).length
  let owners := ts.filter fun o => !(s.savedWith o).isEmpty
  let owner := fun (t : TeamRef) => owners.find? fun o => (s.savedWith o).any fun w => w.teamRef == t
  let ofQuad := fun (q : Nat) => free.filter fun c => quadOf c == q
  let seats := owners.foldl (fun (a : List (TeamRef × Nat)) o =>
    let mates := ts.filter fun t => owner t == some o
    match (free.map quadOf).find? fun q => !(a.any fun x => quadOf x.2 == q) && (s.quad q).gang.isNone && (s.quad q).ops.isEmpty &&
        !s.device.fencedQuads.contains q && Nat.ble mates.length (ofQuad q).length with
    | some q => a ++ mates.zip (ofQuad q)
    | none => a) []
  let rest := free.filter fun c => !(seats.any fun x => x.2 == c)
  let seats := seats ++ (ts.filter fun t => (owner t).isNone).zip rest
  if ts.all fun t => seats.any fun x => x.1 == t then some (ts.filterMap fun t => (seats.find? fun x => x.1 == t).map (·.2)) else none

/-- Steps that concern a launch. -/
def State.launchTurns (s : State) (lid : Nat) (l : Launch) : List Turn :=
  [.event (.killRecordWrite lid), .event (.launchRetire lid), .detSave lid] ++
  (if l.st == .running && (s.unplaced lid l || s.restores lid l) then
    let t := BitVec.ofNat 4 (s.tenantOfCtx l.ctx)
    ((s.coreChoices lid l).map fun cs => .event (.teamPlace t cs)) ++
    (s.savedUnits lid l).flatMap fun ts => ((List.range Config.clusters).filterMap (s.restoreChoice lid l ts)).map fun cs => .event (.teamRestore ts cs)
   else [])

/-- Steps of the fabric. -/
def State.fabricTurns (s : State) : List Turn :=
  [.event .heldPacketInject, .event .weirDeliver, .invokeTaken] ++
  (s.fabric.culvertIn.take 1).map (fun p => .event (.culvertArrival p)) ++
  (List.range 16).flatMap fun p => let b := BitVec.ofNat 4 p
    [.linkAck p, .event (.routerForward b), .event (.beaconSend b), .event (.portStall b)]

/-- Steps of the front end and the queue scheduler core. -/
def State.queueTurns (s : State) : List Turn :=
  [.event .queueAgeing, .event .qschedDecision] ++
  (s.heldSlots none).flatMap (fun i => let b := BitVec.ofNat 6 i
    [.event (.queueSave b), .event (.queueLoadComplete b), .event (.eventWaitSlotRelease b), .event (.launch b), .event (.launchIndirect b)] ++
    (match s.front i with | some f => f.step.toList | none => [])) ++
  s.packets.flatMap fun p => [.event (.prologueRepeat p.pid), .resolveDone p.pid]

/-- Every step that the part could take by itself, without time passing: those that carry a kill or a fault first. -/
def State.ownTurns (s : State) : List Turn :=
  s.tenants.flatMap (fun t => [.event (.faultEntryWrite (BitVec.ofNat 4 t.1)), .resetDone t.1]) ++
  s.wheel.map (fun e => .event (.wheelFire e.eid)) ++ s.signals.map (fun g => .signal g.gid) ++
  s.waiters.map (fun a => .event (.spillwayRelease (BitVec.ofNat 4 a.tenant) a.wid)) ++
  (s.queue ++ s.buffer).map (fun r => .event (.storeAck r.sid)) ++ s.waves.flatMap (fun p => waveTurns p.1 p.2) ++
  s.takes.map (fun t => .event (.ticketAdvance t.w.lid (BitVec.ofNat 3 t.k))) ++
  s.copies.flatMap (fun c => .event (.copyAccept c.cid) :: [.copyCount c.cid]) ++
  s.quads.flatMap (fun q => [.event (.engineOpComplete q.1 .clean), .event (.parkTimeout (.engine q.1))]) ++
  s.teams.flatMap (fun t => teamTurns t.1 t.2) ++ (s.waves.filter fun p => !p.2.born).map (fun p => .event (.waveBirth p.1)) ++
  s.queueTurns ++ s.launches.flatMap (fun p => s.launchTurns p.1 p.2) ++ s.fabricTurns ++
  .event .lockclkApply :: ((List.range 0x39).filter fun c => s.device.phase < 6 && s.device.late && s.lateCode c).map fun c =>
    .event (.bringupPhaseTimeout (BitVec.ofNat 8 c))

/-- The first of several turns that the part can take. -/
def firstTurn (s : State) : List Turn → Option (Host.Outcome State Fault Refusal)
  | [] => none
  | t :: ts => match runTurn t s with
    | .fault _ => firstTurn s ts
    | o => some o

/-- Arrivals of copies. -/
def State.arrivalTurns (s : State) : List Turn := s.copies.flatMap fun c => c.pieces.map fun i => .event (.copyArrival c.cid i)

/-- The part by itself: a copy arrives, else a core that may issue does, the lowest first, else the first step that can be taken is, else a cycle
passes (log entry 5). -/
def ownTurn (s : State) : Host.Outcome State Fault Refusal :=
  match firstTurn s (s.arrivalTurns ++ s.readyCores.map .core ++ s.ownTurns) with
  | some o => o
  | none => runTurn (.elapse 1 0) s

end Sys2Proof.Machine
end

