-- ==== Sys2Proof/Safety.lean ====
section
/-! DEFINITION. What counts as a sound state of the part, and what it is for an instruction word to issue and to complete: the terms in which
the statements speak. -/

namespace Sys2Proof.Machine

/-- Device memory is in its canonical form, and every byte written in the last step has been committed. -/
def State.sound (s : State) : Bool := mwf s.mem && s.wlog.isEmpty

/-- The path `k` is at its issue in `s` with the word `i`, and the checks of R191 and the holds of R338 let the word go: the path has
entered its clause, a long form lies in it, its opcode, fields and class are right, no counter, fence, acquire or copy holds it, no register that it names awaits a result, and it
consumes no poison. -/
structure Issuing (i : Instr) (s : State) (k : Site) : Prop where
  site : s.site? = some k
  free : k.free s = true
  inside : k.p.inClause = true
  legal : decodeCheck i k = none
  unheld : issueHeld i k s = false
  settled : (touches i).any k.v.outstanding = false
  clean : k.consumesPoison i = false
  committed : s.wlog = []

/-- Where the issuing path stands after a word that goes on, and the wave with its loop counters and records: at the end of the path's clause by
the loop-end test (R190, R218). `u` is the wave after the word's own effect. -/
def Site.next (k : Site) (i : Instr) (u : Wave) : Nat × Wave :=
  if k.p.atLast i then Wave.loopEnd 3 u k.p.hdr k.p.fall else (k.p.pc + 4 * i.words, u)

/-- A wave as every word leaves it: ICOUNT counts the word unless it is a replay (R238), and its switch marker holds the wave (R192). -/
def Site.counted (k : Site) (x : Bool) (u : Wave) : Wave :=
  { u with icount := k.v.icount + 1, switchWait := x }

/-- The operations that a wave has outstanding. -/
def State.pendOf (s : State) (w : WaveRef) : List Pend := match s.wave? w with | some v => v.pend | none => []

/-- What a wave may have seen of stores on their way (R117). -/
def State.seenOf (s : State) (w : WaveRef) : Tbl Nat Nat := match s.wave? w with | some v => v.seen | none => []

/-- The operation that a word of the path `k` leaves outstanding: its counter, the registers it will write, what it is (R188, R194). -/
def Site.posted (k : Site) (s : State) (ctr : Nat) (dests : List Reg) (kind : PendKind) : Pend :=
  { id := s.nextId, ctr := ctr, off := k.p.pc, dests := dests, kind := kind, clk := k.v.lclk, held := false }

/-- A word of the path `k` has completed in `s`, and `t` is the state after it. The issuing wave is `u` but for what every word does (`counted`); the
path's age is zero (R19). The path is `q`, at its next place, or at `dest` when
the word jumps there. Outside the wave, `t` is `b`; memory is as it was; no other wave and no other path has changed. The core has used its cycle.
A loop buffer may be released at the end of a clause or by a jump (R196). -/
structure WordDone (x : Bool) (i : Instr) (s : State) (k : Site) (b : State) (u : Wave) (q : Path) (dest : Option Nat) (t : State) : Prop where
  rest : t = { b with mem := s.mem, wlog := [], cur := none, issued := s.coreOf k.w.teamRef :: s.issued,
                      waves := t.waves, loopBufs := t.loopBufs }
  others : ∀ w, w ≠ k.w → t.wave? w = s.wave? w
  wave : ∃ v p, t.wave? k.w = some v ∧ v.path? k.pid = some p ∧
    v = { k.counted x u with slot0 := v.slot0, slot1 := v.slot1, spilled := v.spilled, lc := v.lc, loops := v.loops,
                             bufs := v.bufs } ∧
    (∀ n, n ≠ k.pid → v.path? n = u.path? n) ∧
    p = { q with age := 0, pc := p.pc, inClause := p.inClause } ∧
    match dest with
    | none => p.pc = (k.next i u).1 ∧ v.lc = (k.next i u).2.lc ∧ v.loops = (k.next i u).2.loops ∧
        p.inClause = (!k.p.atLast i) ∧ (k.p.atLast i = false → v.bufs = u.bufs ∧ t.loopBufs = b.loopBufs)
    | some a => p.pc = a ∧ p.inClause = false ∧ v.lc = u.lc ∧ v.loops = u.loops

/-- The word `i` of the path `k` answers a next state in which it has completed, as `WordDone` says. -/
def Completes (x : Bool) (i : Instr) (s : State) (k : Site) (b : State) (u : Wave) (q : Path) (dest : Option Nat) : Prop :=
  ∃ t, exec i s = .next t ∧ WordDone x i s k b u q dest t

/-- The step `i` kills a launch: its first cause of death is the status, the image offset and the code (R373, R417). -/
def KillsLaunch (i : Instr) (s : State) (lid status off code : Nat) : Prop :=
  ∃ t, exec i s = .next t ∧ (t.launch? lid).map (fun l => (l.st, l.kill)) = some (.killed, some (status, off, code))

/-- These bits are no instruction, and a launch whose issuing path meets them is killed with ILLOP at their own offset (R203). -/
def RaisesIllop (w : Nat) : Prop :=
  (∀ y, decodeWords w y = none) ∧ ∀ (s : State) (k : Site) (z : State), s.sound = true → s.site? = some k → k.free s = true →
    s.wordAt k = .word none w z → KillsLaunch .unassignedEncoding s k.w.lid 8 k.p.pc 0

/-- The word `i` of the path `k` kills its launch. -/
def Kills (i : Instr) (s : State) (k : Site) (status off code : Nat) : Prop := KillsLaunch i s k.w.lid status off code

/-- The outstanding operation `op` of a wave ends: its registers are written, its flags raised, its counter falls; nothing else of the part changes. -/
def Delivers (i : Instr) (s : State) (w : WaveRef) (op : Nat) (ws : List RegWrite) (flags : Nat) : Prop :=
  ∀ v, s.wave? w = some v → ∃ t, exec i s = .next t ∧ t = { s with waves := t.waves } ∧ (∀ z, z ≠ w → t.wave? z = s.wave? z) ∧
    t.wave? w = some (((v.applyWrites ws).raise flags).endPend op)

/-- Of device memory, at most `n` bytes from `a` up have changed. -/
def OnlyBytes (s t : State) (a n : Nat) : Prop := ∀ b, (b < a ∨ a + n ≤ b) → mread b t.mem = mread b s.mem

/-- The step `i` answers a next state of which `P` holds. -/
def Answers (i : Instr) (s : State) (P : State → Prop) : Prop := ∃ t, exec i s = .next t ∧ P t

/-- No path is parked, no memory instruction has lanes that stay back, no stage has been armed or waited for. -/
def State.quiet (s : State) : Prop :=
  (∀ e ∈ s.waves, (∀ p ∈ e.2.paths, p.park = .none) ∧ ∀ p ∈ e.2.pend, ∀ r todo ps n, p.kind = .mem r todo ps n → todo = []) ∧
  ∀ e ∈ s.teams, e.2.stages = []

/-- The word `i` ends the active lanes of its path `k` (R21, R32, R36, R37, R56). While live lanes are left, the wave goes on with them, and no register
changes. When none is left the wave ends: it has no path, and its loads are discarded; while nothing is parked that the team's retirement would let go,
each register of a slot with a mark becomes one granule of the estate, with the values that the register held, the one of the lowest slot that marks it
in place; and where the reserve has no room for what is to be formed, the launch is killed with ESTATE_FULL. -/
def EndsLanes (i : Instr) (s : State) (k : Site) : Prop :=
  let gone := k.v.exited ||| k.p.mask
  let bequeathed := (bequests { k.v with exited := gone }).length
  let charged := (s.granules.filter (·.ctx = k.l.ctx)).length
  (k.v.live &&& ~~~gone ≠ 0 → ∃ t v, exec i s = .next t ∧ t.wave? k.w = some v ∧ t.mem = s.mem ∧ (∀ w, w ≠ k.w → t.wave? w = s.wave? w) ∧
    v.exited = gone ∧ v.ended = k.v.ended ∧ v.sregs = k.v.sregs ∧ v.masks = k.v.masks ∧ v.vregs = k.v.vregs ∧ v.pend = k.v.pend ∧ v.ctr = k.v.ctr) ∧
  (k.v.live &&& ~~~gone = 0 → (bequeathed = 0 ∨ ∃ c, s.ctx? k.l.ctx = some c ∧ charged + bequeathed ≤ c.ressize / 288) → ∃ t v,
    exec i s = .next t ∧ t.wave? k.w = some v ∧ v.ended = true ∧ v.paths = [] ∧ v.pend.all Pend.survives = true ∧
    (s.quiet → v.exited = gone ∧ ∀ n m j, k.v.leave[n]? = some m → m.mask &&& gone &&& k.v.live ≠ 0 → j < m.count → ∃ g ∈ t.granules,
      g.ctx = k.l.ctx ∧ g.lid = k.w.lid ∧ g.team = k.w.team ∧ g.tag = k.l.hdr.tags.getD n 0 ∧ g.regidx = j ∧ g.regcnt = m.count - 1 ∧
      g.keybase = k.w.team * (32 * k.l.hdr.waves) + 32 * k.w.wave ∧ g.valid = m.mask &&& gone &&& k.v.live ∧ g.row = k.v.vreg (m.first + j) ∧
      g.isSealed = false ∧ g.heldBy = [] ∧
      ((∀ n' m', n' < n → k.v.leave[n']? = some m' → m'.mask &&& gone &&& k.v.live ≠ 0 → m.first + j < m'.first ∨ m'.first + m'.count ≤ m.first + j) →
        g.core = some (s.coreOf k.w.teamRef)))) ∧
  (k.v.live &&& ~~~gone = 0 → bequeathed ≠ 0 → (∀ c, s.ctx? k.l.ctx = some c → c.ressize / 288 < charged + bequeathed) → Kills i s k 0x12 k.p.pc 0)

/-- Every wave keeps its registers. -/
def KeepRegs (s t : State) : Prop :=
  ∀ z v, s.wave? z = some v → ∃ v', t.wave? z = some v' ∧ v'.sregs = v.sregs ∧ v'.masks = v.masks ∧ v'.vregs = v.vregs

/-- Device memory holds these bytes from `a` up. -/
def Holds (t : State) (a : Nat) (bs : List Byte) : Prop := ∀ j x, bs[j]? = some x → mread (a + j) t.mem = x

/-- Of device memory, exactly these bytes from `a` up have been written. -/
def Wrote (s t : State) (a : Nat) (bs : List Byte) : Prop := Holds t a bs ∧ OnlyBytes s t a bs.length

/-- The slot's lane takes a well-formed packet whose turn it is, with no other packet of any queue outstanding and no
lasting error in memory (R317, R318, R324). -/
structure Takes (slot : BitVec 6) (s : State) (f : Front) : Prop where
  front : s.front slot.toNat = some f
  turn : s.myTurn f = true
  good : s.badForm f = false
  queue : s.queue? f.q = some f.k
  alone : s.packets = []
  fresh : s.lasting = []
  sound : s.sound = true

/-- HEAD has passed the packet (R332). -/
def Front.passed (f : Front) (t : State) : Prop := (t.queue? f.q).map (·.head) = some (f.k.head + f.len + 1)

/-- No byte of device memory is poisoned, and no frame is marked (R374 to R377). -/
def State.unpoisoned (s : State) : Prop := s.mempoison = [] ∧ s.lasting = [] ∧ s.device.frames = []

/-- No store to a scratchpad is on its way. -/
def State.noStores (s : State) : Prop := s.spadStores = false

/-! ### Claims (R41, R49) -/

/-- What a claim writes (R49): in each register, for a key that is present, the lane of that register of its estate with its poison, zero beyond the estate's registers; zero for an
absent key; and the mask of the lanes whose keys are present. -/
def State.claimWrites (s : State) (ctx m d n tag : Nat) (keys : List (Nat × Nat)) : List RegWrite :=
  (List.range n).map (fun j => .v (d + j) (keys.map fun q => match s.estate? ctx tag q.2 0, s.estate? ctx tag q.2 j with
    | some _, some g => (q.1, g.row.lane (q.2 % 32), g.row.pois (q.2 % 32))
    | _, _ => (q.1, 0, 0))) ++ [.m m (maskOf ((keys.filter fun q => s.keyPresent ctx tag q.2).map (·.1)))]

/-- The wave after a claim: an absent key raises ORPHAN. -/
def State.claimed (s : State) (ctx tag : Nat) (keys : List (Nat × Nat)) (v : Wave) : Wave :=
  if keys.all fun q => s.keyPresent ctx tag q.2 then v else v.raiseW wORPHAN

/-- The keys of a claim are absent after it, unless it keeps them, and every other key of every tag and context is as it was. -/
def Claimed (s t : State) (ctx tag : Nat) (keep : Bool) (keys : List (Nat × Nat)) : Prop :=
  (keep = true → t.granules = s.granules ∧ t.mem = s.mem) ∧ (keep = false → ∀ q ∈ keys, t.keyPresent ctx tag q.2 = false) ∧
  ∀ c g key, c ≠ ctx ∨ g ≠ tag ∨ key ∉ keys.map (·.2) → t.keyPresent c g key = s.keyPresent c g key

/-! ### What the float formats can hold (R63, R69, R73, R74) -/

/-- A power of two, as a rational number. -/
def twoPow (e : Int) : Rat := if 0 ≤ e then (2 ^ e.toNat : Nat) else 1 / ((2 ^ (-e).toNat : Nat) : Rat)

/-- The magnitude of a finite value. -/
def FV.mag : FV → Rat
  | .fin _ m e => (m : Rat) * twoPow e
  | _ => 0
/-- A finite value. -/
def FV.val (v : FV) : Rat := if v.neg? then -v.mag else v.mag
def FV.isFin : FV → Bool
  | .fin .. => true | _ => false

/-- The mode rounds values of a sign toward zero, or away from it. -/
def towardZero (rm : Nat) (neg : Bool) : Prop := rm = 1 ∨ (rm = 2 ∧ neg = true) ∨ (rm = 3 ∧ neg = false)
def awayFromZero (rm : Nat) (neg : Bool) : Prop := (rm = 2 ∧ neg = false) ∨ (rm = 3 ∧ neg = true)

/-- The pattern `r` of the format is the value of a sign and the magnitude `x`, rounded once under the mode to a finite value of the format (R69): to nearest with
ties to the even pattern, or to the next value on one side. -/
def RoundsTo (rm f : Nat) (neg : Bool) (x : Rat) (r : Nat) : Prop :=
  ∃ m e, fdecode f r = .fin neg m e ∧ ∀ b n k, fdecode f b = .fin false n k →
    let z := (FV.fin neg m e).mag
    let y := (FV.fin false n k).mag
    (rm = 0 → (y < z → y + z ≤ 2 * x ∧ (y + z = 2 * x → r % 2 = 0)) ∧ (z < y → 2 * x ≤ y + z ∧ (y + z = 2 * x → r % 2 = 0))) ∧
    (towardZero rm neg → z ≤ x ∧ (y ≤ x → y ≤ z)) ∧ (awayFromZero rm neg → x ≤ z ∧ (x ≤ y → z ≤ y))

/-- The magnitude, rounded with an unbounded exponent, is above the largest finite value of the format (R73). -/
def Overflows (rm f : Nat) (neg : Bool) (x : Rat) : Prop :=
  let top := (fdecode f (maxFinite f)).mag
  let step := top - (fdecode f (maxFinite f - 1)).mag
  (rm = 0 ∧ (top + step / 2 < x ∨ (top + step / 2 = x ∧ f ≠ 4))) ∨ (towardZero rm neg ∧ top + step ≤ x) ∨ (awayFromZero rm neg ∧ top < x)

/-- The magnitude, rounded with an unbounded exponent, is below the least normal value of the format (R73: tininess after rounding). -/
def Tiny (rm f : Nat) (neg : Bool) (x : Rat) : Prop :=
  let least := (fdecode f (2 ^ manBits f)).mag
  let step := least / ((2 ^ (manBits f + 1) : Nat) : Rat)
  (rm = 0 ∧ x < least - step / 2) ∨ (towardZero rm neg ∧ x < least) ∨ (awayFromZero rm neg ∧ x ≤ least - step)

/-- `r` and `inexact` are the magnitude `x` rounded to a whole number under the mode. -/
def RoundsToWhole (rm : Nat) (neg : Bool) (x : Rat) (r : Nat) (inexact : Bool) : Prop :=
  (inexact = true ↔ (r : Rat) ≠ x) ∧ (rm = 0 → (r : Rat) - x ≤ 1 / 2 ∧ x - r ≤ 1 / 2 ∧ ((r : Rat) - x = 1 / 2 ∨ x - r = 1 / 2 → r % 2 = 0)) ∧
  (towardZero rm neg → (r : Rat) ≤ x ∧ x < r + 1) ∧ (awayFromZero rm neg → x ≤ r ∧ (r : Rat) < x + 1)

/-! ### What the memory words ask for -/

/-- What a memory word asks for: its switch bit, its counter, whether its addresses are to be naturally aligned, the request and the lanes. -/
structure Asked where
  x : Bool
  ctr : Nat
  aligned : Bool
  r : MemReq
  qs : List LaneReq

/-- What `sld`, `sst`, `vld`, `vst`, `vldsp`, `vstsp`, `vldacq`, `vstrel` and `vatom` ask for (R231, R279, R280, R284, R286, R287, R290): a scalar access is
that of the lowest active lane, to s[A] plus the sign-extended constant; a lane's address is A + B, an atomic's A alone; the width is that of the type;
a scratchpad's scopes wider than the cluster act at cluster scope (R113). -/
def Site.asks (k : Site) : Instr → Option Asked :=
  let base : Bool → MemReq := fun x => { op := .load, sp := false, w := 8, fmt := 0, dst := none, acq := none, rel := none, remote := false, det := false, pid := k.pid, sw := x }
  let scalar := fun (a : BitVec 6) (i : BitVec 12) (v : Word) => (k.lanes.take 1).map fun l => ({ lane := l, addr := k.s a + i.signExtend 64, d0 := v, d1 := 0 } : LaneReq)
  let lanes := fun (a b : BitVec 7) (v : Nat → Word) => k.lanes.map fun l => ({ lane := l, addr := k.op64 a l + k.op64 b l, d0 := v l, d1 := 0 } : LaneReq)
  let row := fun (d : BitVec 7) (l : Nat) => (k.v.vreg d.toNat).lane l
  let scope := fun (sp : BitVec 1) (n : BitVec 3) => if sp = 1 ∧ 2 ≤ n.toNat then 1 else n.toNat
  fun
  | .sld x d a i => some ⟨x, 0, false, { base x with dst := some (.s d.toNat) }, scalar a i 0⟩
  | .sst x d a i => some ⟨x, 1, false, { base x with op := .store }, scalar a i (k.s d)⟩
  | .vld x t d a b => some ⟨x, 0, false, { base x with w := typeWidth t / 8, dst := some (.v d.toNat) }, lanes a b fun _ => 0⟩
  | .vst x t d a b => some ⟨x, 1, false, { base x with op := .store, w := typeWidth t / 8 }, lanes a b (row d)⟩
  | .vldsp x t d a b => some ⟨x, 0, false, { base x with sp := true, w := typeWidth t / 8, dst := some (.v d.toNat) }, lanes a b fun _ => 0⟩
  | .vstsp x t d a b => some ⟨x, 1, false, { base x with op := .store, sp := true, w := typeWidth t / 8 }, lanes a b (row d)⟩
  | .vldacq x t d a b n rem sp => some ⟨x, 0, true, { base x with
      sp := sp = 1, w := typeWidth t / 8, dst := some (.v d.toNat), acq := some (scope sp n), remote := rem = 1 }, lanes a b fun _ => 0⟩
  | .vstrel x t d a b n sp => some ⟨x, 1, true, { base x with op := .store, sp := sp = 1, w := typeWidth t / 8, rel := some (scope sp n) }, lanes a b (row d)⟩
  | .vatom x t d a b op ord n rem sp det => some ⟨x, 0, true, { base x with
      op := .atom op, sp := sp = 1, w := typeWidth t / 8, fmt := (floatFormat t).getD 0, dst := some (.v d.toNat),
      acq := if ord.getLsbD 0 then some (scope sp n) else none, rel := if ord.getLsbD 1 then some (scope sp n) else none, remote := rem = 1, det := det = 1 },
      k.lanes.map fun l => { lane := l, addr := k.op64 a l, d0 := k.opT t b l, d1 := if op = 9 then (k.v.vreg (b.toNat + 1)).lane l else 0 }⟩
  | _ => none

/-- No lane's address breaks R92, nor the alignment that the word requires. -/
def Asked.sane (q : Asked) : Prop := q.qs.any (laneBad q.aligned q.r) = false ∧ (q.aligned = true → q.qs.any (laneMisaligned q.r) = false)

/-- Every lane starts: its pages are mapped, its lines present, nothing kills the launch. -/
def Asked.starts (q : Asked) (s : State) (k : Site) : Prop :=
  q.sane ∧ (s.startLanes k.w q.r q.qs).todo = [] ∧ (s.startLanes k.w q.r q.qs).kill = none

end Sys2Proof.Machine
end

