-- ==== Sys2Proof/WellFormed.lean ====
section
/-! DEFINITION. Well-formed instructions: instruction words whose every field the spec admits (R199 to R203). -/

namespace Sys2Proof

/-- An instruction word of the opcode map, as against a step of a unit, a command or an event. -/
def Instr.isWord (i : Instr) : Bool := !(encodeWords i).isEmpty

/-- A well-formed instruction: a word of the opcode map with every field admitted, whatever launch runs it. -/
def Instr.wf (i : Instr) : Bool := i.isWord && i.legal

end Sys2Proof
end

