-- ==== Sys2Proof/Certificates/Slice0/Obligations.lean ====
section
/-! DEFINITION. Statements about the part, by the numbered rules of the spec. -/

open Sys2Proof Sys2Proof.Machine

/-! ### Scalar instructions (R222 to R230) -/

/-- R225: the forms with a constant, majors 0x12 to 0x15, of class ALU from version 1: s[D] is s[A] op the sign-extended IMM12.
R223: sums, differences and bitwise functions of two scalar registers, or of one and the sign-extended 12-bit constant, modulo 2^64.
Only s[D] of the issuing wave changes.
R222, R223, R226: the count of a shift by register is bits [5:0] of B; a constant count is the field C. Left and right shifts bring in zeros;
`ssra` keeps the sign, as a division by a power of two that rounds down. -/
def Obligations.ScalarSumsShifts : Prop :=
  (∀ (x : Bool) (d a b : BitVec 6) (i : BitVec 12) (s : State) (k : Site),
    let res := fun (w : Instr) (v : Word) => Issuing w s k → Completes x w s k s (k.v.setS d.toNat v) k.p none
    res (.sadd x d a b) (k.s a + k.s b) ∧ res (.ssub x d a b) (k.s a - k.s b) ∧
    res (.sand x d a b) (k.s a &&& k.s b) ∧ res (.sor x d a b) (k.s a ||| k.s b) ∧ res (.sxor x d a b) (k.s a ^^^ k.s b) ∧
    res (.saddi x d a i) (k.s a + i.signExtend 64) ∧ res (.sandi x d a i) (k.s a &&& i.signExtend 64) ∧
    res (.sori x d a i) (k.s a ||| i.signExtend 64) ∧ res (.sxori x d a i) (k.s a ^^^ i.signExtend 64)) ∧
  (∀ (x : Bool) (d a : BitVec 6) (i : BitVec 12) (y : Nat),
    let coded := fun (major : Nat) (w : Instr) => decodeWords (sw x major + d.toNat * 2 ^ 18 + a.toNat * 2 ^ 12 + i.toNat) y = some w ∧ classOf w = 0 ∧ w.since = 1
    coded 0x12 (.saddi x d a i) ∧ coded 0x13 (.sandi x d a i) ∧ coded 0x14 (.sori x d a i) ∧ coded 0x15 (.sxori x d a i)) ∧
  (∀ (x : Bool) (d a b c : BitVec 6) (s : State) (k : Site),
    let res := fun (w : Instr) (v : Word) => Issuing w s k → Completes x w s k s (k.v.setS d.toNat v) k.p none
    let n := ((k.s b).extractLsb' 0 6).toNat
    res (.sshl x d a b) (BitVec.ofNat 64 ((k.s a).toNat * 2 ^ n)) ∧ res (.sshli x d a c) (BitVec.ofNat 64 ((k.s a).toNat * 2 ^ c.toNat)) ∧
    res (.sshr x d a b) (BitVec.ofNat 64 ((k.s a).toNat / 2 ^ n)) ∧ res (.sshri x d a c) (BitVec.ofNat 64 ((k.s a).toNat / 2 ^ c.toNat)) ∧
    res (.ssra x d a b) (BitVec.ofInt 64 ((k.s a).toInt / 2 ^ n)) ∧ res (.ssrai x d a c) (BitVec.ofInt 64 ((k.s a).toInt / 2 ^ c.toNat)))

/-- R224: the low half of a product, and the high half of the signed and of the unsigned product.
R224: quotients truncate toward zero and remainders have the dividend's sign; a zero divisor gives a quotient of all ones and the dividend as remainder;
−2^63 ÷ −1 gives −2^63 with remainder 0. A division holds the core's issue slot for 40 cycles. -/
def Obligations.ScalarProductsDivisions : Prop :=
  (∀ (x : Bool) (d a b : BitVec 6) (s : State) (k : Site),
    let res := fun (w : Instr) (v : Word) => Issuing w s k → Completes x w s k s (k.v.setS d.toNat v) k.p none
    res (.smul x d a b) (BitVec.ofNat 64 ((k.s a).toNat * (k.s b).toNat)) ∧
    res (.smulh x d a b) (BitVec.ofInt 64 ((k.s a).toInt * (k.s b).toInt / 2 ^ 64)) ∧
    res (.smulhw x d a b) (BitVec.ofNat 64 ((k.s a).toNat * (k.s b).toNat / 2 ^ 64))) ∧
  (∀ (x : Bool) (d a b : BitVec 6) (s : State) (k : Site),
    let res := fun (w : Instr) (v : Word) => Issuing w s k →
      Completes x w s k { s with divHold := tput (s.coreOf k.w.teamRef) 40 s.divHold } (k.v.setS d.toNat v) k.p none
    let p := k.s a
    let q := k.s b
    res (.sdiv x d a b) (if q = 0 then BitVec.allOnes 64 else if p.toInt = -2 ^ 63 ∧ q.toInt = -1 then p else BitVec.ofInt 64 (p.toInt.tdiv q.toInt)) ∧
    res (.sdivw x d a b) (if q = 0 then BitVec.allOnes 64 else BitVec.ofNat 64 (p.toNat / q.toNat)) ∧
    res (.srem x d a b) (if q = 0 then p else if p.toInt = -2 ^ 63 ∧ q.toInt = -1 then 0 else BitVec.ofInt 64 (p.toInt.tmod q.toInt)) ∧
    res (.sremw x d a b) (if q = 0 then p else BitVec.ofNat 64 (p.toNat % q.toNat)))

/-- R229: major 0x19, of class ALU from version 1, writes s[D] with the least or the greatest of two registers, signed or unsigned; F 4 to 7 raises ILLOP.
R227, R228: constants and compares. -/
def Obligations.ScalarConstantsCompares : Prop :=
  ∀ (x : Bool) (d a b : BitVec 6) (i : BitVec 18) (j : BitVec 32) (f : BitVec 3) (s : State) (k : Site),
    let res := fun (w : Instr) (v : Word) => Issuing w s k → Completes x w s k s (k.v.setS d.toNat v) k.p none
    let p := k.s a
    let q := k.s b
    res (.smovi x d i) (BitVec.ofInt 64 i.toInt) ∧ res (.smovl x d j) (BitVec.ofInt 64 j.toInt) ∧
    res (.smovh x d j) (BitVec.ofNat 64 (j.toNat * 2 ^ 32 + (k.s d).toNat % 2 ^ 32)) ∧
    (∀ c : Prop, (f = 0 ∧ (c ↔ p = q)) ∨ (f = 1 ∧ (c ↔ p ≠ q)) ∨ (f = 2 ∧ (c ↔ p.toInt < q.toInt)) ∨ (f = 3 ∧ (c ↔ p.toInt ≤ q.toInt)) ∨
        (f = 4 ∧ (c ↔ p.toNat < q.toNat)) ∨ (f = 5 ∧ (c ↔ p.toNat ≤ q.toNat)) →
      (c → res (.scmp x f d a b) 1) ∧ (¬c → res (.scmp x f d a b) 0)) ∧
    (∀ v, v = p ∨ v = q →
      (v.toInt ≤ p.toInt ∧ v.toInt ≤ q.toInt → res (.smin x d a b) v) ∧ (p.toInt ≤ v.toInt ∧ q.toInt ≤ v.toInt → res (.smax x d a b) v) ∧
      (v.toNat ≤ p.toNat ∧ v.toNat ≤ q.toNat → res (.sminw x d a b) v) ∧ (p.toNat ≤ v.toNat ∧ q.toNat ≤ v.toNat → res (.smaxw x d a b) v)) ∧
    let word := fun n : Nat => sw x 0x19 + n * 2 ^ 21 + d.toNat * 2 ^ 15 + a.toNat * 2 ^ 9 + b.toNat * 2 ^ 3
    let coded := fun (n : Nat) (w : Instr) => (∀ y, decodeWords (word n) y = some w) ∧ classOf w = 0 ∧ w.since = 1
    coded 0 (.smin x d a b) ∧ coded 1 (.smax x d a b) ∧ coded 2 (.sminw x d a b) ∧ coded 3 (.smaxw x d a b) ∧ ∀ n, 4 ≤ n → n < 8 → RaisesIllop (word n)

/-- R230: major 0x1A, of class ALU from version 1, writes s[D] with the count of one bits, of leading or of trailing zeros; F 3 to 7 raises ILLOP, and B is zero.
R233: the index of the lowest and of the highest one bit of a mask, 32 for an
empty one.
R233: the mask instructions act on all 32 bits, whatever the path's lanes; m[D] alone, or s[S] alone, changes. -/
def Obligations.CountsAndMasks : Prop :=
  (∀ (x : Bool) (d a : BitVec 6) (m : BitVec 3) (s : State) (k : Site),
    let res := fun (w : Instr) (n : Nat) => Issuing w s k → Completes x w s k s (k.v.setS d.toNat (BitVec.ofNat 64 n)) k.p none
    let p := k.s a
    let q := k.v.mask m.toNat
    res (.spopc x d a) ((List.range 64).countP fun j => p.getLsbD j) ∧
    (∀ n, n ≤ 64 → (∀ j, 64 - n ≤ j → p.getLsbD j = false) → (n < 64 → p.getLsbD (63 - n) = true) → res (.sclz x d a) n) ∧
    (∀ n, n ≤ 64 → (∀ j, j < n → p.getLsbD j = false) → (n < 64 → p.getLsbD n = true) → res (.sctz x d a) n) ∧
    res (.mpopc x m d) ((List.range 32).countP fun j => q.getLsbD j) ∧
    (∀ n, n ≤ 32 → (∀ j, j < n → q.getLsbD j = false) → (n < 32 → q.getLsbD n = true) → res (.mffs x m d) n) ∧
    (q = 0 → res (.mfls x m d) 32) ∧
    (∀ n, q.getLsbD n = true → (∀ j, n < j → q.getLsbD j = false) → res (.mfls x m d) n)) ∧
  (∀ (x : Bool) (d a : BitVec 6),
    let word := fun n : Nat => sw x 0x1A + n * 2 ^ 21 + d.toNat * 2 ^ 15 + a.toNat * 2 ^ 9
    let coded := fun (n : Nat) (w : Instr) => (∀ y, decodeWords (word n) y = some w) ∧ classOf w = 0 ∧ w.since = 1
    coded 0 (.spopc x d a) ∧ coded 1 (.sclz x d a) ∧ coded 2 (.sctz x d a) ∧ (∀ n, 3 ≤ n → n < 8 → RaisesIllop (word n)) ∧
    ∀ n b, n < 8 → 0 < b → b < 64 → RaisesIllop (word n + b * 2 ^ 3)) ∧
  (∀ (x : Bool) (d a b : BitVec 3) (r : BitVec 6) (s : State) (k : Site),
    let res := fun (w : Instr) (v : W32) => Issuing w s k → Completes x w s k s (k.v.setM d.toNat v) k.p none
    let p := k.v.mask a.toNat
    let q := k.v.mask b.toNat
    res (.mand x d a b) (p &&& q) ∧ res (.mor x d a b) (p ||| q) ∧ res (.mxor x d a b) (p ^^^ q) ∧ res (.mandn x d a b) (p &&& ~~~q) ∧
    res (.mnot x d a) (~~~p) ∧ res (.mmov x d a) p ∧ res (.mfroms x d r) (BitVec.ofNat 32 (k.s r).toNat) ∧
    (Issuing (.mtos x a r) s k → Completes x (.mtos x a r) s k s (k.v.setS r.toNat (BitVec.ofNat 64 p.toNat)) k.p none))

/-- R242: `tnow`, `cyc` and `icount`, SUB 2, 3 and 4 of major 0x6F from version 1, write s[D] at issue with fabric time, CYCLE and ICOUNT, the last two as `rdsr` would read them at the same issue.
R235 to R238: what `rdsr` reads for each number (ICOUNT and CYCLE as they are before the instruction), and what `hpoll` reads (R183). Only s[D] changes.
R72, R235 to R237: `wrsr` clears the FSTAT flags written with 1 and the three W1C bits of WSTAT written with 1, leaving HAZ; any write of ELOG0
clears the four entries; LC0 to LC2 take the low word. R247: what was set in the same cycle comes after the clear, and stays. Nothing else of the wave changes. -/
def Obligations.StatusRegisters : Prop :=
  (∀ (x : Bool) (d h : BitVec 6) (s : State) (k : Site),
    let res := fun (w : Instr) (v : Word) => Issuing w s k → Completes x w s k s (k.v.setS d.toNat v) k.p none
    res (.rdsr x d 0x000) (k.l.fmode.setWidth 64) ∧ res (.rdsr x d 0x001) (k.v.fstat.setWidth 64) ∧ res (.rdsr x d 0x002) k.v.wstat ∧
    res (.rdsr x d 0x003) k.l.sig ∧ res (.rdsr x d 0x004) k.v.icount ∧ res (.rdsr x d 0x005) k.v.cycle ∧
    res (.rdsr x d 0x006) (BitVec.ofNat 64 k.w.team) ∧ res (.rdsr x d 0x007) (BitVec.ofNat 64 k.l.nteams) ∧
    res (.rdsr x d 0x008) (BitVec.ofNat 64 k.w.lid) ∧
    (∀ n : Nat, n < 4 → res (.rdsr x d (BitVec.ofNat 12 (0x010 + n))) (k.v.elog.getD n 0)) ∧
    (∀ n : Nat, n < 3 → res (.rdsr x d (BitVec.ofNat 12 (0x020 + n))) ((k.v.lc.getD n 0).setWidth 64)) ∧
    res (.tnow x d) (BitVec.ofNat 64 s.fabric.now) ∧ res (.cyc x d) k.v.cycle ∧ res (.icount x d) k.v.icount ∧
    res (.hpoll x d h) (BitVec.ofNat 64 (s.handleAnswer (k.s h)))) ∧
  (∀ (x : Bool) (d : BitVec 6),
    let coded := fun (sub : Nat) (w : Instr) => (∀ y, decodeWords (sw x 0x6F + sub * 2 ^ 19 + d.toNat * 2 ^ 13) y = some w) ∧ w.since = 1 ∧
      ∀ low, 0 < low → low < 2 ^ 13 → ∀ y, decodeWords (sw x 0x6F + sub * 2 ^ 19 + d.toNat * 2 ^ 13 + low) y = none
    coded 2 (.tnow x d) ∧ coded 3 (.cyc x d) ∧ coded 4 (.icount x d)) ∧
  (∀ (x : Bool) (a : BitVec 6) (s : State) (k : Site),
    let res := fun (n : BitVec 12) (u : Wave) => Issuing (.wrsr x a n) s k → Completes x (.wrsr x a n) s k s u k.p none
    res 0x001 { k.v with fstat := (k.v.fstat &&& ~~~BitVec.ofNat 32 (k.s a).toNat) ||| BitVec.ofNat 32 k.v.newF } ∧
    res 0x002 { k.v with wstat := (k.v.wstat &&& ~~~((k.s a) &&& 7)) ||| k.v.newW } ∧
    res 0x010 (k.v.newE.foldl Wave.putElog { k.v with elog := [0, 0, 0, 0] }) ∧
    (∀ n : Nat, n < 3 → res (BitVec.ofNat 12 (0x020 + n)) (k.v.setLc n (BitVec.ofNat 32 (k.s a).toNat))))

/-! ### Vector instructions (R253 to R277) -/

/-- R253 to R257, R250: vector arithmetic has fixed latency: every sub-element of every active lane of v[D] is written at issue with the element
operation of its operands and, for `vfma` and `vfnma`, of the prior D; the flags of all of them are raised in FSTAT. Nothing else of the part changes. -/
def Obligations.VectorArithmetic : Prop :=
  ∀ (x : Bool) (t : BitVec 3) (d a b c : BitVec 7) (s : State) (k : Site),
    let w := typeWidth t
    let res := fun (i : Instr) (y : BitVec 7) (f : Nat → Nat → Nat → FRes) =>
      Issuing i s k → Completes x i s k s (k.v.putLanes d (k.lanes3 t d a y f)) k.p none
    res (.vadd x t d a b) b (fun p q _ => eAdd k.fm t p q) ∧ res (.vsub x t d a b) b (fun p q _ => eSub k.fm t p q) ∧
    res (.vmul x t d a b) b (fun p q _ => eMul k.fm t p q) ∧ res (.vmulh x t d a b) b (fun p q _ => eMulh w p q) ∧
    res (.vmulhw x t d a b) b (fun p q _ => eMulhw w p q) ∧ res (.vfma x t d a b) b (fun p q r => eFma k.fm t false p q r) ∧
    res (.vfnma x t d a b) b (fun p q r => eFma k.fm t true p q r) ∧ res (.vmin x t d a b) b (fun p q _ => eMin k.fm t false p q) ∧
    res (.vmax x t d a b) b (fun p q _ => eMin k.fm t true p q) ∧ res (.vminw x t d a b) b (fun p q _ => eMinw false p q) ∧
    res (.vmaxw x t d a b) b (fun p q _ => eMinw true p q) ∧ res (.vaddsat x t d a b) b (fun p q _ => eAddsat w p q) ∧
    res (.vabs x t d a) a (fun p _ _ => eAbs t p) ∧ res (.vneg x t d a) a (fun p _ _ => eNeg t p) ∧
    (Issuing (.vfmal x t d a b c) s k → Completes x (.vfmal x t d a b c) s k s
      (k.v.putLanes d (laneResults k.lanes fun l => elementwise w (eFma k.fm t false) (k.opT t a l) (k.opT t b l) (k.opT t c l))) k.p none)

/-- R258, R260, R261: the bitwise forms, shifts, counts, compares into bit patterns, `vsel` and `vmov`, at issue as in `VectorArithmetic`; the shift
count is the sub-element of B modulo the width, and `vsel` selects through the prior D. -/
def Obligations.VectorBits : Prop :=
  ∀ (x : Bool) (t : BitVec 3) (d a b : BitVec 7) (s : State) (k : Site),
    let w := typeWidth t
    let res := fun (i : Instr) (y : BitVec 7) (f : Nat → Nat → Nat → FRes) =>
      Issuing i s k → Completes x i s k s (k.v.putLanes d (k.lanes3 t d a y f)) k.p none
    let bitsOnly := fun (i : Instr) (y : BitVec 7) (f : Nat → Nat → Nat → Nat) => res i y fun p q r => ⟨f p q r, 0⟩
    bitsOnly (.vand x t d a b) b (fun p q _ => p &&& q) ∧ bitsOnly (.vor x t d a b) b (fun p q _ => p ||| q) ∧
    bitsOnly (.vxor x t d a b) b (fun p q _ => p ^^^ q) ∧ bitsOnly (.vnot x t d a) a (fun p _ _ => 2 ^ w - 1 - p % 2 ^ w) ∧
    bitsOnly (.vshl x t d a b) b (fun p q _ => p * 2 ^ (q % w) % 2 ^ w) ∧ bitsOnly (.vshr x t d a b) b (fun p q _ => p / 2 ^ (q % w)) ∧
    bitsOnly (.vsra x t d a b) b (fun p q _ => toElem w (sInt w p / (2 ^ (q % w) : Nat))) ∧
    bitsOnly (.vpopc x t d a) a (fun p _ _ => popc w p) ∧ bitsOnly (.vclz x t d a) a (fun p _ _ => clz w p) ∧
    bitsOnly (.vmov x t d a) a (fun p _ _ => p) ∧
    bitsOnly (.vsel x t d a b) b (fun p q r => (r &&& p) ||| ((2 ^ w - 1 - r % 2 ^ w) &&& q)) ∧
    res (.vceq x t d a b) b (fun p q _ => eCmp k.fm t 0 p q) ∧ res (.vclt x t d a b) b (fun p q _ => eCmp k.fm t 2 p q) ∧
    res (.vcle x t d a b) b (fun p q _ => eCmp k.fm t 3 p q) ∧ res (.vcltw x t d a b) b (fun p q _ => eCmp k.fm t 6 p q)

/-- R256, R259, R264, R265, R275: `vmovl`, `vround`, `vcvt` and `vidx` write v[D] at issue; `vcmp` writes m[M], with 0 for every inactive lane, from
sub-element 0 of each active lane. -/
def Obligations.VectorMoves : Prop :=
  ∀ (x : Bool) (t : BitVec 3) (d a b : BitVec 7) (m : BitVec 3) (c : BitVec 4) (i : BitVec 32) (h : BitVec 3) (df sf : BitVec 4) (s : State) (k : Site),
    let w := typeWidth t
    let lanes := fun (j : Instr) (f : Nat → Word × Nat) => Issuing j s k → Completes x j s k s (k.v.putLanes d (laneResults k.lanes f)) k.p none
    lanes (.vmovl x t d i) (fun _ => (replicateElem w (movlBits t i), 0)) ∧
    (∀ f, floatFormat t = some f → lanes (.vround x t d a m) (fun l => elementwise w
      (fun p _ _ => fRound k.fm (if m = 4 then k.fm.rm else m.toNat) f (fread k.fm f p)) (k.opT t a l) (k.opT t a l) ((k.v.vreg d.toNat).lane l))) ∧
    lanes (.vcvt x d a h df sf) (fun l => convertLane (formatWidth sf.toNat) (formatWidth df.toNat) h.toNat (cvtElem k.fm df.toNat sf.toNat)
      (k.operand (formatWidth sf.toNat) (codeFormat sf.toNat) a l)) ∧
    lanes (.vidx x t d a b) (fun l => (packElems w ((List.range (64 / w)).map fun e =>
      toElem w ((elem w (k.opT t a l) e : Int) + (l * (64 / w) + e : Nat) * b.toInt)), 0)) ∧
    (let r := fun l => condElem k.fm t c.toNat (elem w (k.opT t a l) 0) (elem w (k.opT t b l) 0)
     Issuing (.vcmp x t c m a b) s k → Completes x (.vcmp x t c m a b) s k s
      ((k.v.setM m.toNat (maskOf (k.lanes.filter fun l => (r l).1))).raise (k.lanes.foldl (fun g l => g ||| (r l).2) 0)) k.p none)

/-- R91, R250, R262, R263, R266 to R268, R276, R277: a result of the special function unit is formed from the operands read at issue; the word raises the
counter SFU, and the result, with its flags, is an outstanding write of v[D]. No register changes yet. The model's own reading or choice in log entries 18 and 19. -/
def Obligations.SpecialFunctions : Prop :=
  ∀ (x : Bool) (t : BitVec 3) (d a b : BitVec 7) (h q : BitVec 3) (k1 : BitVec 1) (qf sf : BitVec 4) (s : State) (k : Site),
    let post := fun (i : Instr) (rs : List (Nat × Word × Nat)) (flags : Nat) => Issuing i s k →
      Completes x i s k { s with nextId := s.nextId + 1 } (k.v.addPend (k.posted s 2 [.v d.toNat] (.result [.v d.toNat rs] flags))) k.p none
    let w := typeWidth t
    let lanes := fun (i : Instr) (f : Nat → Word × Nat) => post i (laneResults k.lanes f).1 (laneResults k.lanes f).2
    let unary := fun (i : Instr) (f : Nat → FRes) => post i (k.lanes3 t d a a fun p _ _ => f p).1 (k.lanes3 t d a a fun p _ _ => f p).2
    (∀ f, floatFormat t = some f →
      post (.vdiv x t d a b) (k.lanes3 t d a b fun p r _ => fDiv k.fm f false (fread k.fm f p) (fread k.fm f r)).1
        (k.lanes3 t d a b fun p r _ => fDiv k.fm f false (fread k.fm f p) (fread k.fm f r)).2 ∧
      unary (.vsqrt x t d a) (fun p => fSqrt k.fm f (fread k.fm f p)) ∧ unary (.vsfu x t d a b) (fun p => sfuElem k.fm f b.toNat (fread k.fm f p))) ∧
    lanes (.vqnt x d a b h k1 qf sf) (fun l =>
      let scale := if k1 = 0 then fdecode 6 ((k.op64 b l).toNat % 256)
        else fread k.fm 1 ((if 120 ≤ b.toNat then k.operand 32 (some 1) b l else k.op64 b l).toNat % 2 ^ 32)
      convertLane (formatWidth sf.toNat) (formatWidth qf.toNat) h.toNat (fun e => quantElem k.fm qf.toNat (fread k.fm sf.toNat e) scale)
        (k.operand (formatWidth sf.toNat) (codeFormat sf.toNat) a l)) ∧
    (∀ f, floatFormat t = some f → lanes (.vdqnt x t d a h k1 q) (fun l =>
      let prior := ((k.v.vreg d.toNat).lane l).toNat
      let scale := if k1 = 0 then fdecode 6 (prior % 256) else fread k.fm 1 (prior % 2 ^ 32)
      let wq := formatWidth (qselFormat q)
      let rs := (List.range (64 / w)).map fun i => let j := i + h.toNat * (64 / w)
        dequantElem k.fm f (elemValue k.fm (qselFormat q)
          (if j < 64 / wq then elem wq (k.operand wq (codeFormat (qselFormat q)) a l) j else 0)) scale
      (packElems w (rs.map (·.bits)), orFlags rs))) ∧
    (∀ f, floatFormat t = some f → lanes (.vamax x t d a k1 q) (fun l =>
      let per := (if k1 = 1 then 32 else 16) / (64 / w)
      let target := match q.toNat with | 0 => 4 | 1 => 5 | 2 => 3 | 3 => 2 | _ => 11
      let r := scaleCode target ((k.lanes.filter fun j => j / per = l / per).flatMap fun j => (elemsOf w (k.opT t a j)).map (fread k.fm f))
      (BitVec.ofNat 64 r.bits, r.flags))) ∧
    (let r := reduce k.fm t b.toNat (k.lanes.flatMap fun l => elemsOf w (k.opT t a l))
     post (.vred x t d a b) (k.lanes.map fun l => (l, replicateElem w r.bits, 0)) r.flags) ∧
    (let upTo := fun j i => reduce k.fm t b.toNat ((k.lanes.flatMap fun l => elemsOf w (k.opT t a l)).take (j * (64 / w) + i + 1))
     let rs := fun j => (List.range (64 / w)).map (upTo j)
     post (.vscan x t d a b) (k.lanes.zipIdx.map fun p => (p.1, packElems w ((rs p.2).map (·.bits)), 0))
       ((List.range k.lanes.length).foldl (fun g j => g ||| orFlags (rs j)) 0))

/-- R250, R269 to R274, R232, R294: a cross-lane result counts on XL, the argument read of `sldk` and the timeline read of `tlrd` on LD; each is an
outstanding write of its destination, formed from the registers read at issue (`tlrd` reads the counter when it returns). -/
def Obligations.CrossLaneAndArguments : Prop :=
  ∀ (x : Bool) (t : BitVec 3) (d a b : BitVec 7) (m : BitVec 3) (e : BitVec 6) (i : BitVec 12) (c : BitVec 4) (s : State) (k : Site),
    let w := typeWidth t
    let post := fun (j : Instr) (ctr : Nat) (r : Reg) (kind : PendKind) => Issuing j s k →
      Completes x j s k { s with nextId := s.nextId + 1 } (k.v.addPend (k.posted s ctr [r] kind)) k.p none
    let src := k.v.vreg a.toNat
    post (.vshf x t d a b) 7 (.v d.toNat) (.result [.v d.toNat (k.lanes.map fun l =>
      (l, packElems w ((elemsOf w (k.opT t b l)).map fun j => flatElem w src (j % (32 * (64 / w)))), 0))] 0) ∧
    post (.vbcst x d a b) 7 (.v d.toNat) (.result [.v d.toNat (k.lanes.map fun l => (l, src.lane b.toNat, 0))] 0) ∧
    post (.vext x t d a b) 7 (.s d.toNat) (.result [.s d.toNat (BitVec.ofNat 64 (flatElem w src b.toNat))] 0) ∧
    post (.vins x t d a b) 7 (.v d.toNat) (.result (if k.active (b.toNat / (64 / w)) then
      [.e d.toNat (b.toNat / (64 / w)) w (b.toNat % (64 / w)) (k.v.sreg a.toNat).toNat] else []) 0) ∧
    post (.vmovm x d a m) 7 (.v d.toNat) (.result [.v d.toNat (k.lanes.zipIdx.map fun p =>
      (p.1, (((k.lanes.filter fun l => (k.v.mask m.toNat).getLsbD l)[p.2]?).map src.lane).getD 0, 0))] 0) ∧
    post (.sldk x e i) 0 (.s e.toNat) (.result [.s e.toNat (BitVec.ofNat 64
      (if k.l.hdr.args ≤ i.toNat then 0 else leNat ((k.l.args.drop i.toNat).take 8)))] 0) ∧
    post (.tlrd x e c) 0 (.s e.toNat) (.tlread e.toNat c.toNat)

/-! ### Estates (R36, R49 to R52) -/

/-- R36: `leave` marks n consecutive registers of the active lanes for a slot, and `leave.clr` removes the active lanes from its marks.
R49 to R52, R345: a claim, a query and a drop count on EC and are outstanding with the tag and the keys of the active lanes read at issue; a claim or a
drop in a deterministic launch is held for the logical clock. No register and no estate changes yet. -/
def Obligations.EstateInstructions : Prop :=
  (∀ (x : Bool) (n : BitVec 2) (a : BitVec 7) (c : BitVec 4) (s : State) (k : Site),
    let old := k.v.leave.getD n.toNat { first := 0, count := 0, mask := 0 }
    let res := fun (i : Instr) (m : LeaveSlot) => Issuing i s k → Completes x i s k s { k.v with leave := setAt k.v.leave n.toNat m } k.p none
    (∀ m : LeaveSlot, m.first = a.toNat ∧ m.count = c.toNat + 1 ∧
        m.mask = (if old.mask = 0 ∨ (old.first = a.toNat ∧ old.count = c.toNat + 1) then old.mask ||| k.p.mask else k.p.mask) →
      res (.leave x n a c) m) ∧
    res (.leaveClr x n) { old with mask := old.mask &&& ~~~k.p.mask }) ∧
  (∀ (x : Bool) (m : BitVec 3) (d key : BitVec 7) (t c : BitVec 3) (e : BitVec 6) (s : State) (k : Site),
    let keys := k.lanes.map fun l => (l, (k.op64 key l).toNat % 2 ^ 32)
    let tag := fun n : Nat => (k.v.sreg n).toNat % 2 ^ 16
    let post := fun (i : Instr) (rs : List Reg) (kind : PendKind) (held : Bool) => Issuing i s k → ∃ n, exec i s = .next n ∧
      { k.posted s 6 rs kind with held := held } ∈ n.pendOf k.w ∧
      WordDone x i s k { s with nextId := s.nextId + 1 } { k.v.incr 6 with pend := n.pendOf k.w } k.p none n
    let regs := Reg.m m.toNat :: (List.range (c.toNat + 1)).map fun j => Reg.v (d.toNat + j)
    post (.ecl x m d key t c) regs (.ecl m.toNat d.toNat (c.toNat + 1) false (tag t.toNat) keys) k.l.hdr.det ∧
    post (.eclKeep x m d key t c) regs (.ecl m.toNat d.toNat (c.toNat + 1) true (tag t.toNat) keys) k.l.hdr.det ∧
    post (.equery x m key t) [.m m.toNat] (.equery m.toNat (tag t.toNat) keys) false ∧
    post (.edrop x e) [] (.edrop (tag e.toNat)) k.l.hdr.det)

/-! ### Control flow (R19 to R34, R214 to R221) -/

/-- R190, R214: a taken branch goes to the clause header its offset names, in words from the header of its own clause, modulo 2^32; one that is not taken goes on.
`jmp` is always taken, `bany` when some active lane is in m[K], `ball` when every active lane is, `bnone` when none is. No register changes.
R215, R216: `call` writes the image offset of the next clause header into s[D] and goes to its target, modulo 2^32; `jind` goes to the image offset s[A] when it is a
multiple of 4 within the code, and otherwise kills the launch with ILLCLAUSE at its own offset. The model's own reading or choice in log entry 16. -/
def Obligations.BranchesAndCalls : Prop :=
  (∀ (x : Bool) (m : BitVec 3) (o : BitVec 20) (s : State) (k : Site),
    let target := (((k.p.hdr : Int) + 4 * o.toInt) % 2 ^ 32).toNat
    let some' := ∃ l, k.p.mask.getLsbD l = true ∧ (k.v.mask m.toNat).getLsbD l = true
    let every := ∀ l, k.p.mask.getLsbD l = true → (k.v.mask m.toNat).getLsbD l = true
    let taken := fun (i : Instr) => Issuing i s k → Completes x i s k s k.v k.p (some target)
    let on := fun (i : Instr) => Issuing i s k → Completes x i s k s k.v k.p none
    taken (.jmp x o) ∧ (some' → taken (.bany x m o)) ∧ (¬some' → on (.bany x m o)) ∧ (every → taken (.ball x m o)) ∧ (¬every → on (.ball x m o)) ∧
    (¬some' → taken (.bnone x m o)) ∧ (some' → on (.bnone x m o))) ∧
  ∀ (x : Bool) (d a : BitVec 6) (o : BitVec 18) (s : State) (k : Site),
    let to' := (k.s a).toNat
    (Issuing (.call x d o) s k → Completes x (.call x d o) s k s (k.v.setS d.toNat (BitVec.ofNat 64 (k.p.hdr + 4 + 4 * k.p.count)))
      k.p (some (((k.p.hdr : Int) + 4 * o.toInt) % 2 ^ 32).toNat)) ∧
    (Issuing (.jind x a) s k → to' % 4 = 0 → 64 ≤ to' → to' < 64 + k.l.hdr.codelen →
      Completes x (.jind x a) s k s k.v k.p (some to')) ∧
    (Issuing (.jind x a) s k → (to' % 4 ≠ 0 ∨ to' < 64 ∨ 64 + k.l.hdr.codelen ≤ to') → Kills (.jind x a) s k 9 k.p.pc 0)

/-- R217, R219: `loop` with a nonzero counter makes the record of that counter active, from the next clause to END, and enters the body; with a zero
counter goes past END, by the COUNT of END's header, and nothing else changes (no other path of the wave waiting for counters that all read zero; the number of the skip
is the model's own). `loopx` makes the record inactive, leaves the counter, and goes to its target. END and targets are taken modulo 2^32. The model's own reading or choice in log entry 16. -/
def Obligations.CountedLoops : Prop :=
  ∀ (x : Bool) (n : BitVec 2) (o : BitVec 20) (s : State) (k : Site),
    let start := k.p.hdr + 4 + 4 * k.p.count
    let last := (((k.p.hdr : Int) + 4 * o.toInt) % 2 ^ 32).toNat
    let old := k.v.loops.getD n.toNat { start := 0, last := 0, active := false, order := 0 }
    (Issuing (.loop x n o) s k → k.v.loopc n.toNat ≠ 0 → ∃ u, u = { k.v with
        loops := setAt k.v.loops n.toNat { start := start, last := last, active := true, order := k.v.loopOrder }, loopOrder := k.v.loopOrder + 1 } ∧
      Completes x (.loop x n o) s k s u k.p (some start)) ∧
    (∀ h, Issuing (.loop x n o) s k → k.v.loopc n.toNat = 0 → s.fetchWord k.w k.l last = .word h → goodHeader h = true → (∀ p ∈ k.v.pend, p.id ≠ s.nextId) →
      (∀ p ∈ k.v.paths, p.waits ≠ 0 → ∃ c, c < 8 ∧ p.waits.testBit c = true ∧ k.v.ctr.getD c 0 ≠ 0) →
      Completes x (.loop x n o) s k { s with nextId := s.nextId + 1 } k.v { k.p with park := .none, since := 0 } (some (last + 4 + 4 * (h % 16)))) ∧
    (Issuing (.loopx x n o) s k →
      Completes x (.loopx x n o) s k s { k.v with loops := setAt k.v.loops n.toNat { old with active := false } } k.p (some last))

/-- R20, R22: a `split` with no lane in the mask goes on, one with every lane in it goes to the target, taken modulo 2^32; else the lanes that stay keep the path, under a
new record of two pending paths, and the others follow a new path of age zero at the target, in a free slot or on the berm; a berm of 512 entries that
cannot take what it needs kills the launch with BERM_FULL. (The new path's number is the model's own; it is not the issuing path's.) The model's own reading or choice in log entry 16. -/
def Obligations.SplitPaths : Prop :=
  ∀ (x : Bool) (m : BitVec 3) (o : BitVec 20) (s : State) (k : Site), Issuing (.split x m o) s k →
    let i := Instr.split x m o
    let target := (((k.p.hdr : Int) + 4 * o.toInt) % 2 ^ 32).toNat
    let take := k.p.mask &&& k.v.mask m.toNat
    let stay := k.p.mask &&& ~~~k.v.mask m.toNat
    let needs := if k.v.slot0.isSome ∧ k.v.slot1.isSome then 2 else 1
    let new : Path := { pid := k.v.nextId + 1, pc := target, mask := take, age := 0, srec := some k.v.nextId, hdr := 0, cls := 0, count := 0,
                        inClause := false, waits := 0, park := .none, since := 0, yielded := none, owed := [], parkOff := 0 }
    let r : SplitRec := { rid := k.v.nextId, parent := k.p.srec, pending := 2, merged := 0, resume := 0, hdr := 0, cls := 0, count := 0 }
    (take = 0 → Completes x i s k s k.v k.p none) ∧
    (take ≠ 0 → stay = 0 → Completes x i s k s k.v k.p (some target)) ∧
    (take ≠ 0 → stay ≠ 0 → 512 < k.v.recs.length + k.v.spilled.length + needs → Kills i s k 0x10 k.p.pc 0) ∧
    (take ≠ 0 → stay ≠ 0 → k.v.recs.length + k.v.spilled.length + needs ≤ 512 → k.pid ≠ new.pid →
      ∃ u, u = { k.v with
          nextId := k.v.nextId + 2, recs := r :: k.v.recs, slot0 := some (k.v.slot0.getD new),
          slot1 := if k.v.slot0.isSome then some (k.v.slot1.getD new) else k.v.slot1,
          spilled := if k.v.slot0.isSome ∧ k.v.slot1.isSome then new :: k.v.spilled else k.v.spilled } ∧
        Completes x i s k s u { k.p with mask := stay, srec := some k.v.nextId } none)

/-- R21: a `join` adds the path's lanes to its innermost record. With others pending the path ends, and every other path of the wave stays; the last one
goes on after its own `join` with all the merged lanes, under the record's parent. When no lane is merged, the record goes and the path counts as a lane-less join at the parent: it ends, or goes on with what the parent has merged, or, under no parent, ends.
A `join` of a path without a record ends its lanes as `exit` does (R32, R36, R37, R56). Loop buffers may be released (R196). No register changes, and (with no poisoned memory, R22) the launch goes on. The model's own reading or choice in log entry 14. -/
def Obligations.JoinPaths : Prop :=
  ∀ (x : Bool) (s : State) (k : Site), Issuing (.join x) s k → s.unpoisoned →
    (k.p.srec = none → EndsLanes (.join x) s k) ∧
    ∀ (rid : Nat) (r : SplitRec), k.p.srec = some rid → k.v.recs.find? (·.rid = rid) = some r →
    let merged := r.merged ||| k.p.mask
    let left := k.v.recs.filter (·.rid ≠ rid)
    let ended := fun recs : List SplitRec => ∃ t v, exec (.join x) s = .next t ∧ t.wave? k.w = some v ∧ t.mem = s.mem ∧ (∀ w, w ≠ k.w → t.wave? w = s.wave? w) ∧
      v = { k.counted x k.v with slot0 := v.slot0, slot1 := v.slot1, spilled := v.spilled, recs := v.recs, bufs := v.bufs } ∧ v.recs = recs ∧
      (∀ p ∈ v.paths, p.pid ≠ k.pid) ∧ (∀ p ∈ k.v.paths, p.pid ≠ k.pid → p ∈ v.paths)
    (1 < r.pending → ended (k.v.recs.map fun q => if q.rid = rid then
        { r with merged := merged, pending := r.pending - 1, resume := k.p.pc + 4, hdr := k.p.hdr, cls := k.p.cls, count := k.p.count } else q)) ∧
    (r.pending = 1 → merged ≠ 0 → ∃ bufs kept, Completes x (.join x) s k { s with loopBufs := kept }
      { k.v with recs := left, bufs := bufs } { k.p with mask := merged, srec := r.parent } none) ∧
    (r.pending = 1 → merged = 0 → r.parent = none → ended left) ∧
    (r.pending = 1 → merged = 0 → ∀ rid' r', r.parent = some rid' → left.find? (·.rid = rid') = some r' →
      (1 < r'.pending → ended (left.map fun q => if q.rid = rid' then { r' with pending := r'.pending - 1 } else q)) ∧
      (r'.pending = 1 → r'.merged ≠ 0 → ∃ t v p, exec (.join x) s = .next t ∧ t.wave? k.w = some v ∧ v.path? k.pid = some p ∧ t.mem = s.mem ∧
        (∀ w, w ≠ k.w → t.wave? w = s.wave? w) ∧ v.recs = left.filter (·.rid ≠ rid') ∧ v.sregs = k.v.sregs ∧ v.masks = k.v.masks ∧ v.vregs = k.v.vregs ∧
        p.mask = r'.merged ∧ p.srec = r'.parent ∧ (r'.resume ≠ r'.hdr + 4 + 4 * r'.count → p.pc = r'.resume)))

/-- R32, R36, R37, R56: `exit` ends the active lanes of its path. While live lanes are left, the wave goes on with them, and no register changes; when none is left, the wave ends: it has no path, its loads are discarded, and what its slots have marked is bequeathed, a granule for each register with the lanes, the values, the tag and the keys of R37; without room for them in
the reserve the launch is killed with ESTATE_FULL. The model's own reading or choice in log entry 14. -/
def Obligations.ExitLanes : Prop :=
  ∀ (x : Bool) (s : State) (k : Site), Issuing (.exit x) s k → s.unpoisoned → EndsLanes (.exit x) s k

/-- R25 to R30: `bar` and `bar.cohort` park the path on the barrier instance and add its lanes to the wave's arrivals there; `tkwait` goes on, with a
device-scope acquire, when the counter equals the team id, and else parks; the first `tktake` of a team marks its ticket as taken, to take effect as a
release, and a later one changes nothing. -/
def Obligations.BarriersAndTickets : Prop :=
  ∀ (x : Bool) (n : BitVec 4) (m : BitVec 3) (s : State) (k : Site) (tm : Team), s.team? k.w.teamRef = some tm →
    let parked := fun a : Park => { k.p with park := a, since := 0, parkOff := k.p.pc }
    let barred := fun (i : Instr) (coh : Bool) => Issuing i s k → ∃ t u, exec i s = .next t ∧
      WordDone x i s k { s with teams := t.teams } k.v (parked (.bar coh n.toNat)) none t ∧
      (∀ r, r ≠ k.w.teamRef → t.team? r = s.team? r) ∧ t.team? k.w.teamRef = some { tm with bars := u } ∧
      ∃ b ∈ u, b.cohort = coh ∧ b.n = n.toNat ∧ (tget k.w.wave b.lanes).getD 0 &&& k.p.mask = k.p.mask
    barred (.bar x n) false ∧ barred (.barCohort x n) true ∧
    (k.l.tickets.getD m.toNat 0 = k.w.team → Issuing (.tkwait x m) s k →
      Completes x (.tkwait x m) s k { s with cache := s.cache.filter fun e => e.1.1 ≠ tm.core } k.v k.p none) ∧
    (k.l.tickets.getD m.toNat 0 ≠ k.w.team → Issuing (.tkwait x m) s k → Completes x (.tkwait x m) s k s k.v (parked (.ticket m.toNat (decide (k.w.team < k.l.tickets.getD m.toNat 0)))) none) ∧
    (tm.taken.getLsbD m.toNat = true → Issuing (.tktake x m) s k → Completes x (.tktake x m) s k s k.v k.p none) ∧
    (tm.taken.getLsbD m.toNat = false → Issuing (.tktake x m) s k → ∃ b,
      b = { s with nextId := s.nextId + 1, takes := s.takes ++ [{ k := m.toNat, w := k.w, op := s.nextId, whole := false }],
                   teams := tmod k.w.teamRef (fun t => { t with taken := t.taken ||| (1#8 <<< m.toNat) }) s.teams } ∧
      Completes x (.tktake x m) s k b k.v k.p none)

/-- R213: `nop` is the word 0x0000_0000, or 0x8000_0000 with the switch marker, of class ALU, from version 1; it changes nothing except ICOUNT.
R221, R187: `wait` holds its path, without a park, until every named counter of the wave reads zero; with all of them zero, or none named, it changes
nothing. R245, R23: `yield` with a spilled path that is not parked trades places with the oldest at once, and enters the berm with age zero, on its top; with none, it may not issue
until each path of the core that is eligible now has had its turn, or for 64 cycles; with no other eligible path it acts as `nop`. The model's own reading or choice in log entry 69. -/
def Obligations.WaitAndYield : Prop :=
  (∀ second, decodeWords 0x00000000 second = some (.nop false) ∧ decodeWords 0x80000000 second = some (.nop true)) ∧
  ∀ (x : Bool) (n : BitVec 8) (s : State) (k : Site),
    let zero := ∀ c, c < 8 → n.getLsbD c = true → k.v.ctr.getD c 0 = 0
    (classOf (.nop x) = 0 ∧ (Instr.nop x).since = 1 ∧ (Issuing (.nop x) s k → Completes x (.nop x) s k s k.v k.p none)) ∧
    (zero → Issuing (.wait x n) s k → Completes x (.wait x n) s k s k.v k.p none) ∧
    (¬zero → Issuing (.wait x n) s k → Completes x (.wait x n) s k s k.v { k.p with waits := n.toNat } none) ∧
    (Issuing (.yield x) s k →
      let others := ((s.begun x (.yield x) k).eligible (s.coreOf k.w.teamRef)).filter fun o => !(o.w == k.w && o.pid == k.pid)
      (∀ p, oldest k.v.spilled (fun p => !p.isParked) = some p → s.unpoisoned → k.v.path? p.pid = some p → (∀ a ∈ k.v.spilled, a.pid ≠ k.pid) →
        ∃ t, exec (.yield x) s = .next t ∧ WordDone x (.yield x) s k s k.v k.p none t ∧
          let put := fun o : Option Path => o.map fun a => if a.pid = k.pid then p else a
          ∃ v r, t.wave? k.w = some v ∧ v.slot0 = put k.v.slot0 ∧ v.slot1 = put k.v.slot1 ∧ r.pid = k.pid ∧ r.age = 0 ∧
            v.spilled = r :: k.v.spilled.filter (·.pid ≠ p.pid)) ∧
      ((∀ p ∈ k.v.spilled, p.park ≠ .none) → others ≠ [] →
        Completes x (.yield x) s k s k.v { k.p with yielded := some 64, owed := others.map fun o => (o.w, o.pid) } none) ∧
      ((∀ p ∈ k.v.spilled, p.park ≠ .none) → others = [] → Completes x (.yield x) s k s k.v k.p none))

/-! ### Memory instructions (R92 to R124, R279 to R295) -/

/-- R188, R280, R281, R284, R286, R290: a load or atomic (`sld`, `vld`, `vldsp`, `vldacq`, `vatom`) all of whose lanes start raises LD and is outstanding with its
destination; in device memory, and as an atomic in a scratchpad, its accesses, as the walk of each lane gives them, are all still to be performed. A load of a scratchpad reads at its
issue what the stores ahead of it and the scratchpad hold, where nothing earlier stands before it (R100: always, with nothing on its way and nothing outstanding); one that acquires at
cluster scope then discards its core's load cache. A det atomic of a deterministic launch is held for the logical clock (R345). No register and no memory changes at issue. The model's own reading or choice in log entries 11 and 53. -/
def Obligations.LoadsAndAtomics : Prop :=
  ∀ (i : Instr) (s : State) (k : Site) (q : Asked), k.asks i = some q → q.r.op ≠ .store → Issuing i s k → q.starts s k →
    let parts := (s.startLanes k.w q.r q.qs).parts
    let core := s.coreOf k.w.teamRef
    ∃ n ps, exec i s = .next n ∧
      (∃ p ∈ n.pendOf k.w, p.id = s.nextId ∧ p.ctr = 0 ∧ p.off = k.p.pc ∧ p.dests = q.r.dst.toList ∧ p.clk = k.v.lclk ∧ p.held = (q.r.det && k.l.hdr.det) ∧
        p.kind = .mem { q.r with lanes := q.qs } [] ps 0) ∧
      WordDone q.x i s k { s with nextId := s.nextId + 1, cache := n.cache } { k.v.incr 0 with pend := n.pendOf k.w, seen := n.seenOf k.w } k.p none n ∧
      (q.r.sp = false ∨ q.r.op ≠ .load → ps = parts ∧ n.cache = s.cache ∧ n.seenOf k.w = k.v.seen) ∧
      (q.r.sp = true → q.r.op = .load → ps.length = parts.length ∧
        (∀ (j : Nat) a, parts[j]? = some a → ∃ o, ps[j]? = some { a with val := o } ∧
          (∀ bs, o = some bs → bs = (List.range a.n).map fun m => s.loadByte core true (s.ahead k.w core s.nextId a.loc a.n) (a.loc.plus m)) ∧
          (s.queue = [] → s.buffer = [] → k.v.pend = [] → o.isSome = true)) ∧
        n.cache = (if q.r.acq = some 1 ∧ ps.any (·.val.isSome) = true then s.cache.filter fun e => e.1.1 ≠ core else s.cache) ∧
        n.seenOf k.w = if ps.any (·.val.isSome) = true then
            (tput s.nextId (s.nextId + 1) k.v.seen).filter fun e => (s.queue ++ s.buffer).any fun z => z.sid < e.2
          else k.v.seen)

/-- R188, R280, R284, R286: a store (`sst`, `vst`, `vstsp`, `vstrel`) all of whose lanes start raises ST; each of its accesses is a store on its way, with the low bytes of the
datum, and memory changes only when the store is performed (`StoreAcknowledged`). What was on its way before stays. No register changes. The model's own reading or choice in log entry 53. -/
def Obligations.Stores : Prop :=
  ∀ (i : Instr) (s : State) (k : Site) (q : Asked), k.asks i = some q → q.r.op = .store → Issuing i s k → q.starts s k →
    let parts := (s.startLanes k.w q.r q.qs).parts
    ∃ n, exec i s = .next n ∧
      (∃ p ∈ n.pendOf k.w, p.id = s.nextId ∧ p.ctr = 1 ∧ p.off = k.p.pc ∧ p.dests = [] ∧ p.held = false ∧ p.kind = .mem { q.r with lanes := q.qs } [] [] parts.length) ∧
      (∀ a ∈ parts, ∃ z ∈ n.queue, z.w = k.w ∧ z.op = s.nextId ∧ z.loc = a.loc ∧ z.bytes = ((leBytes 8 a.d0.toNat).drop a.pos).take a.n ∧ z.rel = q.r.rel) ∧
      (∀ z ∈ s.queue, z.sid < s.nextId → z ∈ n.queue) ∧ (∀ z ∈ n.queue, z ∈ s.queue ∨ (z.w = k.w ∧ z.op = s.nextId)) ∧
      WordDone q.x i s k { s with nextId := s.nextId + 1 + parts.length, cache := n.cache, queue := n.queue }
        { k.v.incr 1 with pend := n.pendOf k.w } k.p none n

/-- R92, R93, R281, R282, R100: an address that is not canonical, or not aligned where the word requires it, kills the launch with BAD_ADDRESS or MISALIGNED,
whatever else its lanes do; a lane that meets a kill on its way kills with that status; and when lanes stay back, the path parks: on a fault entry with
the address, cause and lanes (of `sld` and `sst` the lowest active lane) when a page was absent, else on its absent lines. The model's own reading or choice in log entries 20 and 25. -/
def Obligations.MemoryStops : Prop :=
  ∀ (i : Instr) (s : State) (k : Site) (q : Asked), k.asks i = some q → Issuing i s k →
    let a := s.startLanes k.w q.r q.qs
    (q.qs.any (laneBad q.aligned q.r) = true → Kills i s k 0x0B k.p.pc 0) ∧
    (q.qs.any (laneBad q.aligned q.r) = false → q.aligned = true → q.qs.any (laneMisaligned q.r) = true → Kills i s k 0x0C k.p.pc 0) ∧
    (∀ st, q.sane → a.kill = some st → Kills i s k st k.p.pc 0) ∧
    (∀ va c lv, q.sane → a.kill = none → a.todo ≠ [] → a.fault = some (va, c, lv) → ∃ n v p f, exec i s = .next n ∧ n.wave? k.w = some v ∧
      v.path? k.pid = some p ∧ p.park = .fault f.fid ∧ f ∈ n.faults ∧ f.va = va ∧ f.cause = c ∧ f.level = lv ∧ f.lid = k.w.lid ∧ f.off = k.p.pc ∧
      f.lanes = (maskOf (a.todo.map (·.lane))).toNat ∧ f.resolved = false) ∧
    (q.sane → a.kill = none → a.todo ≠ [] → a.fault = none → ∃ n v p, exec i s = .next n ∧ n.wave? k.w = some v ∧
      v.path? k.pid = some p ∧ p.park = .line s.nextId)

/-- R101, R291: with no store to a scratchpad on its way, `spclr` makes the named lines absent and changes nothing else; `spclr.fill`, while nothing is parked, waits for a line or has
armed a stage, fills each named line that has no copies outstanding with zeros and makes it present; `spwait` goes on when all its lines are present and else parks. The model's own reading or choice in log entry 12. -/
def Obligations.PresenceInstructions : Prop :=
  ∀ (x : Bool) (a : BitVec 6) (n : BitVec 10) (s : State) (k : Site) (tm : Team), s.team? k.w.teamRef = some tm →
    let size := k.l.hdr.spadP
    let first := if size = 0 then 0 else (k.s a).toNat % 2 ^ 17 % size / 128
    let ls := if size = 0 then [] else (List.range (n.toNat + 1)).map fun j => (first + j) % (size / 128)
    let fill := fun (t : Team) (l : Nat) => if (tget l t.counts).getD 0 = 0 then
      { (t.writeSpad (128 * l) (List.replicate 128 0)) with absent := t.absent.filter (· ≠ l) } else t
    let quiet := (∀ e ∈ s.waves, (∀ p ∈ e.2.paths, p.park = .none) ∧ ∀ p ∈ e.2.pend, ∀ r todo ps n, p.kind = .mem r todo ps n → todo = []) ∧
      ∀ e ∈ s.teams, e.2.stages = []
    (s.noStores → Issuing (.spclr x a n) s k →
      Completes x (.spclr x a n) s k { s with teams := tmod k.w.teamRef (fun t => { t with absent := sunion ls t.absent }) s.teams } k.v k.p none) ∧
    (s.noStores → quiet → Issuing (.spclrFill x a n) s k →
      Completes x (.spclrFill x a n) s k { s with teams := tmod k.w.teamRef (fun t => ls.foldl fill t) s.teams } k.v k.p none) ∧
    ((∀ l ∈ ls, l ∉ tm.absent) → Issuing (.spwait x a n) s k → Completes x (.spwait x a n) s k s k.v k.p none) ∧
    ((∃ l ∈ ls, l ∈ tm.absent) → Issuing (.spwait x a n) s k →
      Completes x (.spwait x a n) s k s k.v { k.p with park := .lines first (n.toNat + 1), since := 0, parkOff := k.p.pc } none)

/-- R103 to R106, R292, R293: with no store to a scratchpad on its way, `starm` writes the slot, armed with the low word of s[B] and, in a launch with cohorts, the low byte of s[C];
`stwait` on a stage whose armed slots are all met writes the mask of forfeited slots, disarms the slots and acquires at cluster scope; else it parks. The forfeits
of R106 are settled in both. The model's own reading or choice in log entries 12 and 22. -/
def Obligations.StageInstructions : Prop :=
  ∀ (x : Bool) (a b c d : BitVec 6) (p : BitVec 3) (s : State) (k : Site) (t : TeamRef) (off : Nat), s.noStores →
    s.spadLoc k.w.teamRef ((k.s a).toNat % 2 ^ 32 / 128 * 128) = .spad t off →
    let noted := fun u : Team => { u with stages := sins off u.stages }
    let slot := fun u : Team => { u.stageSlot off p.toNat with
      expect := (k.s b).toNat % 2 ^ 32, rank := if k.l.hdr.cohort = 0 then 0 else (k.s c).toNat % 256, armed := true, forfeit := false }
    let armed := { s with teams := tmod t noted (tmod t (fun u => u.putSlot off p.toNat (slot u)) s.teams) }
    let asked := { s with teams := tmod t noted s.teams }
    ((∀ e ∈ s.waves, ∀ p ∈ e.2.paths, p.park = .none) → Issuing (.starm x a b c p) s k →
      Completes x (.starm x a b c p) s k { s with teams := armed.forfeits.teams } k.v k.p none) ∧
    (∀ tm, asked.forfeits.team? t = some tm → tm.stageMet off = true → Issuing (.stwait x d a) s k →
      Completes x (.stwait x d a) s k { s with teams := tmod t (fun _ => (tm.takeStage off).2) asked.forfeits.teams,
                                               cache := s.cache.filter fun e => e.1.1 ≠ s.coreOf k.w.teamRef }
        ((k.v.setS d.toNat (BitVec.ofNat 64 (tm.takeStage off).1)).raiseW (if (tm.takeStage off).1 = 0 then 0 else wFORFEIT))
        { k.p with park := .none, since := 0 } none) ∧
    (∀ tm, asked.forfeits.team? t = some tm → tm.stageMet off = false → Issuing (.stwait x d a) s k →
      Completes x (.stwait x d a) s k { s with teams := asked.forfeits.teams } k.v
        { k.p with park := .stage d.toNat ((k.s a).toNat % 2 ^ 32), since := 0, parkOff := k.p.pc } none)

/-- R124, R294: `tlwait` goes on, with a device-scope acquire, when the counter has reached s[A], and else parks. R145, R295: `cpy` raises CP and puts a copy, not yet
accepted, on its channel. R289: `vprf` changes at most the load cache. -/
def Obligations.TimelinesCopiesPrefetches : Prop :=
  ∀ (x : Bool) (c : BitVec 4) (a : BitVec 6) (n : BitVec 3) (h y z : BitVec 7) (s : State) (k : Site),
    let value := (k.l.timelines.getD c.toNat { issued := 0, finished := [], value := 0 }).value
    ((k.s a).toNat ≤ value → Issuing (.tlwait x c a) s k →
      Completes x (.tlwait x c a) s k { s with cache := s.cache.filter fun e => e.1.1 ≠ s.coreOf k.w.teamRef } k.v k.p none) ∧
    (value < (k.s a).toNat → Issuing (.tlwait x c a) s k →
      Completes x (.tlwait x c a) s k s k.v { k.p with park := .timeline c.toNat (k.s a), since := 0, parkOff := k.p.pc } none) ∧
    (Issuing (.cpy x n a) s k → ∃ e : Copy, e.cid = s.nextId ∧ e.cluster = s.coreOf k.w.teamRef / 192 ∧ e.chan = n.toNat ∧ e.lid = some k.w.lid ∧ e.ctx = k.l.ctx ∧
      e.w = k.w ∧ e.op = s.nextId + 1 ∧ e.off = k.p.pc ∧ e.index = (k.s a).toNat % 2 ^ 16 ∧ e.param = ((k.s a).extractLsb' 16 48).toInt ∧ e.accepted = false ∧
      Completes x (.cpy x n a) s k { s with nextId := s.nextId + 2, copies := s.copies ++ [e] }
        (k.v.addPend { k.posted s 4 [] (.copy s.nextId) with id := s.nextId + 1 }) k.p none) ∧
    (Issuing (.vprf x h y z) s k → ∃ cache, (h ≠ 1 → cache = s.cache) ∧ Completes x (.vprf x h y z) s k { s with cache := cache } k.v k.p none)

/-- R114, R120, R288: a `fence` never waits itself; it changes at most the fences that later accesses wait for and, as an acquire, the core's load cache. With nothing
outstanding and nothing on its way it takes its whole effect at issue: an acquire of cluster scope or wider discards the load cache, and no fence is left. The model's own reading or choice in log entry 10. -/
def Obligations.Fences : Prop :=
  ∀ (x : Bool) (r : BitVec 1) (sc : BitVec 3) (n : BitVec 2) (s : State) (k : Site), Issuing (.fence x r sc n) s k →
    let fresh := s.cache.filter fun e => e.1.1 ≠ s.coreOf k.w.teamRef
    (∃ cache fences, (cache = s.cache ∨ (cache = fresh ∧ n ≠ 1 ∧ sc ≠ 0)) ∧
      Completes x (.fence x r sc n) s k { s with nextId := s.nextId + 1, cache := cache } { k.v with fences := fences } k.p none) ∧
    (k.v.pend = [] → k.v.fences = [] → s.queue = [] → s.buffer = [] → (∀ tm, s.team? k.w.teamRef = some tm → tm.escrow = none) →
      Completes x (.fence x r sc n) s k { s with nextId := s.nextId + 1, cache := if n ≠ 1 ∧ sc ≠ 0 then fresh else s.cache } k.v k.p none)

/-! ### System instructions (R183, R240 to R245, R303) -/

/-- R240, R241, R364, R373: `trap` kills the launch with status TRAP, its own offset and its code; `brk` does nothing while the context's debug is off, and with it on
parks the path on a new fault entry of unit 5 whose address is the code. -/
def Obligations.TrapsAndBreakpoints : Prop :=
  ∀ (x : Bool) (c : BitVec 16) (s : State) (k : Site) (ctx : Ctx), s.ctx? k.l.ctx = some ctx →
    (Issuing (.trap x c) s k → Kills (.trap x c) s k 0x11 k.p.pc c.toNat) ∧
    (Issuing (.brk x c) s k → ctx.debug = false → Completes x (.brk x c) s k s k.v k.p none) ∧
    (Issuing (.brk x c) s k → ctx.debug = true → ∃ n f, exec (.brk x c) s = .next n ∧ n.faults = s.faults ++ [f] ∧ f.fid = s.nextId ∧ f.va = c.setWidth 64 ∧ f.unit = 5 ∧
      f.lid = k.w.lid ∧ f.off = k.p.pc ∧ f.tenant = ctx.tenant ∧ f.resolved = false ∧ f.holder = .brk k.w k.pid ∧
      WordDone x (.brk x c) s k { s with nextId := s.nextId + 1, tenants := n.tenants, faults := n.faults } k.v
        { k.p with park := .fault s.nextId, since := 0, parkOff := k.p.pc } none n)

/-- R123, R243, R339, R340: `evsig` signals its event, low 16 bits of s[E], at once when the wave's release at device scope is complete and, with nobody waiting, only the count changes; else
the signal follows. `evwait` writes the count and acquires when the count has reached s[N], and else parks as a waiter of the event.
R183: `hwait` on a handle that is RESOLVED (2) or BROKEN (3) writes what the handle answers, and a RESOLVED one acquires at fabric scope; on another it parks. The model's own reading or choice in log entry 60. -/
def Obligations.EventInstructions : Prop :=
  (∀ (x : Bool) (d e n : BitVec 6) (s : State) (k : Site) (ctx : Ctx) (tn : Tenant), s.ctx? k.l.ctx = some ctx → s.tenant? ctx.tenant = some tn →
    let ev := (k.s e).toNat % 2 ^ 16
    let count := (tget ev tn.events).getD 0
    let fresh := s.cache.filter fun e => e.1.1 ≠ s.coreOf k.w.teamRef
    (Issuing (.evsig x e) s k → s.waiters = [] → s.released k.w s.nextId 3 = true → Completes x (.evsig x e) s k { s with
      nextId := s.nextId + 1, tenants := tmod ctx.tenant (fun t => { t with events := tput ev (((tget ev t.events).getD 0 + 1) % 2 ^ 64) t.events }) s.tenants } k.v k.p none) ∧
    (Issuing (.evsig x e) s k → s.released k.w s.nextId 3 = false → Completes x (.evsig x e) s k { s with
      nextId := s.nextId + 1, signals := s.signals ++ [{ gid := s.nextId, tenant := ctx.tenant, ev := ev, w := k.w, op := s.nextId }] } k.v k.p none) ∧
    (Issuing (.evwait x d e n) s k → (k.s n).toNat ≤ count →
      Completes x (.evwait x d e n) s k { s with cache := fresh } (k.v.setS d.toNat (BitVec.ofNat 64 count)) k.p none) ∧
    (Issuing (.evwait x d e n) s k → count < (k.s n).toNat → ∃ a : Waiter, a.wid = s.nextId ∧ a.tenant = ctx.tenant ∧ a.ev = ev ∧ a.value = (k.s n).toNat ∧
      a.who = .path k.w k.pid ∧ a.ready = none ∧
      Completes x (.evwait x d e n) s k { s with nextId := s.nextId + 1, waiters := s.waiters ++ [a] } k.v
        { k.p with park := .event s.nextId d.toNat, since := 0, parkOff := k.p.pc } none)) ∧
  (∀ (x : Bool) (d h : BitVec 6) (s : State) (k : Site), Issuing (.hwait x d h) s k →
    let a := s.handleAnswer (k.s h)
    (2 ≤ a % 256 → Completes x (.hwait x d h) s k (if a % 256 = 2 then { s with cache := s.cache.filter fun e => e.1.1 ≠ s.coreOf k.w.teamRef } else s)
      (k.v.setS d.toNat (BitVec.ofNat 64 a)) { k.p with park := .none, since := 0 } none) ∧
    (a % 256 < 2 → Completes x (.hwait x d h) s k s k.v { k.p with park := .handle d.toNat (k.s h), since := 0, parkOff := k.p.pc } none))

/-- R303, R343: `evtime` schedules a signal at s[T], or s[T] after now, rounded up to 1,024 ticks, and writes 0; a time more than 2^40 ticks ahead writes 3 and a full allotment 2, with no
entry; a time that has come signals at once and writes 1 (with nobody waiting and the wave's release complete, only the count changes). The model's own reading or choice in log entry 60. -/
def Obligations.TimedSignals : Prop :=
  ∀ (x : Bool) (d e t : BitVec 6) (after : BitVec 1) (s : State) (k : Site) (ctx : Ctx) (tn : Tenant), s.ctx? k.l.ctx = some ctx → s.tenant? ctx.tenant = some tn →
    let i := Instr.evtime x d e t after
    let ev := (k.s e).toNat % 2 ^ 16
    let now := s.fabric.now
    let at' := ((if after = 1 then (now + (k.s t).toNat) % 2 ^ 64 else (k.s t).toNat) + 1023) / 1024 * 1024
    let used := (s.wheel.filter (·.tenant == ctx.tenant)).length
    let code := fun n : Word => k.v.setS d.toNat n
    Issuing i s k →
    (now < at' → at' ≤ now + 2 ^ 40 → used < tn.wheel → Completes x i s k { s with
      nextId := s.nextId + 2, wheel := s.wheel ++ [{ eid := s.nextId + 1, tenant := ctx.tenant, ev := ev, time := at', rel := some (k.w, s.nextId) }] } (code 0) k.p none) ∧
    (now + 2 ^ 40 < at' → Completes x i s k { s with nextId := s.nextId + 1 } (code 3) k.p none) ∧
    (now < at' → at' ≤ now + 2 ^ 40 → tn.wheel ≤ used → Completes x i s k { s with nextId := s.nextId + 1 } (code 2) k.p none) ∧
    (at' ≤ now → s.waiters = [] → s.released k.w (s.nextId + 1) 3 = true → Completes x i s k { s with
      nextId := s.nextId + 2, tenants := tmod ctx.tenant (fun u => { u with events := tput ev (((tget ev u.events).getD 0 + 1) % 2 ^ 64) u.events }) s.tenants } (code 1) k.p none)

/-! ### Fabric instructions (R176 to R181, R301, R302) -/

/-- R176: with no store to a scratchpad on its way, an `osend` reads its payload at issue, raises FB and awaits injection with the target node, context and mailbox of s[N], `osend.at` with
the stamp s[T]; a stamp too far ahead makes its result FAR, 2, and nothing is sent (R170); a poisoned byte kills the launch; with an absent line the word has issued, with its operands, and the path is parked until its line is present (R195, R302). The model's own reading or choice in log entries 12 and 69. -/
def Obligations.OrderedSends : Prop :=
  ∀ (x : Bool) (d n p t : BitVec 6) (len : BitVec 11) (s : State) (k : Site), s.noStores →
    let o := (k.s p).toNat % 2 ^ 32
    let ls := (List.range len.toNat).map fun j => s.spadAt k.w.teamRef o j
    let node := ((k.s n).extractLsb' 0 16).toNat
    let ctx := ((k.s n).extractLsb' 16 16).toNat
    let mbox := ((k.s n).extractLsb' 32 8).toNat
    let far := decide (s.fabric.now + 2 ^ 24 < (k.s t).toNat)
    let sent := fun (i : Instr) (stamp : Option Nat) (far : Bool) => Issuing i s k →
      ((∀ l ∈ ls, s.lineAbsent l = false) → (∀ l ∈ ls, (s.readLoc l).2 = false) →
        Completes x i s k { s with nextId := s.nextId + 1 } (k.v.addPend (k.posted s 5 [.s d.toNat] (.fab (if far then .done [.s d.toNat 2] else .osend d.toNat node ctx mbox
          (ls.map fun l => (s.readLoc l).1) stamp) false))) { k.p with park := .none, since := 0 } none) ∧
      ((∀ l ∈ ls, s.lineAbsent l = false) → (∃ l ∈ ls, (s.readLoc l).2 = true) → Kills i s k 0x0E k.p.pc 0) ∧
      ((∃ l ∈ ls, s.lineAbsent l = true) → ∃ m v q, exec i s = .next m ∧ m.wave? k.w = some v ∧ v.path? k.pid = some q ∧ q.pc = k.p.pc + 4 * i.words ∧ q.inClause = true ∧
        q.park = .payload s.nextId ∧ q.parkOff = k.p.pc ∧ v.sregs = k.v.sregs ∧ v.vregs = k.v.vregs ∧
        let u := k.v.addPend (k.posted s 5 [.s d.toNat] (.fab (.parked (.osend d.toNat node ctx mbox o len.toNat stamp) k.pid x) false))
        v.pend = u.pend ∧ v.ctr = u.ctr)
    sent (.osend x d n p len) none false ∧ sent (.osendAt x d n p t len) (some (k.s t).toNat) far

/-- R177, R301, R302: an `oatom` checks its address, walks it as an atomic and raises FB; the request names the home node and physical address, `oatom.at` with the stamp s[T]; a stamp too far ahead makes the results FAR, 2, and 0, and nothing is sent (R170); a bad address, a misaligned one
and a poisoned walk kill; on a page fault the word has issued, with its operands, and the path parks on the entry (R195, R282). The model's own reading or choice in log entries 25 and 69. -/
def Obligations.OrderedAtomics : Prop :=
  ∀ (x : Bool) (d a b c t : BitVec 6) (op : BitVec 4) (wide : BitVec 1) (s : State) (k : Site),
    let va := k.s a
    let w := if wide = 1 then 8 else 4
    let bad := badVA va
    let walk := s.translate true (s.coreOf k.w.teamRef) k.l.ctx .atomic va.toNat
    let cmp := if op = 9 then k.v.sreg (b.toNat + 1) else 0
    let far := decide (s.fabric.now + 2 ^ 24 < (k.s t).toNat)
    let sent := fun (i : Instr) (stamp : Option Nat) (far : Bool) => Issuing i s k →
      (bad = true → Kills i s k 0x0B k.p.pc 0) ∧ (bad = false → va.toNat % w ≠ 0 → Kills i s k 0x0C k.p.pc 0) ∧
      (bad = false → va.toNat % w = 0 → walk = .poison → Kills i s k 0x0E k.p.pc 0) ∧
      (∀ ca lv, bad = false → va.toNat % w = 0 → walk = .fault ca lv → ∃ n v q f, exec i s = .next n ∧ n.wave? k.w = some v ∧ v.path? k.pid = some q ∧
        q.pc = k.p.pc + 4 * i.words ∧ q.inClause = true ∧ q.park = .fault f.fid ∧ f ∈ n.faults ∧ f.va = va ∧ f.cause = ca ∧ f.level = lv ∧
        let u := k.v.addPend (k.posted s 5 [.s d.toNat, .s c.toNat] (.fab (.parked (.oatom d.toNat c.toNat va op (wide = 1) (k.s b) cmp stamp) k.pid x) false))
        v.pend = u.pend ∧ v.ctr = u.ctr) ∧
      (∀ pa fab node tso, bad = false → va.toNat % w = 0 → walk = .ok pa fab node tso →
        Completes x i s k { s with nextId := s.nextId + 1 } (k.v.addPend (k.posted s 5 [.s d.toNat, .s c.toNat] (.fab (
          if far then .done [.s c.toNat 2, .s d.toNat 0] else .oatom d.toNat c.toNat (if fab then node else s.fabric.node) pa op (wide = 1) (k.s b) cmp stamp) false))) { k.p with park := .none, since := 0 } none)
    sent (.oatom x d a b c op wide) none false ∧ sent (.oatomAt x d a b c t op wide) (some (k.s t).toNat) far

/-- R178 to R181, R184, R302: an `invk` or `invh` reads its record, at any address, and its argument block; with no slot to be had its result is handle 0; else it takes a slot of the tenant's share, an entry of
the handle table, and a good request awaits injection with the new handle, to the node and context that s[N] names or under the parent handle s[H]; a malformed record breaks the handle with REFUSED and status 0, and the parent handle 0 breaks it with INHERITED: nothing is sent, and the new handle is the result; on a page fault the word has issued, with its operands, and the path parks on the entry; a
poisoned read and a bad address kill. The model's own reading or choice in log entries 20, 40 and 69. -/
def Obligations.Invocations : Prop :=
  ∀ (x : Bool) (d n a : BitVec 6) (s : State) (k : Site),
    let read := readInvocation (s.loadVA k.w (s.coreOf k.w.teamRef) k.l.ctx s.nextId) (k.s a)
    let sent := fun (i : Instr) (node ctx : Nat) (parent : Option Word) => Issuing i s k →
      (∀ r args, read = .ok r args → s.handleSlotFor (s.tenantOfCtx k.l.ctx) = none →
        ∃ cache, ((∀ l, some (l, true) ∉ s.invokeSpots k.w s.nextId (k.s a)) → cache = s.cache) ∧
          Completes x i s k { s with nextId := s.nextId + 1, cache := cache } (k.v.addPend (k.posted s 5 [.s d.toNat] (.fab (.done [.s d.toNat 0]) false))) { k.p with park := .none, since := 0 } none) ∧
      (∀ r args slot gen, read = .ok r args → s.handleSlotFor (s.tenantOfCtx k.l.ctx) = some (slot, gen) → r.malformed = true ∨ parent = some 0 → mwf s.mem = true → s.fabric.heldInv = [] → ∃ m q e,
        exec i s = .next m ∧ q ∈ m.pendOf k.w ∧ q.ctr = 5 ∧ q.dests = [.s d.toNat] ∧ q.kind = .fab (.done [.s d.toNat (mkHandle s.fabric.node slot gen (if r.estate then 1 else 0))]) false ∧
        tget slot m.fabric.handles = some e ∧ e.st = 3 ∧ e.reason = (if r.malformed then 4 else 3) ∧ e.status = 0 ∧ e.gen = gen ∧
        (∀ b, b < s.fabric.htBase + 32 * slot ∨ s.fabric.htBase + 32 * slot + 32 ≤ b → mread b m.mem = mread b s.mem)) ∧
      (∀ r args slot gen, read = .ok r args → s.handleSlotFor (s.tenantOfCtx k.l.ctx) = some (slot, gen) → r.malformed = false → parent ≠ some 0 → mwf s.mem = true → ∃ m q e,
        exec i s = .next m ∧ q ∈ m.pendOf k.w ∧ q.ctr = 5 ∧ q.dests = [.s d.toNat] ∧
        q.kind = .fab (.invoke d.toNat node ctx (parent.getD 0) slot (mkHandle s.fabric.node slot gen (if r.estate then 1 else 0)) r.kernel r.items r.fmode r.estate args) false ∧
        tget slot m.fabric.handles = some e ∧ e.st = 0 ∧ e.gen = gen ∧
        (∀ b, b < s.fabric.htBase + 32 * slot ∨ s.fabric.htBase + 32 * slot + 32 ≤ b → mread b m.mem = mread b s.mem)) ∧
      (∀ va c lv, read = .stop (.fault va c lv) → ∃ m v q f, exec i s = .next m ∧ m.wave? k.w = some v ∧ v.path? k.pid = some q ∧
        q.pc = k.p.pc + 4 * i.words ∧ q.inClause = true ∧ q.park = .fault f.fid ∧ f ∈ m.faults ∧ f.cause = c ∧ f.level = lv ∧
        let u := k.v.addPend (k.posted s 5 [.s d.toNat] (.fab (.parked (.invoke d.toNat (k.s a) node ctx parent) k.pid x) false))
        v.pend = u.pend ∧ v.ctr = u.ctr) ∧
      (read = .stop .poison → Kills i s k 0x0E k.p.pc 0) ∧ (read = .stop .bad → Kills i s k 0x0B k.p.pc 0)
    sent (.invk x d n a) ((k.s n).extractLsb' 0 16).toNat ((k.s n).extractLsb' 16 16).toNat none ∧
    sent (.invh x d n a) (handleHome (k.s n)) 0 (some (handleOf (k.s n)))

/-! ### The matrix engine (R156 to R165, R297 to R299) -/

/-- R156: while the quad's engine has a gang, `mgang` joins the waiting waves and parks; on a quad that is free, with nobody waiting, a gang of one forms at once, with its wave as member 0, and the
wave goes on; the join that fills a gang of n waves of one team or cohort forms it, its members in the order of team and wave, and every path that waited goes on. The accumulators stand only when the last gang was of the same launch. R297: `mgang` of a wave that is a member kills the launch with
GANG_MISUSE; `mgang.leave` of a wave in no gang does nothing; of a member it ends the membership: a baton that it holds is freed, and its turn goes to the next live member (nobody parked for the baton, or another holding it); the last member dissolves the gang (nobody waiting to
join); R157: whoever waits at the sluice goes on with GANGBROKEN, its instruction undone. -/
def Obligations.Gangs : Prop :=
  ∀ (x : Bool) (n : BitVec 3) (r : BitVec 6) (s : State) (k : Site),
    let q := s.coreOf k.w.teamRef / 4
    let t := s.quad q
    let key := (k.s r).toNat % 2 ^ 16
    let j : Join := { w := k.w, pid := k.pid, key := key, n := n.toNat, clk := k.v.lclk }
    let i := Instr.mgang x n r
    let out := Instr.mgangLeave x
    let kept := t.lastLid = some k.w.lid
    let formed := fun gang : Gang => { t with
      gang := some gang, acc := if kept then t.acc else [], tags := if kept then t.tags else List.replicate 8 0, ranges := [], lastLid := some k.w.lid,
      bad := if kept then t.bad else [], badRanges := [], obuf := if kept then t.obuf else [], fetched := kept && t.fetched }
    (Issuing i s k → (s.memberOf q k.w).isSome = true → Kills i s k 0x17 k.p.pc 0) ∧
    (Issuing i s k → badJoin k s q n.toNat key = false → t.gang.isSome = true →
      Completes x i s k { s with quads := tput q { t with joins := t.joins ++ [j] } s.quads } k.v { k.p with park := .mgang, since := 0, parkOff := k.p.pc } none) ∧
    (Issuing i s k → n = 1 → q < 768 → t.gang = none → t.joins = [] → t.ops = [] → q ∉ s.device.fencedQuads →
      let gang : Gang := { lid := k.w.lid, key := key, n := 1, members := [(k.w, true)], turn := 0, holder := none }
      Completes x i s k { s with quads := tput q (formed gang) (tput q { t with joins := [j] } s.quads) }
        (if k.l.hdr.det then { k.v with lskip := BitVec.ofNat 64 (max (k.counted x k.v).lclk (k.v.lclk + 1) - (k.counted x k.v).icount.toNat) } else k.v)
        { k.p with park := .none, since := 0, parkOff := k.p.pc } none) ∧
    (Issuing out s k → s.memberOf q k.w = none → Completes x out s k s k.v k.p none) ∧
    (Issuing i s k → badJoin k s q n.toNat key = false → q < 768 → t.gang = none → t.ops = [] → q ∉ s.device.fencedQuads → t.joins.length + 1 = n.toNat →
      (∀ c ∈ t.joins, c.w.lid = k.w.lid ∧ c.key = key ∧ c.n = n.toNat ∧ s.sameScope k.l c.w k.w = true ∧ ∀ tm, s.team? c.w.teamRef = some tm → tm.st = .resident) →
      (∀ c ∈ t.joins, (s.team? c.w.teamRef).isSome = true) → ∃ (z : State) (ms : List WaveRef), exec i s = .next z ∧ z.mem = s.mem ∧ KeepRegs s z ∧
        ms.Perm (t.joins.map (·.w) ++ [k.w]) ∧ ms.Pairwise (fun a b => a.team < b.team ∨ (a.team = b.team ∧ a.wave ≤ b.wave)) ∧
        z.quad q = { formed { lid := k.w.lid, key := key, n := n.toNat, members := ms.map (·, true), turn := 0, holder := none } with joins := [] } ∧
        ∀ c ∈ t.joins ++ [j], ∀ p, (z.wave? c.w).bind (·.path? c.pid) = some p → p.park = .none) ∧
    (∀ g m, Issuing out s k → s.memberOf q k.w = some (g, m) →
      let joins := t.joins.filter (·.w ≠ k.w)
      let rest : Gang := { g with members := setAt g.members m (k.w, false) }
      let passed : Gang := if g.holder = some m then { rest with holder := none, turn := nextTurn rest m } else if g.turn = m then { rest with turn := nextTurn rest m } else rest
      let left := { t with joins := joins, arrivals := [], gang := some passed }
      (t.arrivals = [] → rest.members.any (·.2) = true → ((∃ h, g.holder = some h ∧ h ≠ m) ∨ ∀ e ∈ s.waves, ∀ p ∈ e.2.paths, p.park ≠ .baton) →
        Completes x out s k { s with quads := tput q left (tput q { t with joins := joins } s.quads) } k.v k.p none) ∧
      (t.arrivals = [] → rest.members.any (·.2) = false → joins = [] →
        Completes x out s k { s with quads := tput q { left with gang := none } (tput q { t with joins := joins } s.quads) } k.v k.p none) ∧
      ∃ z, exec out s = .next z ∧ (z.quad q).arrivals = [] ∧ (z.quad q).ops = t.ops ∧ z.mem = s.mem ∧
        ∀ c ∈ t.arrivals, c.w ≠ k.w → ∀ v, s.wave? c.w = some v → ∃ v', z.wave? c.w = some v' ∧ v'.pend? c.op = none ∧ v'.wstat.getLsbD 1 = true ∧
          ∀ p, v'.path? c.pid = some p → p.park = .none)

/-- R158, R298: `baton take` of the holder does nothing; while another member holds the baton, or it is free and the turn is another's who does not wait for it, the path parks; a free baton goes to the member whose turn it is (with no other path of its wave waiting for it). `baton
pass` of a member that does not hold it does nothing; the holder's frees it and gives the turn to the next live member (with nobody waiting for the baton or at the sluice). `baton query` writes holder, turn and
whether it is held; while nobody holds it the holder reads 0. A wave in no gang is killed by each with GANG_MISUSE (R297). The model's own reading or choice in log entry 69. -/
def Obligations.Batons : Prop :=
  ∀ (x : Bool) (d : BitVec 6) (s : State) (k : Site),
    let q := s.coreOf k.w.teamRef / 4
    let t := s.quad q
    let take := Instr.batonTake x
    let pass := Instr.batonPass x
    let query := Instr.batonQuery x d
    (∀ i, i = take ∨ i = pass ∨ i = query → Issuing i s k → s.memberOf q k.w = none → Kills i s k 0x17 k.p.pc 0) ∧
    ∀ g m, s.memberOf q k.w = some (g, m) →
      (Issuing take s k → g.holder = some m → Completes x take s k s k.v k.p none) ∧
      (∀ h, Issuing take s k → g.holder = some h → h ≠ m → Completes x take s k s k.v { k.p with park := .baton, since := 0, parkOff := k.p.pc } none) ∧
      (Issuing take s k → g.holder = none → g.turn ≠ m → (∀ z, g.members[g.turn]? = some (z, true) → z ≠ k.w ∧ ∀ v, s.wave? z = some v → ∀ p ∈ v.paths, p.park ≠ .baton) →
        Completes x take s k s k.v { k.p with park := .baton, since := 0, parkOff := k.p.pc } none) ∧
      (Issuing take s k → g.holder = none → g.turn = m → (∀ p ∈ k.v.paths, p.park ≠ .baton) →
        Completes x take s k { s with quads := tput q { t with gang := some { g with holder := some m } } s.quads } k.v
          { k.p with park := .none, since := 0, parkOff := k.p.pc } none) ∧
      (Issuing pass s k → g.holder ≠ some m → Completes x pass s k s k.v k.p none) ∧
      (Issuing pass s k → g.holder = some m → t.arrivals = [] → (∀ e ∈ s.waves, ∀ p ∈ e.2.paths, p.park ≠ .baton) →
        Completes x pass s k { s with quads := tput q { t with gang := some { g with holder := none, turn := nextTurn g m } } s.quads } k.v k.p none) ∧
      (Issuing query s k → Completes x query s k s
        (k.v.setS d.toNat (BitVec.ofNat 64 (g.holder.getD 0 + 16 * g.turn + if g.holder.isSome then 128 else 0))) k.p none)

/-- R157, R158, R163: a sluice instruction (`mres`, `mrel`, `mma`, `mzero`, `mst`, `gate.*`) raises MX. From the holder of the baton it enters the engine's order at once, alone. While another member holds the
baton, or while another live member has not arrived, it waits at the sluice and its path parks. The arrival of the last live member, with the baton free, passes the instruction to the engine's order once, for every live member in gang order, with the scalar of the lowest, and every path that
waited goes on. One not of the holder that differs from what waits there, and one of a wave in no gang, kills with GANG_MISUSE. -/
def Obligations.SluiceInstructions : Prop :=
  ∀ (x : Bool) (n d a b : BitVec 3) (r : BitVec 6) (s : State) (k : Site),
    let q := s.coreOf k.w.teamRef / 4
    let t := s.quad q
    let entered := fun (i : Instr) (v : Word) => { t with ops := t.ops ++ [{
      instr := i, members := [(k.w, s.nextId, k.p.pc)], scalar := v, row := 0, stall := none, stalled := 0, data := [], flags := 0, noted := [] }] }
    let u := k.v.addPend (k.posted s 3 [] (.engine q))
    let words := fun (i : Instr) (v : Word) => Issuing i s k →
      (s.memberOf q k.w = none → Kills i s k 0x17 k.p.pc 0) ∧
      ∀ g m, s.memberOf q k.w = some (g, m) →
        ((∃ c ∈ t.arrivals, c.instr ≠ i) → g.holder ≠ some m → Kills i s k 0x17 k.p.pc 0) ∧
        (g.holder = some m →
          Completes x i s k { s with nextId := s.nextId + 1, quads := tput q (entered i v) s.quads } u k.p none) ∧
        ((∀ c ∈ t.arrivals, c.instr = i) → (∃ h, g.holder = some h ∧ h ≠ m) ∨ (g.holder = none ∧ ∃ z, (z, true) ∈ g.members ∧ z ≠ k.w ∧ ∀ c ∈ t.arrivals, c.w ≠ z) →
          Completes x i s k { s with nextId := s.nextId + 1, quads := tput q { t with arrivals := t.arrivals ++ [{
            w := k.w, pid := k.pid, instr := i, scalar := v, off := k.p.pc, op := s.nextId, clk := k.v.lclk }] } s.quads } u
            { k.p with park := .sluice, since := 0, parkOff := k.p.pc } none) ∧
        (let live := (g.members.filter (·.2)).map (·.1)
         g.holder = none → live.Nodup → (t.arrivals.map (·.w)).Nodup → (∀ c ∈ t.arrivals, c.instr = i ∧ c.w ∈ live ∧ c.w ≠ k.w) → (∀ z ∈ live, z ≠ k.w → ∃ c ∈ t.arrivals, c.w = z) → ∃ m' o,
          exec i s = .next m' ∧ (m'.quad q).arrivals = [] ∧ (m'.quad q).ops = t.ops ++ [o] ∧ m'.mem = s.mem ∧ k.posted s 3 [] (.engine q) ∈ m'.pendOf k.w ∧
          o = { instr := i, members := o.members, scalar := o.scalar, row := 0, stall := none, stalled := 0, data := [], flags := 0, noted := [] } ∧ o.members.map (·.1) = live ∧
          (∀ e ∈ o.members, (e.1 = k.w → e.2 = (s.nextId, k.p.pc)) ∧ ∀ c ∈ t.arrivals, c.w = e.1 → e.2 = (c.op, c.off)) ∧
          (live.head? = some k.w → o.scalar = v) ∧ (∀ c ∈ t.arrivals, live.head? = some c.w → o.scalar = c.scalar) ∧
          (∀ p, (m'.wave? k.w).bind (·.path? k.pid) = some p → p.park = .none) ∧ ∀ c ∈ t.arrivals, ∀ p, (m'.wave? c.w).bind (·.path? c.pid) = some p → p.park = .none)
    words (.mres x n r) (k.s r) ∧ words (.mrel x n) 0 ∧ words (.mma x d a b) 0 ∧ words (.mzero x d) 0 ∧ words (.mst x n r) (k.s r) ∧
    words (.gateSig x d a) 0 ∧ words (.gateTanh x d a) 0 ∧ words (.gateMul x d a b) 0 ∧ words (.gateAdd x d a b) 0 ∧ words (.gateLerp x d a b) 0 ∧
    words (.gateScale x d a r) (k.s r)

/-- R163, R164, R195, R298: a member instruction (`mrd`, `mwr`, `mld`, `rstat.f32`) raises MX and enters the engine's order when it issues, with the scalar, the active lanes and the data that it
reads then, whoever holds the baton; `mrd` and `rstat.f32` await their registers. -/
def Obligations.MemberInstructions : Prop :=
  ∀ (x : Bool) (d v : BitVec 7) (c : BitVec 3) (r : BitVec 6) (n : BitVec 32) (s : State) (k : Site),
    let q := s.coreOf k.w.teamRef / 4
    let t := s.quad q
    let words := fun (i : Instr) (dests : List Reg) (scalar : Word) (data : List (Nat × Word)) => Issuing i s k →
      (s.memberOf q k.w = none → Kills i s k 0x17 k.p.pc 0) ∧
      ((s.memberOf q k.w).isSome = true → Completes x i s k { s with nextId := s.nextId + 1, quads := tput q { t with ops := t.ops ++ [{
        instr := i, members := [(k.w, s.nextId, k.p.pc)], scalar := scalar, row := 0, stall := none, stalled := 0, data := data, flags := 0, noted := [] }] } s.quads }
        (k.v.addPend (k.posted s 3 dests (.engine q))) k.p none)
    words (.mrd x d c r) [.v d.toNat] (k.s r) (k.lanes.map fun l => (l, 0)) ∧
    words (.mwr x c v r) [] (k.s r) (k.lanes.map fun l => (l, (k.v.vreg v.toNat).lane l)) ∧
    words (.mld x c n) [] 0 [] ∧
    words (.rstat x d c) ((List.range 3).map fun j => .v (d.toNat + j)) 0 (k.lanes.map fun l => (l, 0))

/-! ### Steps of waves and teams -/

/-- R20 to R23, R26, R162, R245: a swap exchanges the spilled path that is due, of greatest age, with the resident path of least age, which enters the berm with age zero, on its top; the end of
a `yield` window makes its path eligible again; a path, or an engine operation, parked beyond the park limit kills its launch with PARK_TIMEOUT at the word that it is parked on. The model's own reading or choice in log entry 69. -/
def Obligations.PathSteps : Prop :=
  ∀ (w : WaveRef) (q n : Nat) (slot1 : Bool) (s : State) (v : Wave) (l : Launch), s.wave? w = some v → s.launch? w.lid = some l → l.st = .running → s.wlog = [] →
    let limit := match s.ctx? l.ctx with | some c => c.swap | none => 4096
    let place := if slot1 then v.slot1 else v.slot0
    let only := fun (u : Wave) (t : State) => t = { s with waves := t.waves } ∧ (∀ z, z ≠ w → t.wave? z = s.wave? z) ∧ t.wave? w = some u
    (∀ p r, s.running w = true → s.unpoisoned → oldest v.spilled (fun p => !p.isParked && limit ≤ p.age) = some p → v.victim = some r →
      v.path? r.pid = some r → v.path? p.pid = some p →
      let put := fun o : Option Path => o.map fun a => if a.pid = r.pid then p else a
      ∃ u, u = { v with slot0 := put v.slot0, slot1 := put v.slot1, spilled := { r with age := 0 } :: v.spilled.filter (·.pid ≠ p.pid) } ∧
        Answers (.bermSwap w) s (only u)) ∧
    (∀ p, place = some p → p.yielded = some 0 →
      Answers (.yieldWindowEnd w slot1) s (only (v.modPath p.pid fun a => { a with yielded := none, owed := [] }))) ∧
    (∀ p, place = some p → p.park ≠ .none → s.present w = true → s.parkLimit w.lid < p.since →
      KillsLaunch (.parkTimeout (.slot w slot1)) s w.lid 0x0F p.parkOff 0) ∧
    (∀ p, v.spilled[n]? = some p → p.park ≠ .none → s.present w = true → s.parkLimit w.lid < p.since →
      KillsLaunch (.parkTimeout (.berm w n)) s w.lid 0x0F p.parkOff 0) ∧
    (∀ o os z op off ms, (s.quad q).ops = o :: os → o.members = (z, op, off) :: ms → z.lid = w.lid → s.parkLimit w.lid < o.stalled →
      KillsLaunch (.parkTimeout (.engine q)) s w.lid 0x0F off 0)

/-- R27 to R31, R345, R347: a barrier phase that is ready releases every path parked on it, and its instance starts afresh (in a deterministic launch a cohort phase is a det operation); no
register and no memory changes. A det operation whose turn has come takes effect: a drop frees the sealed estates of its tag, a claim takes what it delivers (R49, R52), an atomic writes its result at its home and
holds the old value (R107, R108), none of them delivered yet. A ticket whose take is ready advances its counter. The model's own reading or choice in log entries 26 and 27. -/
def Obligations.BarrierTicketSteps : Prop :=
  ∀ (s : State), s.wlog = [] →
    (∀ b, s.phaseReady b = true → s.phaseDet b = true →
      let freed := fun t : State => t.mem = s.mem ∧ KeepRegs s t ∧
        (∀ w v, s.wave? w = some v → w.teamRef ∉ s.barTeams b → t.wave? w = some v) ∧
        (∀ w v', t.wave? w = some v' → w.teamRef ∈ s.barTeams b → v'.ended = false → ∀ p ∈ v'.paths, p.park ≠ .bar (barCohort b) (barNum b)) ∧
        (∀ r ∈ s.barTeams b, ∀ k, s.team? r = some k →
          t.team? r = some { k with bars := k.bars.filter fun x => !(x.cohort == barCohort b && x.n == barNum b) })
      Answers (.barrierPhaseComplete b) s freed ∧
      (∀ lid c n l, b = .cohort lid c n → s.launch? lid = some l → l.hdr.det = true → Answers (.detOpEffect (.phase lid c n)) s freed)) ∧
    (∀ w op v p tag, s.wave? w = some v → v.pend? op = some p → p.kind = .edrop tag → tag ≠ 0 → p.held = true → (∀ q ∈ v.pend, q.held = true → op ≤ q.id) →
      s.detClear w.lid p.clk (logicalId w) (· == w) = true → v.estateTurn op = true →
      Answers (.detOpEffect (.op w op)) s fun t => KeepRegs s t ∧
        (t.wave? w).bind (·.pend? op) = some { p with kind := .result [] 0, held := false } ∧
        ∀ g ∈ t.granules, g.ctx = s.ctxOf w.lid → g.tag = tag → g.isSealed = true → g.valid = 0) ∧
    (∀ w op v p, s.wave? w = some v → v.pend? op = some p → p.held = true → (∀ q ∈ v.pend, q.held = true → op ≤ q.id) → s.detClear w.lid p.clk (logicalId w) (· == w) = true → s.unpoisoned →
      let ctx := s.ctxOf w.lid
      let loosed := s.modWave w fun u => u.modPend op fun x => { x with held := false }
      (∀ m d n keep tag keys, p.kind = .ecl m d n keep tag keys → v.estateTurn op = true → Answers (.detOpEffect (.op w op)) s fun t => KeepRegs s t ∧ (∀ z, z ≠ w → t.wave? z = s.wave? z) ∧
        t.wave? w = some ((s.claimed ctx tag keys v).modPend op fun x => { x with kind := .result (s.claimWrites ctx m d n tag keys) 0, held := false }) ∧
        t.cache = (s.cache.filter fun e => e.1.1 ≠ s.coreOf w.teamRef) ∧ Claimed s t ctx tag keep keys) ∧
      (∀ r q a o, p.kind = .mem r [] [q] 0 → r.op = .atom o → r.sp = false → r.w = 4 ∨ r.w = 8 → q.val = none → q.loc = .home a → q.n = r.w → loosed.canPerform w { p with held := false } 0 = true →
        s.queue = [] → s.buffer = [] → v.seen = [] → s.sound = true →
        let bs := mreadN a r.w s.mem
        Answers (.detOpEffect (.op w op)) s fun t => Wrote s t a (leBytes r.w (atomOp o.toNat r.w r.fmt (s.fmOf w) (leNat bs) q.d0.toNat q.d1.toNat)) ∧ (∀ z, z ≠ w → t.wave? z = s.wave? z) ∧
          t.wave? w = some (v.modPend op fun x => { x with kind := .mem r [] [{ q with val := some (bs.map fun b => (b, false)) }] 0, held := false }))) ∧
    (∀ (lid : Nat) (k : BitVec 3) (l : Launch) (tk : PendTake), s.launch? lid = some l → l.tickets.length = 8 → l.marked = [] → s.takes = [tk] →
      tk.w.lid = lid → tk.k = k.toNat → s.takeReady tk = true → l.tickets.getD k.toNat 0 = tk.w.team →
      Answers (.ticketAdvance lid k) s fun t => t.mem = s.mem ∧ KeepRegs s t ∧ t.takes = [] ∧
        (t.launch? lid).map (·.tickets) = some (setAt l.tickets k.toNat (tk.w.team + 1)))

/-- R91, R188, R231, R250, R280, R283, R294, R50, R170, R176: a result that returns is written to its registers with its flags and its counter falls; nothing else changes. A load delivers the bytes that memory
holds when it is performed; an `sld` that read poison kills the launch. A timeline read delivers the counter. A query delivers the lanes whose keys are present; a claim (R49, R51, R52) delivers the estates of its keys, acquires, raises ORPHAN for an absent key, and consumes what it delivers unless it keeps it. An atomic (R107, R122) that is performed at its home writes
the result there and returns the old value, several lanes of one location in ascending order. An ordered send with a stamp below the
injector's floor is refused with 1, whatever node it names; one without a stamp, to a node that no route reaches, with 3. The model's own reading or choice in log entry 38. -/
def Obligations.ResultSteps : Prop :=
  ∀ (w : WaveRef) (op : Nat) (s : State) (v : Wave) (p : Pend), s.wave? w = some v → v.pend? op = some p → s.wlog = [] →
    let noneDue := ∀ f ∈ s.fabric.future, s.fabric.now < f.stamp
    (∀ ws flags, p.kind = .result ws flags →
      (p.ctr = 0 → Delivers (.loadReturn w op) s w op ws flags) ∧ (p.ctr = 2 → Delivers (.sfuResult w op) s w op ws flags) ∧
      (p.ctr = 7 → Delivers (.xlResult w op) s w op ws flags) ∧ (p.ctr = 6 → Delivers (.ecComplete w op) s w op ws flags)) ∧
    (∀ d c, p.kind = .tlread d c → Delivers (.loadReturn w op) s w op [.s d (BitVec.ofNat 64 (s.timeline w.lid c).value)] 0) ∧
    (∀ r q d a, p.kind = .mem r [] [q] 0 → r.op = .load → r.w = 8 → r.acq = none → r.dst = some (.v d) → q.val = none → q.loc = .home a → q.pos = 0 → q.n = 8 →
      s.canPerform w p 0 = true → s.queue = [] → s.buffer = [] → s.cache = [] → v.seen = [] → s.unpoisoned →
      Delivers (.loadReturn w op) s w op [.v d [(q.lane, BitVec.ofNat 64 (leNat (mreadN a 8 s.mem)), 0)]] 0) ∧
    (∀ r q d bs l, p.kind = .mem r [] [q] 0 → r.op = .load → r.w = 8 → r.dst = some (.s d) → q.val = some bs → bs.length = 8 → q.pos = 0 → q.n = 8 →
      s.launch? w.lid = some l → l.st = .running →
      (bs.any (·.2) = false → Delivers (.loadReturn w op) s w op [.s d (BitVec.ofNat 64 (leNat (bs.map (·.1))))] 0) ∧
      (bs.any (·.2) = true → KillsLaunch (.loadReturn w op) s w.lid 0x0E p.off 0)) ∧
    (∀ m tag keys, p.kind = .equery m tag keys → p.held = false → v.estateTurn op = true →
      Delivers (.ecComplete w op) s w op [.m m (maskOf ((keys.filter fun q => s.keyPresent (s.ctxOf w.lid) tag q.2).map (·.1)))] 0) ∧
    (∀ m d n keep tag keys, p.kind = .ecl m d n keep tag keys → p.held = false → v.estateTurn op = true → s.unpoisoned →
      let ctx := s.ctxOf w.lid
      Answers (.ecComplete w op) s fun t => t.wave? w = some ((((s.claimed ctx tag keys v).applyWrites (s.claimWrites ctx m d n tag keys)).raise 0).endPend op) ∧
        (∀ z, z ≠ w → t.wave? z = s.wave? z) ∧ t.cache = (s.cache.filter fun e => e.1.1 ≠ s.coreOf w.teamRef) ∧ Claimed s t ctx tag keep keys) ∧
    (∀ r q d a o, p.kind = .mem r [] [q] 0 → r.op = .atom o → r.sp = false → r.w = 4 ∨ r.w = 8 → r.dst = some (.v d) → q.val = none → q.loc = .home a → q.pos = 0 → q.n = r.w →
      s.canPerform w p 0 = true → s.queue = [] → s.buffer = [] → v.seen = [] → s.unpoisoned → s.sound = true →
      let old := leNat (mreadN a r.w s.mem)
      Answers (.loadReturn w op) s fun t => Wrote s t a (leBytes r.w (atomOp o.toNat r.w r.fmt (s.fmOf w) old q.d0.toNat q.d1.toNat)) ∧
        (∀ z, z ≠ w → t.wave? z = s.wave? z) ∧ t.wave? w = some (((v.applyWrites [.v d [(q.lane, BitVec.ofNat 64 old, 0)]]).raise 0).endPend op)) ∧
    (∀ r q q' d a o, p.kind = .mem r [] [q, q'] 0 → r.op = .atom o → r.sp = false → r.w = 4 ∨ r.w = 8 → r.dst = some (.v d) → q.lane < q'.lane →
      (∀ x ∈ [q, q'], x.val = none ∧ x.loc = .home a ∧ x.pos = 0 ∧ x.n = r.w) → s.canPerform w p 0 = true →
      (∀ z p', z = s.perform w p 0 → (z.wave? w).bind (·.pend? op) = some p' → z.canPerform w p' 1 = true) → s.queue = [] → s.buffer = [] → v.seen = [] → s.unpoisoned → s.sound = true →
      let old := leNat (mreadN a r.w s.mem)
      let next := fun (n : Nat) (x : Part) => atomOp o.toNat r.w r.fmt (s.fmOf w) n x.d0.toNat x.d1.toNat
      Answers (.loadReturn w op) s fun t => Wrote s t a (leBytes r.w (next (leNat (leBytes r.w (next old q))) q')) ∧
        t.wave? w = some (((v.applyWrites [.v d [(q.lane, BitVec.ofNat 64 old, 0), (q'.lane, BitVec.ofNat 64 (leNat (leBytes r.w (next old q))), 0)]]).raise 0).endPend op)) ∧
    (∀ ws b, p.kind = .fab (.done ws) b → Delivers (.fbComplete w op) s w op ws 0) ∧
    (∀ d n c m bs st, p.kind = .fab (.osend d n c m bs (some st)) false → v.firstToLeave op = true → s.fabReleased w op = true → noneDue → st < s.floorF → Delivers (.fbComplete w op) s w op [.s d 1] 0) ∧
    (∀ d n c m bs, p.kind = .fab (.osend d n c m bs none) false → v.firstToLeave op = true → s.fabReleased w op = true → noneDue → s.reachable n = false →
      Delivers (.fbComplete w op) s w op [.s d 3] 0) ∧
    (∀ d c m bs, p.kind = .fab (.osend d s.fabric.node c m bs none) false → v.firstToLeave op = true → s.fabReleased w op = true → s.fabric.future = [] → s.excisedNode s.fabric.node = false →
      Answers (.fbComplete w op) s fun t => t.mem = s.mem ∧ t.wave? w = some (((v.applyWrites [.s d 0]).raise 0).endPend op) ∧
        t.fabric.nextSeq = s.fabric.nextSeq + 1 ∧ t.fabric.held = s.fabric.held ++ [{
          stamp := s.fabric.now, src := BitVec.ofNat 16 s.fabric.node, seq := s.fabric.nextSeq, dst := BitVec.ofNat 16 s.fabric.node, late := false,
          body := .osend c m bs }])

/-- R113, R188, R285: a store that may be performed at its home writes exactly its bytes there and is acknowledged, so that it is no longer on its way; nothing else changes. One to a scratchpad changes no
device memory. The model's own reading or choice in log entry 2. -/
def Obligations.StoreAcknowledged : Prop :=
  ∀ (sid : Nat) (s : State) (r : StoreRec), s.sound = true → (∀ z ∈ s.queue, z.sid ≠ sid) → s.buffer.find? (·.sid == sid) = some r → s.canPerformStore r = true → r.escrowed = false →
    let acked := fun t : State => (∀ z, z ≠ r.w → t.wave? z = s.wave? z) ∧ t.wave? r.w = (s.wave? r.w).map (·.ackStore r.op) ∧ t.buffer = s.buffer.filter (·.sid ≠ sid)
    (∀ a, r.loc = .home a → Answers (.storeAck sid) s fun t => acked t ∧ Wrote s t a r.bytes ∧
      t = { s with mem := t.mem, mempoison := t.mempoison, waves := t.waves, buffer := t.buffer, cache := t.cache }) ∧
    (∀ u o k, r.loc = .spad u o → r.whole = false → s.quiet → s.team? u = some k → k.alive = true → k.st ≠ .saved → Answers (.storeAck sid) s fun t => acked t ∧
      t.team? u = some (k.writeSpad o r.bytes) ∧ (∀ z, z ≠ u → t.team? z = s.team? z) ∧ t = { s with teams := t.teams, waves := t.waves, buffer := t.buffer, cache := t.cache })

/-- R39, R48, R125, R322, R373: a launch that meets every condition retires: it is closed, its waves and teams are gone, no lane is held for it, and every estate that it leaves is sealed. A killed launch whose stores
have been acknowledged is closed too. A retired team of a launch that seals per team has its granules sealed. The model's own reading or choice in log entry 43. -/
def Obligations.LaunchEnds : Prop :=
  ∀ (lid : Nat) (s : State) (l : Launch), s.launch? lid = some l →
    let ended := fun t : State => (t.launch? lid).map (·.st) = some .closed ∧ (∀ e ∈ t.waves, e.1.lid ≠ lid) ∧ ∀ e ∈ t.teams, e.1.lid ≠ lid
    (s.canRetire lid l = true → Answers (.launchRetire lid) s fun t => ended t ∧
      ∀ g ∈ t.granules, (g.lid = lid → g.isSealed = true) ∧ ∀ h ∈ g.heldBy, h.2 ≠ lid) ∧
    (l.st = .killed → s.storesAcked (·.lid == lid) = true → Answers (.killRecordWrite lid) s ended) ∧
    (∀ r k, r.lid = lid → s.team? r = some k → k.st = .retired → k.isSealed = false → l.st = .running → l.hdr.seals.any id = true → s.allReleased (·.teamRef == r) = true →
      Answers (.teamSeal r) s fun t => t.team? r = some { k with isSealed := true } ∧
        ∀ g ∈ t.granules, g.lid = lid → g.team = r.team → l.hdr.sealsTeam g.tag = true → g.isSealed = true)

/-- R18, R54, R98, R333 to R337, R381 to R383: the teams of the unit that is picked are placed on the given cores, their scratchpads empty with every line present, their waves not yet born, with their live lanes in m0 and, of a launch
that is no heir, m7 zero. A wave is born with one path at the entry; the team runs once its last wave is born. A halted team whose results have landed is saved. A saved unit that fits is restored onto its cores. The model's own reading or choice in log entry 57. -/
def Obligations.TeamSteps : Prop :=
  ∀ (lid : Nat) (s : State) (l : Launch), s.launch? lid = some l →
    (∀ (tn : BitVec 4) (cores : List Nat) (s0 : State) (u : Nat) (l' : Launch), s.pick tn.toNat s.wants = some (lid, s0) → s.restores lid l = false → l.hdr.istrict = false → s.placeNext lid l cores = some (u, l') →
      (l.unitTeams u).any (s.claimsBad lid l) = false → Answers (.teamPlace tn cores) s fun t => ∀ (j team core : Nat), (l.unitTeams u)[j]? = some team → cores[j]? = some core →
        ∃ k, t.team? ⟨lid, team⟩ = some k ∧ k.core = core ∧ k.st = .placed ∧ k.spad = [] ∧ k.absent = [] ∧
          ∀ w, w < l.hdr.waves → ∃ v, t.wave? ⟨lid, team, w⟩ = some v ∧ v.born = false ∧ v.live = l.liveMask team w ∧ v.mask 0 = v.live ∧
            (l.hdr.itag = 0 → v = { Wave.unborn l v.live with masks := setAt (setAt (List.replicate 8 0) 0 v.live) 7 0 })) ∧
    (∀ w v k, w.lid = lid → s.wave? w = some v → s.team? w.teamRef = some k → s.wlog = [] → v.born = false → v.live ≠ 0 → k.st = .placed → k.imgBlocks = [] → l.st = .running →
      let p : Path := { pid := 1, pc := l.hdr.entry, mask := v.live, age := 0, srec := none, hdr := 0, cls := 0, count := 0, inClause := false,
                        waits := 0, park := .none, since := 0, yielded := none, owed := [], parkOff := 0 }
      ∃ u, u = { v with born := true, ended := false, nextId := 2, slot0 := some p } ∧
      Answers (.waveBirth w) s fun t => t = { s with waves := t.waves, teams := t.teams, cache := s.cache.filter fun e => e.1.1 ≠ k.core } ∧
        t.wave? w = some u ∧ (∀ z, z ≠ w → t.wave? z = s.wave? z) ∧ (∀ z, z ≠ w.teamRef → t.team? z = s.team? z) ∧
        t.team? w.teamRef = some (if (tput w u s.waves).all fun e => e.1.teamRef != w.teamRef || e.2.born then { k with st := .resident } else k)) ∧
    (∀ r k, r.lid = lid → s.team? r = some k → k.st = .halting → (∀ e ∈ s.waves, e.1.teamRef = r → ∀ p ∈ e.2.pend, p.lands = false) →
      (∀ f ∈ s.faults, f.cycle ≠ s.cycles) → s.imageTable l.ctx .store k.imgBlocks = false → Answers (.teamSaveComplete r) s fun t => (t.team? r).map (·.st) = some .saved ∧ KeepRegs s t) ∧
    (∀ ts cores s0, s.unpoisoned → s.quiet → s.pick (s.tenantOfCtx l.ctx) s.wants = some (lid, s0) → (ts.head?).map (·.lid) = some lid → s.restores lid l = true →
      (s.savedUnits lid l).contains ts = true → s.restoreFits lid l ts cores = true →
      (∀ r ∈ ts, s0.imageStands r = true) → (s.granules = [] ∨ ts.length = 1) →
      Answers (.teamRestore ts cores) s fun t => KeepRegs s t ∧ ∀ r ∈ ts, ∃ k, t.team? r = some k ∧ k.st = .resident ∧ k.core ∈ cores)

/-! ### Engines, faults, events -/

/-- R99, R145, R146, R150, R151, R295: a channel accepts a copy whose index, template, record and destination pass their checks: it takes the next number of its timeline, and each of its scratchpad lines that has room is absent and
counts one copy more; a line that counts 15 is not counted yet. An index past the table kills the launch with COPY_TEMPLATE at the `cpy`. A piece that arrives is no longer to come, and its bytes are written: to the row of a register, to device memory, or to the
scratchpad, whose line counts one copy less and is present at zero. R160 to R165, R298: the head operation of an engine completes, each as its rule says: `mma` row by row from its row progress, with OPREC for ranges that do not pair, and stalled at its row by a page fault; `mres` with OPREC and OPBUF_FULL;
`mzero`, `mwr`, `mrd`, `mst`, `mrel`, `mld`, `rstat` and `gate`. It leaves the engine's order, and no member has it outstanding. The model's own reading or choice in log entries 28 and 69. -/
def Obligations.CopyAndEngineSteps : Prop :=
  ∀ (cid piece q : Nat) (s : State), s.wlog = [] →
    (∀ c lid l, s.copies.find? (·.cid == cid) = some c → c.accepted = false → c.stall = none → c.packet = none → c.lid = some lid → s.launch? lid = some l → l.st = .running →
      (s.channel c.cluster c.chan).length < 32 →
      (l.ntempl ≤ c.index → KillsLaunch (.copyAccept cid) s lid 0x13 c.off 0) ∧
      (∀ bs rs, c.index < l.ntempl → s.readVA false c.cluster c.ctx .load (l.tmplAddr + BitVec.ofNat 64 (64 * c.index)) 64 = .ok bs →
        let m := Template.ofNat (leNat bs)
        let r := TensorRec.ofNat (leNat rs)
        let keys := ({ c with tmpl := m, trec := r }).keys s
        m.bad (leNat bs) = false → badVA m.srcrec = false → m.srcrec.toNat % 64 = 0 → s.readVA false c.cluster c.ctx .load m.srcrec 64 = .ok rs →
        r.bad (leNat rs) m.srcrec = false → s.badTarget { c with tmpl := m, trec := r } = false → l.timelines.length = 16 → (∀ e ∈ s.teams, e.2.st ≠ .saved) →
        Answers (.copyAccept cid) s fun t => t.mem = s.mem ∧ (t.timeline lid m.tlctx).issued = (s.timeline lid m.tlctx).issued + 1 ∧
          (∃ e ∈ t.copies, e.cid = cid ∧ e.accepted = true ∧ e.num = (s.timeline lid m.tlctx).issued + 1 ∧ e.tl = m.tlctx ∧ e.tmpl = m ∧ e.trec = r ∧ e.pieces = List.range keys.length ∧
            ∀ i u line k, m.dkind = 0 → keys[i]? = some (some u, line) → s.team? u = some k → k.alive = true → (i ∈ e.uncounted ↔ 15 ≤ (tget line k.counts).getD 0)) ∧
          ∀ u k line, s.team? u = some k → k.alive = true → ∃ k', t.team? u = some k' ∧ if m.dkind = 0 ∧ (some u, line) ∈ keys ∧ (tget line k.counts).getD 0 < 15
            then tget line k'.counts = some ((tget line k.counts).getD 0 + 1) ∧ line ∈ k'.absent
            else tget line k'.counts = tget line k.counts ∧ (line ∈ k'.absent ↔ line ∈ k.absent))) ∧
    (∀ c bs, s.copies.find? (·.cid == cid) = some c → c.accepted = true → c.stall = none → piece ∈ c.pieces → piece ∉ c.uncounted →
      (c.packet.isSome = true ∨ ∃ e ∈ (s.channel c.cluster c.chan).take 4, e.cid = cid) →
      let key := (c.keys s).getD piece (none, 0)
      let places := (s.pieceBytes c key).1.map (s.placeAt c)
      (s.pieceBytes c key).2 = .ok bs → (∀ x ∈ places, ∃ a, x = .at a) →
      Answers (.copyArrival cid piece) s fun t => (∀ e ∈ t.copies, e.cid = cid → piece ∉ e.pieces) ∧
        (∀ lid v, c.lid = some lid → c.tmpl.dkind = 2 → s.quiet → s.wave? (c.tmpl.target lid).1 = some v → v.ended = false →
          (t.wave? (c.tmpl.target lid).1).map (·.vregs) = some (v.applyWrite (.v ((c.tmpl.target lid).2 + key.2) ((List.range 32).map fun l =>
            let b := (bs.drop (8 * l)).take 8
            (l, BitVec.ofNat 64 (leNat (b.map (·.1))), (if (b.take 4).any (·.2) then 1 else 0) + (if (b.drop 4).any (·.2) then 2 else 0))))).vregs) ∧
        (s.sound = true → c.lid.isSome = true → c.tmpl.dkind = 1 → s.quiet → (∀ e ∈ s.teams, e.2.st ≠ .saved) → places.Nodup → (∀ x ∈ places, ∃ a, x = .at (.home a)) →
          ∀ (n a : Nat) (x : Byte × Bool), places[n]? = some (Placed.at (.home a)) → bs[n]? = some x → mread a t.mem = x.1) ∧
        ∀ u k, c.lid.isSome = true → c.tmpl.dkind = 0 → c.tmpl.sten = false → s.quiet → (∀ e ∈ s.teams, e.2.st ≠ .saved) → key.1 = some u → s.team? u = some k → k.alive = true → places.Nodup →
          let n := (tget key.2 k.counts).getD 0
          ∃ k', t.team? u = some k' ∧ (n ≤ 1 → tget key.2 k'.counts = none ∧ key.2 ∉ k'.absent) ∧ (1 < n → tget key.2 k'.counts = some (n - 1) ∧ (key.2 ∈ k'.absent ↔ key.2 ∈ k.absent)) ∧
            (∀ j, j ≠ key.2 → tget j k'.counts = tget j k.counts ∧ (j ∈ k'.absent ↔ j ∈ k.absent)) ∧
            (mwf k.spad = true → ∀ (i o : Nat) (x : Byte × Bool), places[i]? = some (Placed.at (.spad u o)) → bs[i]? = some x → k'.spadByte o = x.1)) ∧
    (∀ o os, (s.quad q).ops = o :: os → q < 768 → o.stall = none → (∀ m ∈ o.members, s.running m.1 = true) → (s.quad q).gang.isSome = true → q ∉ s.device.fencedQuads →
      let u := s.quad q
      let w0 := (o.members.head?.map (·.1)).getD ⟨0, 0, 0⟩
      let md := s.fmOf w0
      let ctx := s.ctxOf w0.lid
      let at32 := fun (d j i : Nat) => (rowElems 32 (u.row d j)).getD i 0
      let ends := fun P : State → Prop => Answers (.engineOpComplete q .clean) s fun t => (t.quad q).ops = os ∧ (∀ m ∈ o.members, ∀ v, t.wave? m.1 = some v → v.pend? m.2.1 = none) ∧ P t
      let dies := fun status : Nat => ∀ w op off ms l, o.members = (w, op, off) :: ms → s.launch? w.lid = some l → l.st = .running → KillsLaunch (.engineOpComplete q .clean) s w.lid status off 0
      let tile := fun (t : State) (d : Nat) (f : Nat → List Word) => ∀ j, j < 64 → (t.quad q).row d j = f j ∧ ∀ e, e ≠ d → (t.quad q).row e j = u.row e j
      let raised := fun (t : State) (f : Nat) => ∀ z ∈ s.engineMembers q o, ∀ v, s.wave? z = some v → (t.wave? z).map (·.fstat) = some (fstatRaise v.fstat f)
      let kept := fun t : State => t.mem = s.mem ∧ KeepRegs s t
      (∀ x d, o.instr = .mzero x d → ends fun t => kept t ∧ tile t d.toNat fun _ => List.replicate 32 0) ∧
      (∀ x d c r w op off v, o.instr = .mrd x d c r → o.members = [(w, op, off)] → s.wave? w = some v → v.ended = false → ends fun t => t.mem = s.mem ∧
        (t.wave? w).map (·.vregs) = some (v.applyWrite (.v d.toNat (o.data.map fun p =>
          let half := fun h : Nat => u.rowBad c.toNat (o.scalar.toNat % 64) (2 * p.1 + h)
          (p.1, (u.row c.toNat (o.scalar.toNat % 64)).getD p.1 0, (if half 0 then 1 else 0) + if half 1 then 2 else 0)))).vregs) ∧
      (∀ x d y r, o.instr = .mwr x d y r → (u.row d.toNat (o.scalar.toNat % 64)).length = 32 → (o.data.map (·.1)).Nodup → ends fun t => kept t ∧ ∀ e j l, j < 64 → l < 32 →
        let now := ((t.quad q).row e j).getD l 0
        if e = d.toNat ∧ j = o.scalar.toNat % 64 ∧ l ∈ o.data.map (·.1) then (l, now) ∈ o.data else now = (u.row e j).getD l 0) ∧
      (∀ x d a b, o.instr = .mma x d a b → u.consumesPoison o = false →
        ((∀ ra rb kl, tget a.toNat u.ranges = some ra → tget b.toNat u.ranges = some rb → pairing ra.fmt rb.fmt = some kl → a = b ∨ ra.roleB = true ∨ rb.roleB = false ∨ ra.k ≠ rb.k) → dies 0x15) ∧
        ∀ ra rb kind L, tget a.toNat u.ranges = some ra → tget b.toNat u.ranges = some rb → pairing ra.fmt rb.fmt = some (kind, L) → a ≠ b → ra.roleB = false → rb.roleB = true → ra.k = rb.k →
          let n := if kind = 1 then 32 else 64
          let w := if kind = 1 then 64 else 32
          (∀ va c lv, s.operTile (q / 48) ctx md rb n d.toNat = .stop (.fault va c lv) → Answers (.engineOpComplete q .clean) s fun t => kept t ∧ tile t d.toNat (u.row d.toNat) ∧
            ∃ o' f, (t.quad q).ops = o' :: os ∧ o'.instr = o.instr ∧ o'.members = o.members ∧ o'.row = o.row ∧ f ∈ t.faults ∧ o'.stall = some f.fid ∧ f.va = va ∧ f.unit = 3 ∧ f.lanes = o.row ∧ f.cause = c ∧ f.holder = .engine q) ∧
          ∀ rows (arow : Nat → List FV), s.operTile (q / 48) ctx md rb n d.toNat = .ok rows [] → (∀ j, o.row ≤ j → j < 64 → s.operRow (q / 48) ctx md ra j ra.k d.toNat = .ok (arow j) []) →
            (∀ j, j < 64 → (u.row d.toNat j).length = 32) → u.tags.length = 8 →
            let r := fun j i : Nat => mmaElem md kind L ((rowElems w (u.row d.toNat j)).getD i 0) ((arow j).zip (rows.map fun z => z.getD i (.fin false 0 0)))
            ends fun t => kept t ∧ (tile t d.toNat fun j => if j < o.row then u.row d.toNat j else packRow w ((List.range n).map fun i => (r j i).bits)) ∧ (t.quad q).tag d.toNat = kind ∧
              raised t ((List.range 64).foldl (fun g j => if j < o.row then g else (List.range n).foldl (fun g i => g ||| (r j i).flags) g) o.flags)) ∧
      (∀ x n a num, o.instr = .mres x n a → s.engRecord (q / 48) ctx o.scalar = .inr num →
        let r := OperRec.ofNat num w0.teamRef
        let bad := r.k = 0 ∨ r.blk = 3 ∨ 2 ^ 280 ≤ num ∨ (r.blk ≠ 0 ∧ r.nb ≠ (r.k + r.block - 1) / r.block) ∨ (r.fmt = 7 ∧ (r.roleB = true ∨ r.cbaddr.toNat % 32 ≠ 0))
        let size := min 32768 (max 8192 (2048 * (((if r.roleB then r.k else 64) + 15) / 16)))
        let room := size + ((tdel n.toNat u.ranges).map (·.2.size)).sum ≤ 65536
        (bad → dies 0x15) ∧ (¬bad → ¬room → dies 0x16) ∧
        (¬bad → room → ends fun t => kept t ∧ ∀ m, tget m (t.quad q).ranges = if m = n.toNat then some r else tget m u.ranges)) ∧
      (∀ x n, o.instr = .mrel x n → ends fun t => kept t ∧ ∀ m, tget m (t.quad q).ranges = if m = n.toNat then none else tget m u.ranges) ∧
      (∀ x n k, o.instr = .mld x n k → ends fun t => kept t ∧ ∀ e j, (t.quad q).row e j = u.row e j) ∧
      (∀ x c a num (f : Nat → State), o.instr = .mst x c a → u.consumesPoison o = false → s.engRecord (q / 48) ctx o.scalar = .inr num →
        let r := TensorRec.ofNat num
        let tag := u.tag c.toNat
        let fits := r.bad num o.scalar = false ∧ r.blk = 0 ∧ (tag = 2 → r.fmt = 9) ∧ (tag ≠ 2 → r.fmt ≤ 5)
        let cell := fun j i b : Nat => (r.elemAddr ((i : Int) :: r.rowCoords j)).map fun a =>
          let y := if tag = 2 then ⟨b, 0⟩ else cvtElem md r.fmt (if tag = 1 then 0 else 1) b
          (a, leBytes (formatWidth r.fmt / 8) y.bits, y.flags)
        let cells := fun j : Nat => (rowElems (if tag = 1 then 64 else 32) (u.row c.toNat j)).zipIdx.filterMap fun p => cell j p.2 p.1
        (¬fits → dies 0x15) ∧
        (fits → f o.row = s → o.row ≤ 64 → (∀ j, o.row ≤ j → j < 64 → ∃ ls, (f j).mstStores (q / 48) ctx (cells j) = (none, ls) ∧ f (j + 1) = (f j).land ls) →
          ends fun t => t.mem = (s.commit (f 64)).mem ∧ KeepRegs s t ∧ tile t c.toNat (u.row c.toNat) ∧
            raised t ((List.range 64).foldl (fun g j => (cells j).foldl (fun g e => g ||| e.2.2) g) 0))) ∧
      (∀ x d c w op off v, o.instr = .rstat x d c → o.members = [(w, op, off)] → u.consumesPoison o = false → s.wave? w = some v → v.ended = false →
        let stat := fun l h : Nat => statRow md (u.row c.toNat (2 * l + h))
        let column := fun f : FRes × FRes × FRes → FRes => o.data.map fun p => (p.1, packElems 32 [(f (stat p.1 0)).bits, (f (stat p.1 1)).bits], 0)
        ends fun t => t.mem = s.mem ∧ (∀ z, z ≠ w → t.wave? z = s.wave? z) ∧
          (t.wave? w).map (·.vregs) = some (v.applyWrites [.v d.toNat (column (·.1)), .v (d.toNat + 1) (column (·.2.1)), .v (d.toNat + 2) (column (·.2.2))]).vregs ∧
          (t.wave? w).map (·.fstat) = some (fstatRaise v.fstat ((o.data.flatMap fun p => [stat p.1 0, stat p.1 1]).foldl (fun g e => g ||| (e.1.flags ||| e.2.1.flags ||| e.2.2.flags)) 0))) ∧
      (let gate := fun (g d a : Nat) (b : Nat → Nat → Nat) => u.consumesPoison o = false → u.tags.length = 8 → d < 8 →
         let r := fun j i : Nat => gateElem md g (at32 a j i) (b j i) (at32 d j i)
         ends fun t => kept t ∧ (tile t d fun j => packRow 32 ((List.range 64).map fun i => (r j i).bits)) ∧ (t.quad q).tag d = 0 ∧
           raised t ((List.range 64).foldl (fun g j => (List.range 64).foldl (fun g i => g ||| (r j i).flags) g) 0)
       ∀ (x : Bool) (d a b : BitVec 3) (y : BitVec 6), (o.instr = .gateSig x d a → gate 0 d.toNat a.toNat fun _ _ => 0) ∧ (o.instr = .gateTanh x d a → gate 1 d.toNat a.toNat fun _ _ => 0) ∧
         ((∀ j, j < 64 → (u.row b.toNat j).length = 32) → (o.instr = .gateMul x d a b → gate 2 d.toNat a.toNat (at32 b.toNat)) ∧ (o.instr = .gateAdd x d a b → gate 3 d.toNat a.toNat (at32 b.toNat)) ∧
           (o.instr = .gateLerp x d a b → gate 4 d.toNat a.toNat (at32 b.toNat))) ∧ (o.instr = .gateScale x d a y → gate 5 d.toNat a.toNat fun _ _ => o.scalar.toNat % 2 ^ 32)))

/-- R303, R340, R341, R343, R365, R366: the tenant's next fault entry is written to its slot once that is free, and event 0xFFFF is signalled; a wheel entry that is due, the first of those due, signals its event; a waiter that a signal
satisfied in the spillway receives the count with an acquire, and goes on. The model's own reading or choice in log entry 60. -/
def Obligations.FaultAndEventSteps : Prop :=
  ∀ (s : State), s.sound = true →
    let signalled := fun (tn ev : Nat) => tmod tn (fun k => { k with events := tput ev (((tget ev k.events).getD 0 + 1) % 2 ^ 64) k.events }) s.tenants
    (∀ (tenant : BitVec 4) f k, (s.faults.filter fun g => g.tenant == tenant.toNat && !g.written) = [f] → s.tenant? tenant.toNat = some k → s.waiters = [] → f.cycle < s.cycles →
      (∀ g ∈ s.faults, g.tenant = tenant.toNat → g.seq + 2 ^ (k.fqlog + 6) = f.seq → g.resolved = true) →
      Answers (.faultEntryWrite tenant) s fun t => Wrote s t (k.fqbase + 32 * (f.seq % 2 ^ (k.fqlog + 6))) f.image ∧ f.image.length = 32 ∧ t.tenants = signalled tenant.toNat 0xFFFF ∧
        t.faults = s.faults.map fun g => if g.fid = f.fid then { g with written := true } else g) ∧
    (∀ eid e, s.wheel.find? (·.eid == eid) = some e → e.time ≤ s.fabric.now → e.rel = none → s.waiters = [] →
      (∀ x ∈ s.wheel, x.time ≤ s.fabric.now → e.time < x.time ∨ (e.time = x.time ∧ e.eid ≤ x.eid)) →
      Answers (.wheelFire eid) s fun t => t = { s with wheel := s.wheel.filter (·.eid ≠ eid), tenants := signalled e.tenant e.ev }) ∧
    (∀ (tenant : BitVec 4) wid a n w pid v p k d, s.waiters.find? (fun b => b.wid == wid && b.tenant == tenant.toNat) = some a → a.ready = some n → a.who = .path w pid →
      s.wave? w = some v → v.path? pid = some p → p.park = .event k d →
      Answers (.spillwayRelease tenant wid) s fun t => t.wave? w = some ((v.setS d (BitVec.ofNat 64 n)).unpark pid) ∧
        t = { s with waves := t.waves, waiters := s.waiters.filter (·.wid ≠ wid), cache := s.cache.filter fun e => e.1.1 ≠ s.coreOf w.teamRef })

/-! ### Queues and packets -/

/-- R316, R326, R406: a TAIL_WRITE always answers a next state. One by the feeder, not below TAIL (as it stood before the cycle's writes) and within the ring, of a
queue that is enabled and whose tenant is not resetting, becomes the TAIL, of several in a cycle the largest, and an IDLE queue becomes PENDING with AGE = PRIO; any other to an enabled queue counts in BADTAIL; before READY, or to no
enabled queue, it does nothing. QUEUE_SAVE answers a next state when a queue that is to be saved is at its packet boundary: it gives up its slot, PENDING, or IDLE when its entry was disabled (and not enabled again with packets in its ring). QUEUE_LOAD_COMPLETE
answers one when a queue is loading into a slot that no other holds: it is RESIDENT with AGE = PRIO. Of memory only the QCB changes, and no other queue. The model's own reading or choice in log entry 13. -/
def Obligations.QueueSteps : Prop :=
  (∀ (src : BitVec 16) (n : BitVec 12) (value : BitVec 64) (s : State), s.sound = true →
    (s.device.phase ≠ 6 ∨ (∀ k, s.queue? n.toNat = some k → k.en = false) → exec (.tailWrite src n value) s = .next s) ∧
    ∀ k, s.queue? n.toNat = some k → k.en = true → s.device.phase = 6 →
      let floor := if k.tailWas.1 = s.cycles + 1 then k.tailWas.2 else k.tail
      let good := src.toNat = k.feeder ∧ floor ≤ value.toNat ∧ value.toNat ≤ k.head + 2 ^ (k.ringLog + 6) ∧ ∀ tn, s.tenant? k.tenant = some tn → tn.st ≠ 2
      let moved := { k with tail := max k.tail value.toNat, tailWas := (s.cycles + 1, floor) }
      ∃ t, exec (.tailWrite src n value) s = .next t ∧ (∀ z, z ≠ n.toNat → t.queue? z = s.queue? z) ∧ OnlyBytes s t k.qcbAddr 256 ∧
        (good → t.queue? n.toNat = some (if k.st = .idle then { moved with st := .pending, age := k.prio } else moved)) ∧
        (¬good → t.queue? n.toNat = some { k with badTail := if k.badTail < 0xFFFFFFFF then k.badTail + 1 else k.badTail })) ∧
  ∀ (q : Nat) (slot : BitVec 6) (s : State) (k : Queue), s.sound = true → s.queue? q = some k →
    (s.slotQueue slot.toNat = some (q, k) → k.saveReq = true → s.inParse q = false →
      ∃ t, exec (.queueSave slot) s = .next t ∧ (∀ z, z ≠ q → t.queue? z = s.queue? z) ∧ OnlyBytes s t k.qcbAddr 256 ∧
        t.queue? q = some { k with slot := none, loading := false, saveReq := false, wasOff := false,
                                   st := if k.wasOff = true ∧ ¬(k.en = true ∧ k.head < k.tail) then .idle else .pending, age := k.prio }) ∧
    (s.slotQueue slot.toNat = none → s.queues.find? (fun p => p.2.slot == some slot.toNat && p.2.loading) = some (q, k) →
      ∃ t, exec (.queueLoadComplete slot) s = .next t ∧ (∀ z, z ≠ q → t.queue? z = s.queue? z) ∧ OnlyBytes s t k.qcbAddr 256 ∧
        t.queue? q = some { k with st := .resident, loading := false, since := s.fabric.now, age := k.prio })

/-- R326, R340: QSCHED_DECISION answers a next state whenever a decision is due and no ageing is, and QUEUE_AGEING whenever an ageing is due: at an ageing the AGE of every PENDING queue rises by one, at most to 15, and a decision follows. Neither moves a HEAD or a
TAIL, nor enables or disables a queue. A decision places the only queue, PENDING, into slot 0. EVENT_WAIT_SLOT_RELEASE answers a next state when a queue has waited 100 µs: it gives up its slot and stays WAITING; of memory only its QCB changes. The model's own reading or choice in log entry 61. -/
def Obligations.QueueTurns : Prop :=
  ∀ (s : State), s.sound = true →
    let stands := fun t : State => ∀ q k, s.queue? q = some k → ∃ k', t.queue? q = some k' ∧ k'.head = k.head ∧ k'.tail = k.tail ∧ k'.en = k.en ∧ k'.prio = k.prio
    (s.decisionDue = true → s.ageingDue = false → ∃ t, exec .qschedDecision s = .next t ∧ t.schedDue = false ∧ stands t ∧
      ∀ q k tn, s.queues = [(q, k)] → s.tenant? k.tenant = some tn → k.tenant < 16 → tn.st ≠ 2 → k.en = true → k.st = .pending → k.slot = none →
        t.queue? q = some { k with slot := some 0, loading := true }) ∧
    (s.ageingDue = true → ∃ t, exec .queueAgeing s = .next t ∧ t.schedDue = false ∧ stands t ∧
      ((s.queues.map (·.1)).Nodup → ∀ q k, s.queue? q = some k → k.st = .pending → ∃ k', t.queue? q = some k' ∧ k'.st = .pending ∧ k'.age = min 15 (k.age + 1)) ∧
      ∀ q k tn, s.queues = [(q, k)] → s.tenant? k.tenant = some tn → k.tenant < 16 → tn.st ≠ 2 → k.en = true → k.st = .pending → k.slot = none →
        t.queue? q = some { k with age := min 15 (k.age + 1), slot := some 0, loading := true }) ∧
    (∀ (slot : BitVec 6) q k, s.queue? q = some k → s.slotQueue slot.toNat = some (q, k) → k.st = .waiting → k.waitSince + 1600000 ≤ s.fabric.now →
      ∃ t, exec (.eventWaitSlotRelease slot) s = .next t ∧ (∀ z, z ≠ q → t.queue? z = s.queue? z) ∧ OnlyBytes s t k.qcbAddr 256 ∧
        t.queue? q = some { k with slot := none, loading := false, saveReq := false, wasOff := false, st := .waiting, age := k.prio })

/-- R319, R327 to R332, R349, R364: LAUNCH, and LAUNCH_INDIRECT after its prologue, read the kernel image: a good one becomes the next launch, running, and HEAD passes the packet; a refused one is no launch, and its packet completes; a page
fault holds the launch at its start, before HEAD passes; a launch that is held so goes on in its lane once its entry is resolved. A prologue that stops completes its packet without a launch, at its first run or at a later one; a later
run that ends with a launch makes the next launch of its packet in the same way, from the registers as that run leaves them. The model's own reading or choice in log entries 32 and 35. -/
def Obligations.LaunchPackets : Prop :=
  ∀ (slot : BitVec 6) (s : State) (f : Front), Takes slot s f → s.faults = [] →
    let b := BitVec.ofNat 512 f.n
    let made := fun (i : Instr) (pro : Option Prologue) =>
      let fields := launchFields b pro
      let l := Launch.entered f.k.ctx (some f.q) (some s.nextId) fields [] 0 none
      (∀ h args sig, s.loadImage l (some (fields.argAddr, fields.arglen)) = .ok h args sig → h.itag = 0 → h.istrict = false → (l.items + h.threads - 1) / h.threads ≠ 0 →
        Answers i s fun t => f.passed t ∧ OnlyBytes s t f.k.qcbAddr 256 ∧ ∃ o, t.launch? s.nextLid = some { l with
          hdr := h, args := args, sig := sig, nteams := (l.items + h.threads - 1) / h.threads, st := .running, order := o }) ∧
      (∀ st, s.loadImage l (some (fields.argAddr, fields.arglen)) = .refuse st →
        Answers i s fun t => f.passed t ∧ t.packets = [] ∧ t.launch? s.nextLid = none) ∧
      (∀ va c lv, s.loadImage l (some (fields.argAddr, fields.arglen)) = .fault va c lv →
        Answers i s fun t => t.queue? f.q = s.queue? f.q ∧ t.mem = s.mem ∧ (t.launch? s.nextLid).map (·.st) = some .starting ∧
          ∃ e, t.faults = [e] ∧ e.holder = .launch s.nextLid ∧ e.va = BitVec.ofNat 64 va ∧ e.cause = c ∧ e.level = lv ∧ e.unit = 4)
    let first : Prologue := { regs := proInit b, words := f.words, rep := 0, rerun := false }
    (f.op = 1 → made (.launch slot) none) ∧
    (f.op = 2 → (∀ pro, s.proEnd f.k.ctx first = .launch pro → made (.launchIndirect slot) (some pro)) ∧
      (∀ st off, s.proEnd f.k.ctx first = .stop st off → Answers (.launchIndirect slot) s fun t => f.passed t ∧ t.packets = [] ∧ t.launches = s.launches)) ∧
    (∀ z k p lid l, z.slotQueue slot.toNat = some (p.q, k) → z.queue? p.q = some k → z.packets = [p] → p.started = false → p.op = 1 ∨ p.op = 2 → z.startingOf p.pid = some (lid, l) → z.launch? lid = some l → l.packet = some p.pid →
      l.st = .starting → l.nteams = 0 → z.startFault lid = false → z.lasting = [] → z.sound = true →
      let i := if p.op = 1 then Instr.launch slot else .launchIndirect slot
      (∀ h args sig, z.loadImage l (z.argsAt l) = .ok h args sig → h.itag = 0 → h.istrict = false → (l.items + h.threads - 1) / h.threads ≠ 0 →
        Answers i z fun t => (t.queue? p.q).map (·.head) = some (k.head + (p.body.extractLsb' 24 4).toNat + 1) ∧
          t.launch? lid = some { l with hdr := h, args := args, sig := sig, nteams := (l.items + h.threads - 1) / h.threads, st := .running }) ∧
      (∀ va c lv, z.loadImage l (z.argsAt l) = .fault va c lv → Answers i z fun t => t.queue? p.q = some k ∧ t.launch? lid = some l ∧
        ∃ e ∈ t.faults, e.resolved = false ∧ e.holder = .launch lid ∧ e.va = BitVec.ofNat 64 va ∧ e.cause = c ∧ e.unit = 4)) ∧
    (∀ z p pro l st off, z.packets = [p] → p.started = true → (∀ k, z.queue? p.q = some k → k.st ≠ .halted) → p.prologue = some pro → pro.rerun = true → z.startingOf p.pid = none → z.launch? p.lid = some l → l.st = .closed → l.kill = none →
      z.proEnd p.ctx pro = .stop st off →
      Answers (.prologueRepeat p.pid) z fun t => t.packets = [] ∧ t.launches = z.launches) ∧
    (∀ z p pro pro' l, z.packets = [p] → p.started = true → (∀ k, z.queue? p.q = some k → k.st ≠ .halted) → p.prologue = some pro → pro.rerun = true → z.startingOf p.pid = none → z.launch? p.lid = some l →
      l.st = .closed → l.kill = none → p.lid ≠ z.nextLid → z.proEnd p.ctx pro = .launch pro' → z.faults = [] → z.lasting = [] → z.sound = true →
      let fields := launchFields p.body (some pro')
      let new := Launch.entered p.ctx (some p.q) (some p.pid) fields [] 0 none
      (∀ h args sig, z.loadImage new (some (fields.argAddr, fields.arglen)) = .ok h args sig → h.itag = 0 → h.istrict = false → (new.items + h.threads - 1) / h.threads ≠ 0 →
        Answers (.prologueRepeat p.pid) z fun t => t.mem = z.mem ∧ t.packets = [{ p with prologue := some pro', lid := z.nextLid }] ∧ ∃ o, t.launch? z.nextLid = some { new with
          hdr := h, args := args, sig := sig, nteams := (new.items + h.threads - 1) / h.threads, st := .running, order := o }) ∧
      (∀ st, z.loadImage new (some (fields.argAddr, fields.arglen)) = .refuse st →
        Answers (.prologueRepeat p.pid) z fun t => t.packets = [] ∧ t.launch? z.nextLid = none ∧ (t.launch? p.lid).map (·.st) = some .closed) ∧
      (∀ va c lv, z.loadImage new (some (fields.argAddr, fields.arglen)) = .fault va c lv →
        Answers (.prologueRepeat p.pid) z fun t => t.mem = z.mem ∧ t.packets = [{ p with prologue := some pro' }] ∧ (t.launch? z.nextLid).map (·.st) = some .starting ∧
          ∃ e, t.faults = [e] ∧ e.holder = .launch z.nextLid ∧ e.va = BitVec.ofNat 64 va ∧ e.cause = c ∧ e.level = lv ∧ e.unit = 4))

/-- R319 to R321, R325, R340, R380, R51, R180, R303: the other commands. Each passes HEAD; all but a COPY, an EVENT_WAIT that is not met and a PREEMPT with teams to save complete at once. EVENT_SIGNAL raises the count; EVENT_WAIT completes on a count that is reached, and
otherwise makes the queue WAITING; EVENT_AT schedules a signal; COPY hands a copy to a channel; ESTATE_DROP frees the sealed estates of its tag; INVOKE takes a handle; COMPLETE completes behind nothing; PREEMPT halts the teams of the launches that it names. The model's own reading or choice in log entry 58. -/
def Obligations.CommandPackets : Prop :=
  ∀ (slot : BitVec 6) (s : State) (f : Front) (tn : Tenant), Takes slot s f → s.tenant? f.k.tenant = some tn →
    let ended := fun t : State => f.passed t ∧ t.packets = []
    let taken := State.startPacket { s with round := s.inRound.filter (· ≠ f.slot), nextId := s.nextId + 1, packets := [f.packet s.nextId] } s.nextId
    (f.op = 3 → s.waiters = [] → Answers (.eventSignal slot) s fun t => ended t ∧ t.eventCount f.k.tenant f.event = (s.eventCount f.k.tenant f.event + 1) % 2 ^ 64) ∧
    (f.op = 4 → f.dword ≤ s.eventCount f.k.tenant f.event → Answers (.eventWait slot) s ended) ∧
    (f.op = 4 → s.eventCount f.k.tenant f.event < f.dword → Answers (.eventWait slot) s fun t => f.passed t ∧
      (t.queue? f.q).map (fun k => (k.st, k.waitEv, k.waitVal, k.waitSince)) = some (.waiting, f.event, f.dword, s.fabric.now) ∧
      ∃ a ∈ t.waiters, a.who = .queue f.q s.nextId ∧ a.tenant = f.k.tenant ∧ a.ev = f.event ∧ a.value = f.dword) ∧
    (f.op = 5 → s.fabric.now < wheelTime f.dword → wheelTime f.dword ≤ s.fabric.now + 2 ^ 40 → (s.wheel.filter (·.tenant == f.k.tenant)).length < tn.wheel →
      Answers (.eventAt slot) s fun t => ended t ∧ ∃ e ∈ t.wheel, e.tenant = f.k.tenant ∧ e.ev = f.event ∧ e.time = wheelTime f.dword ∧ e.rel = none) ∧
    (f.op = 6 → Answers (.copy slot) s fun t => f.passed t ∧ ∃ e ∈ t.copies, e.packet = some s.nextId ∧ e.ctx = f.k.ctx ∧ e.accepted = false ∧
      e.param = sx 48 (bits f.n 256 48) ∧ e.tl = bits f.n 304 4) ∧
    (f.op = 7 → f.event ≠ 0 → Answers (.estateDrop slot) s fun t => ended t ∧
      ∀ g ∈ t.granules, g.ctx = f.k.ctx → g.tag = f.event → g.isSealed = true → g.valid = 0) ∧
    (f.op = 8 → (∀ r, readInvocation (taken.readVA false 0 f.k.ctx .load) (BitVec.ofNat 64 f.dword) = .stop r → Answers (.invoke slot) s ended) ∧
      (∀ r args, readInvocation (taken.readVA false 0 f.k.ctx .load) (BitVec.ofNat 64 f.dword) = .ok r args → s.handleSlotFor (s.tenantOfCtx f.k.ctx) = none → Answers (.invoke slot) s ended) ∧
      (∀ r args n gen, readInvocation (taken.readVA false 0 f.k.ctx .load) (BitVec.ofNat 64 f.dword) = .ok r args → s.handleSlotFor (s.tenantOfCtx f.k.ctx) = some (n, gen) → r.malformed = false →
        s.reachable (bits f.n 256 16) = true → s.fabric.heldInv = [] →
        Answers (.invoke slot) s fun t => ended t ∧ ∃ e, tget n t.fabric.handles = some e ∧ e.st = 0 ∧ e.gen = gen)) ∧
    (f.op = 9 → Answers (.complete slot) s ended) ∧
    (f.op = 0x0A → (∀ e ∈ s.launches, e.2.st ≠ .running) → Answers (.preempt slot) s ended) ∧
    (∀ lid l r k bs, f.op = 0x0A → s.launches = [(lid, l)] → l.st = .running → l.ctx = f.k.ctx → (bits f.n 128 32 = 0 ∨ bits f.n 128 32 = lid) → l.hdr.cohort = 0 →
      s.teams = [(r, k)] → r.lid = lid → k.st = .resident → k.imgBlocks = [] → s.queue = [] → s.buffer = [] → s.freeBlocks l.ctx ((s.imgBytes r + 8191) / 8192) = some bs →
      Answers (.preempt slot) s fun t => f.passed t ∧ t.team? r = some { k with st := .halting, haltTime := s.fabric.now, imgBlocks := bs, haltEsc := none } ∧
        t.packets.map (fun p => (p.pid, p.saving)) = [(s.nextId, [r])])

/-- R320, R363, R367: FAULT_RESOLVED resolves every entry of the tenant up to its sequence and drops the translations of their pages; with KILL the launch of its entry is killed with PAGE_FAULT, of a breakpoint's with KILLED; with sequence 0 every translation
of the context is dropped. What the entry holds goes on, with a new walk (R367, R371): a copy and an engine operation are stalled no longer, a path at a breakpoint and one whose code page is mapped run on, a memory word starts its unfinished lanes and its path goes on when all have started, and where a page still faults it parks anew under a
new entry; a held launch may start; a wave whose team does not run stays as it is (R296, R368). QUEUE_CONTROL on another queue halts it, resumes it, moves HEAD to TAIL, or sets PRIO. Each passes HEAD. The model's own reading or choice in log entries 33, 34, 63 and 69. -/
def Obligations.FaultAndQueuePackets : Prop :=
  ∀ (slot : BitVec 6) (s : State) (f : Front), Takes slot s f →
    let control := fun (i : Instr) (k k' : Queue) => s.queue? f.qnum = some k → f.qnum ≠ f.q → Answers i s fun t => f.passed t ∧ t.packets = [] ∧ t.queue? f.qnum = some k'
    (f.op = 0x0B → f.kill = false → f.entry ≠ 0 → (∀ e ∈ s.faults, e.holder = .nothing) → Answers (.faultResolved slot) s fun t => f.passed t ∧
      (∀ e ∈ t.faults, e.tenant = f.k.tenant → e.seq ≤ f.entry → e.resolved = true) ∧
      ∀ e ∈ s.openFaults f.k.tenant f.entry, e.unit ≠ 5 → ∀ x ∈ t.tlb, ¬(x.ctx = e.ctx ∧ x.page ≤ e.va.toNat ∧ e.va.toNat < x.page + x.size)) ∧
    (∀ e, f.op = 0x0B → f.kill = false → f.entry ≠ 0 → s.openFaults f.k.tenant f.entry = [e] → (∀ g ∈ s.faults, g.fid = e.fid → g = e) →
      let taken := State.startPacket { s with
        round := s.inRound.filter (· ≠ f.slot), nextId := s.nextId + 1, packets := [f.packet s.nextId], faults := s.faults.map fun g => if g = e then { g with resolved := true } else g } s.nextId
      let z := if e.unit = 5 then taken else (taken.dropPage f.k.ctx e.va.toNat).dropPage e.ctx e.va.toNat
      let resumes := fun P : State → Prop => Answers (.faultResolved slot) s fun t => f.passed t ∧ (∃ g ∈ t.faults, g = { e with resolved := true }) ∧ P t
      let parks := fun (t : State) (w : WaveRef) (pid unit lanes off : Nat) (va : Word) (c : Nat) (op : Option Nat) => ∃ g ∈ t.faults, g.resolved = false ∧ g.unit = unit ∧ g.lanes = lanes ∧ g.off = off ∧
        g.va = va ∧ g.cause = c ∧ g.lid = w.lid ∧ g.ctx = (if unit = 0 then s.ctxOf w.lid else e.ctx) ∧ g.holder = .path w pid op ∧ ((t.wave? w).bind (·.path? pid)).map (fun p => (p.park, p.since)) = some (.fault g.fid, 0)
      (∀ cid, e.holder = .copy cid → resumes fun t => t.copies = s.copies.map fun c => if c.cid = cid then { c with stall := none } else c) ∧
      (∀ n, e.holder = .engine n → resumes fun t => ∀ q, (t.quad q).ops = (s.quad q).ops.map fun o => if o.stall = some e.fid then { o with stall := none, stalled := 0 } else o) ∧
      (∀ w pid v, e.holder = .brk w pid → s.wave? w = some v → resumes fun t => t.wave? w = some (if s.running w then v.unpark pid else v)) ∧
      (∀ w pid op v, e.holder = .path w pid op → s.wave? w = some v → s.running w = false → resumes fun t => t.wave? w = some v) ∧
      (∀ w pid v p, e.holder = .path w pid none → s.wave? w = some v → v.path? pid = some p → s.running w = true →
        let walk := z.translate true (s.coreOf w.teamRef) e.ctx .fetch e.va.toNat
        ((∀ c lv, walk ≠ .fault c lv) → resumes fun t => t.wave? w = some (v.unpark pid)) ∧
        (∀ c lv, walk = .fault c lv → resumes fun t => parks t w pid 1 e.lanes e.off e.va c none)) ∧
      (∀ w pid op v p q r todo ps n, e.holder = .path w pid (some op) → s.wave? w = some v → v.path? pid = some q → v.pend? op = some p → p.kind = .mem r todo ps n → r.pid = pid → r.sp = false → s.running w = true →
        let a := z.startLanes w r todo
        (∀ st l, a.kill = some st → s.launch? w.lid = some l → l.st = .running → KillsLaunch (.faultResolved slot) s w.lid st p.off 0) ∧
        (a.kill = none → resumes fun t =>
          (∃ v', t.wave? w = some v' ∧ v'.switchWait = (v.switchWait || r.sw) ∧ v'.sregs = v.sregs ∧ v'.masks = v.masks ∧ v'.vregs = v.vregs ∧
            v'.pend? op = some { p with kind := if r.op = .store then .mem r a.todo ps (n + a.parts.length) else .mem r a.todo (ps ++ a.parts) n } ∧
            (a.todo = [] → (v'.path? pid).map (fun x => (x.park, x.since)) = some (.none, 0) ∧ (¬(q.inClause = true ∧ q.pc = q.fall) → (v'.path? pid).map (·.pc) = some q.pc))) ∧
          ∀ va c lv, a.fault = some (va, c, lv) → parks t w pid 0 (todoMask a.todo) p.off va c (some op))) ∧
      (∀ lid l, e.holder = .launch lid → s.launch? lid = some l → (∀ g ∈ s.faults, g ≠ e → g.holder = .launch lid → g.resolved = true) → l.queue.isSome = true →
        resumes fun t => t.launch? lid = some l ∧ t.startFault lid = false)) ∧
    (∀ e l, f.op = 0x0B → f.kill = true → s.openFaults f.k.tenant f.entry = [e] → e.seq = f.entry → e.lid ≠ 0 → s.launch? e.lid = some l → l.st = .running →
      KillsLaunch (.faultResolvedKill slot) s e.lid (if e.unit = 5 then 0x19 else 0x0D) e.off 0) ∧
    (f.op = 0x0B → f.kill = false → f.entry = 0 → Answers (.faultResolvedInvalidate slot) s fun t => f.passed t ∧ t.tlb = s.tlb.filter fun x => x.ctx ≠ f.k.ctx) ∧
    (∀ k, f.op = 0x0C → f.action = 0 → k.st ≠ .halted → k.st ≠ .error →
      control (.queueControlHalt slot) k { k with slot := none, loading := false, saveReq := false, wasOff := false, st := .halted, age := if k.slot.isSome then k.prio else k.age }) ∧
    (∀ k, f.op = 0x0C → f.action = 1 → (k.st = .halted → control (.queueControlResume slot) k { k with st := if k.head < k.tail then .pending else .idle, age := k.prio }) ∧
      (k.st = .error → control (.queueControlResume slot) k { k with st := .pending })) ∧
    (∀ k, f.op = 0x0C → f.action = 2 → control (.queueControlDiscard slot) k { k with head := k.tail, st := if k.st = .error ∨ k.st = .halted then .idle else k.st }) ∧
    (∀ k, f.op = 0x0C → f.action = 3 → control (.queueControlSetPrio slot) k { k with prio := bits f.n 144 3 })

/-! ### The privileged register space, the fabric, the device -/

/-- R308 to R314, R320, R377, R395, R401, R403, R408: a write that its source may not make, or to no register, changes nothing but that it is refused. An accepted one enables a tenant, resets it, creates or destroys a context, enables or disables a queue,
clears EXCISE, excises a node, clears a frame mark, writes the nonce, or writes STALL within its range. The model's own reading or choice in log entries 4 and 41. -/
def Obligations.ManagementSteps : Prop :=
  ∀ (src : MgmtSrc) (s : State), s.sound = true →
    let refused := fun t : State => t = { s with output := s.output ++ [.refusal src] }
    let on := fun (i : Instr) (r : MgmtReg) (P : State → Prop) => (s.writeOk src r = false → Answers i s refused) ∧ (s.writeOk src r = true → Answers i s P)
    (∀ n : BitVec 4, on (.tenantEnable src n) (.tenant n.toNat 1) fun t => let k := s.tenantBlock n.toNat
      let base := k.spill / 4096 * 4096
      k.en = false → k.st ≠ 2 → s.tenantOk n.toNat k = true →
        t.tenant? n.toNat = some { k with en := true, st := 1, events := [], faultSeq := 0, deficit := 0 } ∧ OnlyBytes s t base 0x480000 ∧
        ∀ a, base ≤ a → a < base + 0x480000 → mread a t.mem = 0) ∧
    (∀ n : BitVec 4, on (.tenantReset src n) (.tenant n.toNat 1) fun t => (s.tenantBlock n.toNat).st ≠ 2 → (t.tenant? n.toNat).map (·.st) = some 2 ∧
      ∀ lid l, t.launch? lid = some l → t.tenantOfCtx l.ctx = n.toNat → l.st = .killed ∨ l.st = .closed) ∧
    (∀ n : BitVec 10, on (.contextCreate src n) (.ctx n.toNat 0) fun t => let k := s.ctxBlock n.toNat
      (k.en = false → s.createOk k = true → t.ctx? n.toNat = some { k with en := true, voids := [], seq := 0, copyTl := List.replicate 16 Timeline.zero }) ∧
      (k.en = false → s.createOk k = false → t = s)) ∧
    (∀ n : BitVec 10, on (.contextDestroy src n) (.ctx n.toNat 0) fun t => (s.ctxBlock n.toNat).en = true →
      (t.ctx? n.toNat).map (·.en) = some false ∧ (∀ g ∈ t.granules, g.ctx ≠ n.toNat) ∧ ∀ e ∈ t.tlb, e.ctx ≠ n.toNat) ∧
    (∀ n : BitVec 12, on (.queueEnable src n) (.queue n.toNat 1) fun t => let k := s.entryOf n.toNat
      k.en = false → k.slot = none → s.poisonedRange k.qcbAddr 256 = false → (s.queues.filter fun p => p.2.tenant == k.tenant && p.2.en).length < 1024 → (∀ tn, s.tenant? k.tenant = some tn → tn.st ≠ 2) →
        let z := Queue.ofImage k.qcbAddr k.tenant (leNat (mreadN k.qcbAddr 256 s.mem))
        t.queue? n.toNat = some { z with en := true, st := if z.head < z.tail then .pending else .idle, age := if z.head < z.tail then z.prio else z.age }) ∧
    (∀ (n : BitVec 12) k, s.queue? n.toNat = some k → on (.queueDisable src n) (.queue n.toNat 1) fun t => k.en = true →
      (k.slot = none → t.queue? n.toNat = some { k with en := false, loading := false, saveReq := false, wasOff := false, st := .idle }) ∧
      (k.slot.isSome = true → k.loading = false → t.queue? n.toNat = some { k with en := false, saveReq := true, wasOff := true })) ∧
    (∀ (p : BitVec 4) q, s.fabric.ports[p.toNat]? = some q → on (.portExciseClear src p) (.port p.toNat 0) fun t =>
      t.fabric.ports[p.toNat]? = some { q with excise := q.excise && decide (q.wm ≤ s.fabric.dlvStamp) }) ∧
    (∀ (n : BitVec 6) (node : BitVec 16), on (.nodeExcise src n node) (.excised n.toNat) fun t => tget n.toNat t.fabric.excised = some (1#1 ++ node) ∧
      ∀ h e, tget h s.fabric.handles = some e → e.lfinal = true → e.location = node.toNat → e.st ≠ 3 → ∃ e', tget h t.fabric.handles = some e' ∧ e'.st = 3 ∧ e'.reason = 2) ∧
    (∀ n : BitVec 10, on (.poisonFrameClear src n) (.frame n.toNat) fun t => t = { s with
      device := { s.device with frames := tdel n.toNat s.device.frames },
      cache := s.cache.filter fun e => e.1.2 / 2 ^ 11 ≠ (tget n.toNat s.device.frames).getD 0 }) ∧
    (∀ (n : BitVec 3) (v : BitVec 64), on (.attestNonceWrite src n v) (.nonce n.toNat) fun t =>
      let nonce := s.device.nonce.take (8 * n.toNat) ++ leBytes 8 v.toNat ++ s.device.nonce.drop (8 * n.toNat + 8)
      t = { s with device := { s.device with
        nonce := nonce, atNonce := if n = 7 then some nonce else s.device.atNonce, atrdy := if n = 7 then false else s.device.atrdy } }) ∧
    (∀ v : BitVec 64, on (.mgmtRegisterWrite src 0x300020 v) (.fabric 4) fun t =>
      t = { s with fabric := { s.fabric with stall := if 1 ≤ v.toNat % 2 ^ 32 ∧ v.toNat % 2 ^ 32 ≤ 1000000 then v.toNat % 2 ^ 32 else s.fabric.stall } }) ∧
    (∀ (off : BitVec 32) (v : BitVec 64), mgmtReg off.toNat = none → Answers (.mgmtRegisterWrite src off v) s refused)

/-- R395: writing EXCISE = 1 removes the port from the minimum of R392 and R393 at once: no watermark of that port counts any more; writing EXCISE = 0 is accepted only when the port's WM lies above the stamp of DLV, and otherwise is ignored, and EXCISE stays 1. -/
def Obligations.PortExcise : Prop :=
  ∀ (src : MgmtSrc) (p : BitVec 4) (s : State) (q : Port), s.sound = true → s.writeOk src (.port p.toNat 0) = true → s.fabric.ports[p.toNat]? = some q →
    (Answers (.portExcise src p) s fun t => t.fabric.ports[p.toNat]? = some { q with excise := true } ∧
      ∀ but wm, State.minWM (t.modPort p.toNat fun z => { z with wm := wm }) but = t.minWM but ∧
        ∀ out, State.feedWM (t.modPort p.toNat fun z => { z with wm := wm }) out = t.feedWM out) ∧
    Answers (.portExciseClear src p) s fun t =>
      (s.fabric.dlvStamp < q.wm → t.fabric.ports[p.toNat]? = some { q with excise := false }) ∧ (q.wm ≤ s.fabric.dlvStamp → t.fabric.ports[p.toNat]? = some q ∧ t = s)

/-- R170, R172, R177, R181, R360, R379, R389 to R394, R402, R406: arrivals raise their port's watermark and join the held packets; a beacon carries F from the injector, and from a router's output the least of the watermarks that feed it and of the stamps that it holds, never less than the port has promised; a packet that arrives late (R173, R396) is forwarded at once with LATE set, or settled by the late policy:
dropped and counted, or delivered with LATE in its record, an invocation or notice always; it raises no watermark and counts in the port; a mailbox takes a record, or counts a drop when it is full (R174, R175); the router sends the packet of least key below it; the weir delivers the held packet of
least key, an ordered atomic writing exactly its bytes and answering the old ones; a culvert packet waits for its parent; a port that keeps a packet back for STALL µs is stalled; errors of a link count, and the sixteenth takes it down; a delay response corrects fabric time, which never falls; a held
packet leaves when its time has come; accesses of other nodes are performed; a port that trains is up. The model's own reading or choice in log entries 4, 38, 39, 45 and 64. -/
def Obligations.FabricSteps : Prop :=
  ∀ (port : BitVec 4) (s : State) (q : Port), s.sound = true → s.fabric.ports[port.toNat]? = some q →
    let now' := fun (t : State) (f : Port → Prop) => ∃ r, t.fabric.ports[port.toNat]? = some r ∧ f r
    (∀ pk, q.up = true → s.device.phase = 6 → pk.late = false → q.excise = false → pk.dst.toNat = s.fabric.node → Answers (.orderedPacketArrival port pk) s fun t =>
      t.mem = s.mem ∧ t.fabric.held = s.fabric.held ++ [pk] ∧ now' t fun r => r.wm = max q.wm pk.stamp) ∧
    (∀ pk, q.up = true → s.device.phase ≠ 6 → Answers (.orderedPacketArrival port pk) s fun t => t = s) ∧
    (∀ wm : BitVec 64, q.up = true → Answers (.beaconArrival port wm) s fun t => t.fabric.held = s.fabric.held ∧ t.mem = s.mem ∧ now' t fun r => r.wm = max q.wm wm.toNat) ∧
    (q.up = true → q.lastSent + 16 * s.fabric.beacon ≤ s.fabric.now →
      let sent := fun (t : State) (kind m : Nat) => t.mem = s.mem ∧ t.output = s.output ++ [.beacon port.toNat kind m q.outSeq] ∧
        now' t fun r => r = { q with lastSent := s.fabric.now, outSeq := (q.outSeq + 1) % 65536, sentWM := max q.sentWM m }
      (s.isRouter port.toNat = false → q.merge = [] → Answers (.beaconSend port) s fun t => sent t 0 s.floorF) ∧
      (s.isRouter port.toNat = true → ∀ m, m ≤ s.feedWM port.toNat → (∀ pk ∈ q.merge, m ≤ pk.stamp) → m = s.feedWM port.toNat ∨ (∃ pk ∈ q.merge, m = pk.stamp) →
        Answers (.beaconSend port) s fun t => sent t 1 (max q.sentWM m))) ∧
    (s.isRouter port.toNat = true → s.feedWM port.toNat ≤ s.floorF ∧ (∀ n o, s.fabric.ports[n]? = some o → n ≠ port.toNat → o.counts = true → q.feeds.getLsbD n = true → s.feedWM port.toNat ≤ o.wm) ∧
      (s.feedWM port.toNat = s.floorF ∨ ∃ n o, s.fabric.ports[n]? = some o ∧ n ≠ port.toNat ∧ o.counts = true ∧ q.feeds.getLsbD n = true ∧ s.feedWM port.toNat = o.wm)) ∧
    (∀ pk, q.up = true → s.device.phase = 6 → pk.late = true ∨ (q.excise = true ∧ s.fabric.dlvAny = true ∧ (pk.stamp < s.fabric.dlvStamp ∨
        (pk.stamp = s.fabric.dlvStamp ∧ (pk.src.toNat < s.fabric.dlvSrc ∨ (pk.src.toNat = s.fabric.dlvSrc ∧
          1 ≤ (s.fabric.dlvSeq + 65536 - pk.seq.toNat) % 65536 ∧ (s.fabric.dlvSeq + 65536 - pk.seq.toNat) % 65536 ≤ 32767))))) →
      let arrives := Answers (.orderedPacketArrival port pk) s
      let late := { q with lateCnt := bump32 q.lateCnt }
      let dropped := { q with dropCnt := bump32 q.dropCnt }
      let policy := fun c : Nat => (s.ctx? c).any (·.latepol)
      let with' := fun r : Port => { s with fabric := { s.fabric with ports := setAt s.fabric.ports port.toNat r } }
      (∀ o r, pk.dst.toNat ≠ s.fabric.node → s.portTo pk.dst.toNat = some o → o ≠ port.toNat → s.fabric.ports[o]? = some r → arrives fun t => t.mem = s.mem ∧ t.fabric.held = s.fabric.held ∧
        t.output = s.output ++ [.packet o { pk with late := true }] ∧ now' t (· = late) ∧
        t.fabric.ports[o]? = some { r with lastSent := s.fabric.now, retry := r.retry ++ [{ pk with late := true }] }) ∧
      (pk.dst.toNat = s.fabric.node →
        (∀ c mbox bs x a d, pk.body = .osend c mbox bs → (with' dropped).mailbox c mbox = some (x, a, d) → policy c = true →
          exec (.orderedPacketArrival port pk) s = done s (((with' dropped).noteMailbox c mbox).writeOrFault c 0 (a + 12) (leBytes 4 (bits d 96 32 + 1)))) ∧
        (∀ c mbox bs, pk.body = .osend c mbox bs → s.mailbox c mbox = none → arrives fun t => t.mem = s.mem ∧ t.fabric.held = s.fabric.held ∧ now' t (· = if policy c then dropped else late)) ∧
        (∀ c mbox bs, pk.body = .osend c mbox bs → policy c = false → exec (.orderedPacketArrival port pk) s =
          done s ((s.deliverMail pk c mbox bs true).modPort port.toNat fun r => { r with lateCnt := bump32 r.lateCnt })) ∧
        (∀ pa op wide val cmp c w n, pk.body = .oatom pa op wide val cmp c w n → (policy c = true → arrives fun t => t = with' dropped) ∧
          (policy c = false → pk.src.toNat ≠ s.fabric.node → rangeDevice pa (if wide then 8 else 4) = true → arrives fun t => let size := if wide then 8 else 4
            Wrote s t pa (leBytes size (atomOp op.toNat size 0 noModes (leNat (mreadN pa size s.mem)) val.toNat cmp.toNat)) ∧ now' t (· = late))) ∧
        (∀ a b c d e g h i, pk.body = .invoke a b c d e g h i → pkParent pk = 0 → arrives fun t => t.fabric.delivered = s.fabric.delivered ++ [pk] ∧ t.mem = s.mem ∧ now' t (· = late)) ∧
        (∀ n gen ev x, pk.body = .notice n gen ev → tget n s.fabric.handles = some x → x.gen = gen → s.fabric.heldInv = [] → arrives fun t =>
          tget n t.fabric.handles = some (x.notice pk.src.toNat s.fabric.now ev) ∧ now' t (· = late)))) ∧
    (∀ (pk : Packet) (c mbox : Nat) (bs : List Byte) (z : State) (late : Bool), let n := z.noteMailbox c mbox
      ∀ x a d, n.mailbox c mbox = some (x, a, d) →
      let tail := bits d 192 64
      let size := 2 ^ bits d 64 4
      let room := size - 32
      let record := leBytes 32 (pk.stamp % 2 ^ 64 + pk.src.toNat * 2 ^ 64 + pk.seq.toNat * 2 ^ 80 + bs.length * 2 ^ 96 + (if room < bs.length then 2 ^ 112 else 0) + (if late then 2 ^ 113 else 0)) ++ bs.take room
      (2 ^ bits d 68 4 ≤ (tail + 2 ^ 64 - bits d 128 64) % 2 ^ 64 → z.deliverMail pk c mbox bs late = n.writeOrFault c 0 (a + 12) (leBytes 4 (bits d 96 32 + 1))) ∧
      ((tail + 2 ^ 64 - bits d 128 64) % 2 ^ 64 < 2 ^ bits d 68 4 → ∀ u, n.writeVA c (BitVec.ofNat 64 (bits d 0 64 + tail % 2 ^ bits d 68 4 * size)) record = some u →
        z.deliverMail pk c mbox bs late = u.writeOrFault c 0 (a + 24) (leBytes 8 ((tail + 1) % 2 ^ 64)))) ∧
    (∀ pk, q.up = true → leastPacket q.merge = some pk → (s.isRouter port.toNat = false ∨ pk.stamp < s.feedWM port.toNat) → Answers (.routerForward port) s fun t => t.mem = s.mem ∧
      t.output = s.output ++ [.packet port.toNat pk] ∧ now' t fun r => r.merge = q.merge.filter (· ≠ pk)) ∧
    (∀ pk, s.device.phase = 6 → pkParent pk ≠ 0 → s.fabric.culvertIn = [] → s.fabric.waitingInv = [] →
      (s.parentState (pkParent pk) = .open → Answers (.culvertArrival pk) s fun t => t.fabric.waitingInv = [pk] ∧ t.fabric.delivered = s.fabric.delivered) ∧
      (∀ c lid, s.parentState (pkParent pk) = .retired c lid → Answers (.culvertArrival pk) s fun t => t.fabric.waitingInv = [] ∧ t.fabric.delivered = s.fabric.delivered ++ [pk])) ∧
    (∀ b, q.stalled = false → s.keepsBack port.toNat = true → q.blocked = some b →
      (b + 16000 * s.fabric.stall ≤ s.fabric.now ∧ q.lastAdv + 16000 * s.fabric.stall ≤ s.fabric.now ∧ q.rearm + 16000 * s.fabric.stall ≤ s.fabric.now) →
      Answers (.portStall port) s fun t => t.output = s.output ++ [.stalledPort port.toNat] ∧ now' t fun r => r = { q with stalled := true }) ∧
    (∀ n : Nat, q.up = true → (n = 0 → Answers (.flitCrcError port n) s fun t => now' t fun r => r = { q with crcErr := bump32 q.crcErr }) ∧
      (1 ≤ n → n < 16 → Answers (.flitCrcError port n) s fun t => now' t fun r => r = { q with resends := bump32 q.resends }) ∧
      (n = 16 → Answers (.flitCrcError port n) s fun t => now' t fun r => r.up = false)) ∧
    (q.up = true →
      let slave := s.fabric.slavePort = some port.toNat
      let kept := fun (t : State) (p : PtpPort) => t.mem = s.mem ∧ t.fabric.now = s.fabric.now ∧ now' t fun r => r = { q with ptp := p }
      (∀ n, Answers (.ptpMessage ⟨port, .announce n⟩) s fun t => kept t { q.ptp with announced := some n }) ∧
      (∀ o, slave → Answers (.ptpMessage ⟨port, .sync o⟩) s fun t => kept t { q.ptp with origin := o, arrived := some s.fabric.now }) ∧
      (∀ o, slave → Answers (.ptpMessage ⟨port, .followUp o⟩) s fun t => kept t { q.ptp with origin := some o }) ∧
      (¬slave → Answers (.ptpMessage ⟨port, .delayReq⟩) s fun t => t = { s with output := s.output ++ [.ptp port.toNat (.delayResp s.fabric.now)] }) ∧
      (∀ t1 t2 t3 t4 : Nat, slave → q.ptp.origin = some t1 → q.ptp.arrived = some t2 → q.ptp.asked = some t3 →
        let offset := (((t2 : Int) - t1) - ((t4 : Int) - t3)) / 2
        Answers (.ptpMessage ⟨port, .delayResp t4⟩) s fun t => t.mem = s.mem ∧ t.fabric.offset = offset ∧
          t.fabric.now = s.fabric.now + (if offset < -16000 then offset.natAbs else 0))) ∧
    (s.device.powered = true → (s.fabric.timing = true ∨ ∃ r ∈ s.fabric.ports, r.up = true) → Answers .ptpSyncInterval s fun t => t.fabric.now = s.fabric.now ∧ t.mem = s.mem ∧
      t.fabric.lockHist = (decide ((if s.fabric.slavePort = none then 0 else s.fabric.offset).natAbs * 2 ≤ s.fabric.skew) :: s.fabric.lockHist).take 8 ∧
      (t.fabric.locked = true ↔ t.fabric.lockHist = List.replicate 8 true) ∧
      (s.fabric.locked = true → t.fabric.locked = false → t.fabric.syncLost = true)) ∧
    (∀ f, s.fabric.future = [f] → f.stamp ≤ s.fabric.now → f.dst = s.fabric.node → s.excisedNode f.dst = false → Answers .heldPacketInject s fun t => t.fabric.future = [] ∧ t.mem = s.mem ∧
      t.fabric.nextSeq = s.fabric.nextSeq + 1 ∧ t.fabric.held = s.fabric.held ++ [{
        stamp := f.stamp, src := BitVec.ofNat 16 s.fabric.node, seq := s.fabric.nextSeq, dst := BitVec.ofNat 16 f.dst, late := false, body := f.body }]) ∧
    (∀ pk, leastPacket s.fabric.held = some pk → pk.stamp < s.minWM none → s.device.phase = 6 → Answers .weirDeliver s fun t =>
      t.fabric.dlvStamp = pk.stamp ∧ t.fabric.dlvSrc = pk.src.toNat ∧ t.fabric.dlvSeq = pk.seq.toNat ∧
      ∀ pa op wide val cmp c w n, pk.body = .oatom pa op wide val cmp c w n → pk.src.toNat ≠ s.fabric.node → rangeDevice pa (if wide then 8 else 4) = true →
        let size := if wide then 8 else 4
        let old := mreadN pa size s.mem
        Wrote s t pa (leBytes size (atomOp op.toNat size 0 noModes (leNat old) val.toNat cmp.toNat)) ∧ t.fabric.held = s.fabric.held.filter (· ≠ pk) ∧
        (s.unpoisoned → t.output = s.output ++ [.answer pk.src.toNat true (old.map fun b => (b, false))])) ∧
    (∀ (src : BitVec 16) pa bs, s.device.phase = 6 → bs ≠ [] → rangeDevice pa bs.length = true → Answers (.fabricMappedAccess src (.store pa bs)) s fun t =>
      Wrote s t pa bs ∧ t.output = s.output ++ [.answer src.toNat true []]) ∧
    (∀ (src : BitVec 16) pa n, s.device.phase = 6 → n ≠ 0 → rangeDevice pa n = true → s.unpoisoned → Answers (.fabricMappedAccess src (.load pa n)) s fun t =>
      t = { s with output := s.output ++ [.answer src.toNat true ((mreadN pa n s.mem).map fun b => (b, false))] }) ∧
    (∀ (peer : BitVec 16) (kind : BitVec 2), q.up = false → kind = 1 ∨ kind = 2 → s.device.powered = true → Answers (.portLinkUp port peer kind) s fun t => t.mem = s.mem ∧
      now' t fun r => r = { q with up := true, routable := true, peer := peer.toNat, peerKind := kind.toNat })

/-- R203, R405 to R412: power starts bring-up at phase 0; a phase that ends well within its limit is followed by the next, phase 5 by READY with every tenant off; one that fails, or runs past its limit, leaves PHASE 7 with a FAILCODE. A DEVRESET returns to phase 1; over-temperature
stops the part; an excursion in locked-clock mode sets PWREXC; a written LOCKCLK applies at its time; the report carries the nonce and is signed; loss of power clears the part. A word that is no instruction kills its launch: with ILLCLAUSE when its major is a long form's that its clause cuts, whatever the launch's ENC, and else with ILLOP. The model's own reading or choice in log entries 1, 42, 45, 47 and 66. -/
def Obligations.DeviceSteps : Prop :=
  ∀ (s : State), s.sound = true →
    let d := s.device
    (d.powered = false → Answers .powerOn s fun t => t = { s with device := { d with powered := true, phase := 0, phaseTime := 0 } }) ∧
    (d.powered = true → Answers .powerOff s fun t => t.device.powered = false ∧ t.launches = [] ∧ ∀ a, mread a t.mem = unwritten) ∧
    (∀ r, d.powered = true → d.phase < 6 → d.thermtrip = false → d.late = false → s.reportOk r = true →
      (r.code = 0 → d.phase < 5 → Answers (.bringupPhaseComplete r) s fun t => t.device.phase = d.phase + 1 ∧ t.device.phaseTime = 0 ∧
        t.output = s.output ++ [.inBand] ∧ t.mem = s.mem) ∧
      (r.code = 0 → d.phase = 5 → Answers (.bringupPhaseComplete r) s fun t => t.device.phase = 6 ∧ t.device.counts = [] ∧ t.mem = s.mem ∧ ∀ e ∈ t.tenants, e.2.en = false) ∧
      (r.code ≠ 0 → Answers (.bringupPhaseComplete r) s fun t => t.device.phase = 7 ∧ t.device.failcode = r.code.toNat)) ∧
    (∀ code : BitVec 8, d.powered = true → d.phase < 6 → d.thermtrip = false → d.late = true → s.lateCode code.toNat = true →
      Answers (.bringupPhaseTimeout code) s fun t => t.device.phase = 7 ∧ t.device.failcode = code.toNat) ∧
    (d.powered = true → d.thermtrip = false → Answers .thermtrip s fun t => t.device = { d with thermtrip := true } ∧ t.launches = [] ∧ t.waves = [] ∧ t.mem = s.mem) ∧
    (d.powered = true → d.thermtrip = false → (d.lockclk = true → Answers .powerExcursion s fun t => t.device = { d with pwrexc := true } ∧ t.mem = s.mem) ∧
      (d.lockclk = false → Answers .powerExcursion s fun t => t = s)) ∧
    (d.phase = 6 ∨ d.thermtrip = true → Answers .devreset s fun t => t.device.phase = 1 ∧ t.device.powered = true ∧ t.launches = [] ∧ t.tenants = [] ∧ t.mem = s.mem ∧
      t.fabric.now = s.fabric.now) ∧
    (∀ v a, d.lockNext = some (v, a) → a ≤ s.fabric.now → Answers .lockclkApply s fun t => t = { s with device := { d with lockclk := v, lockNext := none } }) ∧
    (∀ n, d.atNonce = some n → n.length = 64 → Answers .attestReportReady s fun t => t.device.atrdy = true ∧ (s.reportBody n).take 64 = n ∧
      t.device.report = s.reportBody n ++ padTo 114 (Config.deviceSign (s.reportBody n)) ++ List.replicate 14 0) ∧
    (∀ k w z, s.site? = some k → k.free s = true → s.wordAt k = .word none w z →
      KillsLaunch .unassignedEncoding s k.w.lid (if isLongMajor w = true ∧ k.p.fall < k.p.pc + 8 then 9 else 8) k.p.pc 0)

/-! ### The whole part -/

/-- R190, R191, R199, R338: on a core's turn the words at the pc of its one eligible path are decoded, a long form's second word from its clause, and the step is that instruction's, or that of a word that is none; a path at a clause header enters the clause
first, and waits there for the counters that the header names. A turn for a step of the part is that step. The model's own reading or choice in log entries 5 and 47. -/
def Obligations.StepRunsDecoded : Prop :=
  ∀ (s : State) (c : Nat) (rest : List Turn) (k : Site), s.device.powered = true → s.device.thermtrip = false →
    let z := { s with agenda := rest }
    (∀ i, s.agenda = .event i :: rest → step s = z.paced (.event i) (exec i z)) ∧
    (s.agenda = .core c :: rest → c ∉ s.issued → s.beat ≤ 1 → (∀ d ∈ z.readyCores, d = c) → s.eligiblePaths c = [k] → s.wave? k.w = some k.v → k.v.path? k.pid = some k.p →
      let runs := fun (u : State) (p : Site) => ∀ w, u.fetchWord p.w p.l p.p.pc = .word w →
        let goes := fun o : Option Instr => match o with
          | some i => (decodeCheck i p ≠ none ∨ issueHeld i p u = false) → step s = z.paced (.core c) (exec i (u.grant p))
          | none => step s = z.paced (.core c) (exec .unassignedEncoding (u.grant p))
        (¬(isLongMajor w = true ∧ p.p.pc + 8 ≤ p.p.fall) → goes (decodeWords w 0)) ∧
        (isLongMajor w = true → p.p.pc + 8 ≤ p.p.fall → ∀ y, u.fetchWord p.w p.l (p.p.pc + 4) = .word y → goes (decodeWords w y))
      (k.p.inClause = true → runs z k) ∧
      (∀ h, k.p.inClause = false → s.fetchWord k.w k.l k.p.pc = .word h →
        (goodHeader h = false → step s = z.paced (.core c) (done z (z.killLaunch k.w.lid 9 k.p.pc 0))) ∧
        (goodHeader h = true → ∀ p, p = k.p.enter k.v h →
          let u := z.modWave k.w fun v => v.modPath k.pid fun _ => p
          (p.waits ≠ 0 → step s = z.paced (.core c) (done z u)) ∧ (p.waits = 0 → runs u { k with v := k.v.modPath k.pid fun _ => p, p := p }))))

/-- R191, R194, R197, R249, R338: the order of the checks on an instruction word: a path that is held, or may not issue yet, only uses its core's cycle; a word that is not legal where it stands kills its launch; a register that awaits a result kills a strict launch with
HAZARD, and otherwise counts in HAZ and holds the wave; consumed poison kills with POISON. The model's own reading or choice in log entry 15. -/
def Obligations.IssueChecks : Prop :=
  ∀ (i : Instr) (s : State) (k : Site), i.isWord = true → s.site? = some k → s.wlog = [] →
    let idle := Answers i s fun t => t = { s with cur := none, issued := s.coreOf k.w.teamRef :: s.issued }
    (k.free s = false → idle) ∧
    (∀ st, k.free s = true → decodeCheck i k = some st → Kills i s k st k.p.pc 0) ∧
    (k.free s = true → decodeCheck i k = none → issueHeld i k s = true → idle) ∧
    (k.free s = true → decodeCheck i k = none → issueHeld i k s = false →
      ((touches i).any k.v.outstanding = true → k.l.hdr.strict = true → Kills i s k 0x0A k.p.pc 0) ∧
      ((touches i).any k.v.outstanding = true → k.l.hdr.strict = false → Answers i s fun t =>
        t = { s with cur := none, issued := s.coreOf k.w.teamRef :: s.issued, waves := t.waves } ∧ (∀ z, z ≠ k.w → t.wave? z = s.wave? z) ∧
        t.wave? k.w = some { k.v.bumpHaz with switchWait := true }) ∧
      ((touches i).any k.v.outstanding = false → k.consumesPoison i = true → Kills i s k 0x0E k.p.pc 0))

/-- R78, R80, R290: integer element arithmetic wraps modulo 2^w and raises no flag; the saturating sum clamps to the signed range of its type and raises none. The integer atomics compute in their width. An i8 `mma` accumulates the exact sum of products modulo 2^32.
(`VectorArithmetic`, `ResultSteps` and `CopyAndEngineSteps` say where these results go.) -/
def Obligations.IntegerArithmetic : Prop :=
  ∀ (md : FMode) (t : BitVec 3) (a b d : Nat), floatFormat t = none →
    let w := typeWidth t
    let is := fun (r : FRes) (v : Int) => r.flags = 0 ∧ r.bits < 2 ^ w ∧ ((r.bits : Int) - v) % (2 ^ w : Nat) = 0
    is (eAdd md t a b) (a + b) ∧ is (eSub md t a b) (a - b) ∧ is (eMul md t a b) (a * b) ∧ is (eFma md t false a b d) (d + a * b) ∧
    is (eFma md t true a b d) (d - a * b) ∧ is (eNeg t a) (-a) ∧
    (∀ x y : Int, -2 ^ (w - 1) ≤ x → x < 2 ^ (w - 1) → -2 ^ (w - 1) ≤ y → y < 2 ^ (w - 1) → ((a : Int) - x) % (2 ^ w : Nat) = 0 → ((b : Int) - y) % (2 ^ w : Nat) = 0 →
      is (eAddsat w a b) (max (-2 ^ (w - 1)) (min (2 ^ (w - 1) - 1) (x + y))) ∧
      is (eMulh w a b) (x * y / 2 ^ w)) ∧
    is (eMulhw w (a % 2 ^ w) (b % 2 ^ w)) ((a % 2 ^ w : Nat) * (b % 2 ^ w : Nat) / (2 ^ w : Nat)) ∧
    (∀ n fmt old x y : Nat, n = 4 ∨ n = 8 →
      let o := BitVec.ofNat (8 * n) old
      let v := BitVec.ofNat (8 * n) x
      ∀ p ∈ [(0, o + v), (1, if v.slt o then v else o), (2, if o.slt v then v else o), (3, if v < o then v else o), (4, if o < v then v else o), (5, o &&& v), (6, o ||| v), (7, o ^^^ v), (8, v),
          (9, if o = v then BitVec.ofNat (8 * n) y else o)], atomOp p.1 n fmt md old x y = p.2.toNat) ∧
    (∀ n, n < 256 → elemValue md 11 n = FV.fin (decide (128 ≤ n)) (if 128 ≤ n then 256 - n else n) 0) ∧
    (∀ (xs : List (Int × Int)) (acc L : Nat), 0 < L →
      let whole := fun v : Int => FV.fin (decide (v < 0)) v.natAbs 0
      let r := mmaElem md 2 L acc (xs.map fun x => (whole x.1, whole x.2))
      r.flags = 0 ∧ ((r.bits : Int) - (acc + (xs.map fun x => x.1 * x.2).sum)) % (2 ^ 32 : Nat) = 0)

/-- R63, R65, R69, R71, R73 to R77, R79: one rounding of an exact value gives the value that the mode asks for, the flags that R73 raises, and where it is above the largest finite value, what R74 lists; FLUSHI reads a subnormal as a zero of its sign, FLUSHR replaces a subnormal result by one. A
NaN result is the first NaN in the order of the operands, quiet and carried to the format; IV is raised by a signalling one. Sums, products, fused products and quotients are those of the exact values, rounded once; minima, compares and conversions give way to NaNs and round to whole numbers as R75 and R77 say.
Float atomics and the matrix engine go the same way: `fadd` is one sum, a K-step of `mma` one sum of the accumulator and the step's products, `mma` of f32 and f64 a chain of fused products; `gate` and `rstat` round each result once. (`VectorArithmetic`, `ResultSteps` and
`CopyAndEngineSteps` say where these results go.) The model's own reading or choice in log entries 18 and 63. -/
def Obligations.FloatArithmetic : Prop :=
  ∀ (md : FMode) (f : Nat), f ≤ 5 → md.rm ≤ 3 →
    let signed := fun (n : Bool) (b : Nat) => (if n then signBit f else 0) + b
    let invalid : FRes := ⟨canonNaN f, fIV⟩
    let rounded := fun (sat n : Bool) (v : Rat) (r : FRes) => (v = 0 → r = ⟨signed n 0, 0⟩) ∧
      (v ≠ 0 → ∃ (num den : Nat) (e : Int), 0 < num ∧ 0 < den ∧ (num : Rat) / den * twoPow e = v ∧ r = roundQ md f sat n num den e)
    let ivFor := fun c : Bool => if c then fIV else 0
    let first := fun (xs : List FV) (r : FRes) => ∀ pre z post, xs = pre ++ z :: post → (∀ y ∈ pre, y.isNaN = false) → z.isNaN = true → r = ⟨nanTo md f z, ivFor (xs.any FV.isSNaN)⟩
    (∀ (sat neg : Bool) (num den : Nat) (e : Int), 0 < num → 0 < den →
      let x := (num : Rat) / den * twoPow e
      let r := roundQ md f sat neg num den e
      let flushed := md.flushR.testBit (flushClass f)
      let least := (sat = true ∧ md.satn = true ∧ 2 ≤ f) ∨ towardZero md.rm neg
      (Overflows md.rm f neg x → r.flags = fOF + fNX ∧ (least → r.bits = signed neg (maxFinite f)) ∧
        (¬least → r.bits = if f = 4 ∧ md.dnan = true then 0x7F else signed neg (infBits f))) ∧
      (¬Overflows md.rm f neg x → flushed = false → RoundsTo md.rm f neg x r.bits ∧ ((fdecode f r.bits).mag = x → r.flags = 0) ∧
        ((fdecode f r.bits).mag ≠ x → (Tiny md.rm f neg x → r.flags = fUF + fNX) ∧ (¬Tiny md.rm f neg x → r.flags = fNX))) ∧
      (flushed = true → let o := roundQ { md with flushR := 0 } f sat neg num den e
        r = if isSubnormal f o.bits then ⟨signed neg 0, fUF + fNX⟩ else o)) ∧
    (∀ b, (isSubnormal f b = true ↔ (fdecode f b).isFin = true ∧ 0 < (fdecode f b).mag ∧ (fdecode f b).mag < (fdecode f (2 ^ manBits f)).mag) ∧
      fread md f b = if isSubnormal f b ∧ md.flushI.testBit (flushClass f) then .fin (fdecode f b).neg? 0 0 else fdecode f b) ∧
    (∀ g b, g ≤ 5 → b < 2 ^ formatWidth g → (fdecode g b).isNaN = true →
      let quiet := b ||| 2 ^ (manBits g - 1)
      let payload := b % 2 ^ (manBits g - 1)
      let high := payload / 2 ^ (manBits g - manBits f)
      let v := nanTo md f (fdecode g b)
      let canonical := md.dnan = true ∨ 4 ≤ f ∨ (manBits f < manBits g ∧ payload ≠ 0 ∧ high = 0)
      ((fdecode g b).isSNaN = true ↔ g ≤ 3 ∧ b.testBit (manBits g - 1) = false) ∧ (canonical → v = canonNaN f) ∧
      (¬canonical → v = signed (decide (signBit g ≤ b)) (infBits f) + if manBits g ≤ manBits f then quiet % 2 ^ manBits g * 2 ^ (manBits f - manBits g) else 2 ^ (manBits f - 1) + high)) ∧
    (f ≤ 3 → ∀ xs order : List FV,
      let has := fun n : Bool => FV.inf n ∈ xs
      let v : Rat := xs.foldr (fun x a => x.val + a) 0
      (∀ pre z post, order = pre ++ z :: post → (∀ y ∈ pre, y.isNaN = false) → z.isNaN = true → (∃ x ∈ xs, x.isNaN = true) →
        exactSum md f xs order = ⟨nanTo md f z, ivFor (order.any FV.isSNaN || (xs.contains (.inf false) && xs.contains (.inf true)))⟩) ∧
      ((∀ x ∈ xs, x.isNaN = false) → (has false → has true → exactSum md f xs order = invalid) ∧
        ∀ n, has n → ¬has (!n) → exactSum md f xs order = ⟨signed n (infBits f), 0⟩) ∧
      ((∀ x ∈ xs, x.isFin = true) → (v ≠ 0 → rounded false (decide (v < 0)) (if v < 0 then -v else v) (exactSum md f xs order)) ∧
        (v = 0 → exactSum md f xs order = ⟨signed (decide (md.rm = 3) || (!xs.isEmpty && xs.all FV.neg?)) 0, 0⟩))) ∧
    (∀ p q : FV, p.isNaN = false → q.isNaN = false →
      ((p.isFin = true → q.isFin = true → ∃ z, fmul p q = some z ∧ z.isFin = true ∧ z.neg? = (p.neg? != q.neg?) ∧ z.mag = p.mag * q.mag) ∧
       (p.isFin = false → fmul p q = if q.isFin = true ∧ q.mag = 0 then none else some (.inf (p.neg? != q.neg?))) ∧
       (q.isFin = false → fmul p q = if p.isFin = true ∧ p.mag = 0 then none else some (.inf (p.neg? != q.neg?))))) ∧
    (∀ (neg : Bool) (p q o : FV), (fmul p q = none → fFma md f neg p q o = invalid) ∧ (∀ z, fmul p q = some z → first [p, q, o] (fFma md f neg p q o) ∧
      (z.isNaN = false → o.isNaN = false → fFma md f neg p q o = exactSum md f [if neg then z.flip else z, o] []))) ∧
    (∀ z, first [z] (fPass md f z) ∧ (∀ n, z = .inf n → fPass md f z = ⟨signed n (infBits f), 0⟩) ∧ (z.isFin = true → rounded false z.neg? z.mag (fPass md f z))) ∧
    (∀ (t : BitVec 3) (a b d : Nat), floatFormat t = some f →
      let p := fread md f a
      let q := fread md f b
      let o := fread md f d
      let n := p.neg? != q.neg?
      eAdd md t a b = exactSum md f [p, q] [p, q] ∧ eSub md t a b = exactSum md f [p, q.flip] [p, q] ∧
      first [p, q] (eMul md t a b) ∧ (fmul p q = none → eMul md t a b = invalid) ∧ (∀ m, fmul p q = some (.inf m) → eMul md t a b = ⟨signed m (infBits f), 0⟩) ∧
      (∀ z, fmul p q = some z → z.isFin = true → rounded false n z.mag (eMul md t a b)) ∧
      (∀ neg, eFma md t neg a b d = fFma md f neg p q o) ∧
      first [p, q] (fDiv md f false p q) ∧
      (p.isNaN = false → q.isNaN = false →
        (p.isFin = false → fDiv md f false p q = if q.isFin then ⟨signed n (infBits f), 0⟩ else invalid) ∧ (p.isFin = true → q.isFin = false → fDiv md f false p q = ⟨signed n 0, 0⟩) ∧
        (p.isFin = true → q.isFin = true → (q.mag = 0 → fDiv md f false p q = if p.mag = 0 then invalid else ⟨signed n (infBits f), fDZ⟩) ∧
          (q.mag ≠ 0 → rounded false n (p.mag / q.mag) (fDiv md f false p q)))) ∧
      (∀ big, (p.isNaN = true → q.isNaN = true → first [p, q] (eMin md t big a b)) ∧
        (p.isNaN = true → q.isNaN = false → eMin md t big a b = ⟨(fPass md f q).bits, (fPass md f q).flags ||| ivFor p.isSNaN⟩) ∧
        (p.isNaN = false → q.isNaN = true → eMin md t big a b = ⟨(fPass md f p).bits, (fPass md f p).flags ||| ivFor q.isSNaN⟩) ∧
        (p.isFin = true → q.isFin = true → ∃ z, (z = p ∨ z = q) ∧ eMin md t big a b = fPass md f z ∧ ((big = false → z.val ≤ p.val ∧ z.val ≤ q.val) ∧ (big = true → p.val ≤ z.val ∧ q.val ≤ z.val)) ∧
          (p.mag = 0 → q.mag = 0 → z.neg? = if big then p.neg? && q.neg? else p.neg? || q.neg?))) ∧
      (p.isNaN = true ∨ q.isNaN = true → (∀ c, c ∈ [2, 3, 4, 5] → condFloat md c f a b = (false, fIV)) ∧
        ∀ c, c ∈ [0, 1] → condFloat md c f a b = (decide (c = 1), ivFor (p.isSNaN || q.isSNaN))) ∧
      (p.isFin = true → q.isFin = true → condFloat md 0 f a b = (decide (p.val = q.val), 0) ∧ condFloat md 1 f a b = (decide (p.val ≠ q.val), 0) ∧ condFloat md 2 f a b = (decide (p.val < q.val), 0) ∧
        condFloat md 3 f a b = (decide (p.val ≤ q.val), 0) ∧ condFloat md 4 f a b = (decide (q.val < p.val), 0) ∧ condFloat md 5 f a b = (decide (q.val ≤ p.val), 0))) ∧
    (∀ g b, g ≤ 5 → g ≠ f → let a := fread md g b
      (a.isNaN = true → cvtElem md f g b = ⟨nanTo md f a, ivFor a.isSNaN⟩) ∧
      (∀ n, a = .inf n → cvtElem md f g b = if f ≠ 4 then ⟨signed n (infBits f), 0⟩ else if md.satn then ⟨signed n 0x7E, 0⟩ else ⟨if md.dnan then 0x7F else signed n 0x7F, fIV⟩) ∧
      (a.isFin = true → rounded true a.neg? a.mag (cvtElem md f g b))) ∧
    (∀ b, b < 256 → (b = 255 → cvtElem md f 6 b = ⟨canonNaN f, 0⟩) ∧ (b ≠ 255 → rounded true false (twoPow ((b : Int) - 127)) (cvtElem md f 6 b))) ∧
    (∀ g b, 8 ≤ g → g ≤ 14 →
      (let v := intOf g b; rounded true (decide (v < 0)) v.natAbs (cvtElem md f g b)) ∧
      let a := fread md f b
      (a.isNaN = true → cvtElem md g f b = ⟨0, fIV⟩) ∧ (∀ n, a = .inf n → cvtElem md g f b = ⟨intBits g (if n then intMin g else intMax g), fIV⟩) ∧
      (a.isFin = true → ∃ r ix, RoundsToWhole md.rm a.neg? a.mag r ix ∧
        let v : Int := if a.neg? then -(r : Int) else r
        cvtElem md g f b = if v < intMin g then ⟨intBits g (intMin g), fIV⟩ else if intMax g < v then ⟨intBits g (intMax g), fIV⟩ else ⟨intBits g v, if ix then fNX else 0⟩)) ∧
    (f ≤ 1 → ∀ w o b c, let xs := [fread md f (o % 2 ^ (8 * w)), fread md f (b % 2 ^ (8 * w))]
      atomOp 10 w f md o b c = (exactSum md f xs xs).bits) ∧
    (let chain := fun (kind L : Nat) => ∀ acc, mmaElem md kind L acc [] = ⟨acc, 0⟩ ∧ ∀ p ps, let r := fFma md f false p.1 p.2 (fread md f acc)
       let rest := mmaElem md kind L r.bits ps
       mmaElem md kind L acc (p :: ps) = ⟨rest.bits, r.flags ||| rest.flags⟩
     (f = 0 → ∀ L, chain 1 L) ∧ (f = 1 → chain 0 1)) ∧
    (f = 1 → (∀ L acc, 1 < L → mmaElem md 0 L acc [] = ⟨acc, 0⟩ ∧ ∀ ps, ps ≠ [] →
        let step := ps.take L
        let order := step.flatMap (fun p => [p.1, p.2]) ++ [fread md 1 acc]
        let r := if (step.all fun p => (fmul p.1 p.2).isSome) then exactSum md 1 (fread md 1 acc :: step.filterMap fun p => fmul p.1 p.2) order else invalid
        let rest := mmaElem md 0 L r.bits (ps.drop L)
        mmaElem md 0 L acc ps = ⟨rest.bits, r.flags ||| rest.flags⟩) ∧
      (∀ a b d, let x := fread md 1 a
        gateElem md 0 a b d = sfuElem md 1 7 x ∧ gateElem md 1 a b d = sfuElem md 1 6 x ∧ gateElem md 2 a b d = eMul md 5 a b ∧ gateElem md 3 a b d = eAdd md 5 a b ∧ gateElem md 5 a b d = eMul md 5 a b) ∧
      ∀ row, row ≠ [] → let vs := (rowElems 32 row).map (fread md 1)
        (statRow md row).2.1 = exactSum md 1 vs vs ∧ (statRow md row).2.2 = exactSum md 1 (vs.filterMap fun v => fmul v v) vs ∧
        ((∀ v ∈ vs, v.isFin = true) → ∃ z ∈ vs, (statRow md row).1 = fPass md 1 z ∧ ∀ y ∈ vs, y.val ≤ z.val))

/-- R401, R402, R405 to R407: at power-on the part has no power, LOCKCLK is 1, STALL is 40, BEACON 256 and SKEW 1,600, no port is up, and no tenant, context, queue, launch or wave exists; memory lists nothing. The state is sound. The model's own reading or choice in log entries 1 and 4. -/
def Obligations.ResetState : Prop :=
  State.reset.sound = true ∧ State.reset.device.powered = false ∧ State.reset.device.phase = 0 ∧ State.reset.device.lockclk = true ∧ State.reset.device.sysv = false ∧
  State.reset.fabric.stall = 40 ∧ State.reset.fabric.beacon = 256 ∧ State.reset.fabric.skew = 1600 ∧ State.reset.fabric.node = 0 ∧
  State.reset.fabric.ports.length = 16 ∧ State.reset.fabric.ports.all (!·.up) = true ∧ State.reset.mem = [] ∧
  State.reset.tenants = [] ∧ State.reset.ctxs = [] ∧ State.reset.queues = [] ∧ State.reset.launches = [] ∧ State.reset.waves = []

/-- Words written out from the encodings of the spec decode to the instructions they stand for (R213, R223 to R228, R221, R240, R242). -/
def Obligations.DecodeWords : Prop :=
  decodeWords 0x00000000 0 = some (.nop false) ∧ decodeWords 0x10018210 0 = some (.sadd false 3 1 2) ∧ decodeWords 0x11630E40 0 = some (.sdiv false 6 7 8) ∧
  decodeWords 0x12103100 0 = some (.saddi false 4 3 256) ∧ decodeWords 0x170BFFFB 0 = some (.smovi false 2 (-5)) ∧
  decodeWords 0x70140000 0x12345678 = some (.smovl false 5 0x12345678) ∧ decodeWords 0x20088000 0 = some (.mand false 2 1 0) ∧
  decodeWords 0x0F000009 0 = some (.wait false 9) ∧ decodeWords 0x6F00002A 0 = some (.trap false 0x2A) ∧ decodeWords 0x6F106000 0 = some (.tnow false 3)

/-- Decoding the words that the encoder gives for a well-formed instruction word gives the instruction back, with every operand at every value that the spec admits. -/
def Obligations.DecodeEncode : Prop :=
  ∀ i : Instr, i.wf = true → decodeWords ((encodeWords i).headD 0) ((encodeWords i).getD 1 0) = some i

/-- Every step keeps device memory in its canonical form, with every written byte committed. The model's own reading or choice in log entry 2. -/
def Obligations.SoundKept : Prop := ∀ s t : State, s.sound = true → step s = .next t → t.sound = true
end

