-- ==== Sys2Proof/Laws/Memory.lean ====
section
/-! SUPPORT. The byte memory: read after write, and every write keeps the canonical form. -/

namespace Sys2Proof.Machine

/-- Every entry of a memory lies above an address. -/
def Above (a : Nat) (m : Mem) : Prop := ∀ p ∈ m, a < p.1

theorem mwf_cons (a : Nat) (v : Byte) (m : Mem) :
    mwf ((a, v) :: m) = true ↔ v ≠ unwritten ∧ Above a m ∧ mwf m = true := by
  induction m generalizing a v with
  | nil => simp [mwf, Above]
  | cons p m ih =>
    obtain ⟨b, w⟩ := p
    simp only [mwf, Bool.and_eq_true, bne_iff_ne, ne_eq, decide_eq_true_eq]
    constructor
    · rintro ⟨⟨h₁, h₂⟩, h₃⟩
      refine ⟨h₁, ?_, h₃⟩
      intro q hq
      rcases List.mem_cons.1 hq with rfl | hq
      · exact h₂
      · exact lt_trans h₂ (((ih b w).1 h₃).2.1 q hq)
    · rintro ⟨h₁, h₂, h₃⟩
      exact ⟨⟨h₁, h₂ (b, w) (by simp)⟩, h₃⟩

theorem Above.mono {a b : Nat} {m : Mem} (h : a ≤ b) (hm : Above b m) : Above a m := fun p hp => lt_of_le_of_lt h (hm p hp)

theorem above_mwrite {a b : Nat} {v : Byte} {m : Mem} (h : b < a) (hm : Above b m) : Above b (mwrite a v m) := by
  induction m with
  | nil =>
    intro p hp
    by_cases hv : v = unwritten <;> simp [mwrite, hv] at hp
    subst hp; exact h
  | cons q m ih =>
    obtain ⟨c, w⟩ := q
    have hc := hm (c, w) (by simp)
    have hr : Above b m := fun p hp => hm p (by simp [hp])
    intro p hp
    simp only [mwrite] at hp
    split at hp
    · split at hp
      · exact hm p hp
      · rcases List.mem_cons.1 hp with rfl | hp
        · exact h
        · exact hm p hp
    · split at hp
      · split at hp
        · exact hr p hp
        · rcases List.mem_cons.1 hp with rfl | hp
          · exact h
          · exact hr p hp
      · rcases List.mem_cons.1 hp with rfl | hp
        · exact hc
        · exact ih hr p hp

/-- A write keeps the canonical form. -/
theorem mwf_mwrite (a : Nat) (v : Byte) (m : Mem) (h : mwf m = true) : mwf (mwrite a v m) = true := by
  induction m with
  | nil => by_cases hv : v = unwritten <;> simp [mwrite, mwf, hv]
  | cons q m ih =>
    obtain ⟨b, w⟩ := q
    obtain ⟨hw, ha, hm⟩ := (mwf_cons b w m).1 h
    simp only [mwrite]
    split
    · rename_i hab
      split
      · exact h
      · rename_i hv
        refine (mwf_cons a v _).2 ⟨hv, ?_, h⟩
        intro p hp
        rcases List.mem_cons.1 hp with rfl | hp
        · exact hab
        · exact lt_trans hab (ha p hp)
    · split
      · rename_i hab
        split
        · exact hm
        · rename_i hv
          exact (mwf_cons a v m).2 ⟨hv, hab ▸ ha, hm⟩
      · rename_i h₁ h₂
        exact (mwf_cons b w _).2 ⟨hw, above_mwrite (by omega) ha, ih hm⟩

/-- A list of writes keeps the canonical form. -/
theorem mwf_mwriteAll (l : List (Nat × Byte)) (m : Mem) (h : mwf m = true) : mwf (mwriteAll l m) = true := by
  induction l generalizing m with
  | nil => exact h
  | cons p l ih => exact ih _ (mwf_mwrite p.1 p.2 m h)

theorem mread_of_above {a : Nat} {m : Mem} (h : Above a m) : mread a m = unwritten := by
  cases m with
  | nil => rfl
  | cons p m => obtain ⟨b, w⟩ := p; have hb : a < b := h (b, w) (by simp); simp [mread, hb, Nat.ne_of_lt hb]

/-- A read of the byte just written. -/
theorem mread_mwrite_same (a : Nat) (v : Byte) (m : Mem) (h : mwf m = true) : mread a (mwrite a v m) = v := by
  induction m with
  | nil => by_cases hv : v = unwritten <;> simp [mwrite, mread, hv]
  | cons q m ih =>
    obtain ⟨b, w⟩ := q
    obtain ⟨hw, ha, hm⟩ := (mwf_cons b w m).1 h
    simp only [mwrite]
    split
    · rename_i hab
      split
      · rename_i hv; simp [mread, hab, Nat.ne_of_lt hab, hv]
      · simp [mread]
    · split
      · rename_i hab
        split
        · rename_i hv; rw [hv]; exact mread_of_above (hab ▸ ha)
        · simp [mread]
      · rename_i h₁ h₂; simp [mread, h₁, h₂, ih hm]

/-- A read of any other byte. -/
theorem mread_mwrite_other {a b : Nat} (hne : b ≠ a) (v : Byte) (m : Mem) (h : mwf m = true) :
    mread b (mwrite a v m) = mread b m := by
  induction m with
  | nil => by_cases hv : v = unwritten <;> simp [mwrite, mread, hv, hne]
  | cons q m ih =>
    obtain ⟨c, w⟩ := q
    obtain ⟨hw, ha, hm⟩ := (mwf_cons c w m).1 h
    simp only [mwrite]
    split
    · rename_i hac
      split
      · rfl
      · by_cases hba : b < a
        · simp [mread, hne, hba, Nat.ne_of_lt (lt_trans hba hac), lt_trans hba hac]
        · simp [mread, hne, hba]
    · split
      · rename_i hac
        subst hac
        by_cases hba : b < a
        · have : mread b m = unwritten := mread_of_above (ha.mono (by omega))
          split <;> simp [mread, hne, hba, this]
        · split <;> simp [mread, hne, hba]
      · rename_i h₁ h₂
        by_cases hbc : b = c
        · simp [mread, hbc]
        · by_cases hlt : b < c
          · simp [mread, hbc, hlt]
          · simp [mread, hbc, hlt, ih hm]

/-- Writes elsewhere leave a byte alone. -/
theorem mread_mwriteAll_other {b : Nat} {l : List (Nat × Byte)} {m : Mem} (hl : ∀ p ∈ l, p.1 ≠ b) (h : mwf m = true) :
    mread b (mwriteAll l m) = mread b m := by
  induction l generalizing m with
  | nil => rfl
  | cons p l ih =>
    have := ih (m := mwrite p.1 p.2 m) (fun q hq => hl q (by simp [hq])) (mwf_mwrite _ _ _ h)
    simpa [mwriteAll, mread_mwrite_other (fun e => hl p (by simp) e.symm) p.2 m h] using this

end Sys2Proof.Machine
end

