-- ==== Sys2Proof/Laws/State.lean ====
section
/-! SUPPORT. What each update of the state and of a wave does to each field, so that no proof unfolds a record update. -/

namespace Sys2Proof.Machine

/-! ### State.commit -/

@[simp] theorem State.commit_mem (s t : State) : (s.commit t).mem = mwriteAll t.wlog.reverse s.mem := rfl
@[simp] theorem State.commit_wlog (s t : State) : (s.commit t).wlog = [] := rfl
@[simp] theorem State.commit_mempoison (s t : State) : (s.commit t).mempoison = t.mempoison := rfl
@[simp] theorem State.commit_lasting (s t : State) : (s.commit t).lasting = t.lasting := rfl
@[simp] theorem State.commit_nodes (s t : State) : (s.commit t).nodes = t.nodes := rfl
@[simp] theorem State.commit_queue (s t : State) : (s.commit t).queue = t.queue := rfl
@[simp] theorem State.commit_buffer (s t : State) : (s.commit t).buffer = t.buffer := rfl
@[simp] theorem State.commit_cache (s t : State) : (s.commit t).cache = t.cache := rfl
@[simp] theorem State.commit_tlb (s t : State) : (s.commit t).tlb = t.tlb := rfl
@[simp] theorem State.commit_walks (s t : State) : (s.commit t).walks = t.walks := rfl
@[simp] theorem State.commit_waves (s t : State) : (s.commit t).waves = t.waves := rfl
@[simp] theorem State.commit_teams (s t : State) : (s.commit t).teams = t.teams := rfl
@[simp] theorem State.commit_launches (s t : State) : (s.commit t).launches = t.launches := rfl
@[simp] theorem State.commit_granules (s t : State) : (s.commit t).granules = t.granules := rfl
@[simp] theorem State.commit_copies (s t : State) : (s.commit t).copies = t.copies := rfl
@[simp] theorem State.commit_quads (s t : State) : (s.commit t).quads = t.quads := rfl
@[simp] theorem State.commit_signals (s t : State) : (s.commit t).signals = t.signals := rfl
@[simp] theorem State.commit_takes (s t : State) : (s.commit t).takes = t.takes := rfl
@[simp] theorem State.commit_waiters (s t : State) : (s.commit t).waiters = t.waiters := rfl
@[simp] theorem State.commit_entries (s t : State) : (s.commit t).entries = t.entries := rfl
@[simp] theorem State.commit_wheel (s t : State) : (s.commit t).wheel = t.wheel := rfl
@[simp] theorem State.commit_faults (s t : State) : (s.commit t).faults = t.faults := rfl
@[simp] theorem State.commit_tenants (s t : State) : (s.commit t).tenants = t.tenants := rfl
@[simp] theorem State.commit_ctxs (s t : State) : (s.commit t).ctxs = t.ctxs := rfl
@[simp] theorem State.commit_queues (s t : State) : (s.commit t).queues = t.queues := rfl
@[simp] theorem State.commit_packets (s t : State) : (s.commit t).packets = t.packets := rfl
@[simp] theorem State.commit_fabric (s t : State) : (s.commit t).fabric = t.fabric := rfl
@[simp] theorem State.commit_device (s t : State) : (s.commit t).device = t.device := rfl
@[simp] theorem State.commit_cycles (s t : State) : (s.commit t).cycles = t.cycles := rfl
@[simp] theorem State.commit_issued (s t : State) : (s.commit t).issued = t.issued := rfl
@[simp] theorem State.commit_beat (s t : State) : (s.commit t).beat = t.beat := rfl
@[simp] theorem State.commit_divHold (s t : State) : (s.commit t).divHold = t.divHold := rfl
@[simp] theorem State.commit_loopBufs (s t : State) : (s.commit t).loopBufs = t.loopBufs := rfl
@[simp] theorem State.commit_loopWants (s t : State) : (s.commit t).loopWants = t.loopWants := rfl
@[simp] theorem State.commit_chip (s t : State) : (s.commit t).chip = t.chip := rfl
@[simp] theorem State.commit_cur (s t : State) : (s.commit t).cur = t.cur := rfl
@[simp] theorem State.commit_nextLid (s t : State) : (s.commit t).nextLid = t.nextLid := rfl
@[simp] theorem State.commit_nextId (s t : State) : (s.commit t).nextId = t.nextId := rfl
@[simp] theorem State.commit_round (s t : State) : (s.commit t).round = t.round := rfl
@[simp] theorem State.commit_schedDue (s t : State) : (s.commit t).schedDue = t.schedDue := rfl
@[simp] theorem State.commit_schedTick (s t : State) : (s.commit t).schedTick = t.schedTick := rfl
@[simp] theorem State.commit_ageTick (s t : State) : (s.commit t).ageTick = t.ageTick := rfl
@[simp] theorem State.commit_output (s t : State) : (s.commit t).output = t.output := rfl
@[simp] theorem State.commit_agenda (s t : State) : (s.commit t).agenda = t.agenda := rfl

/-! ### State.setWave -/

@[simp] theorem State.setWave_mem (s : State) (w : WaveRef) (v : Wave) : (s.setWave w v).mem = s.mem := rfl
@[simp] theorem State.setWave_wlog (s : State) (w : WaveRef) (v : Wave) : (s.setWave w v).wlog = s.wlog := rfl
@[simp] theorem State.setWave_mempoison (s : State) (w : WaveRef) (v : Wave) : (s.setWave w v).mempoison = s.mempoison := rfl
@[simp] theorem State.setWave_lasting (s : State) (w : WaveRef) (v : Wave) : (s.setWave w v).lasting = s.lasting := rfl
@[simp] theorem State.setWave_nodes (s : State) (w : WaveRef) (v : Wave) : (s.setWave w v).nodes = s.nodes := rfl
@[simp] theorem State.setWave_queue (s : State) (w : WaveRef) (v : Wave) : (s.setWave w v).queue = s.queue := rfl
@[simp] theorem State.setWave_buffer (s : State) (w : WaveRef) (v : Wave) : (s.setWave w v).buffer = s.buffer := rfl
@[simp] theorem State.setWave_cache (s : State) (w : WaveRef) (v : Wave) : (s.setWave w v).cache = s.cache := rfl
@[simp] theorem State.setWave_tlb (s : State) (w : WaveRef) (v : Wave) : (s.setWave w v).tlb = s.tlb := rfl
@[simp] theorem State.setWave_walks (s : State) (w : WaveRef) (v : Wave) : (s.setWave w v).walks = s.walks := rfl
@[simp] theorem State.setWave_waves (s : State) (w : WaveRef) (v : Wave) : (s.setWave w v).waves = tput w v s.waves := rfl
@[simp] theorem State.setWave_teams (s : State) (w : WaveRef) (v : Wave) : (s.setWave w v).teams = s.teams := rfl
@[simp] theorem State.setWave_launches (s : State) (w : WaveRef) (v : Wave) : (s.setWave w v).launches = s.launches := rfl
@[simp] theorem State.setWave_granules (s : State) (w : WaveRef) (v : Wave) : (s.setWave w v).granules = s.granules := rfl
@[simp] theorem State.setWave_copies (s : State) (w : WaveRef) (v : Wave) : (s.setWave w v).copies = s.copies := rfl
@[simp] theorem State.setWave_quads (s : State) (w : WaveRef) (v : Wave) : (s.setWave w v).quads = s.quads := rfl
@[simp] theorem State.setWave_signals (s : State) (w : WaveRef) (v : Wave) : (s.setWave w v).signals = s.signals := rfl
@[simp] theorem State.setWave_takes (s : State) (w : WaveRef) (v : Wave) : (s.setWave w v).takes = s.takes := rfl
@[simp] theorem State.setWave_waiters (s : State) (w : WaveRef) (v : Wave) : (s.setWave w v).waiters = s.waiters := rfl
@[simp] theorem State.setWave_entries (s : State) (w : WaveRef) (v : Wave) : (s.setWave w v).entries = s.entries := rfl
@[simp] theorem State.setWave_wheel (s : State) (w : WaveRef) (v : Wave) : (s.setWave w v).wheel = s.wheel := rfl
@[simp] theorem State.setWave_faults (s : State) (w : WaveRef) (v : Wave) : (s.setWave w v).faults = s.faults := rfl
@[simp] theorem State.setWave_tenants (s : State) (w : WaveRef) (v : Wave) : (s.setWave w v).tenants = s.tenants := rfl
@[simp] theorem State.setWave_ctxs (s : State) (w : WaveRef) (v : Wave) : (s.setWave w v).ctxs = s.ctxs := rfl
@[simp] theorem State.setWave_queues (s : State) (w : WaveRef) (v : Wave) : (s.setWave w v).queues = s.queues := rfl
@[simp] theorem State.setWave_packets (s : State) (w : WaveRef) (v : Wave) : (s.setWave w v).packets = s.packets := rfl
@[simp] theorem State.setWave_fabric (s : State) (w : WaveRef) (v : Wave) : (s.setWave w v).fabric = s.fabric := rfl
@[simp] theorem State.setWave_device (s : State) (w : WaveRef) (v : Wave) : (s.setWave w v).device = s.device := rfl
@[simp] theorem State.setWave_cycles (s : State) (w : WaveRef) (v : Wave) : (s.setWave w v).cycles = s.cycles := rfl
@[simp] theorem State.setWave_issued (s : State) (w : WaveRef) (v : Wave) : (s.setWave w v).issued = s.issued := rfl
@[simp] theorem State.setWave_beat (s : State) (w : WaveRef) (v : Wave) : (s.setWave w v).beat = s.beat := rfl
@[simp] theorem State.setWave_divHold (s : State) (w : WaveRef) (v : Wave) : (s.setWave w v).divHold = s.divHold := rfl
@[simp] theorem State.setWave_loopBufs (s : State) (w : WaveRef) (v : Wave) : (s.setWave w v).loopBufs = s.loopBufs := rfl
@[simp] theorem State.setWave_loopWants (s : State) (w : WaveRef) (v : Wave) : (s.setWave w v).loopWants = s.loopWants := rfl
@[simp] theorem State.setWave_chip (s : State) (w : WaveRef) (v : Wave) : (s.setWave w v).chip = s.chip := rfl
@[simp] theorem State.setWave_cur (s : State) (w : WaveRef) (v : Wave) : (s.setWave w v).cur = s.cur := rfl
@[simp] theorem State.setWave_nextLid (s : State) (w : WaveRef) (v : Wave) : (s.setWave w v).nextLid = s.nextLid := rfl
@[simp] theorem State.setWave_nextId (s : State) (w : WaveRef) (v : Wave) : (s.setWave w v).nextId = s.nextId := rfl
@[simp] theorem State.setWave_round (s : State) (w : WaveRef) (v : Wave) : (s.setWave w v).round = s.round := rfl
@[simp] theorem State.setWave_schedDue (s : State) (w : WaveRef) (v : Wave) : (s.setWave w v).schedDue = s.schedDue := rfl
@[simp] theorem State.setWave_schedTick (s : State) (w : WaveRef) (v : Wave) : (s.setWave w v).schedTick = s.schedTick := rfl
@[simp] theorem State.setWave_ageTick (s : State) (w : WaveRef) (v : Wave) : (s.setWave w v).ageTick = s.ageTick := rfl
@[simp] theorem State.setWave_output (s : State) (w : WaveRef) (v : Wave) : (s.setWave w v).output = s.output := rfl
@[simp] theorem State.setWave_agenda (s : State) (w : WaveRef) (v : Wave) : (s.setWave w v).agenda = s.agenda := rfl

/-! ### State.modWave -/

@[simp] theorem State.modWave_mem (s : State) (w : WaveRef) (f : Wave → Wave) : (s.modWave w f).mem = s.mem := rfl
@[simp] theorem State.modWave_wlog (s : State) (w : WaveRef) (f : Wave → Wave) : (s.modWave w f).wlog = s.wlog := rfl
@[simp] theorem State.modWave_mempoison (s : State) (w : WaveRef) (f : Wave → Wave) : (s.modWave w f).mempoison = s.mempoison := rfl
@[simp] theorem State.modWave_lasting (s : State) (w : WaveRef) (f : Wave → Wave) : (s.modWave w f).lasting = s.lasting := rfl
@[simp] theorem State.modWave_nodes (s : State) (w : WaveRef) (f : Wave → Wave) : (s.modWave w f).nodes = s.nodes := rfl
@[simp] theorem State.modWave_queue (s : State) (w : WaveRef) (f : Wave → Wave) : (s.modWave w f).queue = s.queue := rfl
@[simp] theorem State.modWave_buffer (s : State) (w : WaveRef) (f : Wave → Wave) : (s.modWave w f).buffer = s.buffer := rfl
@[simp] theorem State.modWave_cache (s : State) (w : WaveRef) (f : Wave → Wave) : (s.modWave w f).cache = s.cache := rfl
@[simp] theorem State.modWave_tlb (s : State) (w : WaveRef) (f : Wave → Wave) : (s.modWave w f).tlb = s.tlb := rfl
@[simp] theorem State.modWave_walks (s : State) (w : WaveRef) (f : Wave → Wave) : (s.modWave w f).walks = s.walks := rfl
@[simp] theorem State.modWave_waves (s : State) (w : WaveRef) (f : Wave → Wave) : (s.modWave w f).waves = tmod w f s.waves := rfl
@[simp] theorem State.modWave_teams (s : State) (w : WaveRef) (f : Wave → Wave) : (s.modWave w f).teams = s.teams := rfl
@[simp] theorem State.modWave_launches (s : State) (w : WaveRef) (f : Wave → Wave) : (s.modWave w f).launches = s.launches := rfl
@[simp] theorem State.modWave_granules (s : State) (w : WaveRef) (f : Wave → Wave) : (s.modWave w f).granules = s.granules := rfl
@[simp] theorem State.modWave_copies (s : State) (w : WaveRef) (f : Wave → Wave) : (s.modWave w f).copies = s.copies := rfl
@[simp] theorem State.modWave_quads (s : State) (w : WaveRef) (f : Wave → Wave) : (s.modWave w f).quads = s.quads := rfl
@[simp] theorem State.modWave_signals (s : State) (w : WaveRef) (f : Wave → Wave) : (s.modWave w f).signals = s.signals := rfl
@[simp] theorem State.modWave_takes (s : State) (w : WaveRef) (f : Wave → Wave) : (s.modWave w f).takes = s.takes := rfl
@[simp] theorem State.modWave_waiters (s : State) (w : WaveRef) (f : Wave → Wave) : (s.modWave w f).waiters = s.waiters := rfl
@[simp] theorem State.modWave_entries (s : State) (w : WaveRef) (f : Wave → Wave) : (s.modWave w f).entries = s.entries := rfl
@[simp] theorem State.modWave_wheel (s : State) (w : WaveRef) (f : Wave → Wave) : (s.modWave w f).wheel = s.wheel := rfl
@[simp] theorem State.modWave_faults (s : State) (w : WaveRef) (f : Wave → Wave) : (s.modWave w f).faults = s.faults := rfl
@[simp] theorem State.modWave_tenants (s : State) (w : WaveRef) (f : Wave → Wave) : (s.modWave w f).tenants = s.tenants := rfl
@[simp] theorem State.modWave_ctxs (s : State) (w : WaveRef) (f : Wave → Wave) : (s.modWave w f).ctxs = s.ctxs := rfl
@[simp] theorem State.modWave_queues (s : State) (w : WaveRef) (f : Wave → Wave) : (s.modWave w f).queues = s.queues := rfl
@[simp] theorem State.modWave_packets (s : State) (w : WaveRef) (f : Wave → Wave) : (s.modWave w f).packets = s.packets := rfl
@[simp] theorem State.modWave_fabric (s : State) (w : WaveRef) (f : Wave → Wave) : (s.modWave w f).fabric = s.fabric := rfl
@[simp] theorem State.modWave_device (s : State) (w : WaveRef) (f : Wave → Wave) : (s.modWave w f).device = s.device := rfl
@[simp] theorem State.modWave_cycles (s : State) (w : WaveRef) (f : Wave → Wave) : (s.modWave w f).cycles = s.cycles := rfl
@[simp] theorem State.modWave_issued (s : State) (w : WaveRef) (f : Wave → Wave) : (s.modWave w f).issued = s.issued := rfl
@[simp] theorem State.modWave_beat (s : State) (w : WaveRef) (f : Wave → Wave) : (s.modWave w f).beat = s.beat := rfl
@[simp] theorem State.modWave_divHold (s : State) (w : WaveRef) (f : Wave → Wave) : (s.modWave w f).divHold = s.divHold := rfl
@[simp] theorem State.modWave_loopBufs (s : State) (w : WaveRef) (f : Wave → Wave) : (s.modWave w f).loopBufs = s.loopBufs := rfl
@[simp] theorem State.modWave_loopWants (s : State) (w : WaveRef) (f : Wave → Wave) : (s.modWave w f).loopWants = s.loopWants := rfl
@[simp] theorem State.modWave_chip (s : State) (w : WaveRef) (f : Wave → Wave) : (s.modWave w f).chip = s.chip := rfl
@[simp] theorem State.modWave_cur (s : State) (w : WaveRef) (f : Wave → Wave) : (s.modWave w f).cur = s.cur := rfl
@[simp] theorem State.modWave_nextLid (s : State) (w : WaveRef) (f : Wave → Wave) : (s.modWave w f).nextLid = s.nextLid := rfl
@[simp] theorem State.modWave_nextId (s : State) (w : WaveRef) (f : Wave → Wave) : (s.modWave w f).nextId = s.nextId := rfl
@[simp] theorem State.modWave_round (s : State) (w : WaveRef) (f : Wave → Wave) : (s.modWave w f).round = s.round := rfl
@[simp] theorem State.modWave_schedDue (s : State) (w : WaveRef) (f : Wave → Wave) : (s.modWave w f).schedDue = s.schedDue := rfl
@[simp] theorem State.modWave_schedTick (s : State) (w : WaveRef) (f : Wave → Wave) : (s.modWave w f).schedTick = s.schedTick := rfl
@[simp] theorem State.modWave_ageTick (s : State) (w : WaveRef) (f : Wave → Wave) : (s.modWave w f).ageTick = s.ageTick := rfl
@[simp] theorem State.modWave_output (s : State) (w : WaveRef) (f : Wave → Wave) : (s.modWave w f).output = s.output := rfl
@[simp] theorem State.modWave_agenda (s : State) (w : WaveRef) (f : Wave → Wave) : (s.modWave w f).agenda = s.agenda := rfl

/-! ### State.modTeam -/

@[simp] theorem State.modTeam_mem (s : State) (t : TeamRef) (f : Team → Team) : (s.modTeam t f).mem = s.mem := rfl
@[simp] theorem State.modTeam_wlog (s : State) (t : TeamRef) (f : Team → Team) : (s.modTeam t f).wlog = s.wlog := rfl
@[simp] theorem State.modTeam_mempoison (s : State) (t : TeamRef) (f : Team → Team) : (s.modTeam t f).mempoison = s.mempoison := rfl
@[simp] theorem State.modTeam_lasting (s : State) (t : TeamRef) (f : Team → Team) : (s.modTeam t f).lasting = s.lasting := rfl
@[simp] theorem State.modTeam_nodes (s : State) (t : TeamRef) (f : Team → Team) : (s.modTeam t f).nodes = s.nodes := rfl
@[simp] theorem State.modTeam_queue (s : State) (t : TeamRef) (f : Team → Team) : (s.modTeam t f).queue = s.queue := rfl
@[simp] theorem State.modTeam_buffer (s : State) (t : TeamRef) (f : Team → Team) : (s.modTeam t f).buffer = s.buffer := rfl
@[simp] theorem State.modTeam_cache (s : State) (t : TeamRef) (f : Team → Team) : (s.modTeam t f).cache = s.cache := rfl
@[simp] theorem State.modTeam_tlb (s : State) (t : TeamRef) (f : Team → Team) : (s.modTeam t f).tlb = s.tlb := rfl
@[simp] theorem State.modTeam_walks (s : State) (t : TeamRef) (f : Team → Team) : (s.modTeam t f).walks = s.walks := rfl
@[simp] theorem State.modTeam_waves (s : State) (t : TeamRef) (f : Team → Team) : (s.modTeam t f).waves = s.waves := rfl
@[simp] theorem State.modTeam_teams (s : State) (t : TeamRef) (f : Team → Team) : (s.modTeam t f).teams = tmod t f s.teams := rfl
@[simp] theorem State.modTeam_launches (s : State) (t : TeamRef) (f : Team → Team) : (s.modTeam t f).launches = s.launches := rfl
@[simp] theorem State.modTeam_granules (s : State) (t : TeamRef) (f : Team → Team) : (s.modTeam t f).granules = s.granules := rfl
@[simp] theorem State.modTeam_copies (s : State) (t : TeamRef) (f : Team → Team) : (s.modTeam t f).copies = s.copies := rfl
@[simp] theorem State.modTeam_quads (s : State) (t : TeamRef) (f : Team → Team) : (s.modTeam t f).quads = s.quads := rfl
@[simp] theorem State.modTeam_signals (s : State) (t : TeamRef) (f : Team → Team) : (s.modTeam t f).signals = s.signals := rfl
@[simp] theorem State.modTeam_takes (s : State) (t : TeamRef) (f : Team → Team) : (s.modTeam t f).takes = s.takes := rfl
@[simp] theorem State.modTeam_waiters (s : State) (t : TeamRef) (f : Team → Team) : (s.modTeam t f).waiters = s.waiters := rfl
@[simp] theorem State.modTeam_entries (s : State) (t : TeamRef) (f : Team → Team) : (s.modTeam t f).entries = s.entries := rfl
@[simp] theorem State.modTeam_wheel (s : State) (t : TeamRef) (f : Team → Team) : (s.modTeam t f).wheel = s.wheel := rfl
@[simp] theorem State.modTeam_faults (s : State) (t : TeamRef) (f : Team → Team) : (s.modTeam t f).faults = s.faults := rfl
@[simp] theorem State.modTeam_tenants (s : State) (t : TeamRef) (f : Team → Team) : (s.modTeam t f).tenants = s.tenants := rfl
@[simp] theorem State.modTeam_ctxs (s : State) (t : TeamRef) (f : Team → Team) : (s.modTeam t f).ctxs = s.ctxs := rfl
@[simp] theorem State.modTeam_queues (s : State) (t : TeamRef) (f : Team → Team) : (s.modTeam t f).queues = s.queues := rfl
@[simp] theorem State.modTeam_packets (s : State) (t : TeamRef) (f : Team → Team) : (s.modTeam t f).packets = s.packets := rfl
@[simp] theorem State.modTeam_fabric (s : State) (t : TeamRef) (f : Team → Team) : (s.modTeam t f).fabric = s.fabric := rfl
@[simp] theorem State.modTeam_device (s : State) (t : TeamRef) (f : Team → Team) : (s.modTeam t f).device = s.device := rfl
@[simp] theorem State.modTeam_cycles (s : State) (t : TeamRef) (f : Team → Team) : (s.modTeam t f).cycles = s.cycles := rfl
@[simp] theorem State.modTeam_issued (s : State) (t : TeamRef) (f : Team → Team) : (s.modTeam t f).issued = s.issued := rfl
@[simp] theorem State.modTeam_beat (s : State) (t : TeamRef) (f : Team → Team) : (s.modTeam t f).beat = s.beat := rfl
@[simp] theorem State.modTeam_divHold (s : State) (t : TeamRef) (f : Team → Team) : (s.modTeam t f).divHold = s.divHold := rfl
@[simp] theorem State.modTeam_loopBufs (s : State) (t : TeamRef) (f : Team → Team) : (s.modTeam t f).loopBufs = s.loopBufs := rfl
@[simp] theorem State.modTeam_loopWants (s : State) (t : TeamRef) (f : Team → Team) : (s.modTeam t f).loopWants = s.loopWants := rfl
@[simp] theorem State.modTeam_chip (s : State) (t : TeamRef) (f : Team → Team) : (s.modTeam t f).chip = s.chip := rfl
@[simp] theorem State.modTeam_cur (s : State) (t : TeamRef) (f : Team → Team) : (s.modTeam t f).cur = s.cur := rfl
@[simp] theorem State.modTeam_nextLid (s : State) (t : TeamRef) (f : Team → Team) : (s.modTeam t f).nextLid = s.nextLid := rfl
@[simp] theorem State.modTeam_nextId (s : State) (t : TeamRef) (f : Team → Team) : (s.modTeam t f).nextId = s.nextId := rfl
@[simp] theorem State.modTeam_round (s : State) (t : TeamRef) (f : Team → Team) : (s.modTeam t f).round = s.round := rfl
@[simp] theorem State.modTeam_schedDue (s : State) (t : TeamRef) (f : Team → Team) : (s.modTeam t f).schedDue = s.schedDue := rfl
@[simp] theorem State.modTeam_schedTick (s : State) (t : TeamRef) (f : Team → Team) : (s.modTeam t f).schedTick = s.schedTick := rfl
@[simp] theorem State.modTeam_ageTick (s : State) (t : TeamRef) (f : Team → Team) : (s.modTeam t f).ageTick = s.ageTick := rfl
@[simp] theorem State.modTeam_output (s : State) (t : TeamRef) (f : Team → Team) : (s.modTeam t f).output = s.output := rfl
@[simp] theorem State.modTeam_agenda (s : State) (t : TeamRef) (f : Team → Team) : (s.modTeam t f).agenda = s.agenda := rfl

/-! ### State.modLaunch -/

@[simp] theorem State.modLaunch_mem (s : State) (l : Nat) (f : Launch → Launch) : (s.modLaunch l f).mem = s.mem := rfl
@[simp] theorem State.modLaunch_wlog (s : State) (l : Nat) (f : Launch → Launch) : (s.modLaunch l f).wlog = s.wlog := rfl
@[simp] theorem State.modLaunch_mempoison (s : State) (l : Nat) (f : Launch → Launch) : (s.modLaunch l f).mempoison = s.mempoison := rfl
@[simp] theorem State.modLaunch_lasting (s : State) (l : Nat) (f : Launch → Launch) : (s.modLaunch l f).lasting = s.lasting := rfl
@[simp] theorem State.modLaunch_nodes (s : State) (l : Nat) (f : Launch → Launch) : (s.modLaunch l f).nodes = s.nodes := rfl
@[simp] theorem State.modLaunch_queue (s : State) (l : Nat) (f : Launch → Launch) : (s.modLaunch l f).queue = s.queue := rfl
@[simp] theorem State.modLaunch_buffer (s : State) (l : Nat) (f : Launch → Launch) : (s.modLaunch l f).buffer = s.buffer := rfl
@[simp] theorem State.modLaunch_cache (s : State) (l : Nat) (f : Launch → Launch) : (s.modLaunch l f).cache = s.cache := rfl
@[simp] theorem State.modLaunch_tlb (s : State) (l : Nat) (f : Launch → Launch) : (s.modLaunch l f).tlb = s.tlb := rfl
@[simp] theorem State.modLaunch_walks (s : State) (l : Nat) (f : Launch → Launch) : (s.modLaunch l f).walks = s.walks := rfl
@[simp] theorem State.modLaunch_waves (s : State) (l : Nat) (f : Launch → Launch) : (s.modLaunch l f).waves = s.waves := rfl
@[simp] theorem State.modLaunch_teams (s : State) (l : Nat) (f : Launch → Launch) : (s.modLaunch l f).teams = s.teams := rfl
@[simp] theorem State.modLaunch_launches (s : State) (l : Nat) (f : Launch → Launch) : (s.modLaunch l f).launches = tmod l f s.launches := rfl
@[simp] theorem State.modLaunch_granules (s : State) (l : Nat) (f : Launch → Launch) : (s.modLaunch l f).granules = s.granules := rfl
@[simp] theorem State.modLaunch_copies (s : State) (l : Nat) (f : Launch → Launch) : (s.modLaunch l f).copies = s.copies := rfl
@[simp] theorem State.modLaunch_quads (s : State) (l : Nat) (f : Launch → Launch) : (s.modLaunch l f).quads = s.quads := rfl
@[simp] theorem State.modLaunch_signals (s : State) (l : Nat) (f : Launch → Launch) : (s.modLaunch l f).signals = s.signals := rfl
@[simp] theorem State.modLaunch_takes (s : State) (l : Nat) (f : Launch → Launch) : (s.modLaunch l f).takes = s.takes := rfl
@[simp] theorem State.modLaunch_waiters (s : State) (l : Nat) (f : Launch → Launch) : (s.modLaunch l f).waiters = s.waiters := rfl
@[simp] theorem State.modLaunch_entries (s : State) (l : Nat) (f : Launch → Launch) : (s.modLaunch l f).entries = s.entries := rfl
@[simp] theorem State.modLaunch_wheel (s : State) (l : Nat) (f : Launch → Launch) : (s.modLaunch l f).wheel = s.wheel := rfl
@[simp] theorem State.modLaunch_faults (s : State) (l : Nat) (f : Launch → Launch) : (s.modLaunch l f).faults = s.faults := rfl
@[simp] theorem State.modLaunch_tenants (s : State) (l : Nat) (f : Launch → Launch) : (s.modLaunch l f).tenants = s.tenants := rfl
@[simp] theorem State.modLaunch_ctxs (s : State) (l : Nat) (f : Launch → Launch) : (s.modLaunch l f).ctxs = s.ctxs := rfl
@[simp] theorem State.modLaunch_queues (s : State) (l : Nat) (f : Launch → Launch) : (s.modLaunch l f).queues = s.queues := rfl
@[simp] theorem State.modLaunch_packets (s : State) (l : Nat) (f : Launch → Launch) : (s.modLaunch l f).packets = s.packets := rfl
@[simp] theorem State.modLaunch_fabric (s : State) (l : Nat) (f : Launch → Launch) : (s.modLaunch l f).fabric = s.fabric := rfl
@[simp] theorem State.modLaunch_device (s : State) (l : Nat) (f : Launch → Launch) : (s.modLaunch l f).device = s.device := rfl
@[simp] theorem State.modLaunch_cycles (s : State) (l : Nat) (f : Launch → Launch) : (s.modLaunch l f).cycles = s.cycles := rfl
@[simp] theorem State.modLaunch_issued (s : State) (l : Nat) (f : Launch → Launch) : (s.modLaunch l f).issued = s.issued := rfl
@[simp] theorem State.modLaunch_beat (s : State) (l : Nat) (f : Launch → Launch) : (s.modLaunch l f).beat = s.beat := rfl
@[simp] theorem State.modLaunch_divHold (s : State) (l : Nat) (f : Launch → Launch) : (s.modLaunch l f).divHold = s.divHold := rfl
@[simp] theorem State.modLaunch_loopBufs (s : State) (l : Nat) (f : Launch → Launch) : (s.modLaunch l f).loopBufs = s.loopBufs := rfl
@[simp] theorem State.modLaunch_loopWants (s : State) (l : Nat) (f : Launch → Launch) : (s.modLaunch l f).loopWants = s.loopWants := rfl
@[simp] theorem State.modLaunch_chip (s : State) (l : Nat) (f : Launch → Launch) : (s.modLaunch l f).chip = s.chip := rfl
@[simp] theorem State.modLaunch_cur (s : State) (l : Nat) (f : Launch → Launch) : (s.modLaunch l f).cur = s.cur := rfl
@[simp] theorem State.modLaunch_nextLid (s : State) (l : Nat) (f : Launch → Launch) : (s.modLaunch l f).nextLid = s.nextLid := rfl
@[simp] theorem State.modLaunch_nextId (s : State) (l : Nat) (f : Launch → Launch) : (s.modLaunch l f).nextId = s.nextId := rfl
@[simp] theorem State.modLaunch_round (s : State) (l : Nat) (f : Launch → Launch) : (s.modLaunch l f).round = s.round := rfl
@[simp] theorem State.modLaunch_schedDue (s : State) (l : Nat) (f : Launch → Launch) : (s.modLaunch l f).schedDue = s.schedDue := rfl
@[simp] theorem State.modLaunch_schedTick (s : State) (l : Nat) (f : Launch → Launch) : (s.modLaunch l f).schedTick = s.schedTick := rfl
@[simp] theorem State.modLaunch_ageTick (s : State) (l : Nat) (f : Launch → Launch) : (s.modLaunch l f).ageTick = s.ageTick := rfl
@[simp] theorem State.modLaunch_output (s : State) (l : Nat) (f : Launch → Launch) : (s.modLaunch l f).output = s.output := rfl
@[simp] theorem State.modLaunch_agenda (s : State) (l : Nat) (f : Launch → Launch) : (s.modLaunch l f).agenda = s.agenda := rfl

/-! ### State.modCtx -/

@[simp] theorem State.modCtx_mem (s : State) (c : Nat) (f : Ctx → Ctx) : (s.modCtx c f).mem = s.mem := rfl
@[simp] theorem State.modCtx_wlog (s : State) (c : Nat) (f : Ctx → Ctx) : (s.modCtx c f).wlog = s.wlog := rfl
@[simp] theorem State.modCtx_mempoison (s : State) (c : Nat) (f : Ctx → Ctx) : (s.modCtx c f).mempoison = s.mempoison := rfl
@[simp] theorem State.modCtx_lasting (s : State) (c : Nat) (f : Ctx → Ctx) : (s.modCtx c f).lasting = s.lasting := rfl
@[simp] theorem State.modCtx_nodes (s : State) (c : Nat) (f : Ctx → Ctx) : (s.modCtx c f).nodes = s.nodes := rfl
@[simp] theorem State.modCtx_queue (s : State) (c : Nat) (f : Ctx → Ctx) : (s.modCtx c f).queue = s.queue := rfl
@[simp] theorem State.modCtx_buffer (s : State) (c : Nat) (f : Ctx → Ctx) : (s.modCtx c f).buffer = s.buffer := rfl
@[simp] theorem State.modCtx_cache (s : State) (c : Nat) (f : Ctx → Ctx) : (s.modCtx c f).cache = s.cache := rfl
@[simp] theorem State.modCtx_tlb (s : State) (c : Nat) (f : Ctx → Ctx) : (s.modCtx c f).tlb = s.tlb := rfl
@[simp] theorem State.modCtx_walks (s : State) (c : Nat) (f : Ctx → Ctx) : (s.modCtx c f).walks = s.walks := rfl
@[simp] theorem State.modCtx_waves (s : State) (c : Nat) (f : Ctx → Ctx) : (s.modCtx c f).waves = s.waves := rfl
@[simp] theorem State.modCtx_teams (s : State) (c : Nat) (f : Ctx → Ctx) : (s.modCtx c f).teams = s.teams := rfl
@[simp] theorem State.modCtx_launches (s : State) (c : Nat) (f : Ctx → Ctx) : (s.modCtx c f).launches = s.launches := rfl
@[simp] theorem State.modCtx_granules (s : State) (c : Nat) (f : Ctx → Ctx) : (s.modCtx c f).granules = s.granules := rfl
@[simp] theorem State.modCtx_copies (s : State) (c : Nat) (f : Ctx → Ctx) : (s.modCtx c f).copies = s.copies := rfl
@[simp] theorem State.modCtx_quads (s : State) (c : Nat) (f : Ctx → Ctx) : (s.modCtx c f).quads = s.quads := rfl
@[simp] theorem State.modCtx_signals (s : State) (c : Nat) (f : Ctx → Ctx) : (s.modCtx c f).signals = s.signals := rfl
@[simp] theorem State.modCtx_takes (s : State) (c : Nat) (f : Ctx → Ctx) : (s.modCtx c f).takes = s.takes := rfl
@[simp] theorem State.modCtx_waiters (s : State) (c : Nat) (f : Ctx → Ctx) : (s.modCtx c f).waiters = s.waiters := rfl
@[simp] theorem State.modCtx_entries (s : State) (c : Nat) (f : Ctx → Ctx) : (s.modCtx c f).entries = s.entries := rfl
@[simp] theorem State.modCtx_wheel (s : State) (c : Nat) (f : Ctx → Ctx) : (s.modCtx c f).wheel = s.wheel := rfl
@[simp] theorem State.modCtx_faults (s : State) (c : Nat) (f : Ctx → Ctx) : (s.modCtx c f).faults = s.faults := rfl
@[simp] theorem State.modCtx_tenants (s : State) (c : Nat) (f : Ctx → Ctx) : (s.modCtx c f).tenants = s.tenants := rfl
@[simp] theorem State.modCtx_ctxs (s : State) (c : Nat) (f : Ctx → Ctx) : (s.modCtx c f).ctxs = tmod c f s.ctxs := rfl
@[simp] theorem State.modCtx_queues (s : State) (c : Nat) (f : Ctx → Ctx) : (s.modCtx c f).queues = s.queues := rfl
@[simp] theorem State.modCtx_packets (s : State) (c : Nat) (f : Ctx → Ctx) : (s.modCtx c f).packets = s.packets := rfl
@[simp] theorem State.modCtx_fabric (s : State) (c : Nat) (f : Ctx → Ctx) : (s.modCtx c f).fabric = s.fabric := rfl
@[simp] theorem State.modCtx_device (s : State) (c : Nat) (f : Ctx → Ctx) : (s.modCtx c f).device = s.device := rfl
@[simp] theorem State.modCtx_cycles (s : State) (c : Nat) (f : Ctx → Ctx) : (s.modCtx c f).cycles = s.cycles := rfl
@[simp] theorem State.modCtx_issued (s : State) (c : Nat) (f : Ctx → Ctx) : (s.modCtx c f).issued = s.issued := rfl
@[simp] theorem State.modCtx_beat (s : State) (c : Nat) (f : Ctx → Ctx) : (s.modCtx c f).beat = s.beat := rfl
@[simp] theorem State.modCtx_divHold (s : State) (c : Nat) (f : Ctx → Ctx) : (s.modCtx c f).divHold = s.divHold := rfl
@[simp] theorem State.modCtx_loopBufs (s : State) (c : Nat) (f : Ctx → Ctx) : (s.modCtx c f).loopBufs = s.loopBufs := rfl
@[simp] theorem State.modCtx_loopWants (s : State) (c : Nat) (f : Ctx → Ctx) : (s.modCtx c f).loopWants = s.loopWants := rfl
@[simp] theorem State.modCtx_chip (s : State) (c : Nat) (f : Ctx → Ctx) : (s.modCtx c f).chip = s.chip := rfl
@[simp] theorem State.modCtx_cur (s : State) (c : Nat) (f : Ctx → Ctx) : (s.modCtx c f).cur = s.cur := rfl
@[simp] theorem State.modCtx_nextLid (s : State) (c : Nat) (f : Ctx → Ctx) : (s.modCtx c f).nextLid = s.nextLid := rfl
@[simp] theorem State.modCtx_nextId (s : State) (c : Nat) (f : Ctx → Ctx) : (s.modCtx c f).nextId = s.nextId := rfl
@[simp] theorem State.modCtx_round (s : State) (c : Nat) (f : Ctx → Ctx) : (s.modCtx c f).round = s.round := rfl
@[simp] theorem State.modCtx_schedDue (s : State) (c : Nat) (f : Ctx → Ctx) : (s.modCtx c f).schedDue = s.schedDue := rfl
@[simp] theorem State.modCtx_schedTick (s : State) (c : Nat) (f : Ctx → Ctx) : (s.modCtx c f).schedTick = s.schedTick := rfl
@[simp] theorem State.modCtx_ageTick (s : State) (c : Nat) (f : Ctx → Ctx) : (s.modCtx c f).ageTick = s.ageTick := rfl
@[simp] theorem State.modCtx_output (s : State) (c : Nat) (f : Ctx → Ctx) : (s.modCtx c f).output = s.output := rfl
@[simp] theorem State.modCtx_agenda (s : State) (c : Nat) (f : Ctx → Ctx) : (s.modCtx c f).agenda = s.agenda := rfl

/-! ### State.modTenant -/

@[simp] theorem State.modTenant_mem (s : State) (t : Nat) (f : Tenant → Tenant) : (s.modTenant t f).mem = s.mem := rfl
@[simp] theorem State.modTenant_wlog (s : State) (t : Nat) (f : Tenant → Tenant) : (s.modTenant t f).wlog = s.wlog := rfl
@[simp] theorem State.modTenant_mempoison (s : State) (t : Nat) (f : Tenant → Tenant) : (s.modTenant t f).mempoison = s.mempoison := rfl
@[simp] theorem State.modTenant_lasting (s : State) (t : Nat) (f : Tenant → Tenant) : (s.modTenant t f).lasting = s.lasting := rfl
@[simp] theorem State.modTenant_nodes (s : State) (t : Nat) (f : Tenant → Tenant) : (s.modTenant t f).nodes = s.nodes := rfl
@[simp] theorem State.modTenant_queue (s : State) (t : Nat) (f : Tenant → Tenant) : (s.modTenant t f).queue = s.queue := rfl
@[simp] theorem State.modTenant_buffer (s : State) (t : Nat) (f : Tenant → Tenant) : (s.modTenant t f).buffer = s.buffer := rfl
@[simp] theorem State.modTenant_cache (s : State) (t : Nat) (f : Tenant → Tenant) : (s.modTenant t f).cache = s.cache := rfl
@[simp] theorem State.modTenant_tlb (s : State) (t : Nat) (f : Tenant → Tenant) : (s.modTenant t f).tlb = s.tlb := rfl
@[simp] theorem State.modTenant_walks (s : State) (t : Nat) (f : Tenant → Tenant) : (s.modTenant t f).walks = s.walks := rfl
@[simp] theorem State.modTenant_waves (s : State) (t : Nat) (f : Tenant → Tenant) : (s.modTenant t f).waves = s.waves := rfl
@[simp] theorem State.modTenant_teams (s : State) (t : Nat) (f : Tenant → Tenant) : (s.modTenant t f).teams = s.teams := rfl
@[simp] theorem State.modTenant_launches (s : State) (t : Nat) (f : Tenant → Tenant) : (s.modTenant t f).launches = s.launches := rfl
@[simp] theorem State.modTenant_granules (s : State) (t : Nat) (f : Tenant → Tenant) : (s.modTenant t f).granules = s.granules := rfl
@[simp] theorem State.modTenant_copies (s : State) (t : Nat) (f : Tenant → Tenant) : (s.modTenant t f).copies = s.copies := rfl
@[simp] theorem State.modTenant_quads (s : State) (t : Nat) (f : Tenant → Tenant) : (s.modTenant t f).quads = s.quads := rfl
@[simp] theorem State.modTenant_signals (s : State) (t : Nat) (f : Tenant → Tenant) : (s.modTenant t f).signals = s.signals := rfl
@[simp] theorem State.modTenant_takes (s : State) (t : Nat) (f : Tenant → Tenant) : (s.modTenant t f).takes = s.takes := rfl
@[simp] theorem State.modTenant_waiters (s : State) (t : Nat) (f : Tenant → Tenant) : (s.modTenant t f).waiters = s.waiters := rfl
@[simp] theorem State.modTenant_entries (s : State) (t : Nat) (f : Tenant → Tenant) : (s.modTenant t f).entries = s.entries := rfl
@[simp] theorem State.modTenant_wheel (s : State) (t : Nat) (f : Tenant → Tenant) : (s.modTenant t f).wheel = s.wheel := rfl
@[simp] theorem State.modTenant_faults (s : State) (t : Nat) (f : Tenant → Tenant) : (s.modTenant t f).faults = s.faults := rfl
@[simp] theorem State.modTenant_tenants (s : State) (t : Nat) (f : Tenant → Tenant) : (s.modTenant t f).tenants = tmod t f s.tenants := rfl
@[simp] theorem State.modTenant_ctxs (s : State) (t : Nat) (f : Tenant → Tenant) : (s.modTenant t f).ctxs = s.ctxs := rfl
@[simp] theorem State.modTenant_queues (s : State) (t : Nat) (f : Tenant → Tenant) : (s.modTenant t f).queues = s.queues := rfl
@[simp] theorem State.modTenant_packets (s : State) (t : Nat) (f : Tenant → Tenant) : (s.modTenant t f).packets = s.packets := rfl
@[simp] theorem State.modTenant_fabric (s : State) (t : Nat) (f : Tenant → Tenant) : (s.modTenant t f).fabric = s.fabric := rfl
@[simp] theorem State.modTenant_device (s : State) (t : Nat) (f : Tenant → Tenant) : (s.modTenant t f).device = s.device := rfl
@[simp] theorem State.modTenant_cycles (s : State) (t : Nat) (f : Tenant → Tenant) : (s.modTenant t f).cycles = s.cycles := rfl
@[simp] theorem State.modTenant_issued (s : State) (t : Nat) (f : Tenant → Tenant) : (s.modTenant t f).issued = s.issued := rfl
@[simp] theorem State.modTenant_beat (s : State) (t : Nat) (f : Tenant → Tenant) : (s.modTenant t f).beat = s.beat := rfl
@[simp] theorem State.modTenant_divHold (s : State) (t : Nat) (f : Tenant → Tenant) : (s.modTenant t f).divHold = s.divHold := rfl
@[simp] theorem State.modTenant_loopBufs (s : State) (t : Nat) (f : Tenant → Tenant) : (s.modTenant t f).loopBufs = s.loopBufs := rfl
@[simp] theorem State.modTenant_loopWants (s : State) (t : Nat) (f : Tenant → Tenant) : (s.modTenant t f).loopWants = s.loopWants := rfl
@[simp] theorem State.modTenant_chip (s : State) (t : Nat) (f : Tenant → Tenant) : (s.modTenant t f).chip = s.chip := rfl
@[simp] theorem State.modTenant_cur (s : State) (t : Nat) (f : Tenant → Tenant) : (s.modTenant t f).cur = s.cur := rfl
@[simp] theorem State.modTenant_nextLid (s : State) (t : Nat) (f : Tenant → Tenant) : (s.modTenant t f).nextLid = s.nextLid := rfl
@[simp] theorem State.modTenant_nextId (s : State) (t : Nat) (f : Tenant → Tenant) : (s.modTenant t f).nextId = s.nextId := rfl
@[simp] theorem State.modTenant_round (s : State) (t : Nat) (f : Tenant → Tenant) : (s.modTenant t f).round = s.round := rfl
@[simp] theorem State.modTenant_schedDue (s : State) (t : Nat) (f : Tenant → Tenant) : (s.modTenant t f).schedDue = s.schedDue := rfl
@[simp] theorem State.modTenant_schedTick (s : State) (t : Nat) (f : Tenant → Tenant) : (s.modTenant t f).schedTick = s.schedTick := rfl
@[simp] theorem State.modTenant_ageTick (s : State) (t : Nat) (f : Tenant → Tenant) : (s.modTenant t f).ageTick = s.ageTick := rfl
@[simp] theorem State.modTenant_output (s : State) (t : Nat) (f : Tenant → Tenant) : (s.modTenant t f).output = s.output := rfl
@[simp] theorem State.modTenant_agenda (s : State) (t : Nat) (f : Tenant → Tenant) : (s.modTenant t f).agenda = s.agenda := rfl

/-! ### State.modQueue -/

@[simp] theorem State.modQueue_mem (s : State) (q : Nat) (f : Queue → Queue) : (s.modQueue q f).mem = s.mem := rfl
@[simp] theorem State.modQueue_wlog (s : State) (q : Nat) (f : Queue → Queue) : (s.modQueue q f).wlog = s.wlog := rfl
@[simp] theorem State.modQueue_mempoison (s : State) (q : Nat) (f : Queue → Queue) : (s.modQueue q f).mempoison = s.mempoison := rfl
@[simp] theorem State.modQueue_lasting (s : State) (q : Nat) (f : Queue → Queue) : (s.modQueue q f).lasting = s.lasting := rfl
@[simp] theorem State.modQueue_nodes (s : State) (q : Nat) (f : Queue → Queue) : (s.modQueue q f).nodes = s.nodes := rfl
@[simp] theorem State.modQueue_queue (s : State) (q : Nat) (f : Queue → Queue) : (s.modQueue q f).queue = s.queue := rfl
@[simp] theorem State.modQueue_buffer (s : State) (q : Nat) (f : Queue → Queue) : (s.modQueue q f).buffer = s.buffer := rfl
@[simp] theorem State.modQueue_cache (s : State) (q : Nat) (f : Queue → Queue) : (s.modQueue q f).cache = s.cache := rfl
@[simp] theorem State.modQueue_tlb (s : State) (q : Nat) (f : Queue → Queue) : (s.modQueue q f).tlb = s.tlb := rfl
@[simp] theorem State.modQueue_walks (s : State) (q : Nat) (f : Queue → Queue) : (s.modQueue q f).walks = s.walks := rfl
@[simp] theorem State.modQueue_waves (s : State) (q : Nat) (f : Queue → Queue) : (s.modQueue q f).waves = s.waves := rfl
@[simp] theorem State.modQueue_teams (s : State) (q : Nat) (f : Queue → Queue) : (s.modQueue q f).teams = s.teams := rfl
@[simp] theorem State.modQueue_launches (s : State) (q : Nat) (f : Queue → Queue) : (s.modQueue q f).launches = s.launches := rfl
@[simp] theorem State.modQueue_granules (s : State) (q : Nat) (f : Queue → Queue) : (s.modQueue q f).granules = s.granules := rfl
@[simp] theorem State.modQueue_copies (s : State) (q : Nat) (f : Queue → Queue) : (s.modQueue q f).copies = s.copies := rfl
@[simp] theorem State.modQueue_quads (s : State) (q : Nat) (f : Queue → Queue) : (s.modQueue q f).quads = s.quads := rfl
@[simp] theorem State.modQueue_signals (s : State) (q : Nat) (f : Queue → Queue) : (s.modQueue q f).signals = s.signals := rfl
@[simp] theorem State.modQueue_takes (s : State) (q : Nat) (f : Queue → Queue) : (s.modQueue q f).takes = s.takes := rfl
@[simp] theorem State.modQueue_waiters (s : State) (q : Nat) (f : Queue → Queue) : (s.modQueue q f).waiters = s.waiters := rfl
@[simp] theorem State.modQueue_entries (s : State) (q : Nat) (f : Queue → Queue) : (s.modQueue q f).entries = s.entries := rfl
@[simp] theorem State.modQueue_wheel (s : State) (q : Nat) (f : Queue → Queue) : (s.modQueue q f).wheel = s.wheel := rfl
@[simp] theorem State.modQueue_faults (s : State) (q : Nat) (f : Queue → Queue) : (s.modQueue q f).faults = s.faults := rfl
@[simp] theorem State.modQueue_tenants (s : State) (q : Nat) (f : Queue → Queue) : (s.modQueue q f).tenants = s.tenants := rfl
@[simp] theorem State.modQueue_ctxs (s : State) (q : Nat) (f : Queue → Queue) : (s.modQueue q f).ctxs = s.ctxs := rfl
@[simp] theorem State.modQueue_queues (s : State) (q : Nat) (f : Queue → Queue) : (s.modQueue q f).queues = tmod q f s.queues := rfl
@[simp] theorem State.modQueue_packets (s : State) (q : Nat) (f : Queue → Queue) : (s.modQueue q f).packets = s.packets := rfl
@[simp] theorem State.modQueue_fabric (s : State) (q : Nat) (f : Queue → Queue) : (s.modQueue q f).fabric = s.fabric := rfl
@[simp] theorem State.modQueue_device (s : State) (q : Nat) (f : Queue → Queue) : (s.modQueue q f).device = s.device := rfl
@[simp] theorem State.modQueue_cycles (s : State) (q : Nat) (f : Queue → Queue) : (s.modQueue q f).cycles = s.cycles := rfl
@[simp] theorem State.modQueue_issued (s : State) (q : Nat) (f : Queue → Queue) : (s.modQueue q f).issued = s.issued := rfl
@[simp] theorem State.modQueue_beat (s : State) (q : Nat) (f : Queue → Queue) : (s.modQueue q f).beat = s.beat := rfl
@[simp] theorem State.modQueue_divHold (s : State) (q : Nat) (f : Queue → Queue) : (s.modQueue q f).divHold = s.divHold := rfl
@[simp] theorem State.modQueue_loopBufs (s : State) (q : Nat) (f : Queue → Queue) : (s.modQueue q f).loopBufs = s.loopBufs := rfl
@[simp] theorem State.modQueue_loopWants (s : State) (q : Nat) (f : Queue → Queue) : (s.modQueue q f).loopWants = s.loopWants := rfl
@[simp] theorem State.modQueue_chip (s : State) (q : Nat) (f : Queue → Queue) : (s.modQueue q f).chip = s.chip := rfl
@[simp] theorem State.modQueue_cur (s : State) (q : Nat) (f : Queue → Queue) : (s.modQueue q f).cur = s.cur := rfl
@[simp] theorem State.modQueue_nextLid (s : State) (q : Nat) (f : Queue → Queue) : (s.modQueue q f).nextLid = s.nextLid := rfl
@[simp] theorem State.modQueue_nextId (s : State) (q : Nat) (f : Queue → Queue) : (s.modQueue q f).nextId = s.nextId := rfl
@[simp] theorem State.modQueue_round (s : State) (q : Nat) (f : Queue → Queue) : (s.modQueue q f).round = s.round := rfl
@[simp] theorem State.modQueue_schedDue (s : State) (q : Nat) (f : Queue → Queue) : (s.modQueue q f).schedDue = s.schedDue := rfl
@[simp] theorem State.modQueue_schedTick (s : State) (q : Nat) (f : Queue → Queue) : (s.modQueue q f).schedTick = s.schedTick := rfl
@[simp] theorem State.modQueue_ageTick (s : State) (q : Nat) (f : Queue → Queue) : (s.modQueue q f).ageTick = s.ageTick := rfl
@[simp] theorem State.modQueue_output (s : State) (q : Nat) (f : Queue → Queue) : (s.modQueue q f).output = s.output := rfl
@[simp] theorem State.modQueue_agenda (s : State) (q : Nat) (f : Queue → Queue) : (s.modQueue q f).agenda = s.agenda := rfl

/-! ### State.setQuad -/

@[simp] theorem State.setQuad_mem (s : State) (q : Nat) (v : Quad) : (s.setQuad q v).mem = s.mem := rfl
@[simp] theorem State.setQuad_wlog (s : State) (q : Nat) (v : Quad) : (s.setQuad q v).wlog = s.wlog := rfl
@[simp] theorem State.setQuad_mempoison (s : State) (q : Nat) (v : Quad) : (s.setQuad q v).mempoison = s.mempoison := rfl
@[simp] theorem State.setQuad_lasting (s : State) (q : Nat) (v : Quad) : (s.setQuad q v).lasting = s.lasting := rfl
@[simp] theorem State.setQuad_nodes (s : State) (q : Nat) (v : Quad) : (s.setQuad q v).nodes = s.nodes := rfl
@[simp] theorem State.setQuad_queue (s : State) (q : Nat) (v : Quad) : (s.setQuad q v).queue = s.queue := rfl
@[simp] theorem State.setQuad_buffer (s : State) (q : Nat) (v : Quad) : (s.setQuad q v).buffer = s.buffer := rfl
@[simp] theorem State.setQuad_cache (s : State) (q : Nat) (v : Quad) : (s.setQuad q v).cache = s.cache := rfl
@[simp] theorem State.setQuad_tlb (s : State) (q : Nat) (v : Quad) : (s.setQuad q v).tlb = s.tlb := rfl
@[simp] theorem State.setQuad_walks (s : State) (q : Nat) (v : Quad) : (s.setQuad q v).walks = s.walks := rfl
@[simp] theorem State.setQuad_waves (s : State) (q : Nat) (v : Quad) : (s.setQuad q v).waves = s.waves := rfl
@[simp] theorem State.setQuad_teams (s : State) (q : Nat) (v : Quad) : (s.setQuad q v).teams = s.teams := rfl
@[simp] theorem State.setQuad_launches (s : State) (q : Nat) (v : Quad) : (s.setQuad q v).launches = s.launches := rfl
@[simp] theorem State.setQuad_granules (s : State) (q : Nat) (v : Quad) : (s.setQuad q v).granules = s.granules := rfl
@[simp] theorem State.setQuad_copies (s : State) (q : Nat) (v : Quad) : (s.setQuad q v).copies = s.copies := rfl
@[simp] theorem State.setQuad_quads (s : State) (q : Nat) (v : Quad) : (s.setQuad q v).quads = tput q v s.quads := rfl
@[simp] theorem State.setQuad_signals (s : State) (q : Nat) (v : Quad) : (s.setQuad q v).signals = s.signals := rfl
@[simp] theorem State.setQuad_takes (s : State) (q : Nat) (v : Quad) : (s.setQuad q v).takes = s.takes := rfl
@[simp] theorem State.setQuad_waiters (s : State) (q : Nat) (v : Quad) : (s.setQuad q v).waiters = s.waiters := rfl
@[simp] theorem State.setQuad_entries (s : State) (q : Nat) (v : Quad) : (s.setQuad q v).entries = s.entries := rfl
@[simp] theorem State.setQuad_wheel (s : State) (q : Nat) (v : Quad) : (s.setQuad q v).wheel = s.wheel := rfl
@[simp] theorem State.setQuad_faults (s : State) (q : Nat) (v : Quad) : (s.setQuad q v).faults = s.faults := rfl
@[simp] theorem State.setQuad_tenants (s : State) (q : Nat) (v : Quad) : (s.setQuad q v).tenants = s.tenants := rfl
@[simp] theorem State.setQuad_ctxs (s : State) (q : Nat) (v : Quad) : (s.setQuad q v).ctxs = s.ctxs := rfl
@[simp] theorem State.setQuad_queues (s : State) (q : Nat) (v : Quad) : (s.setQuad q v).queues = s.queues := rfl
@[simp] theorem State.setQuad_packets (s : State) (q : Nat) (v : Quad) : (s.setQuad q v).packets = s.packets := rfl
@[simp] theorem State.setQuad_fabric (s : State) (q : Nat) (v : Quad) : (s.setQuad q v).fabric = s.fabric := rfl
@[simp] theorem State.setQuad_device (s : State) (q : Nat) (v : Quad) : (s.setQuad q v).device = s.device := rfl
@[simp] theorem State.setQuad_cycles (s : State) (q : Nat) (v : Quad) : (s.setQuad q v).cycles = s.cycles := rfl
@[simp] theorem State.setQuad_issued (s : State) (q : Nat) (v : Quad) : (s.setQuad q v).issued = s.issued := rfl
@[simp] theorem State.setQuad_beat (s : State) (q : Nat) (v : Quad) : (s.setQuad q v).beat = s.beat := rfl
@[simp] theorem State.setQuad_divHold (s : State) (q : Nat) (v : Quad) : (s.setQuad q v).divHold = s.divHold := rfl
@[simp] theorem State.setQuad_loopBufs (s : State) (q : Nat) (v : Quad) : (s.setQuad q v).loopBufs = s.loopBufs := rfl
@[simp] theorem State.setQuad_loopWants (s : State) (q : Nat) (v : Quad) : (s.setQuad q v).loopWants = s.loopWants := rfl
@[simp] theorem State.setQuad_chip (s : State) (q : Nat) (v : Quad) : (s.setQuad q v).chip = s.chip := rfl
@[simp] theorem State.setQuad_cur (s : State) (q : Nat) (v : Quad) : (s.setQuad q v).cur = s.cur := rfl
@[simp] theorem State.setQuad_nextLid (s : State) (q : Nat) (v : Quad) : (s.setQuad q v).nextLid = s.nextLid := rfl
@[simp] theorem State.setQuad_nextId (s : State) (q : Nat) (v : Quad) : (s.setQuad q v).nextId = s.nextId := rfl
@[simp] theorem State.setQuad_round (s : State) (q : Nat) (v : Quad) : (s.setQuad q v).round = s.round := rfl
@[simp] theorem State.setQuad_schedDue (s : State) (q : Nat) (v : Quad) : (s.setQuad q v).schedDue = s.schedDue := rfl
@[simp] theorem State.setQuad_schedTick (s : State) (q : Nat) (v : Quad) : (s.setQuad q v).schedTick = s.schedTick := rfl
@[simp] theorem State.setQuad_ageTick (s : State) (q : Nat) (v : Quad) : (s.setQuad q v).ageTick = s.ageTick := rfl
@[simp] theorem State.setQuad_output (s : State) (q : Nat) (v : Quad) : (s.setQuad q v).output = s.output := rfl
@[simp] theorem State.setQuad_agenda (s : State) (q : Nat) (v : Quad) : (s.setQuad q v).agenda = s.agenda := rfl

/-! ### State.modCopy -/

@[simp] theorem State.modCopy_mem (s : State) (c : Nat) (f : Copy → Copy) : (s.modCopy c f).mem = s.mem := rfl
@[simp] theorem State.modCopy_wlog (s : State) (c : Nat) (f : Copy → Copy) : (s.modCopy c f).wlog = s.wlog := rfl
@[simp] theorem State.modCopy_mempoison (s : State) (c : Nat) (f : Copy → Copy) : (s.modCopy c f).mempoison = s.mempoison := rfl
@[simp] theorem State.modCopy_lasting (s : State) (c : Nat) (f : Copy → Copy) : (s.modCopy c f).lasting = s.lasting := rfl
@[simp] theorem State.modCopy_nodes (s : State) (c : Nat) (f : Copy → Copy) : (s.modCopy c f).nodes = s.nodes := rfl
@[simp] theorem State.modCopy_queue (s : State) (c : Nat) (f : Copy → Copy) : (s.modCopy c f).queue = s.queue := rfl
@[simp] theorem State.modCopy_buffer (s : State) (c : Nat) (f : Copy → Copy) : (s.modCopy c f).buffer = s.buffer := rfl
@[simp] theorem State.modCopy_cache (s : State) (c : Nat) (f : Copy → Copy) : (s.modCopy c f).cache = s.cache := rfl
@[simp] theorem State.modCopy_tlb (s : State) (c : Nat) (f : Copy → Copy) : (s.modCopy c f).tlb = s.tlb := rfl
@[simp] theorem State.modCopy_walks (s : State) (c : Nat) (f : Copy → Copy) : (s.modCopy c f).walks = s.walks := rfl
@[simp] theorem State.modCopy_waves (s : State) (c : Nat) (f : Copy → Copy) : (s.modCopy c f).waves = s.waves := rfl
@[simp] theorem State.modCopy_teams (s : State) (c : Nat) (f : Copy → Copy) : (s.modCopy c f).teams = s.teams := rfl
@[simp] theorem State.modCopy_launches (s : State) (c : Nat) (f : Copy → Copy) : (s.modCopy c f).launches = s.launches := rfl
@[simp] theorem State.modCopy_granules (s : State) (c : Nat) (f : Copy → Copy) : (s.modCopy c f).granules = s.granules := rfl
@[simp] theorem State.modCopy_copies (s : State) (c : Nat) (f : Copy → Copy) : (s.modCopy c f).copies = s.copies.map fun k => if k.cid = c then f k else k := rfl
@[simp] theorem State.modCopy_quads (s : State) (c : Nat) (f : Copy → Copy) : (s.modCopy c f).quads = s.quads := rfl
@[simp] theorem State.modCopy_signals (s : State) (c : Nat) (f : Copy → Copy) : (s.modCopy c f).signals = s.signals := rfl
@[simp] theorem State.modCopy_takes (s : State) (c : Nat) (f : Copy → Copy) : (s.modCopy c f).takes = s.takes := rfl
@[simp] theorem State.modCopy_waiters (s : State) (c : Nat) (f : Copy → Copy) : (s.modCopy c f).waiters = s.waiters := rfl
@[simp] theorem State.modCopy_entries (s : State) (c : Nat) (f : Copy → Copy) : (s.modCopy c f).entries = s.entries := rfl
@[simp] theorem State.modCopy_wheel (s : State) (c : Nat) (f : Copy → Copy) : (s.modCopy c f).wheel = s.wheel := rfl
@[simp] theorem State.modCopy_faults (s : State) (c : Nat) (f : Copy → Copy) : (s.modCopy c f).faults = s.faults := rfl
@[simp] theorem State.modCopy_tenants (s : State) (c : Nat) (f : Copy → Copy) : (s.modCopy c f).tenants = s.tenants := rfl
@[simp] theorem State.modCopy_ctxs (s : State) (c : Nat) (f : Copy → Copy) : (s.modCopy c f).ctxs = s.ctxs := rfl
@[simp] theorem State.modCopy_queues (s : State) (c : Nat) (f : Copy → Copy) : (s.modCopy c f).queues = s.queues := rfl
@[simp] theorem State.modCopy_packets (s : State) (c : Nat) (f : Copy → Copy) : (s.modCopy c f).packets = s.packets := rfl
@[simp] theorem State.modCopy_fabric (s : State) (c : Nat) (f : Copy → Copy) : (s.modCopy c f).fabric = s.fabric := rfl
@[simp] theorem State.modCopy_device (s : State) (c : Nat) (f : Copy → Copy) : (s.modCopy c f).device = s.device := rfl
@[simp] theorem State.modCopy_cycles (s : State) (c : Nat) (f : Copy → Copy) : (s.modCopy c f).cycles = s.cycles := rfl
@[simp] theorem State.modCopy_issued (s : State) (c : Nat) (f : Copy → Copy) : (s.modCopy c f).issued = s.issued := rfl
@[simp] theorem State.modCopy_beat (s : State) (c : Nat) (f : Copy → Copy) : (s.modCopy c f).beat = s.beat := rfl
@[simp] theorem State.modCopy_divHold (s : State) (c : Nat) (f : Copy → Copy) : (s.modCopy c f).divHold = s.divHold := rfl
@[simp] theorem State.modCopy_loopBufs (s : State) (c : Nat) (f : Copy → Copy) : (s.modCopy c f).loopBufs = s.loopBufs := rfl
@[simp] theorem State.modCopy_loopWants (s : State) (c : Nat) (f : Copy → Copy) : (s.modCopy c f).loopWants = s.loopWants := rfl
@[simp] theorem State.modCopy_chip (s : State) (c : Nat) (f : Copy → Copy) : (s.modCopy c f).chip = s.chip := rfl
@[simp] theorem State.modCopy_cur (s : State) (c : Nat) (f : Copy → Copy) : (s.modCopy c f).cur = s.cur := rfl
@[simp] theorem State.modCopy_nextLid (s : State) (c : Nat) (f : Copy → Copy) : (s.modCopy c f).nextLid = s.nextLid := rfl
@[simp] theorem State.modCopy_nextId (s : State) (c : Nat) (f : Copy → Copy) : (s.modCopy c f).nextId = s.nextId := rfl
@[simp] theorem State.modCopy_round (s : State) (c : Nat) (f : Copy → Copy) : (s.modCopy c f).round = s.round := rfl
@[simp] theorem State.modCopy_schedDue (s : State) (c : Nat) (f : Copy → Copy) : (s.modCopy c f).schedDue = s.schedDue := rfl
@[simp] theorem State.modCopy_schedTick (s : State) (c : Nat) (f : Copy → Copy) : (s.modCopy c f).schedTick = s.schedTick := rfl
@[simp] theorem State.modCopy_ageTick (s : State) (c : Nat) (f : Copy → Copy) : (s.modCopy c f).ageTick = s.ageTick := rfl
@[simp] theorem State.modCopy_output (s : State) (c : Nat) (f : Copy → Copy) : (s.modCopy c f).output = s.output := rfl
@[simp] theorem State.modCopy_agenda (s : State) (c : Nat) (f : Copy → Copy) : (s.modCopy c f).agenda = s.agenda := rfl

/-! ### State.modFault -/

@[simp] theorem State.modFault_mem (s : State) (i : Nat) (f : FaultRec → FaultRec) : (s.modFault i f).mem = s.mem := rfl
@[simp] theorem State.modFault_wlog (s : State) (i : Nat) (f : FaultRec → FaultRec) : (s.modFault i f).wlog = s.wlog := rfl
@[simp] theorem State.modFault_mempoison (s : State) (i : Nat) (f : FaultRec → FaultRec) : (s.modFault i f).mempoison = s.mempoison := rfl
@[simp] theorem State.modFault_lasting (s : State) (i : Nat) (f : FaultRec → FaultRec) : (s.modFault i f).lasting = s.lasting := rfl
@[simp] theorem State.modFault_nodes (s : State) (i : Nat) (f : FaultRec → FaultRec) : (s.modFault i f).nodes = s.nodes := rfl
@[simp] theorem State.modFault_queue (s : State) (i : Nat) (f : FaultRec → FaultRec) : (s.modFault i f).queue = s.queue := rfl
@[simp] theorem State.modFault_buffer (s : State) (i : Nat) (f : FaultRec → FaultRec) : (s.modFault i f).buffer = s.buffer := rfl
@[simp] theorem State.modFault_cache (s : State) (i : Nat) (f : FaultRec → FaultRec) : (s.modFault i f).cache = s.cache := rfl
@[simp] theorem State.modFault_tlb (s : State) (i : Nat) (f : FaultRec → FaultRec) : (s.modFault i f).tlb = s.tlb := rfl
@[simp] theorem State.modFault_walks (s : State) (i : Nat) (f : FaultRec → FaultRec) : (s.modFault i f).walks = s.walks := rfl
@[simp] theorem State.modFault_waves (s : State) (i : Nat) (f : FaultRec → FaultRec) : (s.modFault i f).waves = s.waves := rfl
@[simp] theorem State.modFault_teams (s : State) (i : Nat) (f : FaultRec → FaultRec) : (s.modFault i f).teams = s.teams := rfl
@[simp] theorem State.modFault_launches (s : State) (i : Nat) (f : FaultRec → FaultRec) : (s.modFault i f).launches = s.launches := rfl
@[simp] theorem State.modFault_granules (s : State) (i : Nat) (f : FaultRec → FaultRec) : (s.modFault i f).granules = s.granules := rfl
@[simp] theorem State.modFault_copies (s : State) (i : Nat) (f : FaultRec → FaultRec) : (s.modFault i f).copies = s.copies := rfl
@[simp] theorem State.modFault_quads (s : State) (i : Nat) (f : FaultRec → FaultRec) : (s.modFault i f).quads = s.quads := rfl
@[simp] theorem State.modFault_signals (s : State) (i : Nat) (f : FaultRec → FaultRec) : (s.modFault i f).signals = s.signals := rfl
@[simp] theorem State.modFault_takes (s : State) (i : Nat) (f : FaultRec → FaultRec) : (s.modFault i f).takes = s.takes := rfl
@[simp] theorem State.modFault_waiters (s : State) (i : Nat) (f : FaultRec → FaultRec) : (s.modFault i f).waiters = s.waiters := rfl
@[simp] theorem State.modFault_entries (s : State) (i : Nat) (f : FaultRec → FaultRec) : (s.modFault i f).entries = s.entries := rfl
@[simp] theorem State.modFault_wheel (s : State) (i : Nat) (f : FaultRec → FaultRec) : (s.modFault i f).wheel = s.wheel := rfl
@[simp] theorem State.modFault_faults (s : State) (i : Nat) (f : FaultRec → FaultRec) : (s.modFault i f).faults = s.faults.map fun k => if k.fid = i then f k else k := rfl
@[simp] theorem State.modFault_tenants (s : State) (i : Nat) (f : FaultRec → FaultRec) : (s.modFault i f).tenants = s.tenants := rfl
@[simp] theorem State.modFault_ctxs (s : State) (i : Nat) (f : FaultRec → FaultRec) : (s.modFault i f).ctxs = s.ctxs := rfl
@[simp] theorem State.modFault_queues (s : State) (i : Nat) (f : FaultRec → FaultRec) : (s.modFault i f).queues = s.queues := rfl
@[simp] theorem State.modFault_packets (s : State) (i : Nat) (f : FaultRec → FaultRec) : (s.modFault i f).packets = s.packets := rfl
@[simp] theorem State.modFault_fabric (s : State) (i : Nat) (f : FaultRec → FaultRec) : (s.modFault i f).fabric = s.fabric := rfl
@[simp] theorem State.modFault_device (s : State) (i : Nat) (f : FaultRec → FaultRec) : (s.modFault i f).device = s.device := rfl
@[simp] theorem State.modFault_cycles (s : State) (i : Nat) (f : FaultRec → FaultRec) : (s.modFault i f).cycles = s.cycles := rfl
@[simp] theorem State.modFault_issued (s : State) (i : Nat) (f : FaultRec → FaultRec) : (s.modFault i f).issued = s.issued := rfl
@[simp] theorem State.modFault_beat (s : State) (i : Nat) (f : FaultRec → FaultRec) : (s.modFault i f).beat = s.beat := rfl
@[simp] theorem State.modFault_divHold (s : State) (i : Nat) (f : FaultRec → FaultRec) : (s.modFault i f).divHold = s.divHold := rfl
@[simp] theorem State.modFault_loopBufs (s : State) (i : Nat) (f : FaultRec → FaultRec) : (s.modFault i f).loopBufs = s.loopBufs := rfl
@[simp] theorem State.modFault_loopWants (s : State) (i : Nat) (f : FaultRec → FaultRec) : (s.modFault i f).loopWants = s.loopWants := rfl
@[simp] theorem State.modFault_chip (s : State) (i : Nat) (f : FaultRec → FaultRec) : (s.modFault i f).chip = s.chip := rfl
@[simp] theorem State.modFault_cur (s : State) (i : Nat) (f : FaultRec → FaultRec) : (s.modFault i f).cur = s.cur := rfl
@[simp] theorem State.modFault_nextLid (s : State) (i : Nat) (f : FaultRec → FaultRec) : (s.modFault i f).nextLid = s.nextLid := rfl
@[simp] theorem State.modFault_nextId (s : State) (i : Nat) (f : FaultRec → FaultRec) : (s.modFault i f).nextId = s.nextId := rfl
@[simp] theorem State.modFault_round (s : State) (i : Nat) (f : FaultRec → FaultRec) : (s.modFault i f).round = s.round := rfl
@[simp] theorem State.modFault_schedDue (s : State) (i : Nat) (f : FaultRec → FaultRec) : (s.modFault i f).schedDue = s.schedDue := rfl
@[simp] theorem State.modFault_schedTick (s : State) (i : Nat) (f : FaultRec → FaultRec) : (s.modFault i f).schedTick = s.schedTick := rfl
@[simp] theorem State.modFault_ageTick (s : State) (i : Nat) (f : FaultRec → FaultRec) : (s.modFault i f).ageTick = s.ageTick := rfl
@[simp] theorem State.modFault_output (s : State) (i : Nat) (f : FaultRec → FaultRec) : (s.modFault i f).output = s.output := rfl
@[simp] theorem State.modFault_agenda (s : State) (i : Nat) (f : FaultRec → FaultRec) : (s.modFault i f).agenda = s.agenda := rfl

/-! ### State.modPacket -/

@[simp] theorem State.modPacket_mem (s : State) (i : Nat) (f : Packet0 → Packet0) : (s.modPacket i f).mem = s.mem := rfl
@[simp] theorem State.modPacket_wlog (s : State) (i : Nat) (f : Packet0 → Packet0) : (s.modPacket i f).wlog = s.wlog := rfl
@[simp] theorem State.modPacket_mempoison (s : State) (i : Nat) (f : Packet0 → Packet0) : (s.modPacket i f).mempoison = s.mempoison := rfl
@[simp] theorem State.modPacket_lasting (s : State) (i : Nat) (f : Packet0 → Packet0) : (s.modPacket i f).lasting = s.lasting := rfl
@[simp] theorem State.modPacket_nodes (s : State) (i : Nat) (f : Packet0 → Packet0) : (s.modPacket i f).nodes = s.nodes := rfl
@[simp] theorem State.modPacket_queue (s : State) (i : Nat) (f : Packet0 → Packet0) : (s.modPacket i f).queue = s.queue := rfl
@[simp] theorem State.modPacket_buffer (s : State) (i : Nat) (f : Packet0 → Packet0) : (s.modPacket i f).buffer = s.buffer := rfl
@[simp] theorem State.modPacket_cache (s : State) (i : Nat) (f : Packet0 → Packet0) : (s.modPacket i f).cache = s.cache := rfl
@[simp] theorem State.modPacket_tlb (s : State) (i : Nat) (f : Packet0 → Packet0) : (s.modPacket i f).tlb = s.tlb := rfl
@[simp] theorem State.modPacket_walks (s : State) (i : Nat) (f : Packet0 → Packet0) : (s.modPacket i f).walks = s.walks := rfl
@[simp] theorem State.modPacket_waves (s : State) (i : Nat) (f : Packet0 → Packet0) : (s.modPacket i f).waves = s.waves := rfl
@[simp] theorem State.modPacket_teams (s : State) (i : Nat) (f : Packet0 → Packet0) : (s.modPacket i f).teams = s.teams := rfl
@[simp] theorem State.modPacket_launches (s : State) (i : Nat) (f : Packet0 → Packet0) : (s.modPacket i f).launches = s.launches := rfl
@[simp] theorem State.modPacket_granules (s : State) (i : Nat) (f : Packet0 → Packet0) : (s.modPacket i f).granules = s.granules := rfl
@[simp] theorem State.modPacket_copies (s : State) (i : Nat) (f : Packet0 → Packet0) : (s.modPacket i f).copies = s.copies := rfl
@[simp] theorem State.modPacket_quads (s : State) (i : Nat) (f : Packet0 → Packet0) : (s.modPacket i f).quads = s.quads := rfl
@[simp] theorem State.modPacket_signals (s : State) (i : Nat) (f : Packet0 → Packet0) : (s.modPacket i f).signals = s.signals := rfl
@[simp] theorem State.modPacket_takes (s : State) (i : Nat) (f : Packet0 → Packet0) : (s.modPacket i f).takes = s.takes := rfl
@[simp] theorem State.modPacket_waiters (s : State) (i : Nat) (f : Packet0 → Packet0) : (s.modPacket i f).waiters = s.waiters := rfl
@[simp] theorem State.modPacket_entries (s : State) (i : Nat) (f : Packet0 → Packet0) : (s.modPacket i f).entries = s.entries := rfl
@[simp] theorem State.modPacket_wheel (s : State) (i : Nat) (f : Packet0 → Packet0) : (s.modPacket i f).wheel = s.wheel := rfl
@[simp] theorem State.modPacket_faults (s : State) (i : Nat) (f : Packet0 → Packet0) : (s.modPacket i f).faults = s.faults := rfl
@[simp] theorem State.modPacket_tenants (s : State) (i : Nat) (f : Packet0 → Packet0) : (s.modPacket i f).tenants = s.tenants := rfl
@[simp] theorem State.modPacket_ctxs (s : State) (i : Nat) (f : Packet0 → Packet0) : (s.modPacket i f).ctxs = s.ctxs := rfl
@[simp] theorem State.modPacket_queues (s : State) (i : Nat) (f : Packet0 → Packet0) : (s.modPacket i f).queues = s.queues := rfl
@[simp] theorem State.modPacket_packets (s : State) (i : Nat) (f : Packet0 → Packet0) : (s.modPacket i f).packets = s.packets.map fun k => if k.pid = i then f k else k := rfl
@[simp] theorem State.modPacket_fabric (s : State) (i : Nat) (f : Packet0 → Packet0) : (s.modPacket i f).fabric = s.fabric := rfl
@[simp] theorem State.modPacket_device (s : State) (i : Nat) (f : Packet0 → Packet0) : (s.modPacket i f).device = s.device := rfl
@[simp] theorem State.modPacket_cycles (s : State) (i : Nat) (f : Packet0 → Packet0) : (s.modPacket i f).cycles = s.cycles := rfl
@[simp] theorem State.modPacket_issued (s : State) (i : Nat) (f : Packet0 → Packet0) : (s.modPacket i f).issued = s.issued := rfl
@[simp] theorem State.modPacket_beat (s : State) (i : Nat) (f : Packet0 → Packet0) : (s.modPacket i f).beat = s.beat := rfl
@[simp] theorem State.modPacket_divHold (s : State) (i : Nat) (f : Packet0 → Packet0) : (s.modPacket i f).divHold = s.divHold := rfl
@[simp] theorem State.modPacket_loopBufs (s : State) (i : Nat) (f : Packet0 → Packet0) : (s.modPacket i f).loopBufs = s.loopBufs := rfl
@[simp] theorem State.modPacket_loopWants (s : State) (i : Nat) (f : Packet0 → Packet0) : (s.modPacket i f).loopWants = s.loopWants := rfl
@[simp] theorem State.modPacket_chip (s : State) (i : Nat) (f : Packet0 → Packet0) : (s.modPacket i f).chip = s.chip := rfl
@[simp] theorem State.modPacket_cur (s : State) (i : Nat) (f : Packet0 → Packet0) : (s.modPacket i f).cur = s.cur := rfl
@[simp] theorem State.modPacket_nextLid (s : State) (i : Nat) (f : Packet0 → Packet0) : (s.modPacket i f).nextLid = s.nextLid := rfl
@[simp] theorem State.modPacket_nextId (s : State) (i : Nat) (f : Packet0 → Packet0) : (s.modPacket i f).nextId = s.nextId := rfl
@[simp] theorem State.modPacket_round (s : State) (i : Nat) (f : Packet0 → Packet0) : (s.modPacket i f).round = s.round := rfl
@[simp] theorem State.modPacket_schedDue (s : State) (i : Nat) (f : Packet0 → Packet0) : (s.modPacket i f).schedDue = s.schedDue := rfl
@[simp] theorem State.modPacket_schedTick (s : State) (i : Nat) (f : Packet0 → Packet0) : (s.modPacket i f).schedTick = s.schedTick := rfl
@[simp] theorem State.modPacket_ageTick (s : State) (i : Nat) (f : Packet0 → Packet0) : (s.modPacket i f).ageTick = s.ageTick := rfl
@[simp] theorem State.modPacket_output (s : State) (i : Nat) (f : Packet0 → Packet0) : (s.modPacket i f).output = s.output := rfl
@[simp] theorem State.modPacket_agenda (s : State) (i : Nat) (f : Packet0 → Packet0) : (s.modPacket i f).agenda = s.agenda := rfl

/-! ### State.putBytes -/

@[simp] theorem State.putBytes_mem (s : State) (a : Nat) (bs : List Byte) : (s.putBytes a bs).mem = s.mem := rfl
@[simp] theorem State.putBytes_wlog (s : State) (a : Nat) (bs : List Byte) : (s.putBytes a bs).wlog = (bs.zipIdx.map fun p => (a + p.2, p.1)).reverse ++ s.wlog := rfl
@[simp] theorem State.putBytes_mempoison (s : State) (a : Nat) (bs : List Byte) : (s.putBytes a bs).mempoison = s.mempoison := rfl
@[simp] theorem State.putBytes_lasting (s : State) (a : Nat) (bs : List Byte) : (s.putBytes a bs).lasting = s.lasting := rfl
@[simp] theorem State.putBytes_nodes (s : State) (a : Nat) (bs : List Byte) : (s.putBytes a bs).nodes = s.nodes := rfl
@[simp] theorem State.putBytes_queue (s : State) (a : Nat) (bs : List Byte) : (s.putBytes a bs).queue = s.queue := rfl
@[simp] theorem State.putBytes_buffer (s : State) (a : Nat) (bs : List Byte) : (s.putBytes a bs).buffer = s.buffer := rfl
@[simp] theorem State.putBytes_cache (s : State) (a : Nat) (bs : List Byte) : (s.putBytes a bs).cache = s.cache := rfl
@[simp] theorem State.putBytes_tlb (s : State) (a : Nat) (bs : List Byte) : (s.putBytes a bs).tlb = s.tlb := rfl
@[simp] theorem State.putBytes_walks (s : State) (a : Nat) (bs : List Byte) : (s.putBytes a bs).walks = s.walks := rfl
@[simp] theorem State.putBytes_waves (s : State) (a : Nat) (bs : List Byte) : (s.putBytes a bs).waves = s.waves := rfl
@[simp] theorem State.putBytes_teams (s : State) (a : Nat) (bs : List Byte) : (s.putBytes a bs).teams = s.teams := rfl
@[simp] theorem State.putBytes_launches (s : State) (a : Nat) (bs : List Byte) : (s.putBytes a bs).launches = s.launches := rfl
@[simp] theorem State.putBytes_granules (s : State) (a : Nat) (bs : List Byte) : (s.putBytes a bs).granules = s.granules := rfl
@[simp] theorem State.putBytes_copies (s : State) (a : Nat) (bs : List Byte) : (s.putBytes a bs).copies = s.copies := rfl
@[simp] theorem State.putBytes_quads (s : State) (a : Nat) (bs : List Byte) : (s.putBytes a bs).quads = s.quads := rfl
@[simp] theorem State.putBytes_signals (s : State) (a : Nat) (bs : List Byte) : (s.putBytes a bs).signals = s.signals := rfl
@[simp] theorem State.putBytes_takes (s : State) (a : Nat) (bs : List Byte) : (s.putBytes a bs).takes = s.takes := rfl
@[simp] theorem State.putBytes_waiters (s : State) (a : Nat) (bs : List Byte) : (s.putBytes a bs).waiters = s.waiters := rfl
@[simp] theorem State.putBytes_entries (s : State) (a : Nat) (bs : List Byte) : (s.putBytes a bs).entries = s.entries := rfl
@[simp] theorem State.putBytes_wheel (s : State) (a : Nat) (bs : List Byte) : (s.putBytes a bs).wheel = s.wheel := rfl
@[simp] theorem State.putBytes_faults (s : State) (a : Nat) (bs : List Byte) : (s.putBytes a bs).faults = s.faults := rfl
@[simp] theorem State.putBytes_tenants (s : State) (a : Nat) (bs : List Byte) : (s.putBytes a bs).tenants = s.tenants := rfl
@[simp] theorem State.putBytes_ctxs (s : State) (a : Nat) (bs : List Byte) : (s.putBytes a bs).ctxs = s.ctxs := rfl
@[simp] theorem State.putBytes_queues (s : State) (a : Nat) (bs : List Byte) : (s.putBytes a bs).queues = s.queues := rfl
@[simp] theorem State.putBytes_packets (s : State) (a : Nat) (bs : List Byte) : (s.putBytes a bs).packets = s.packets := rfl
@[simp] theorem State.putBytes_fabric (s : State) (a : Nat) (bs : List Byte) : (s.putBytes a bs).fabric = s.fabric := rfl
@[simp] theorem State.putBytes_device (s : State) (a : Nat) (bs : List Byte) : (s.putBytes a bs).device = s.device := rfl
@[simp] theorem State.putBytes_cycles (s : State) (a : Nat) (bs : List Byte) : (s.putBytes a bs).cycles = s.cycles := rfl
@[simp] theorem State.putBytes_issued (s : State) (a : Nat) (bs : List Byte) : (s.putBytes a bs).issued = s.issued := rfl
@[simp] theorem State.putBytes_beat (s : State) (a : Nat) (bs : List Byte) : (s.putBytes a bs).beat = s.beat := rfl
@[simp] theorem State.putBytes_divHold (s : State) (a : Nat) (bs : List Byte) : (s.putBytes a bs).divHold = s.divHold := rfl
@[simp] theorem State.putBytes_loopBufs (s : State) (a : Nat) (bs : List Byte) : (s.putBytes a bs).loopBufs = s.loopBufs := rfl
@[simp] theorem State.putBytes_loopWants (s : State) (a : Nat) (bs : List Byte) : (s.putBytes a bs).loopWants = s.loopWants := rfl
@[simp] theorem State.putBytes_chip (s : State) (a : Nat) (bs : List Byte) : (s.putBytes a bs).chip = s.chip := rfl
@[simp] theorem State.putBytes_cur (s : State) (a : Nat) (bs : List Byte) : (s.putBytes a bs).cur = s.cur := rfl
@[simp] theorem State.putBytes_nextLid (s : State) (a : Nat) (bs : List Byte) : (s.putBytes a bs).nextLid = s.nextLid := rfl
@[simp] theorem State.putBytes_nextId (s : State) (a : Nat) (bs : List Byte) : (s.putBytes a bs).nextId = s.nextId := rfl
@[simp] theorem State.putBytes_round (s : State) (a : Nat) (bs : List Byte) : (s.putBytes a bs).round = s.round := rfl
@[simp] theorem State.putBytes_schedDue (s : State) (a : Nat) (bs : List Byte) : (s.putBytes a bs).schedDue = s.schedDue := rfl
@[simp] theorem State.putBytes_schedTick (s : State) (a : Nat) (bs : List Byte) : (s.putBytes a bs).schedTick = s.schedTick := rfl
@[simp] theorem State.putBytes_ageTick (s : State) (a : Nat) (bs : List Byte) : (s.putBytes a bs).ageTick = s.ageTick := rfl
@[simp] theorem State.putBytes_output (s : State) (a : Nat) (bs : List Byte) : (s.putBytes a bs).output = s.output := rfl
@[simp] theorem State.putBytes_agenda (s : State) (a : Nat) (bs : List Byte) : (s.putBytes a bs).agenda = s.agenda := rfl

/-! ### State.dropCache -/

@[simp] theorem State.dropCache_mem (s : State) (c : Nat) : (s.dropCache c).mem = s.mem := rfl
@[simp] theorem State.dropCache_wlog (s : State) (c : Nat) : (s.dropCache c).wlog = s.wlog := rfl
@[simp] theorem State.dropCache_mempoison (s : State) (c : Nat) : (s.dropCache c).mempoison = s.mempoison := rfl
@[simp] theorem State.dropCache_lasting (s : State) (c : Nat) : (s.dropCache c).lasting = s.lasting := rfl
@[simp] theorem State.dropCache_nodes (s : State) (c : Nat) : (s.dropCache c).nodes = s.nodes := rfl
@[simp] theorem State.dropCache_queue (s : State) (c : Nat) : (s.dropCache c).queue = s.queue := rfl
@[simp] theorem State.dropCache_buffer (s : State) (c : Nat) : (s.dropCache c).buffer = s.buffer := rfl
@[simp] theorem State.dropCache_cache (s : State) (c : Nat) : (s.dropCache c).cache = s.cache.filter fun e => e.1.1 ≠ c := rfl
@[simp] theorem State.dropCache_tlb (s : State) (c : Nat) : (s.dropCache c).tlb = s.tlb := rfl
@[simp] theorem State.dropCache_walks (s : State) (c : Nat) : (s.dropCache c).walks = s.walks := rfl
@[simp] theorem State.dropCache_waves (s : State) (c : Nat) : (s.dropCache c).waves = s.waves := rfl
@[simp] theorem State.dropCache_teams (s : State) (c : Nat) : (s.dropCache c).teams = s.teams := rfl
@[simp] theorem State.dropCache_launches (s : State) (c : Nat) : (s.dropCache c).launches = s.launches := rfl
@[simp] theorem State.dropCache_granules (s : State) (c : Nat) : (s.dropCache c).granules = s.granules := rfl
@[simp] theorem State.dropCache_copies (s : State) (c : Nat) : (s.dropCache c).copies = s.copies := rfl
@[simp] theorem State.dropCache_quads (s : State) (c : Nat) : (s.dropCache c).quads = s.quads := rfl
@[simp] theorem State.dropCache_signals (s : State) (c : Nat) : (s.dropCache c).signals = s.signals := rfl
@[simp] theorem State.dropCache_takes (s : State) (c : Nat) : (s.dropCache c).takes = s.takes := rfl
@[simp] theorem State.dropCache_waiters (s : State) (c : Nat) : (s.dropCache c).waiters = s.waiters := rfl
@[simp] theorem State.dropCache_entries (s : State) (c : Nat) : (s.dropCache c).entries = s.entries := rfl
@[simp] theorem State.dropCache_wheel (s : State) (c : Nat) : (s.dropCache c).wheel = s.wheel := rfl
@[simp] theorem State.dropCache_faults (s : State) (c : Nat) : (s.dropCache c).faults = s.faults := rfl
@[simp] theorem State.dropCache_tenants (s : State) (c : Nat) : (s.dropCache c).tenants = s.tenants := rfl
@[simp] theorem State.dropCache_ctxs (s : State) (c : Nat) : (s.dropCache c).ctxs = s.ctxs := rfl
@[simp] theorem State.dropCache_queues (s : State) (c : Nat) : (s.dropCache c).queues = s.queues := rfl
@[simp] theorem State.dropCache_packets (s : State) (c : Nat) : (s.dropCache c).packets = s.packets := rfl
@[simp] theorem State.dropCache_fabric (s : State) (c : Nat) : (s.dropCache c).fabric = s.fabric := rfl
@[simp] theorem State.dropCache_device (s : State) (c : Nat) : (s.dropCache c).device = s.device := rfl
@[simp] theorem State.dropCache_cycles (s : State) (c : Nat) : (s.dropCache c).cycles = s.cycles := rfl
@[simp] theorem State.dropCache_issued (s : State) (c : Nat) : (s.dropCache c).issued = s.issued := rfl
@[simp] theorem State.dropCache_beat (s : State) (c : Nat) : (s.dropCache c).beat = s.beat := rfl
@[simp] theorem State.dropCache_divHold (s : State) (c : Nat) : (s.dropCache c).divHold = s.divHold := rfl
@[simp] theorem State.dropCache_loopBufs (s : State) (c : Nat) : (s.dropCache c).loopBufs = s.loopBufs := rfl
@[simp] theorem State.dropCache_loopWants (s : State) (c : Nat) : (s.dropCache c).loopWants = s.loopWants := rfl
@[simp] theorem State.dropCache_chip (s : State) (c : Nat) : (s.dropCache c).chip = s.chip := rfl
@[simp] theorem State.dropCache_cur (s : State) (c : Nat) : (s.dropCache c).cur = s.cur := rfl
@[simp] theorem State.dropCache_nextLid (s : State) (c : Nat) : (s.dropCache c).nextLid = s.nextLid := rfl
@[simp] theorem State.dropCache_nextId (s : State) (c : Nat) : (s.dropCache c).nextId = s.nextId := rfl
@[simp] theorem State.dropCache_round (s : State) (c : Nat) : (s.dropCache c).round = s.round := rfl
@[simp] theorem State.dropCache_schedDue (s : State) (c : Nat) : (s.dropCache c).schedDue = s.schedDue := rfl
@[simp] theorem State.dropCache_schedTick (s : State) (c : Nat) : (s.dropCache c).schedTick = s.schedTick := rfl
@[simp] theorem State.dropCache_ageTick (s : State) (c : Nat) : (s.dropCache c).ageTick = s.ageTick := rfl
@[simp] theorem State.dropCache_output (s : State) (c : Nat) : (s.dropCache c).output = s.output := rfl
@[simp] theorem State.dropCache_agenda (s : State) (c : Nat) : (s.dropCache c).agenda = s.agenda := rfl

/-! ### Wave.setS -/

@[simp] theorem Wave.setS_live (v : Wave) (n : Nat) (x : Word) : (v.setS n x).live = v.live := rfl
@[simp] theorem Wave.setS_exited (v : Wave) (n : Nat) (x : Word) : (v.setS n x).exited = v.exited := rfl
@[simp] theorem Wave.setS_born (v : Wave) (n : Nat) (x : Word) : (v.setS n x).born = v.born := rfl
@[simp] theorem Wave.setS_ended (v : Wave) (n : Nat) (x : Word) : (v.setS n x).ended = v.ended := rfl
@[simp] theorem Wave.setS_sregs (v : Wave) (n : Nat) (x : Word) : (v.setS n x).sregs = setAt v.sregs n x := rfl
@[simp] theorem Wave.setS_masks (v : Wave) (n : Nat) (x : Word) : (v.setS n x).masks = v.masks := rfl
@[simp] theorem Wave.setS_lc (v : Wave) (n : Nat) (x : Word) : (v.setS n x).lc = v.lc := rfl
@[simp] theorem Wave.setS_loops (v : Wave) (n : Nat) (x : Word) : (v.setS n x).loops = v.loops := rfl
@[simp] theorem Wave.setS_loopOrder (v : Wave) (n : Nat) (x : Word) : (v.setS n x).loopOrder = v.loopOrder := rfl
@[simp] theorem Wave.setS_fstat (v : Wave) (n : Nat) (x : Word) : (v.setS n x).fstat = v.fstat := rfl
@[simp] theorem Wave.setS_wstat (v : Wave) (n : Nat) (x : Word) : (v.setS n x).wstat = v.wstat := rfl
@[simp] theorem Wave.setS_icount (v : Wave) (n : Nat) (x : Word) : (v.setS n x).icount = v.icount := rfl
@[simp] theorem Wave.setS_cycle (v : Wave) (n : Nat) (x : Word) : (v.setS n x).cycle = v.cycle := rfl
@[simp] theorem Wave.setS_lskip (v : Wave) (n : Nat) (x : Word) : (v.setS n x).lskip = v.lskip := rfl
@[simp] theorem Wave.setS_elog (v : Wave) (n : Nat) (x : Word) : (v.setS n x).elog = v.elog := rfl
@[simp] theorem Wave.setS_ctr (v : Wave) (n : Nat) (x : Word) : (v.setS n x).ctr = v.ctr := rfl
@[simp] theorem Wave.setS_vregs (v : Wave) (n : Nat) (x : Word) : (v.setS n x).vregs = v.vregs := rfl
@[simp] theorem Wave.setS_slot0 (v : Wave) (n : Nat) (x : Word) : (v.setS n x).slot0 = v.slot0 := rfl
@[simp] theorem Wave.setS_slot1 (v : Wave) (n : Nat) (x : Word) : (v.setS n x).slot1 = v.slot1 := rfl
@[simp] theorem Wave.setS_recs (v : Wave) (n : Nat) (x : Word) : (v.setS n x).recs = v.recs := rfl
@[simp] theorem Wave.setS_spilled (v : Wave) (n : Nat) (x : Word) : (v.setS n x).spilled = v.spilled := rfl
@[simp] theorem Wave.setS_nextId (v : Wave) (n : Nat) (x : Word) : (v.setS n x).nextId = v.nextId := rfl
@[simp] theorem Wave.setS_leave (v : Wave) (n : Nat) (x : Word) : (v.setS n x).leave = v.leave := rfl
@[simp] theorem Wave.setS_pend (v : Wave) (n : Nat) (x : Word) : (v.setS n x).pend = v.pend := rfl
@[simp] theorem Wave.setS_switchWait (v : Wave) (n : Nat) (x : Word) : (v.setS n x).switchWait = v.switchWait := rfl
@[simp] theorem Wave.setS_fences (v : Wave) (n : Nat) (x : Word) : (v.setS n x).fences = v.fences := rfl
@[simp] theorem Wave.setS_bufs (v : Wave) (n : Nat) (x : Word) : (v.setS n x).bufs = v.bufs := rfl
@[simp] theorem Wave.setS_seen (v : Wave) (n : Nat) (x : Word) : (v.setS n x).seen = v.seen := rfl
@[simp] theorem Wave.setS_endAt (v : Wave) (n : Nat) (x : Word) : (v.setS n x).endAt = v.endAt := rfl
@[simp] theorem Wave.setS_newF (v : Wave) (n : Nat) (x : Word) : (v.setS n x).newF = v.newF := rfl
@[simp] theorem Wave.setS_newW (v : Wave) (n : Nat) (x : Word) : (v.setS n x).newW = v.newW := rfl
@[simp] theorem Wave.setS_newE (v : Wave) (n : Nat) (x : Word) : (v.setS n x).newE = v.newE := rfl

/-! ### Wave.setM -/

@[simp] theorem Wave.setM_live (v : Wave) (n : Nat) (x : W32) : (v.setM n x).live = v.live := rfl
@[simp] theorem Wave.setM_exited (v : Wave) (n : Nat) (x : W32) : (v.setM n x).exited = v.exited := rfl
@[simp] theorem Wave.setM_born (v : Wave) (n : Nat) (x : W32) : (v.setM n x).born = v.born := rfl
@[simp] theorem Wave.setM_ended (v : Wave) (n : Nat) (x : W32) : (v.setM n x).ended = v.ended := rfl
@[simp] theorem Wave.setM_sregs (v : Wave) (n : Nat) (x : W32) : (v.setM n x).sregs = v.sregs := rfl
@[simp] theorem Wave.setM_masks (v : Wave) (n : Nat) (x : W32) : (v.setM n x).masks = setAt v.masks n x := rfl
@[simp] theorem Wave.setM_lc (v : Wave) (n : Nat) (x : W32) : (v.setM n x).lc = v.lc := rfl
@[simp] theorem Wave.setM_loops (v : Wave) (n : Nat) (x : W32) : (v.setM n x).loops = v.loops := rfl
@[simp] theorem Wave.setM_loopOrder (v : Wave) (n : Nat) (x : W32) : (v.setM n x).loopOrder = v.loopOrder := rfl
@[simp] theorem Wave.setM_fstat (v : Wave) (n : Nat) (x : W32) : (v.setM n x).fstat = v.fstat := rfl
@[simp] theorem Wave.setM_wstat (v : Wave) (n : Nat) (x : W32) : (v.setM n x).wstat = v.wstat := rfl
@[simp] theorem Wave.setM_icount (v : Wave) (n : Nat) (x : W32) : (v.setM n x).icount = v.icount := rfl
@[simp] theorem Wave.setM_cycle (v : Wave) (n : Nat) (x : W32) : (v.setM n x).cycle = v.cycle := rfl
@[simp] theorem Wave.setM_lskip (v : Wave) (n : Nat) (x : W32) : (v.setM n x).lskip = v.lskip := rfl
@[simp] theorem Wave.setM_elog (v : Wave) (n : Nat) (x : W32) : (v.setM n x).elog = v.elog := rfl
@[simp] theorem Wave.setM_ctr (v : Wave) (n : Nat) (x : W32) : (v.setM n x).ctr = v.ctr := rfl
@[simp] theorem Wave.setM_vregs (v : Wave) (n : Nat) (x : W32) : (v.setM n x).vregs = v.vregs := rfl
@[simp] theorem Wave.setM_slot0 (v : Wave) (n : Nat) (x : W32) : (v.setM n x).slot0 = v.slot0 := rfl
@[simp] theorem Wave.setM_slot1 (v : Wave) (n : Nat) (x : W32) : (v.setM n x).slot1 = v.slot1 := rfl
@[simp] theorem Wave.setM_recs (v : Wave) (n : Nat) (x : W32) : (v.setM n x).recs = v.recs := rfl
@[simp] theorem Wave.setM_spilled (v : Wave) (n : Nat) (x : W32) : (v.setM n x).spilled = v.spilled := rfl
@[simp] theorem Wave.setM_nextId (v : Wave) (n : Nat) (x : W32) : (v.setM n x).nextId = v.nextId := rfl
@[simp] theorem Wave.setM_leave (v : Wave) (n : Nat) (x : W32) : (v.setM n x).leave = v.leave := rfl
@[simp] theorem Wave.setM_pend (v : Wave) (n : Nat) (x : W32) : (v.setM n x).pend = v.pend := rfl
@[simp] theorem Wave.setM_switchWait (v : Wave) (n : Nat) (x : W32) : (v.setM n x).switchWait = v.switchWait := rfl
@[simp] theorem Wave.setM_fences (v : Wave) (n : Nat) (x : W32) : (v.setM n x).fences = v.fences := rfl
@[simp] theorem Wave.setM_bufs (v : Wave) (n : Nat) (x : W32) : (v.setM n x).bufs = v.bufs := rfl
@[simp] theorem Wave.setM_seen (v : Wave) (n : Nat) (x : W32) : (v.setM n x).seen = v.seen := rfl
@[simp] theorem Wave.setM_endAt (v : Wave) (n : Nat) (x : W32) : (v.setM n x).endAt = v.endAt := rfl
@[simp] theorem Wave.setM_newF (v : Wave) (n : Nat) (x : W32) : (v.setM n x).newF = v.newF := rfl
@[simp] theorem Wave.setM_newW (v : Wave) (n : Nat) (x : W32) : (v.setM n x).newW = v.newW := rfl
@[simp] theorem Wave.setM_newE (v : Wave) (n : Nat) (x : W32) : (v.setM n x).newE = v.newE := rfl

/-! ### Wave.setLc -/

@[simp] theorem Wave.setLc_live (v : Wave) (n : Nat) (x : W32) : (v.setLc n x).live = v.live := rfl
@[simp] theorem Wave.setLc_exited (v : Wave) (n : Nat) (x : W32) : (v.setLc n x).exited = v.exited := rfl
@[simp] theorem Wave.setLc_born (v : Wave) (n : Nat) (x : W32) : (v.setLc n x).born = v.born := rfl
@[simp] theorem Wave.setLc_ended (v : Wave) (n : Nat) (x : W32) : (v.setLc n x).ended = v.ended := rfl
@[simp] theorem Wave.setLc_sregs (v : Wave) (n : Nat) (x : W32) : (v.setLc n x).sregs = v.sregs := rfl
@[simp] theorem Wave.setLc_masks (v : Wave) (n : Nat) (x : W32) : (v.setLc n x).masks = v.masks := rfl
@[simp] theorem Wave.setLc_lc (v : Wave) (n : Nat) (x : W32) : (v.setLc n x).lc = setAt v.lc n x := rfl
@[simp] theorem Wave.setLc_loops (v : Wave) (n : Nat) (x : W32) : (v.setLc n x).loops = v.loops := rfl
@[simp] theorem Wave.setLc_loopOrder (v : Wave) (n : Nat) (x : W32) : (v.setLc n x).loopOrder = v.loopOrder := rfl
@[simp] theorem Wave.setLc_fstat (v : Wave) (n : Nat) (x : W32) : (v.setLc n x).fstat = v.fstat := rfl
@[simp] theorem Wave.setLc_wstat (v : Wave) (n : Nat) (x : W32) : (v.setLc n x).wstat = v.wstat := rfl
@[simp] theorem Wave.setLc_icount (v : Wave) (n : Nat) (x : W32) : (v.setLc n x).icount = v.icount := rfl
@[simp] theorem Wave.setLc_cycle (v : Wave) (n : Nat) (x : W32) : (v.setLc n x).cycle = v.cycle := rfl
@[simp] theorem Wave.setLc_lskip (v : Wave) (n : Nat) (x : W32) : (v.setLc n x).lskip = v.lskip := rfl
@[simp] theorem Wave.setLc_elog (v : Wave) (n : Nat) (x : W32) : (v.setLc n x).elog = v.elog := rfl
@[simp] theorem Wave.setLc_ctr (v : Wave) (n : Nat) (x : W32) : (v.setLc n x).ctr = v.ctr := rfl
@[simp] theorem Wave.setLc_vregs (v : Wave) (n : Nat) (x : W32) : (v.setLc n x).vregs = v.vregs := rfl
@[simp] theorem Wave.setLc_slot0 (v : Wave) (n : Nat) (x : W32) : (v.setLc n x).slot0 = v.slot0 := rfl
@[simp] theorem Wave.setLc_slot1 (v : Wave) (n : Nat) (x : W32) : (v.setLc n x).slot1 = v.slot1 := rfl
@[simp] theorem Wave.setLc_recs (v : Wave) (n : Nat) (x : W32) : (v.setLc n x).recs = v.recs := rfl
@[simp] theorem Wave.setLc_spilled (v : Wave) (n : Nat) (x : W32) : (v.setLc n x).spilled = v.spilled := rfl
@[simp] theorem Wave.setLc_nextId (v : Wave) (n : Nat) (x : W32) : (v.setLc n x).nextId = v.nextId := rfl
@[simp] theorem Wave.setLc_leave (v : Wave) (n : Nat) (x : W32) : (v.setLc n x).leave = v.leave := rfl
@[simp] theorem Wave.setLc_pend (v : Wave) (n : Nat) (x : W32) : (v.setLc n x).pend = v.pend := rfl
@[simp] theorem Wave.setLc_switchWait (v : Wave) (n : Nat) (x : W32) : (v.setLc n x).switchWait = v.switchWait := rfl
@[simp] theorem Wave.setLc_fences (v : Wave) (n : Nat) (x : W32) : (v.setLc n x).fences = v.fences := rfl
@[simp] theorem Wave.setLc_bufs (v : Wave) (n : Nat) (x : W32) : (v.setLc n x).bufs = v.bufs := rfl
@[simp] theorem Wave.setLc_seen (v : Wave) (n : Nat) (x : W32) : (v.setLc n x).seen = v.seen := rfl
@[simp] theorem Wave.setLc_endAt (v : Wave) (n : Nat) (x : W32) : (v.setLc n x).endAt = v.endAt := rfl
@[simp] theorem Wave.setLc_newF (v : Wave) (n : Nat) (x : W32) : (v.setLc n x).newF = v.newF := rfl
@[simp] theorem Wave.setLc_newW (v : Wave) (n : Nat) (x : W32) : (v.setLc n x).newW = v.newW := rfl
@[simp] theorem Wave.setLc_newE (v : Wave) (n : Nat) (x : W32) : (v.setLc n x).newE = v.newE := rfl

/-! ### Wave.setV -/

@[simp] theorem Wave.setV_live (v : Wave) (n : Nat) (x : VReg) : (v.setV n x).live = v.live := rfl
@[simp] theorem Wave.setV_exited (v : Wave) (n : Nat) (x : VReg) : (v.setV n x).exited = v.exited := rfl
@[simp] theorem Wave.setV_born (v : Wave) (n : Nat) (x : VReg) : (v.setV n x).born = v.born := rfl
@[simp] theorem Wave.setV_ended (v : Wave) (n : Nat) (x : VReg) : (v.setV n x).ended = v.ended := rfl
@[simp] theorem Wave.setV_sregs (v : Wave) (n : Nat) (x : VReg) : (v.setV n x).sregs = v.sregs := rfl
@[simp] theorem Wave.setV_masks (v : Wave) (n : Nat) (x : VReg) : (v.setV n x).masks = v.masks := rfl
@[simp] theorem Wave.setV_lc (v : Wave) (n : Nat) (x : VReg) : (v.setV n x).lc = v.lc := rfl
@[simp] theorem Wave.setV_loops (v : Wave) (n : Nat) (x : VReg) : (v.setV n x).loops = v.loops := rfl
@[simp] theorem Wave.setV_loopOrder (v : Wave) (n : Nat) (x : VReg) : (v.setV n x).loopOrder = v.loopOrder := rfl
@[simp] theorem Wave.setV_fstat (v : Wave) (n : Nat) (x : VReg) : (v.setV n x).fstat = v.fstat := rfl
@[simp] theorem Wave.setV_wstat (v : Wave) (n : Nat) (x : VReg) : (v.setV n x).wstat = v.wstat := rfl
@[simp] theorem Wave.setV_icount (v : Wave) (n : Nat) (x : VReg) : (v.setV n x).icount = v.icount := rfl
@[simp] theorem Wave.setV_cycle (v : Wave) (n : Nat) (x : VReg) : (v.setV n x).cycle = v.cycle := rfl
@[simp] theorem Wave.setV_lskip (v : Wave) (n : Nat) (x : VReg) : (v.setV n x).lskip = v.lskip := rfl
@[simp] theorem Wave.setV_elog (v : Wave) (n : Nat) (x : VReg) : (v.setV n x).elog = v.elog := rfl
@[simp] theorem Wave.setV_ctr (v : Wave) (n : Nat) (x : VReg) : (v.setV n x).ctr = v.ctr := rfl
@[simp] theorem Wave.setV_vregs (v : Wave) (n : Nat) (x : VReg) : (v.setV n x).vregs = setAt v.vregs n x := rfl
@[simp] theorem Wave.setV_slot0 (v : Wave) (n : Nat) (x : VReg) : (v.setV n x).slot0 = v.slot0 := rfl
@[simp] theorem Wave.setV_slot1 (v : Wave) (n : Nat) (x : VReg) : (v.setV n x).slot1 = v.slot1 := rfl
@[simp] theorem Wave.setV_recs (v : Wave) (n : Nat) (x : VReg) : (v.setV n x).recs = v.recs := rfl
@[simp] theorem Wave.setV_spilled (v : Wave) (n : Nat) (x : VReg) : (v.setV n x).spilled = v.spilled := rfl
@[simp] theorem Wave.setV_nextId (v : Wave) (n : Nat) (x : VReg) : (v.setV n x).nextId = v.nextId := rfl
@[simp] theorem Wave.setV_leave (v : Wave) (n : Nat) (x : VReg) : (v.setV n x).leave = v.leave := rfl
@[simp] theorem Wave.setV_pend (v : Wave) (n : Nat) (x : VReg) : (v.setV n x).pend = v.pend := rfl
@[simp] theorem Wave.setV_switchWait (v : Wave) (n : Nat) (x : VReg) : (v.setV n x).switchWait = v.switchWait := rfl
@[simp] theorem Wave.setV_fences (v : Wave) (n : Nat) (x : VReg) : (v.setV n x).fences = v.fences := rfl
@[simp] theorem Wave.setV_bufs (v : Wave) (n : Nat) (x : VReg) : (v.setV n x).bufs = v.bufs := rfl
@[simp] theorem Wave.setV_seen (v : Wave) (n : Nat) (x : VReg) : (v.setV n x).seen = v.seen := rfl
@[simp] theorem Wave.setV_endAt (v : Wave) (n : Nat) (x : VReg) : (v.setV n x).endAt = v.endAt := rfl
@[simp] theorem Wave.setV_newF (v : Wave) (n : Nat) (x : VReg) : (v.setV n x).newF = v.newF := rfl
@[simp] theorem Wave.setV_newW (v : Wave) (n : Nat) (x : VReg) : (v.setV n x).newW = v.newW := rfl
@[simp] theorem Wave.setV_newE (v : Wave) (n : Nat) (x : VReg) : (v.setV n x).newE = v.newE := rfl

/-! ### Wave.raise -/

@[simp] theorem Wave.raise_live (v : Wave) (n : Nat) : (v.raise n).live = v.live := rfl
@[simp] theorem Wave.raise_exited (v : Wave) (n : Nat) : (v.raise n).exited = v.exited := rfl
@[simp] theorem Wave.raise_born (v : Wave) (n : Nat) : (v.raise n).born = v.born := rfl
@[simp] theorem Wave.raise_ended (v : Wave) (n : Nat) : (v.raise n).ended = v.ended := rfl
@[simp] theorem Wave.raise_sregs (v : Wave) (n : Nat) : (v.raise n).sregs = v.sregs := rfl
@[simp] theorem Wave.raise_masks (v : Wave) (n : Nat) : (v.raise n).masks = v.masks := rfl
@[simp] theorem Wave.raise_lc (v : Wave) (n : Nat) : (v.raise n).lc = v.lc := rfl
@[simp] theorem Wave.raise_loops (v : Wave) (n : Nat) : (v.raise n).loops = v.loops := rfl
@[simp] theorem Wave.raise_loopOrder (v : Wave) (n : Nat) : (v.raise n).loopOrder = v.loopOrder := rfl
@[simp] theorem Wave.raise_fstat (v : Wave) (n : Nat) : (v.raise n).fstat = fstatRaise v.fstat n := rfl
@[simp] theorem Wave.raise_wstat (v : Wave) (n : Nat) : (v.raise n).wstat = v.wstat := rfl
@[simp] theorem Wave.raise_icount (v : Wave) (n : Nat) : (v.raise n).icount = v.icount := rfl
@[simp] theorem Wave.raise_cycle (v : Wave) (n : Nat) : (v.raise n).cycle = v.cycle := rfl
@[simp] theorem Wave.raise_lskip (v : Wave) (n : Nat) : (v.raise n).lskip = v.lskip := rfl
@[simp] theorem Wave.raise_elog (v : Wave) (n : Nat) : (v.raise n).elog = v.elog := rfl
@[simp] theorem Wave.raise_ctr (v : Wave) (n : Nat) : (v.raise n).ctr = v.ctr := rfl
@[simp] theorem Wave.raise_vregs (v : Wave) (n : Nat) : (v.raise n).vregs = v.vregs := rfl
@[simp] theorem Wave.raise_slot0 (v : Wave) (n : Nat) : (v.raise n).slot0 = v.slot0 := rfl
@[simp] theorem Wave.raise_slot1 (v : Wave) (n : Nat) : (v.raise n).slot1 = v.slot1 := rfl
@[simp] theorem Wave.raise_recs (v : Wave) (n : Nat) : (v.raise n).recs = v.recs := rfl
@[simp] theorem Wave.raise_spilled (v : Wave) (n : Nat) : (v.raise n).spilled = v.spilled := rfl
@[simp] theorem Wave.raise_nextId (v : Wave) (n : Nat) : (v.raise n).nextId = v.nextId := rfl
@[simp] theorem Wave.raise_leave (v : Wave) (n : Nat) : (v.raise n).leave = v.leave := rfl
@[simp] theorem Wave.raise_pend (v : Wave) (n : Nat) : (v.raise n).pend = v.pend := rfl
@[simp] theorem Wave.raise_switchWait (v : Wave) (n : Nat) : (v.raise n).switchWait = v.switchWait := rfl
@[simp] theorem Wave.raise_fences (v : Wave) (n : Nat) : (v.raise n).fences = v.fences := rfl
@[simp] theorem Wave.raise_bufs (v : Wave) (n : Nat) : (v.raise n).bufs = v.bufs := rfl
@[simp] theorem Wave.raise_seen (v : Wave) (n : Nat) : (v.raise n).seen = v.seen := rfl
@[simp] theorem Wave.raise_endAt (v : Wave) (n : Nat) : (v.raise n).endAt = v.endAt := rfl
@[simp] theorem Wave.raise_newF (v : Wave) (n : Nat) : (v.raise n).newF = v.newF ||| n := rfl
@[simp] theorem Wave.raise_newW (v : Wave) (n : Nat) : (v.raise n).newW = v.newW := rfl
@[simp] theorem Wave.raise_newE (v : Wave) (n : Nat) : (v.raise n).newE = v.newE := rfl

/-! ### Wave.raiseW -/

@[simp] theorem Wave.raiseW_live (v : Wave) (x : Word) : (v.raiseW x).live = v.live := rfl
@[simp] theorem Wave.raiseW_exited (v : Wave) (x : Word) : (v.raiseW x).exited = v.exited := rfl
@[simp] theorem Wave.raiseW_born (v : Wave) (x : Word) : (v.raiseW x).born = v.born := rfl
@[simp] theorem Wave.raiseW_ended (v : Wave) (x : Word) : (v.raiseW x).ended = v.ended := rfl
@[simp] theorem Wave.raiseW_sregs (v : Wave) (x : Word) : (v.raiseW x).sregs = v.sregs := rfl
@[simp] theorem Wave.raiseW_masks (v : Wave) (x : Word) : (v.raiseW x).masks = v.masks := rfl
@[simp] theorem Wave.raiseW_lc (v : Wave) (x : Word) : (v.raiseW x).lc = v.lc := rfl
@[simp] theorem Wave.raiseW_loops (v : Wave) (x : Word) : (v.raiseW x).loops = v.loops := rfl
@[simp] theorem Wave.raiseW_loopOrder (v : Wave) (x : Word) : (v.raiseW x).loopOrder = v.loopOrder := rfl
@[simp] theorem Wave.raiseW_fstat (v : Wave) (x : Word) : (v.raiseW x).fstat = v.fstat := rfl
@[simp] theorem Wave.raiseW_wstat (v : Wave) (x : Word) : (v.raiseW x).wstat = v.wstat ||| x := rfl
@[simp] theorem Wave.raiseW_icount (v : Wave) (x : Word) : (v.raiseW x).icount = v.icount := rfl
@[simp] theorem Wave.raiseW_cycle (v : Wave) (x : Word) : (v.raiseW x).cycle = v.cycle := rfl
@[simp] theorem Wave.raiseW_lskip (v : Wave) (x : Word) : (v.raiseW x).lskip = v.lskip := rfl
@[simp] theorem Wave.raiseW_elog (v : Wave) (x : Word) : (v.raiseW x).elog = v.elog := rfl
@[simp] theorem Wave.raiseW_ctr (v : Wave) (x : Word) : (v.raiseW x).ctr = v.ctr := rfl
@[simp] theorem Wave.raiseW_vregs (v : Wave) (x : Word) : (v.raiseW x).vregs = v.vregs := rfl
@[simp] theorem Wave.raiseW_slot0 (v : Wave) (x : Word) : (v.raiseW x).slot0 = v.slot0 := rfl
@[simp] theorem Wave.raiseW_slot1 (v : Wave) (x : Word) : (v.raiseW x).slot1 = v.slot1 := rfl
@[simp] theorem Wave.raiseW_recs (v : Wave) (x : Word) : (v.raiseW x).recs = v.recs := rfl
@[simp] theorem Wave.raiseW_spilled (v : Wave) (x : Word) : (v.raiseW x).spilled = v.spilled := rfl
@[simp] theorem Wave.raiseW_nextId (v : Wave) (x : Word) : (v.raiseW x).nextId = v.nextId := rfl
@[simp] theorem Wave.raiseW_leave (v : Wave) (x : Word) : (v.raiseW x).leave = v.leave := rfl
@[simp] theorem Wave.raiseW_pend (v : Wave) (x : Word) : (v.raiseW x).pend = v.pend := rfl
@[simp] theorem Wave.raiseW_switchWait (v : Wave) (x : Word) : (v.raiseW x).switchWait = v.switchWait := rfl
@[simp] theorem Wave.raiseW_fences (v : Wave) (x : Word) : (v.raiseW x).fences = v.fences := rfl
@[simp] theorem Wave.raiseW_bufs (v : Wave) (x : Word) : (v.raiseW x).bufs = v.bufs := rfl
@[simp] theorem Wave.raiseW_seen (v : Wave) (x : Word) : (v.raiseW x).seen = v.seen := rfl
@[simp] theorem Wave.raiseW_endAt (v : Wave) (x : Word) : (v.raiseW x).endAt = v.endAt := rfl
@[simp] theorem Wave.raiseW_newF (v : Wave) (x : Word) : (v.raiseW x).newF = v.newF := rfl
@[simp] theorem Wave.raiseW_newW (v : Wave) (x : Word) : (v.raiseW x).newW = v.newW ||| x := rfl
@[simp] theorem Wave.raiseW_newE (v : Wave) (x : Word) : (v.raiseW x).newE = v.newE := rfl

/-! ### Wave.bumpHaz -/

@[simp] theorem Wave.bumpHaz_live (v : Wave) : (v.bumpHaz ).live = v.live := rfl
@[simp] theorem Wave.bumpHaz_exited (v : Wave) : (v.bumpHaz ).exited = v.exited := rfl
@[simp] theorem Wave.bumpHaz_born (v : Wave) : (v.bumpHaz ).born = v.born := rfl
@[simp] theorem Wave.bumpHaz_ended (v : Wave) : (v.bumpHaz ).ended = v.ended := rfl
@[simp] theorem Wave.bumpHaz_sregs (v : Wave) : (v.bumpHaz ).sregs = v.sregs := rfl
@[simp] theorem Wave.bumpHaz_masks (v : Wave) : (v.bumpHaz ).masks = v.masks := rfl
@[simp] theorem Wave.bumpHaz_lc (v : Wave) : (v.bumpHaz ).lc = v.lc := rfl
@[simp] theorem Wave.bumpHaz_loops (v : Wave) : (v.bumpHaz ).loops = v.loops := rfl
@[simp] theorem Wave.bumpHaz_loopOrder (v : Wave) : (v.bumpHaz ).loopOrder = v.loopOrder := rfl
@[simp] theorem Wave.bumpHaz_fstat (v : Wave) : (v.bumpHaz ).fstat = v.fstat := rfl
@[simp] theorem Wave.bumpHaz_wstat (v : Wave) : (v.bumpHaz ).wstat = wstatHaz v.wstat := rfl
@[simp] theorem Wave.bumpHaz_icount (v : Wave) : (v.bumpHaz ).icount = v.icount := rfl
@[simp] theorem Wave.bumpHaz_cycle (v : Wave) : (v.bumpHaz ).cycle = v.cycle := rfl
@[simp] theorem Wave.bumpHaz_lskip (v : Wave) : (v.bumpHaz ).lskip = v.lskip := rfl
@[simp] theorem Wave.bumpHaz_elog (v : Wave) : (v.bumpHaz ).elog = v.elog := rfl
@[simp] theorem Wave.bumpHaz_ctr (v : Wave) : (v.bumpHaz ).ctr = v.ctr := rfl
@[simp] theorem Wave.bumpHaz_vregs (v : Wave) : (v.bumpHaz ).vregs = v.vregs := rfl
@[simp] theorem Wave.bumpHaz_slot0 (v : Wave) : (v.bumpHaz ).slot0 = v.slot0 := rfl
@[simp] theorem Wave.bumpHaz_slot1 (v : Wave) : (v.bumpHaz ).slot1 = v.slot1 := rfl
@[simp] theorem Wave.bumpHaz_recs (v : Wave) : (v.bumpHaz ).recs = v.recs := rfl
@[simp] theorem Wave.bumpHaz_spilled (v : Wave) : (v.bumpHaz ).spilled = v.spilled := rfl
@[simp] theorem Wave.bumpHaz_nextId (v : Wave) : (v.bumpHaz ).nextId = v.nextId := rfl
@[simp] theorem Wave.bumpHaz_leave (v : Wave) : (v.bumpHaz ).leave = v.leave := rfl
@[simp] theorem Wave.bumpHaz_pend (v : Wave) : (v.bumpHaz ).pend = v.pend := rfl
@[simp] theorem Wave.bumpHaz_switchWait (v : Wave) : (v.bumpHaz ).switchWait = v.switchWait := rfl
@[simp] theorem Wave.bumpHaz_fences (v : Wave) : (v.bumpHaz ).fences = v.fences := rfl
@[simp] theorem Wave.bumpHaz_bufs (v : Wave) : (v.bumpHaz ).bufs = v.bufs := rfl
@[simp] theorem Wave.bumpHaz_seen (v : Wave) : (v.bumpHaz ).seen = v.seen := rfl
@[simp] theorem Wave.bumpHaz_endAt (v : Wave) : (v.bumpHaz ).endAt = v.endAt := rfl
@[simp] theorem Wave.bumpHaz_newF (v : Wave) : (v.bumpHaz ).newF = v.newF := rfl
@[simp] theorem Wave.bumpHaz_newW (v : Wave) : (v.bumpHaz ).newW = v.newW := rfl
@[simp] theorem Wave.bumpHaz_newE (v : Wave) : (v.bumpHaz ).newE = v.newE := rfl

/-! ### Wave.incr -/

@[simp] theorem Wave.incr_live (v : Wave) (c : Nat) : (v.incr c).live = v.live := rfl
@[simp] theorem Wave.incr_exited (v : Wave) (c : Nat) : (v.incr c).exited = v.exited := rfl
@[simp] theorem Wave.incr_born (v : Wave) (c : Nat) : (v.incr c).born = v.born := rfl
@[simp] theorem Wave.incr_ended (v : Wave) (c : Nat) : (v.incr c).ended = v.ended := rfl
@[simp] theorem Wave.incr_sregs (v : Wave) (c : Nat) : (v.incr c).sregs = v.sregs := rfl
@[simp] theorem Wave.incr_masks (v : Wave) (c : Nat) : (v.incr c).masks = v.masks := rfl
@[simp] theorem Wave.incr_lc (v : Wave) (c : Nat) : (v.incr c).lc = v.lc := rfl
@[simp] theorem Wave.incr_loops (v : Wave) (c : Nat) : (v.incr c).loops = v.loops := rfl
@[simp] theorem Wave.incr_loopOrder (v : Wave) (c : Nat) : (v.incr c).loopOrder = v.loopOrder := rfl
@[simp] theorem Wave.incr_fstat (v : Wave) (c : Nat) : (v.incr c).fstat = v.fstat := rfl
@[simp] theorem Wave.incr_wstat (v : Wave) (c : Nat) : (v.incr c).wstat = v.wstat := rfl
@[simp] theorem Wave.incr_icount (v : Wave) (c : Nat) : (v.incr c).icount = v.icount := rfl
@[simp] theorem Wave.incr_cycle (v : Wave) (c : Nat) : (v.incr c).cycle = v.cycle := rfl
@[simp] theorem Wave.incr_lskip (v : Wave) (c : Nat) : (v.incr c).lskip = v.lskip := rfl
@[simp] theorem Wave.incr_elog (v : Wave) (c : Nat) : (v.incr c).elog = v.elog := rfl
@[simp] theorem Wave.incr_ctr (v : Wave) (c : Nat) : (v.incr c).ctr = setAt v.ctr c (v.counter c + 1) := rfl
@[simp] theorem Wave.incr_vregs (v : Wave) (c : Nat) : (v.incr c).vregs = v.vregs := rfl
@[simp] theorem Wave.incr_slot0 (v : Wave) (c : Nat) : (v.incr c).slot0 = v.slot0 := rfl
@[simp] theorem Wave.incr_slot1 (v : Wave) (c : Nat) : (v.incr c).slot1 = v.slot1 := rfl
@[simp] theorem Wave.incr_recs (v : Wave) (c : Nat) : (v.incr c).recs = v.recs := rfl
@[simp] theorem Wave.incr_spilled (v : Wave) (c : Nat) : (v.incr c).spilled = v.spilled := rfl
@[simp] theorem Wave.incr_nextId (v : Wave) (c : Nat) : (v.incr c).nextId = v.nextId := rfl
@[simp] theorem Wave.incr_leave (v : Wave) (c : Nat) : (v.incr c).leave = v.leave := rfl
@[simp] theorem Wave.incr_pend (v : Wave) (c : Nat) : (v.incr c).pend = v.pend := rfl
@[simp] theorem Wave.incr_switchWait (v : Wave) (c : Nat) : (v.incr c).switchWait = v.switchWait := rfl
@[simp] theorem Wave.incr_fences (v : Wave) (c : Nat) : (v.incr c).fences = v.fences := rfl
@[simp] theorem Wave.incr_bufs (v : Wave) (c : Nat) : (v.incr c).bufs = v.bufs := rfl
@[simp] theorem Wave.incr_seen (v : Wave) (c : Nat) : (v.incr c).seen = v.seen := rfl
@[simp] theorem Wave.incr_endAt (v : Wave) (c : Nat) : (v.incr c).endAt = v.endAt := rfl
@[simp] theorem Wave.incr_newF (v : Wave) (c : Nat) : (v.incr c).newF = v.newF := rfl
@[simp] theorem Wave.incr_newW (v : Wave) (c : Nat) : (v.incr c).newW = v.newW := rfl
@[simp] theorem Wave.incr_newE (v : Wave) (c : Nat) : (v.incr c).newE = v.newE := rfl

/-! ### Wave.decr -/

@[simp] theorem Wave.decr_live (v : Wave) (c : Nat) : (v.decr c).live = v.live := rfl
@[simp] theorem Wave.decr_exited (v : Wave) (c : Nat) : (v.decr c).exited = v.exited := rfl
@[simp] theorem Wave.decr_born (v : Wave) (c : Nat) : (v.decr c).born = v.born := rfl
@[simp] theorem Wave.decr_ended (v : Wave) (c : Nat) : (v.decr c).ended = v.ended := rfl
@[simp] theorem Wave.decr_sregs (v : Wave) (c : Nat) : (v.decr c).sregs = v.sregs := rfl
@[simp] theorem Wave.decr_masks (v : Wave) (c : Nat) : (v.decr c).masks = v.masks := rfl
@[simp] theorem Wave.decr_lc (v : Wave) (c : Nat) : (v.decr c).lc = v.lc := rfl
@[simp] theorem Wave.decr_loops (v : Wave) (c : Nat) : (v.decr c).loops = v.loops := rfl
@[simp] theorem Wave.decr_loopOrder (v : Wave) (c : Nat) : (v.decr c).loopOrder = v.loopOrder := rfl
@[simp] theorem Wave.decr_fstat (v : Wave) (c : Nat) : (v.decr c).fstat = v.fstat := rfl
@[simp] theorem Wave.decr_wstat (v : Wave) (c : Nat) : (v.decr c).wstat = v.wstat := rfl
@[simp] theorem Wave.decr_icount (v : Wave) (c : Nat) : (v.decr c).icount = v.icount := rfl
@[simp] theorem Wave.decr_cycle (v : Wave) (c : Nat) : (v.decr c).cycle = v.cycle := rfl
@[simp] theorem Wave.decr_lskip (v : Wave) (c : Nat) : (v.decr c).lskip = v.lskip := rfl
@[simp] theorem Wave.decr_elog (v : Wave) (c : Nat) : (v.decr c).elog = v.elog := rfl
@[simp] theorem Wave.decr_ctr (v : Wave) (c : Nat) : (v.decr c).ctr = setAt v.ctr c (v.counter c - 1) := rfl
@[simp] theorem Wave.decr_vregs (v : Wave) (c : Nat) : (v.decr c).vregs = v.vregs := rfl
@[simp] theorem Wave.decr_slot0 (v : Wave) (c : Nat) : (v.decr c).slot0 = v.slot0 := rfl
@[simp] theorem Wave.decr_slot1 (v : Wave) (c : Nat) : (v.decr c).slot1 = v.slot1 := rfl
@[simp] theorem Wave.decr_recs (v : Wave) (c : Nat) : (v.decr c).recs = v.recs := rfl
@[simp] theorem Wave.decr_spilled (v : Wave) (c : Nat) : (v.decr c).spilled = v.spilled := rfl
@[simp] theorem Wave.decr_nextId (v : Wave) (c : Nat) : (v.decr c).nextId = v.nextId := rfl
@[simp] theorem Wave.decr_leave (v : Wave) (c : Nat) : (v.decr c).leave = v.leave := rfl
@[simp] theorem Wave.decr_pend (v : Wave) (c : Nat) : (v.decr c).pend = v.pend := rfl
@[simp] theorem Wave.decr_switchWait (v : Wave) (c : Nat) : (v.decr c).switchWait = v.switchWait := rfl
@[simp] theorem Wave.decr_fences (v : Wave) (c : Nat) : (v.decr c).fences = v.fences := rfl
@[simp] theorem Wave.decr_bufs (v : Wave) (c : Nat) : (v.decr c).bufs = v.bufs := rfl
@[simp] theorem Wave.decr_seen (v : Wave) (c : Nat) : (v.decr c).seen = v.seen := rfl
@[simp] theorem Wave.decr_endAt (v : Wave) (c : Nat) : (v.decr c).endAt = v.endAt := rfl
@[simp] theorem Wave.decr_newF (v : Wave) (c : Nat) : (v.decr c).newF = v.newF := rfl
@[simp] theorem Wave.decr_newW (v : Wave) (c : Nat) : (v.decr c).newW = v.newW := rfl
@[simp] theorem Wave.decr_newE (v : Wave) (c : Nat) : (v.decr c).newE = v.newE := rfl

/-! ### Wave.addPend -/

@[simp] theorem Wave.addPend_live (v : Wave) (p : Pend) : (v.addPend p).live = v.live := rfl
@[simp] theorem Wave.addPend_exited (v : Wave) (p : Pend) : (v.addPend p).exited = v.exited := rfl
@[simp] theorem Wave.addPend_born (v : Wave) (p : Pend) : (v.addPend p).born = v.born := rfl
@[simp] theorem Wave.addPend_ended (v : Wave) (p : Pend) : (v.addPend p).ended = v.ended := rfl
@[simp] theorem Wave.addPend_sregs (v : Wave) (p : Pend) : (v.addPend p).sregs = v.sregs := rfl
@[simp] theorem Wave.addPend_masks (v : Wave) (p : Pend) : (v.addPend p).masks = v.masks := rfl
@[simp] theorem Wave.addPend_lc (v : Wave) (p : Pend) : (v.addPend p).lc = v.lc := rfl
@[simp] theorem Wave.addPend_loops (v : Wave) (p : Pend) : (v.addPend p).loops = v.loops := rfl
@[simp] theorem Wave.addPend_loopOrder (v : Wave) (p : Pend) : (v.addPend p).loopOrder = v.loopOrder := rfl
@[simp] theorem Wave.addPend_fstat (v : Wave) (p : Pend) : (v.addPend p).fstat = v.fstat := rfl
@[simp] theorem Wave.addPend_wstat (v : Wave) (p : Pend) : (v.addPend p).wstat = v.wstat := rfl
@[simp] theorem Wave.addPend_icount (v : Wave) (p : Pend) : (v.addPend p).icount = v.icount := rfl
@[simp] theorem Wave.addPend_cycle (v : Wave) (p : Pend) : (v.addPend p).cycle = v.cycle := rfl
@[simp] theorem Wave.addPend_lskip (v : Wave) (p : Pend) : (v.addPend p).lskip = v.lskip := rfl
@[simp] theorem Wave.addPend_elog (v : Wave) (p : Pend) : (v.addPend p).elog = v.elog := rfl
@[simp] theorem Wave.addPend_ctr (v : Wave) (p : Pend) : (v.addPend p).ctr = setAt v.ctr p.ctr (v.counter p.ctr + 1) := rfl
@[simp] theorem Wave.addPend_vregs (v : Wave) (p : Pend) : (v.addPend p).vregs = v.vregs := rfl
@[simp] theorem Wave.addPend_slot0 (v : Wave) (p : Pend) : (v.addPend p).slot0 = v.slot0 := rfl
@[simp] theorem Wave.addPend_slot1 (v : Wave) (p : Pend) : (v.addPend p).slot1 = v.slot1 := rfl
@[simp] theorem Wave.addPend_recs (v : Wave) (p : Pend) : (v.addPend p).recs = v.recs := rfl
@[simp] theorem Wave.addPend_spilled (v : Wave) (p : Pend) : (v.addPend p).spilled = v.spilled := rfl
@[simp] theorem Wave.addPend_nextId (v : Wave) (p : Pend) : (v.addPend p).nextId = v.nextId := rfl
@[simp] theorem Wave.addPend_leave (v : Wave) (p : Pend) : (v.addPend p).leave = v.leave := rfl
@[simp] theorem Wave.addPend_pend (v : Wave) (p : Pend) : (v.addPend p).pend = v.pend ++ [p] := rfl
@[simp] theorem Wave.addPend_switchWait (v : Wave) (p : Pend) : (v.addPend p).switchWait = v.switchWait := rfl
@[simp] theorem Wave.addPend_fences (v : Wave) (p : Pend) : (v.addPend p).fences = v.fences := rfl
@[simp] theorem Wave.addPend_bufs (v : Wave) (p : Pend) : (v.addPend p).bufs = v.bufs := rfl
@[simp] theorem Wave.addPend_seen (v : Wave) (p : Pend) : (v.addPend p).seen = v.seen := rfl
@[simp] theorem Wave.addPend_endAt (v : Wave) (p : Pend) : (v.addPend p).endAt = v.endAt := rfl
@[simp] theorem Wave.addPend_newF (v : Wave) (p : Pend) : (v.addPend p).newF = v.newF := rfl
@[simp] theorem Wave.addPend_newW (v : Wave) (p : Pend) : (v.addPend p).newW = v.newW := rfl
@[simp] theorem Wave.addPend_newE (v : Wave) (p : Pend) : (v.addPend p).newE = v.newE := rfl

/-! ### Wave.modPend -/

@[simp] theorem Wave.modPend_live (v : Wave) (n : Nat) (f : Pend → Pend) : (v.modPend n f).live = v.live := rfl
@[simp] theorem Wave.modPend_exited (v : Wave) (n : Nat) (f : Pend → Pend) : (v.modPend n f).exited = v.exited := rfl
@[simp] theorem Wave.modPend_born (v : Wave) (n : Nat) (f : Pend → Pend) : (v.modPend n f).born = v.born := rfl
@[simp] theorem Wave.modPend_ended (v : Wave) (n : Nat) (f : Pend → Pend) : (v.modPend n f).ended = v.ended := rfl
@[simp] theorem Wave.modPend_sregs (v : Wave) (n : Nat) (f : Pend → Pend) : (v.modPend n f).sregs = v.sregs := rfl
@[simp] theorem Wave.modPend_masks (v : Wave) (n : Nat) (f : Pend → Pend) : (v.modPend n f).masks = v.masks := rfl
@[simp] theorem Wave.modPend_lc (v : Wave) (n : Nat) (f : Pend → Pend) : (v.modPend n f).lc = v.lc := rfl
@[simp] theorem Wave.modPend_loops (v : Wave) (n : Nat) (f : Pend → Pend) : (v.modPend n f).loops = v.loops := rfl
@[simp] theorem Wave.modPend_loopOrder (v : Wave) (n : Nat) (f : Pend → Pend) : (v.modPend n f).loopOrder = v.loopOrder := rfl
@[simp] theorem Wave.modPend_fstat (v : Wave) (n : Nat) (f : Pend → Pend) : (v.modPend n f).fstat = v.fstat := rfl
@[simp] theorem Wave.modPend_wstat (v : Wave) (n : Nat) (f : Pend → Pend) : (v.modPend n f).wstat = v.wstat := rfl
@[simp] theorem Wave.modPend_icount (v : Wave) (n : Nat) (f : Pend → Pend) : (v.modPend n f).icount = v.icount := rfl
@[simp] theorem Wave.modPend_cycle (v : Wave) (n : Nat) (f : Pend → Pend) : (v.modPend n f).cycle = v.cycle := rfl
@[simp] theorem Wave.modPend_lskip (v : Wave) (n : Nat) (f : Pend → Pend) : (v.modPend n f).lskip = v.lskip := rfl
@[simp] theorem Wave.modPend_elog (v : Wave) (n : Nat) (f : Pend → Pend) : (v.modPend n f).elog = v.elog := rfl
@[simp] theorem Wave.modPend_ctr (v : Wave) (n : Nat) (f : Pend → Pend) : (v.modPend n f).ctr = v.ctr := rfl
@[simp] theorem Wave.modPend_vregs (v : Wave) (n : Nat) (f : Pend → Pend) : (v.modPend n f).vregs = v.vregs := rfl
@[simp] theorem Wave.modPend_slot0 (v : Wave) (n : Nat) (f : Pend → Pend) : (v.modPend n f).slot0 = v.slot0 := rfl
@[simp] theorem Wave.modPend_slot1 (v : Wave) (n : Nat) (f : Pend → Pend) : (v.modPend n f).slot1 = v.slot1 := rfl
@[simp] theorem Wave.modPend_recs (v : Wave) (n : Nat) (f : Pend → Pend) : (v.modPend n f).recs = v.recs := rfl
@[simp] theorem Wave.modPend_spilled (v : Wave) (n : Nat) (f : Pend → Pend) : (v.modPend n f).spilled = v.spilled := rfl
@[simp] theorem Wave.modPend_nextId (v : Wave) (n : Nat) (f : Pend → Pend) : (v.modPend n f).nextId = v.nextId := rfl
@[simp] theorem Wave.modPend_leave (v : Wave) (n : Nat) (f : Pend → Pend) : (v.modPend n f).leave = v.leave := rfl
@[simp] theorem Wave.modPend_pend (v : Wave) (n : Nat) (f : Pend → Pend) : (v.modPend n f).pend = v.pend.map fun p => if p.id = n then f p else p := rfl
@[simp] theorem Wave.modPend_switchWait (v : Wave) (n : Nat) (f : Pend → Pend) : (v.modPend n f).switchWait = v.switchWait := rfl
@[simp] theorem Wave.modPend_fences (v : Wave) (n : Nat) (f : Pend → Pend) : (v.modPend n f).fences = v.fences := rfl
@[simp] theorem Wave.modPend_bufs (v : Wave) (n : Nat) (f : Pend → Pend) : (v.modPend n f).bufs = v.bufs := rfl
@[simp] theorem Wave.modPend_seen (v : Wave) (n : Nat) (f : Pend → Pend) : (v.modPend n f).seen = v.seen := rfl
@[simp] theorem Wave.modPend_endAt (v : Wave) (n : Nat) (f : Pend → Pend) : (v.modPend n f).endAt = v.endAt := rfl
@[simp] theorem Wave.modPend_newF (v : Wave) (n : Nat) (f : Pend → Pend) : (v.modPend n f).newF = v.newF := rfl
@[simp] theorem Wave.modPend_newW (v : Wave) (n : Nat) (f : Pend → Pend) : (v.modPend n f).newW = v.newW := rfl
@[simp] theorem Wave.modPend_newE (v : Wave) (n : Nat) (f : Pend → Pend) : (v.modPend n f).newE = v.newE := rfl

/-! ### Wave.modPath -/

@[simp] theorem Wave.modPath_live (v : Wave) (n : Nat) (f : Path → Path) : (v.modPath n f).live = v.live := rfl
@[simp] theorem Wave.modPath_exited (v : Wave) (n : Nat) (f : Path → Path) : (v.modPath n f).exited = v.exited := rfl
@[simp] theorem Wave.modPath_born (v : Wave) (n : Nat) (f : Path → Path) : (v.modPath n f).born = v.born := rfl
@[simp] theorem Wave.modPath_ended (v : Wave) (n : Nat) (f : Path → Path) : (v.modPath n f).ended = v.ended := rfl
@[simp] theorem Wave.modPath_sregs (v : Wave) (n : Nat) (f : Path → Path) : (v.modPath n f).sregs = v.sregs := rfl
@[simp] theorem Wave.modPath_masks (v : Wave) (n : Nat) (f : Path → Path) : (v.modPath n f).masks = v.masks := rfl
@[simp] theorem Wave.modPath_lc (v : Wave) (n : Nat) (f : Path → Path) : (v.modPath n f).lc = v.lc := rfl
@[simp] theorem Wave.modPath_loops (v : Wave) (n : Nat) (f : Path → Path) : (v.modPath n f).loops = v.loops := rfl
@[simp] theorem Wave.modPath_loopOrder (v : Wave) (n : Nat) (f : Path → Path) : (v.modPath n f).loopOrder = v.loopOrder := rfl
@[simp] theorem Wave.modPath_fstat (v : Wave) (n : Nat) (f : Path → Path) : (v.modPath n f).fstat = v.fstat := rfl
@[simp] theorem Wave.modPath_wstat (v : Wave) (n : Nat) (f : Path → Path) : (v.modPath n f).wstat = v.wstat := rfl
@[simp] theorem Wave.modPath_icount (v : Wave) (n : Nat) (f : Path → Path) : (v.modPath n f).icount = v.icount := rfl
@[simp] theorem Wave.modPath_cycle (v : Wave) (n : Nat) (f : Path → Path) : (v.modPath n f).cycle = v.cycle := rfl
@[simp] theorem Wave.modPath_lskip (v : Wave) (n : Nat) (f : Path → Path) : (v.modPath n f).lskip = v.lskip := rfl
@[simp] theorem Wave.modPath_elog (v : Wave) (n : Nat) (f : Path → Path) : (v.modPath n f).elog = v.elog := rfl
@[simp] theorem Wave.modPath_ctr (v : Wave) (n : Nat) (f : Path → Path) : (v.modPath n f).ctr = v.ctr := rfl
@[simp] theorem Wave.modPath_vregs (v : Wave) (n : Nat) (f : Path → Path) : (v.modPath n f).vregs = v.vregs := rfl
@[simp] theorem Wave.modPath_recs (v : Wave) (n : Nat) (f : Path → Path) : (v.modPath n f).recs = v.recs := rfl
@[simp] theorem Wave.modPath_nextId (v : Wave) (n : Nat) (f : Path → Path) : (v.modPath n f).nextId = v.nextId := rfl
@[simp] theorem Wave.modPath_leave (v : Wave) (n : Nat) (f : Path → Path) : (v.modPath n f).leave = v.leave := rfl
@[simp] theorem Wave.modPath_pend (v : Wave) (n : Nat) (f : Path → Path) : (v.modPath n f).pend = v.pend := rfl
@[simp] theorem Wave.modPath_switchWait (v : Wave) (n : Nat) (f : Path → Path) : (v.modPath n f).switchWait = v.switchWait := rfl
@[simp] theorem Wave.modPath_fences (v : Wave) (n : Nat) (f : Path → Path) : (v.modPath n f).fences = v.fences := rfl
@[simp] theorem Wave.modPath_bufs (v : Wave) (n : Nat) (f : Path → Path) : (v.modPath n f).bufs = v.bufs := rfl
@[simp] theorem Wave.modPath_seen (v : Wave) (n : Nat) (f : Path → Path) : (v.modPath n f).seen = v.seen := rfl
@[simp] theorem Wave.modPath_endAt (v : Wave) (n : Nat) (f : Path → Path) : (v.modPath n f).endAt = v.endAt := rfl
@[simp] theorem Wave.modPath_newF (v : Wave) (n : Nat) (f : Path → Path) : (v.modPath n f).newF = v.newF := rfl
@[simp] theorem Wave.modPath_newW (v : Wave) (n : Nat) (f : Path → Path) : (v.modPath n f).newW = v.newW := rfl
@[simp] theorem Wave.modPath_newE (v : Wave) (n : Nat) (f : Path → Path) : (v.modPath n f).newE = v.newE := rfl

/-! ### Wave.unpark -/

@[simp] theorem Wave.unpark_live (v : Wave) (n : Nat) : (v.unpark n).live = v.live := rfl
@[simp] theorem Wave.unpark_exited (v : Wave) (n : Nat) : (v.unpark n).exited = v.exited := rfl
@[simp] theorem Wave.unpark_born (v : Wave) (n : Nat) : (v.unpark n).born = v.born := rfl
@[simp] theorem Wave.unpark_ended (v : Wave) (n : Nat) : (v.unpark n).ended = v.ended := rfl
@[simp] theorem Wave.unpark_sregs (v : Wave) (n : Nat) : (v.unpark n).sregs = v.sregs := rfl
@[simp] theorem Wave.unpark_masks (v : Wave) (n : Nat) : (v.unpark n).masks = v.masks := rfl
@[simp] theorem Wave.unpark_lc (v : Wave) (n : Nat) : (v.unpark n).lc = v.lc := rfl
@[simp] theorem Wave.unpark_loops (v : Wave) (n : Nat) : (v.unpark n).loops = v.loops := rfl
@[simp] theorem Wave.unpark_loopOrder (v : Wave) (n : Nat) : (v.unpark n).loopOrder = v.loopOrder := rfl
@[simp] theorem Wave.unpark_fstat (v : Wave) (n : Nat) : (v.unpark n).fstat = v.fstat := rfl
@[simp] theorem Wave.unpark_wstat (v : Wave) (n : Nat) : (v.unpark n).wstat = v.wstat := rfl
@[simp] theorem Wave.unpark_icount (v : Wave) (n : Nat) : (v.unpark n).icount = v.icount := rfl
@[simp] theorem Wave.unpark_cycle (v : Wave) (n : Nat) : (v.unpark n).cycle = v.cycle := rfl
@[simp] theorem Wave.unpark_lskip (v : Wave) (n : Nat) : (v.unpark n).lskip = v.lskip := rfl
@[simp] theorem Wave.unpark_elog (v : Wave) (n : Nat) : (v.unpark n).elog = v.elog := rfl
@[simp] theorem Wave.unpark_ctr (v : Wave) (n : Nat) : (v.unpark n).ctr = v.ctr := rfl
@[simp] theorem Wave.unpark_vregs (v : Wave) (n : Nat) : (v.unpark n).vregs = v.vregs := rfl
@[simp] theorem Wave.unpark_recs (v : Wave) (n : Nat) : (v.unpark n).recs = v.recs := rfl
@[simp] theorem Wave.unpark_nextId (v : Wave) (n : Nat) : (v.unpark n).nextId = v.nextId := rfl
@[simp] theorem Wave.unpark_leave (v : Wave) (n : Nat) : (v.unpark n).leave = v.leave := rfl
@[simp] theorem Wave.unpark_pend (v : Wave) (n : Nat) : (v.unpark n).pend = v.pend := rfl
@[simp] theorem Wave.unpark_switchWait (v : Wave) (n : Nat) : (v.unpark n).switchWait = v.switchWait := rfl
@[simp] theorem Wave.unpark_fences (v : Wave) (n : Nat) : (v.unpark n).fences = v.fences := rfl
@[simp] theorem Wave.unpark_bufs (v : Wave) (n : Nat) : (v.unpark n).bufs = v.bufs := rfl
@[simp] theorem Wave.unpark_seen (v : Wave) (n : Nat) : (v.unpark n).seen = v.seen := rfl
@[simp] theorem Wave.unpark_endAt (v : Wave) (n : Nat) : (v.unpark n).endAt = v.endAt := rfl
@[simp] theorem Wave.unpark_newF (v : Wave) (n : Nat) : (v.unpark n).newF = v.newF := rfl
@[simp] theorem Wave.unpark_newW (v : Wave) (n : Nat) : (v.unpark n).newW = v.newW := rfl
@[simp] theorem Wave.unpark_newE (v : Wave) (n : Nat) : (v.unpark n).newE = v.newE := rfl

/-! ### Wave.parkPath -/

@[simp] theorem Wave.parkPath_live (v : Wave) (n : Nat) (k : Park) (o : Nat) : (v.parkPath n k o).live = v.live := rfl
@[simp] theorem Wave.parkPath_exited (v : Wave) (n : Nat) (k : Park) (o : Nat) : (v.parkPath n k o).exited = v.exited := rfl
@[simp] theorem Wave.parkPath_born (v : Wave) (n : Nat) (k : Park) (o : Nat) : (v.parkPath n k o).born = v.born := rfl
@[simp] theorem Wave.parkPath_ended (v : Wave) (n : Nat) (k : Park) (o : Nat) : (v.parkPath n k o).ended = v.ended := rfl
@[simp] theorem Wave.parkPath_sregs (v : Wave) (n : Nat) (k : Park) (o : Nat) : (v.parkPath n k o).sregs = v.sregs := rfl
@[simp] theorem Wave.parkPath_masks (v : Wave) (n : Nat) (k : Park) (o : Nat) : (v.parkPath n k o).masks = v.masks := rfl
@[simp] theorem Wave.parkPath_lc (v : Wave) (n : Nat) (k : Park) (o : Nat) : (v.parkPath n k o).lc = v.lc := rfl
@[simp] theorem Wave.parkPath_loops (v : Wave) (n : Nat) (k : Park) (o : Nat) : (v.parkPath n k o).loops = v.loops := rfl
@[simp] theorem Wave.parkPath_loopOrder (v : Wave) (n : Nat) (k : Park) (o : Nat) : (v.parkPath n k o).loopOrder = v.loopOrder := rfl
@[simp] theorem Wave.parkPath_fstat (v : Wave) (n : Nat) (k : Park) (o : Nat) : (v.parkPath n k o).fstat = v.fstat := rfl
@[simp] theorem Wave.parkPath_wstat (v : Wave) (n : Nat) (k : Park) (o : Nat) : (v.parkPath n k o).wstat = v.wstat := rfl
@[simp] theorem Wave.parkPath_icount (v : Wave) (n : Nat) (k : Park) (o : Nat) : (v.parkPath n k o).icount = v.icount := rfl
@[simp] theorem Wave.parkPath_cycle (v : Wave) (n : Nat) (k : Park) (o : Nat) : (v.parkPath n k o).cycle = v.cycle := rfl
@[simp] theorem Wave.parkPath_lskip (v : Wave) (n : Nat) (k : Park) (o : Nat) : (v.parkPath n k o).lskip = v.lskip := rfl
@[simp] theorem Wave.parkPath_elog (v : Wave) (n : Nat) (k : Park) (o : Nat) : (v.parkPath n k o).elog = v.elog := rfl
@[simp] theorem Wave.parkPath_ctr (v : Wave) (n : Nat) (k : Park) (o : Nat) : (v.parkPath n k o).ctr = v.ctr := rfl
@[simp] theorem Wave.parkPath_vregs (v : Wave) (n : Nat) (k : Park) (o : Nat) : (v.parkPath n k o).vregs = v.vregs := rfl
@[simp] theorem Wave.parkPath_recs (v : Wave) (n : Nat) (k : Park) (o : Nat) : (v.parkPath n k o).recs = v.recs := rfl
@[simp] theorem Wave.parkPath_nextId (v : Wave) (n : Nat) (k : Park) (o : Nat) : (v.parkPath n k o).nextId = v.nextId := rfl
@[simp] theorem Wave.parkPath_leave (v : Wave) (n : Nat) (k : Park) (o : Nat) : (v.parkPath n k o).leave = v.leave := rfl
@[simp] theorem Wave.parkPath_pend (v : Wave) (n : Nat) (k : Park) (o : Nat) : (v.parkPath n k o).pend = v.pend := rfl
@[simp] theorem Wave.parkPath_switchWait (v : Wave) (n : Nat) (k : Park) (o : Nat) : (v.parkPath n k o).switchWait = v.switchWait := rfl
@[simp] theorem Wave.parkPath_fences (v : Wave) (n : Nat) (k : Park) (o : Nat) : (v.parkPath n k o).fences = v.fences := rfl
@[simp] theorem Wave.parkPath_bufs (v : Wave) (n : Nat) (k : Park) (o : Nat) : (v.parkPath n k o).bufs = v.bufs := rfl
@[simp] theorem Wave.parkPath_seen (v : Wave) (n : Nat) (k : Park) (o : Nat) : (v.parkPath n k o).seen = v.seen := rfl
@[simp] theorem Wave.parkPath_endAt (v : Wave) (n : Nat) (k : Park) (o : Nat) : (v.parkPath n k o).endAt = v.endAt := rfl
@[simp] theorem Wave.parkPath_newF (v : Wave) (n : Nat) (k : Park) (o : Nat) : (v.parkPath n k o).newF = v.newF := rfl
@[simp] theorem Wave.parkPath_newW (v : Wave) (n : Nat) (k : Park) (o : Nat) : (v.parkPath n k o).newW = v.newW := rfl
@[simp] theorem Wave.parkPath_newE (v : Wave) (n : Nat) (k : Park) (o : Nat) : (v.parkPath n k o).newE = v.newE := rfl

end Sys2Proof.Machine
end

