-- ==== Sys2Proof/Laws/Commit.lean ====
section
/-! SUPPORT. How a step ends: it commits what it wrote, and so keeps memory in its canonical form. One lemma for each operation that
meanings share. -/

namespace Sys2Proof.Machine

/-- Whatever next state the outcome is, it commits the step that began in `s`. -/
def Commits (s : State) (o : Host.Outcome State Fault Refusal) : Prop := ∀ u, o = .next u → ∃ t, u = s.commit t

theorem Commits.done (s t : State) : Commits s (done s t) := by
  intro u h
  exact ⟨t, by simpa [Machine.done] using h.symm⟩

theorem Commits.fault (s : State) (r : Fault) : Commits s (.fault r) := by
  intro u h
  cases h

theorem Commits.stepIf (n : String) (c : Bool) (s t : State) : Commits s (stepIf n c s t) := by
  unfold Machine.stepIf
  split
  · exact Commits.done s t
  · exact Commits.fault s _

theorem Commits.issue (x : Bool) (i : Instr) (s : State) (body : Site → State → State × Bool) : Commits s (issue x i s body) := by
  unfold Machine.issue
  split
  · exact Commits.fault s _
  · split <;> exact Commits.done s _

theorem Commits.issueWave (x : Bool) (i : Instr) (s : State) (f : Site → Wave → Wave) : Commits s (issueWave x i s f) :=
  Commits.issue x i s _

theorem Commits.branch (x : Bool) (i : Instr) (s : State) (o : BitVec 20) (taken : Site → Bool) : Commits s (branch x i s o taken) :=
  Commits.issue x i s _

theorem Commits.asMember (x : Bool) (i : Instr) (s : State) (body : Site → State → Nat → Gang → Nat → State) :
    Commits s (asMember x i s body) := Commits.issue x i s _

theorem Commits.sluice (x : Bool) (i : Instr) (s : State) (scalar : Site → Word) : Commits s (sluice x i s scalar) := by
  unfold Machine.sluice
  exact Commits.asMember x i s _

theorem Commits.mgmt (src : MgmtSrc) (r : MgmtReg) (s : State) (write : State → State) : Commits s (mgmt src r s write) :=
  Commits.done s _

theorem Commits.command (name : String) (slot : BitVec 6) (s : State) (mine : Front → Bool) (starts : Bool)
    (run : Front → Nat → State → State) : Commits s (command name slot s mine starts run) := by
  unfold Machine.command
  repeat' split
  all_goals first | exact Commits.fault s _ | exact Commits.done s _

theorem Commits.queueControl (action : Nat) (slot : BitVec 6) (s : State) (name : String) (act : State → Nat → Front → State) :
    Commits s (queueControl action slot s name act) := Commits.command name slot s _ _ _

theorem Commits.resultOn (name : String) (ctr : Nat) (w : WaveRef) (op : Nat) (s : State) : Commits s (resultOn name ctr w op s) := by
  unfold Machine.resultOn
  repeat' split
  all_goals first | exact Commits.fault s _ | exact Commits.done s _ | exact Commits.stepIf _ _ s _

/-- A commit of canonical memory is canonical, with nothing left to commit. -/
theorem State.sound_commit (s t : State) (h : mwf s.mem = true) : (s.commit t).sound = true := by
  simp [State.sound, mwf_mwriteAll _ _ h]

/-- A step that commits keeps soundness. -/
theorem Commits.sound {s u : State} {o : Host.Outcome State Fault Refusal} (hc : Commits s o) (h : s.sound = true) (ho : o = .next u) :
    u.sound = true := by
  obtain ⟨t, rfl⟩ := hc u ho
  exact State.sound_commit s t (by simpa [State.sound] using (Bool.and_eq_true _ _ ▸ h : mwf s.mem = true ∧ _).1)

/-- The memory after a commit reads, at an address that the step did not write, as before. -/
theorem State.mread_commit_other (s t : State) (a : Nat) (h : mwf s.mem = true) (ha : ∀ p ∈ t.wlog, p.1 ≠ a) :
    mread a (s.commit t).mem = mread a s.mem := by
  rw [State.commit_mem]
  exact mread_mwriteAll_other (fun p hp => ha p (List.mem_reverse.mp hp)) h

end Sys2Proof.Machine
end

