-- ==== Sys2Proof/Laws/Image.lean ====
section
/-! SUPPORT. What the images of saved teams can change: memory, other nodes' memories and the image that a team keeps; nothing where no team is
saved, and nothing at a restore where memory holds the image as the part wrote it; and that no walk of a part without poison reads a bad table entry. -/

namespace Sys2Proof.Machine

/-! ### No walk reads a bad table entry where no byte is poisoned -/

theorem poisonedAt_of_unpoisoned {s : State} (h : s.unpoisoned) (a : Nat) : s.poisonedAt a = false := by
  obtain ⟨h1, h2, h3⟩ := h
  simp [State.poisonedAt, State.frameMarked, h1, h2, h3]

theorem tableEntry_of_unpoisoned {s : State} (h : s.unpoisoned) (a : Nat) : s.tableEntry a = some (s.num a 8) := by
  simp [State.tableEntry, State.poisonedRange, poisonedAt_of_unpoisoned h]

theorem upperEntry_of_unpoisoned {s : State} (h : s.unpoisoned) (c ctx lvl va a : Nat) : (s.upperEntry c ctx lvl va a).1.isSome = true := by
  unfold State.upperEntry
  split
  · rfl
  · rw [tableEntry_of_unpoisoned h]; rfl

theorem leafResult_ne_poison (s : State) (g : BitVec 32) (k : AccKind) (va : Nat) (large : Bool) (e : Nat) : leafResult s g k va large e ≠ .poison := by
  unfold leafResult
  simp only []
  repeat' split
  all_goals simp

/-- Of two walks that read no bad entry, neither choice does. -/
theorem res_ite {c : Prop} [Decidable c] {a b : Walked} (ha : a.res ≠ .poison) (hb : b.res ≠ .poison) : (if c then a else b).res ≠ .poison := by
  split <;> assumption

theorem walk_ne_poison {s : State} (h : s.unpoisoned) (cluster ctx : Nat) (k : AccKind) (va : Nat) : (s.walk cluster ctx k va).res ≠ .poison := by
  have up := fun lvl a => Option.isSome_iff_exists.mp (upperEntry_of_unpoisoned h cluster ctx lvl va a)
  unfold State.walk
  cases s.ctx? ctx with
  | none => exact WalkRes.noConfusion
  | some c =>
    dsimp only
    obtain ⟨e0, h0⟩ := up 0 (c.ptroot + 8 * bits va 41 11)
    rw [h0]
    refine res_ite WalkRes.noConfusion (res_ite WalkRes.noConfusion (res_ite WalkRes.noConfusion ?_))
    obtain ⟨e1, h1⟩ := up 1 (dirNext e0 + 8 * bits va 32 9)
    rw [h1]
    refine res_ite WalkRes.noConfusion (res_ite WalkRes.noConfusion (res_ite WalkRes.noConfusion ?_))
    obtain ⟨e2, h2⟩ := up 2 (dirNext e1 + 8 * bits va 23 9)
    rw [h2]
    refine res_ite WalkRes.noConfusion (res_ite WalkRes.noConfusion ?_)
    rw [tableEntry_of_unpoisoned h]
    exact res_ite WalkRes.noConfusion (leafResult_ne_poison s _ k va _ _)

theorem translate_ne_poison {s : State} (h : s.unpoisoned) (ofCore : Bool) (unit ctx : Nat) (k : AccKind) (va : Nat) :
    s.translate ofCore unit ctx k va ≠ .poison := by
  unfold State.translate
  split
  · exact leafResult_ne_poison s _ k va _ _
  · exact walk_ne_poison h _ ctx k va

theorem badTable_of_unpoisoned {s : State} (h : s.unpoisoned) (ofCore : Bool) (unit ctx : Nat) (k : AccKind) (va : Word) :
    s.badTable ofCore unit ctx k va = false := by
  simp [State.badTable, translate_ne_poison h]

theorem imageTable_of_unpoisoned {s : State} (h : s.unpoisoned) (ctx : Nat) (k : AccKind) (blocks : List Nat) : s.imageTable ctx k blocks = false := by
  unfold State.imageTable
  split
  · simp [badTable_of_unpoisoned h]
  · rfl

/-! ### Images -/

/-- Only memory on its way, its poison, which does not appear, other nodes' memories and teams differ. -/
def OnlyImage (s t : State) : Prop :=
  ∃ wl mp ns ts, (s.mempoison = [] → mp = []) ∧ t = { s with wlog := wl, mempoison := mp, nodes := ns, teams := ts }

theorem OnlyImage.refl (s : State) : OnlyImage s s := ⟨_, s.mempoison, _, _, id, rfl⟩

theorem OnlyImage.trans {s t u : State} (h : OnlyImage s t) (g : OnlyImage t u) : OnlyImage s u := by
  obtain ⟨a, b, c, d, k, rfl⟩ := h
  obtain ⟨e, f, i, j, m, rfl⟩ := g
  exact ⟨e, f, i, j, fun x => m (k x), rfl⟩

theorem OnlyImage.unpoisoned {s t : State} (h : OnlyImage s t) (u : s.unpoisoned) : t.unpoisoned := by
  obtain ⟨a, b, c, d, k, rfl⟩ := h
  exact ⟨k u.1, u.2.1, u.2.2⟩

/-- Where each pass of a loop changes only images, of a state without poison, so does the loop. -/
theorem OnlyImage.foldl_of_unpoisoned {α : Type} {f : State → α → State} (h : ∀ s a, s.unpoisoned → OnlyImage s (f s a)) (l : List α) (s : State)
    (u : s.unpoisoned) : OnlyImage s (l.foldl f s) := by
  induction l generalizing s with
  | nil => exact .refl s
  | cons a l ih => exact (h s a u).trans (ih _ ((h s a u).unpoisoned u))

theorem OnlyImage.foldl {α : Type} {f : State → α → State} (h : ∀ s a, OnlyImage s (f s a)) (l : List α) (s : State) : OnlyImage s (l.foldl f s) := by
  induction l generalizing s with
  | nil => exact .refl s
  | cons a l ih => exact (h s a).trans (ih _)

theorem onlyImage_writeVA {s t : State} {ctx : Nat} {va : Word} {bs : List Byte} (h : s.writeVA ctx va bs = some t) : OnlyImage s t := by
  unfold State.writeVA at h
  simp only [] at h
  split at h
  · cases h
  · cases h
    refine OnlyImage.trans (⟨s.wlog, _, s.nodes, s.teams, fun e => by simp [e], rfl⟩ : OnlyImage s _) (OnlyImage.foldl (fun z p => ?_) _ _)
    split
    · exact ⟨_, _, z.nodes, z.teams, fun e => by simp [State.putBytes, e], rfl⟩
    · split
      · exact ⟨z.wlog, z.mempoison, _, z.teams, id, rfl⟩
      · exact .refl z
    · exact .refl z

theorem onlyImage_syncImage {s : State} (u : s.unpoisoned) (r : TeamRef) : OnlyImage s (s.syncImage r) := by
  unfold State.syncImage
  split
  · split
    · exact .refl s
    · split
      · simp only [imageTable_of_unpoisoned u, Bool.and_false, Bool.false_eq_true, if_false]
        refine OnlyImage.trans (OnlyImage.foldl (fun z p => ?_) _ s) ⟨_, _, _, _, id, rfl⟩
        cases h : z.writeVA _ _ _ with
        | none => exact .refl z
        | some t => exact onlyImage_writeVA h
      · exact .refl s
  · exact .refl s

theorem onlyImage_syncImages {s : State} (u : s.unpoisoned) : OnlyImage s s.syncImages := by
  unfold State.syncImages
  exact OnlyImage.foldl_of_unpoisoned (fun _ (e : TeamRef × Team) v => onlyImage_syncImage v e.1) _ s u

theorem syncImage_of_not_saved {s : State} {r : TeamRef} (h : ∀ k, s.team? r = some k → k.st ≠ .saved) : s.syncImage r = s := by
  unfold State.syncImage
  split
  · rename_i k l hk hl
    simp [h k hk]
  · rfl

theorem syncImages_of_none_saved {s : State} (h : ∀ e ∈ s.teams, e.2.st ≠ .saved) : s.syncImages = s := by
  unfold State.syncImages
  have : (s.teams.filter fun e => e.2.st == .saved) = [] := by
    rw [List.filter_eq_nil_iff]
    intro e he
    simpa using h e he
  rw [this, List.foldl_nil]

theorem readImage_of_stands {s : State} {r : TeamRef} (h : s.imageStands r = true) : s.readImage r = s := by
  unfold State.readImage
  split
  · simp [h]
  · rfl

end Sys2Proof.Machine
end

