-- ==== Sys2Proof/Laws/Table.lean ====
section
/-! SUPPORT. Tables and register files: a read after a write at the same key gives what was written, and a write leaves every other key
alone. -/

namespace Sys2Proof.Machine

variable {κ α : Type} [DecidableEq κ]

@[simp] theorem tget_tput_same (k : κ) (v : α) (t : Tbl κ α) : tget k (tput k v t) = some v := by
  induction t with
  | nil => simp [tput, tget]
  | cons p t ih => obtain ⟨k', v'⟩ := p; by_cases h : k' = k <;> simp [tput, tget, h, ih]

theorem tget_tput_other {k k' : κ} (h : k' ≠ k) (v : α) (t : Tbl κ α) : tget k' (tput k v t) = tget k' t := by
  induction t with
  | nil => simp [tput, tget, Ne.symm h]
  | cons p t ih =>
    obtain ⟨k₁, v₁⟩ := p
    by_cases h₁ : k₁ = k
    · subst h₁; simp [tput, tget, Ne.symm h]
    · by_cases h₂ : k₁ = k' <;> simp [tput, tget, h, h₁, h₂, ih]

@[simp] theorem tget_tmod_same (k : κ) (f : α → α) (t : Tbl κ α) : tget k (tmod k f t) = (tget k t).map f := by
  induction t with
  | nil => rfl
  | cons p t ih => obtain ⟨k', v'⟩ := p; by_cases h : k' = k <;> simp [tmod, tget, h, ih]

theorem tget_tmod_other {k k' : κ} (h : k' ≠ k) (f : α → α) (t : Tbl κ α) : tget k' (tmod k f t) = tget k' t := by
  induction t with
  | nil => rfl
  | cons p t ih =>
    obtain ⟨k₁, v₁⟩ := p
    by_cases h₁ : k₁ = k
    · subst h₁; simp [tmod, tget, Ne.symm h]
    · by_cases h₂ : k₁ = k' <;> simp [tmod, tget, h, h₁, h₂, ih]

/-- Two changes at one key are one change. -/
theorem tmod_tmod (k : κ) (f g : α → α) (t : Tbl κ α) : tmod k g (tmod k f t) = tmod k (fun x => g (f x)) t := by
  induction t with
  | nil => rfl
  | cons p t ih => obtain ⟨k', v'⟩ := p; by_cases h : k' = k <;> simp [tmod, h, ih]

/-- Putting the changed value is changing it. -/
theorem tput_of_tget {k : κ} {t : Tbl κ α} {v : α} (w : α) (h : tget k t = some v) : tput k w t = tmod k (fun _ => w) t := by
  induction t with
  | nil => simp [tget] at h
  | cons p t ih =>
    obtain ⟨k', v'⟩ := p
    by_cases h₁ : k' = k
    · simp [tput, tmod, h₁]
    · simp [tput, tmod, h₁, ih (by simpa [tget, h₁] using h)]

/-! ### Register files -/

@[simp] theorem setAt_length (l : List α) (n : Nat) (v : α) : (setAt l n v).length = l.length := by
  induction l generalizing n with
  | nil => rfl
  | cons x l ih => cases n <;> simp [setAt, ih]

theorem setAt_getD_same {l : List α} {n : Nat} (h : n < l.length) (v d : α) : (setAt l n v).getD n d = v := by
  induction l generalizing n with
  | nil => simp at h
  | cons x l ih =>
    cases n with
    | zero => rfl
    | succ n => simpa [setAt] using ih (by simpa using h)

theorem setAt_getD_other {l : List α} {n m : Nat} (h : m ≠ n) (v d : α) : (setAt l n v).getD m d = l.getD m d := by
  induction l generalizing n m with
  | nil => rfl
  | cons x l ih =>
    cases n with
    | zero => cases m with
      | zero => exact absurd rfl h
      | succ m => rfl
    | succ n => cases m with
      | zero => rfl
      | succ m => simpa [setAt] using ih (by omega)

/-- A write past the end of a file writes nothing. -/
theorem setAt_of_length_le {l : List α} {n : Nat} (h : l.length ≤ n) (v : α) : setAt l n v = l := by
  induction l generalizing n with
  | nil => rfl
  | cons x l ih =>
    cases n with
    | zero => simp at h
    | succ n => simp [setAt, ih (by simpa using h)]

end Sys2Proof.Machine
end

