-- ==== Sys2Proof/Laws/Issue.lean ====
section
/-! SUPPORT. One law for each shared operation of the issue of a word: what `site?` says, what a word that goes does, the end of a clause, a jump. -/

namespace Sys2Proof.Machine

/-! ### Paths of a wave -/

theorem Wave.find?_map_pid (l : List Path) (n m : Nat) (f : Path → Path) (hf : ∀ p, (f p).pid = p.pid) :
    (l.map fun p => if p.pid = n then f p else p).find? (fun p => decide (p.pid = m)) =
      (l.find? fun p => decide (p.pid = m)).map fun p => if p.pid = n then f p else p := by
  induction l with
  | nil => rfl
  | cons p l ih =>
    by_cases h : p.pid = m
    · subst h
      by_cases h₂ : p.pid = n <;> simp [h₂, hf]
    · have : ¬(if p.pid = n then f p else p).pid = m := by split <;> simp [hf, h]
      simp [h, this, ih]

theorem Wave.paths_modPath (v : Wave) (n : Nat) (f : Path → Path) :
    (v.modPath n f).paths = v.paths.map fun p => if p.pid = n then f p else p := by
  cases h₀ : v.slot0 <;> cases h₁ : v.slot1 <;> simp [Wave.modPath, Wave.paths, h₀, h₁]

theorem Wave.path?_modPath_same (v : Wave) (n : Nat) (f : Path → Path) (hf : ∀ p, (f p).pid = p.pid) :
    (v.modPath n f).path? n = (v.path? n).map f := by
  rw [Wave.path?, Wave.paths_modPath, Wave.find?_map_pid _ _ _ _ hf, ← Wave.path?]
  cases h : v.path? n with
  | none => rfl
  | some p => simp [show p.pid = n by simpa using List.find?_some h]

theorem Wave.path?_modPath_other (v : Wave) {n m : Nat} (hne : m ≠ n) (f : Path → Path) (hf : ∀ p, (f p).pid = p.pid) :
    (v.modPath n f).path? m = v.path? m := by
  rw [Wave.path?, Wave.paths_modPath, Wave.find?_map_pid _ _ _ _ hf, ← Wave.path?]
  cases h : v.path? m with
  | none => rfl
  | some p => simp [show p.pid = m by simpa using List.find?_some h, hne]

/-- Paths depend on the slots and the berm alone. -/
theorem Wave.path?_congr {v w : Wave} (h₀ : v.slot0 = w.slot0) (h₁ : v.slot1 = w.slot1) (h₂ : v.spilled = w.spilled) (n : Nat) :
    v.path? n = w.path? n := by simp [Wave.path?, Wave.paths, h₀, h₁, h₂]

theorem State.wave?_modWave_same (s : State) (w : WaveRef) (f : Wave → Wave) : (s.modWave w f).wave? w = (s.wave? w).map f := by
  simp [State.modWave, State.wave?]

theorem State.wave?_modWave_other (s : State) {w z : WaveRef} (h : z ≠ w) (f : Wave → Wave) : (s.modWave w f).wave? z = s.wave? z := by
  simp [State.modWave, State.wave?, tget_tmod_other h]

/-! ### The site -/

/-- What the path at its issue is. -/
theorem State.site?_spec {s : State} {k : Site} (h : s.site? = some k) :
    s.cur = some (k.w, k.pid) ∧ s.wave? k.w = some k.v ∧ s.launch? k.w.lid = some k.l ∧ k.v.path? k.pid = some k.p := by
  unfold State.site? at h
  cases hc : s.cur with
  | none => simp [hc] at h
  | some c =>
    obtain ⟨w, n⟩ := c
    simp only [hc] at h
    cases hw : s.wave? w with
    | none => simp [hw] at h
    | some v =>
      cases hl : s.launch? w.lid with
      | none => simp [hw, hl] at h
      | some l =>
        simp only [hw, hl] at h
        cases hp : v.path? n with
        | none => simp [hp] at h
        | some p =>
          simp only [hp, Option.some.injEq] at h
          subst h
          exact ⟨rfl, hw, hl, hp⟩

/-- The checks let an issuing word go. -/
theorem Issuing.go {i : Instr} {s : State} {k : Site} (h : Issuing i s k) : checkIssue i k s = .go := by
  simp [checkIssue, h.free, h.legal, h.unheld, h.settled, h.clean]

/-- A path that issues waits for no counter. -/
theorem Issuing.waits {i : Instr} {s : State} {k : Site} (h : Issuing i s k) : k.p.waits = 0 := by
  have := h.free; simp only [Site.free, Bool.and_eq_true, beq_iff_eq] at this; exact this.1.1.1.1.1.1.2

/-- What a word that issues does: its own effect on the state with the bookkeeping of every issue, then the loop-end test where the path goes on. -/
theorem issue_go {x : Bool} {i : Instr} {s : State} {k : Site} {body : Site → State → State × Bool} {r : State × Bool} (h : Issuing i s k)
    (hr : body k (s.begun x i k) = r) : issue x i s body = .next (s.commit (if r.2 then r.1.fell k else r.1)) := by
  simp [issue, h.site, h.go, hr, done]

/-- A path at the moment of a word's own effect. -/
def Path.begun (i : Instr) (p : Path) : Path := { p with age := 0, pc := p.pc + 4 * i.words }
/-- The wave at the moment of a word's own effect. -/
def Site.begunWave (k : Site) (x : Bool) (i : Instr) : Wave := Wave.modPath (k.counted x k.v) k.pid (Path.begun i)

theorem State.wave?_begun {s : State} {k : Site} (h : s.site? = some k) (x : Bool) (i : Instr) :
    (s.begun x i k).wave? k.w = some (k.begunWave x i) := by
  have hw : (s.usedCycle k).wave? k.w = some k.v := (State.site?_spec h).2.1
  rw [State.begun, State.wave?_modWave_same, hw]; rfl

theorem State.wave?_begun_other {s : State} {k : Site} {w : WaveRef} (hw : w ≠ k.w) (x : Bool) (i : Instr) :
    (s.begun x i k).wave? w = s.wave? w := by
  rw [State.begun, State.wave?_modWave_other _ hw]; rfl

theorem Site.path?_begunWave {s : State} {k : Site} (h : s.site? = some k) (x : Bool) (i : Instr) :
    (k.begunWave x i).path? k.pid = some (k.p.begun i) := by
  have h₁ : (k.counted x k.v).path? k.pid = some k.p := (State.site?_spec h).2.2.2
  rw [Site.begunWave, Wave.path?_modPath_same _ _ (Path.begun i) (fun _ => rfl), h₁]; rfl

theorem Site.path?_begunWave_other (k : Site) {n : Nat} (hn : n ≠ k.pid) (x : Bool) (i : Instr) :
    (k.begunWave x i).path? n = k.v.path? n := by
  rw [Site.begunWave, Wave.path?_modPath_other _ hn (Path.begun i) (fun _ => rfl)]; rfl

/-! ### A word's own effect -/

/-- A wave with the paths of another. -/
def Wave.withPaths (u v : Wave) : Wave := { u with slot0 := v.slot0, slot1 := v.slot1, spilled := v.spilled }

theorem Wave.path?_withPaths (u v : Wave) (n : Nat) : (u.withPaths v).path? n = v.path? n := rfl

/-- The state `r` after a word's own effect, before the end of its clause is looked at: the terms are those of `WordDone`. -/
structure Effect (x : Bool) (i : Instr) (s : State) (k : Site) (b : State) (u : Wave) (q : Path) (r : State) : Prop where
  rest : r = { b with mem := s.mem, wlog := [], cur := none, issued := s.coreOf k.w.teamRef :: s.issued, waves := r.waves, loopBufs := r.loopBufs }
  bufs : r.loopBufs = b.loopBufs
  others : ∀ w, w ≠ k.w → r.wave? w = s.wave? w
  inside : q.inClause = true
  wave : ∃ v, r.wave? k.w = some v ∧ v = (k.counted x u).withPaths v ∧ (∀ n, n ≠ k.pid → v.path? n = u.path? n) ∧
    v.path? k.pid = some { q with age := 0, pc := k.p.pc + 4 * i.words }

/-- Nothing has happened yet beside the bookkeeping. -/
theorem Effect.begun {i : Instr} {s : State} {k : Site} (h : Issuing i s k) (x : Bool) : Effect x i s k s k.v k.p (s.begun x i k) where
  rest := by
    have : s = { s with wlog := [] } := by rw [← h.committed]
    rw [State.begun, State.modWave, State.usedCycle]; rw [this]
  bufs := rfl
  others w hw := State.wave?_begun_other hw x i
  inside := h.inside
  wave := ⟨_, State.wave?_begun h.site x i, rfl, fun n hn => k.path?_begunWave_other hn x i, by rw [Site.path?_begunWave h.site]; rfl⟩

variable {x : Bool} {i : Instr} {s b r : State} {k : Site} {u : Wave} {q : Path}

/-- The wave changes, but not in its paths. -/
theorem Effect.modWave (h : Effect x i s k b u q r) (f : Wave → Wave) (u' : Wave)
    (hf : ∀ v : Wave, f ((k.counted x u).withPaths v) = (k.counted x u').withPaths v) (hu' : ∀ n, u'.path? n = u.path? n) :
    Effect x i s k b u' q (r.modWave k.w f) := by
  obtain ⟨v, hv, hu, ho, hp⟩ := h.wave
  have e : f v = (k.counted x u').withPaths v := by rw [← hf v, ← hu]
  refine ⟨?_, h.bufs, ?_, h.inside, f v, ?_, ?_, ?_, ?_⟩
  · have := h.rest; rw [State.modWave]; rw [this]
  · intro w hw; rw [State.wave?_modWave_other _ hw, h.others w hw]
  · rw [State.wave?_modWave_same, hv]; rfl
  · rw [e]; rfl
  · intro n hn; rw [e, Wave.path?_withPaths, ho n hn, hu' n]
  · rw [e, Wave.path?_withPaths, hp]

/-- The issuing path changes, but not in its pc. -/
theorem Effect.modPath (h : Effect x i s k b u q r) (g : Path → Path) (q' : Path)
    (hg : g { q with age := 0, pc := k.p.pc + 4 * i.words } = { q' with age := 0, pc := k.p.pc + 4 * i.words })
    (hid : ∀ p, (g p).pid = p.pid) (hin : q'.inClause = true) :
    Effect x i s k b u q' (r.modWave k.w fun v => v.modPath k.pid g) := by
  obtain ⟨v, hv, hu, ho, hp⟩ := h.wave
  refine ⟨?_, h.bufs, ?_, hin, v.modPath k.pid g, ?_, ?_, ?_, ?_⟩
  · have := h.rest; rw [State.modWave]; rw [this]
  · intro w hw; rw [State.wave?_modWave_other _ hw, h.others w hw]
  · rw [State.wave?_modWave_same, hv]; rfl
  · rw [hu]; rfl
  · intro n hn; rw [Wave.path?_modPath_other _ hn _ hid, ho n hn]
  · rw [Wave.path?_modPath_same _ _ _ hid, hp]; simp [hg]

/-- Something outside the waves changes. -/
theorem Effect.outside {b' r' : State} (h : Effect x i s k b u q r)
    (hb : r' = { b' with mem := s.mem, wlog := [], cur := none, issued := s.coreOf k.w.teamRef :: s.issued, waves := r.waves }) :
    Effect x i s k b' u q r' := by
  have hw : r'.waves = r.waves := by rw [hb]
  have hl : r'.loopBufs = b'.loopBufs := by rw [hb]
  refine ⟨by rw [hw, hl]; exact hb, hl, fun w hn => ?_, h.inside, ?_⟩
  · rw [State.wave?, hw]; exact h.others w hn
  · obtain ⟨v, hv, e⟩ := h.wave
    exact ⟨v, by rw [State.wave?, hw]; exact hv, e⟩

/-! ### The loop-end test (R218) -/

/-- A wave with its loop counters and records replaced. -/
def Wave.withLoops (v : Wave) (lc : List W32) (loops : List LoopRec) : Wave := { v with lc := lc, loops := loops }

theorem Wave.loopEnd_withLoops (n : Nat) (v w : Wave) (lc : List W32) (loops : List LoopRec) (e fall : Nat) :
    Wave.loopEnd n (v.withLoops lc loops) e fall = ((Wave.loopEnd n (w.withLoops lc loops) e fall).1,
      v.withLoops (Wave.loopEnd n (w.withLoops lc loops) e fall).2.lc (Wave.loopEnd n (w.withLoops lc loops) e fall).2.loops) := by
  induction n generalizing lc loops with
  | zero => rfl
  | succ n ih =>
    have hv : ∀ z : Wave, (z.withLoops lc loops).loops = loops := fun _ => rfl
    simp only [Wave.loopEnd, hv]
    cases loopAt loops e with
    | none => rfl
    | some j =>
      let lc' := setAt lc j (lc.getD j 0 - 1)
      have h₁ : ∀ z : Wave, (z.withLoops lc loops).setLc j ((z.withLoops lc loops).loopc j - 1) = z.withLoops lc' loops := fun _ => rfl
      have h₂ : ∀ z : Wave, (z.withLoops lc' loops).loopc j = lc'.getD j 0 := fun _ => rfl
      have h₃ : ∀ z : Wave, (z.withLoops lc' loops).loops = loops := fun _ => rfl
      simp only [h₁, h₂, h₃]
      split
      · rfl
      · exact ih lc' _

/-- The loop-end test changes loop counters and records alone, and looks at nothing else. -/
theorem Wave.loopEnd_spec (n : Nat) (v w : Wave) (e fall : Nat) (hl : v.lc = w.lc) (hr : v.loops = w.loops) :
    Wave.loopEnd n v e fall =
      ((Wave.loopEnd n w e fall).1, v.withLoops (Wave.loopEnd n w e fall).2.lc (Wave.loopEnd n w e fall).2.loops) := by
  have := Wave.loopEnd_withLoops n v w v.lc v.loops e fall
  have hv : v.withLoops v.lc v.loops = v := rfl
  have hw : w.withLoops v.lc v.loops = w := by rw [hl, hr]; rfl
  rwa [hv, hw] at this

/-! ### Loop buffers (R196) -/

/-- Only the wave's own shares of loop buffers and the table of buffers may differ. -/
structure BufOnly (s : State) (w : WaveRef) (t : State) : Prop where
  rest : t = { s with waves := t.waves, loopBufs := t.loopBufs }
  others : ∀ z, z ≠ w → t.wave? z = s.wave? z
  wave : ∀ v, s.wave? w = some v → ∃ o, t.wave? w = some { v with bufs := o }

theorem BufOnly.refl (s : State) (w : WaveRef) : BufOnly s w s := ⟨rfl, fun _ _ => rfl, fun v h => ⟨v.bufs, h⟩⟩

theorem BufOnly.trans {s t u : State} {w : WaveRef} (h : BufOnly s w t) (g : BufOnly t w u) : BufOnly s w u := by
  refine ⟨?_, fun z hz => (g.others z hz).trans (h.others z hz), fun v hv => ?_⟩
  · have := g.rest; rw [h.rest] at this; exact this
  · obtain ⟨o, ho⟩ := h.wave v hv
    obtain ⟨p, hp⟩ := g.wave _ ho
    exact ⟨p, hp⟩

theorem State.dropLoopBuf_spec (s : State) (w : WaveRef) (n : Nat) : BufOnly s w (s.dropLoopBuf w n) := by
  unfold State.dropLoopBuf
  cases hw : s.wave? w with
  | none => exact BufOnly.refl s w
  | some v =>
    cases hb : tget n v.bufs with
    | none => simpa [hb] using BufOnly.refl s w
    | some b =>
      simp only [hb]
      have hm : (s.modWave w fun v => { v with bufs := tdel n v.bufs }).wave? w = some { v with bufs := tdel n v.bufs } := by
        rw [State.wave?_modWave_same, hw]; rfl
      refine ⟨?_, ?_, ?_⟩
      · split <;> rfl
      · intro z hz; split
        · exact State.wave?_modWave_other s hz _
        · exact State.wave?_modWave_other s hz _
      · intro v' h
        rw [hw, Option.some.injEq] at h; subst h
        refine ⟨tdel n v.bufs, ?_⟩
        split
        · exact hm
        · exact hm

theorem State.dropLoopBufs_spec (s : State) (w : WaveRef) (ns : List Nat) : BufOnly s w (s.dropLoopBufs w ns) := by
  induction ns generalizing s with
  | nil => exact BufOnly.refl s w
  | cons n ns ih => exact (s.dropLoopBuf_spec w n).trans (ih _)

theorem State.settleLoopBuf_spec (s : State) (w : WaveRef) : BufOnly s w (s.settleLoopBuf w) := by
  unfold State.settleLoopBuf
  cases hw : s.wave? w with
  | none => exact BufOnly.refl s w
  | some v => exact s.dropLoopBufs_spec w _

theorem State.wave?_setWave_same (s : State) (w : WaveRef) (v : Wave) : (s.setWave w v).wave? w = some v := by
  simp [State.setWave, State.wave?]

theorem State.wave?_setWave_other (s : State) {w z : WaveRef} (h : z ≠ w) (v : Wave) : (s.setWave w v).wave? z = s.wave? z := by
  simp [State.setWave, State.wave?, tget_tput_other h]

/-! ### The end of a word -/

/-- The place of the issuing path has moved past the word. -/
theorem Path.fall_eq (p : Path) (n : Nat) : ({ p with age := 0, pc := n } : Path).fall = p.fall := rfl

/-- A wave at another place of its code, and the loop buffers follow: what `WordDone` says. -/
theorem Effect.placed {W : Wave} {r' t : State} {p : Path} {dest : Option Nat} (h : Effect x i s k b u q r)
    (hr : r' = { r with waves := r'.waves }) (ho : ∀ w, w ≠ k.w → r'.wave? w = r.wave? w) (hW : r'.wave? k.w = some W)
    (ht : BufOnly r' k.w t)
    (e : ∀ o, ({ W with bufs := o } : Wave) = { k.counted x u with slot0 := W.slot0, slot1 := W.slot1, spilled := W.spilled, lc := W.lc, loops := W.loops, bufs := o })
    (hoth : ∀ n, n ≠ k.pid → W.path? n = u.path? n) (hp : W.path? k.pid = some p)
    (hq : p = { q with age := 0, pc := p.pc, inClause := p.inClause })
    (hto : match dest with
      | none => p.pc = (k.next i u).1 ∧ W.lc = (k.next i u).2.lc ∧ W.loops = (k.next i u).2.loops ∧
          p.inClause = (!k.p.atLast i) ∧ k.p.atLast i = true
      | some a => p.pc = a ∧ p.inClause = false ∧ W.lc = u.lc ∧ W.loops = u.loops) :
    WordDone x i s k b u q dest (s.commit t) := by
  obtain ⟨o, hV⟩ := ht.wave W hW
  refine ⟨?_, ?_, { W with bufs := o }, p, hV, hp, e o, hoth, hq, ?_⟩
  · have h₁ := ht.rest
    have h₂ := h.rest
    rw [State.commit]; rw [h₁, hr, h₂]; simp [mwriteAll]
  · intro w hw
    exact ((ht.others w hw).trans (ho w hw)).trans (h.others w hw)
  · cases dest with
    | none => exact ⟨hto.1, hto.2.1, hto.2.2.1, hto.2.2.2.1, fun hf => by rw [hto.2.2.2.2] at hf; exact absurd hf (by decide)⟩
    | some a => exact hto

/-- The clause of a path, as its effect leaves it: the fields that the end of a clause looks at; the word is not to be replayed. -/
def SameClause (p q : Path) : Prop := q.hdr = p.hdr ∧ q.count = p.count ∧ q.park.replays = false

/-- A word that goes on completes: after its own effect, the end of the clause. -/
theorem Effect.falls (h : Effect x i s k b u q r) (hc : SameClause k.p q) :
    WordDone x i s k b u q none (s.commit (r.fell k)) := by
  obtain ⟨v, hv, hu, ho, hp⟩ := h.wave
  obtain ⟨hh, hn, hpk⟩ := hc
  have hi := h.inside
  have hfall : q.fall = k.p.fall := by simp [Path.fall, hh, hn]
  have hlc : v.lc = u.lc := by rw [hu]; rfl
  have hlo : v.loops = u.loops := by rw [hu]; rfl
  have hbuf : v.bufs = u.bufs := by rw [hu]; rfl
  have hcond : (q.inClause && (k.p.pc + 4 * i.words) == q.fall && !q.park.replays) = k.p.atLast i := by
    simp [hi, hfall, hpk, Path.atLast]
  unfold State.fell State.fallThrough
  simp only [hv, hp]
  have e : ({ q with age := 0, pc := k.p.pc + 4 * i.words } : Path).fall = q.fall := rfl
  simp only [e, hcond]
  cases hl : k.p.atLast i with
  | false =>
    simp only [Bool.false_eq_true, if_false]
    refine ⟨?_, h.others, v, _, hv, hp, ?_, ho, rfl, ?_⟩
    · have := h.rest; rw [State.commit]; rw [this]; simp [mwriteAll]
    · rw [hu]; simp [Wave.withPaths]
    · have hnx : k.next i u = (k.p.pc + 4 * i.words, u) := by simp [Site.next, hl]
      refine ⟨by rw [hnx], by rw [hnx]; exact hlc, by rw [hnx]; exact hlo, ?_, fun _ => ⟨hbuf, h.bufs⟩⟩
      show q.inClause = _
      rw [hi, hl]; rfl
  | true =>
    simp only [if_true]
    have hspec := Wave.loopEnd_spec 3 v u q.hdr q.fall hlc hlo
    have hnx : k.next i u = Wave.loopEnd 3 u q.hdr q.fall := by simp [Site.next, hl, hh, hfall]
    rw [hspec, ← hnx]
    let g : Path → Path := fun p => { p with pc := (k.next i u).1, inClause := false }
    let V := v.withLoops (k.next i u).2.lc (k.next i u).2.loops
    have hVp : ∀ n, V.path? n = v.path? n := fun n => rfl
    refine h.placed (r' := r.setWave k.w (V.modPath k.pid g)) (W := V.modPath k.pid g) rfl
      (fun w hw => State.wave?_setWave_other r hw _) (State.wave?_setWave_same _ _ _) (State.settleLoopBuf_spec _ _) ?_ ?_
      (p := g { q with age := 0, pc := k.p.pc + 4 * i.words }) ?_ rfl ?_
    · intro o; show ({ (V.modPath k.pid g) with bufs := o } : Wave) = _
      have : ∀ z : Wave, z = (k.counted x u).withPaths v → _ := fun z hz => hz
      simp only [V, Wave.withLoops, Wave.modPath]; rw [hu]; rfl
    · intro n hn
      rw [Wave.path?_modPath_other _ hn g (fun _ => rfl), hVp, ho n hn]
    · rw [Wave.path?_modPath_same _ _ g (fun _ => rfl), hVp, hp]; rfl
    · exact ⟨rfl, rfl, rfl, by simp [g, hl], hl⟩

/-- An issuing path is not parked. -/
theorem Issuing.park {i : Instr} {s : State} {k : Site} (h : Issuing i s k) : k.p.park = .none := by
  have := h.free; simp only [Site.free, Path.isParked, Bool.and_eq_true, Bool.not_eq_true', bne_eq_false_iff_eq] at this; exact this.1.1.1.1.1.1.1.2

/-- An issuing path is in its own clause. -/
theorem Issuing.sameClause {i : Instr} {s : State} {k : Site} (h : Issuing i s k) : SameClause k.p k.p :=
  ⟨rfl, rfl, by rw [h.park]; rfl⟩

/-- A word that jumps completes. -/
theorem Effect.jumps (h : Effect x i s k b u q r) (a : Nat) (hq : q.waits = 0) : WordDone x i s k b u q (some a) (s.commit (r.jump k a)) := by
  obtain ⟨v, hv, hu, ho, hp⟩ := h.wave
  let g : Path → Path := fun p => { p with pc := a, inClause := false, waits := 0 }
  have hlc : v.lc = u.lc := by rw [hu]; rfl
  have hlo : v.loops = u.loops := by rw [hu]; rfl
  have hW : (r.modWave k.w fun v => v.modPath k.pid g).wave? k.w = some (v.modPath k.pid g) := by
    rw [State.wave?_modWave_same, hv]; rfl
  have hB : BufOnly (r.modWave k.w fun v => v.modPath k.pid g) k.w (r.jump k a) := by
    exact State.settleLoopBuf_spec _ _
  refine h.placed (r' := r.modWave k.w fun v => v.modPath k.pid g) (W := v.modPath k.pid g) rfl
    (fun w hw => State.wave?_modWave_other r hw _) hW hB ?_ ?_
    (p := g { q with age := 0, pc := k.p.pc + 4 * i.words }) ?_ ?_ ?_
  · intro o; simp only [Wave.modPath]; rw [hu]; rfl
  · intro n hn
    rw [Wave.path?_modPath_other _ hn g (fun _ => rfl), ho n hn]
  · rw [Wave.path?_modPath_same _ _ g (fun _ => rfl), hp]; rfl
  · simp [g, hq]
  · exact ⟨rfl, rfl, hlc, hlo⟩

/-! ### Outstanding operations -/

theorem Effect.nextId (h : Effect x i s k b u q r) : r.nextId = b.nextId := by rw [h.rest]

/-- A word leaves an operation outstanding. -/
theorem Effect.post (h : Effect x i s k b u q r) (ctr : Nat) (dests : List Reg) (kind : PendKind) :
    Effect x i s k { b with nextId := b.nextId + 1 } (u.addPend (k.posted b ctr dests kind)) q (r.post k ctr dests kind).2 := by
  have h₁ : Effect x i s k { b with nextId := b.nextId + 1 } u q r.fresh.2 := h.outside (by
    rw [State.fresh]; simp only; rw [h.nextId, h.rest]; simp [h.bufs])
  have := h₁.modWave (fun v => v.addPend (k.posted b ctr dests kind)) (u.addPend (k.posted b ctr dests kind)) (fun v => rfl) (fun n => rfl)
  simpa [State.post, Site.posted, State.fresh, h.nextId] using this

/-! ### Words by their shape -/

/-- A word that goes on, once its effect is known. -/
theorem issue_falls {body : Site → State → State × Bool} (h : Issuing i s k) (hb : body k (s.begun x i k) = (r, true))
    (he : Effect x i s k b u q r) (hc : SameClause k.p q) : ∃ t, issue x i s body = .next t ∧ WordDone x i s k b u q none t :=
  ⟨_, issue_go h hb, he.falls hc⟩

/-- A word that jumps, once its effect is known. -/
theorem issue_jumps {body : Site → State → State × Bool} {a : Nat} (h : Issuing i s k)
    (hb : body k (s.begun x i k) = (r.jump k a, false)) (he : Effect x i s k b u q r) (hq : q.waits = 0) :
    ∃ t, issue x i s body = .next t ∧ WordDone x i s k b u q (some a) t :=
  ⟨_, issue_go h hb, he.jumps a hq⟩

/-- A word whose whole effect is on registers of its own wave. -/
theorem issueWave_done {f : Site → Wave → Wave} (h : Issuing i s k) (u : Wave)
    (hf : ∀ v : Wave, f k ((k.counted x k.v).withPaths v) = (k.counted x u).withPaths v) (hu : ∀ n, u.path? n = k.v.path? n) :
    ∃ t, issueWave x i s f = .next t ∧ WordDone x i s k s u k.p none t :=
  issue_falls h rfl ((Effect.begun h x).modWave (f k) u hf hu) h.sameClause

/-- A word whose whole effect is an outstanding operation. -/
theorem issue_posted {body : Site → State → State × Bool} (ctr : Nat) (dests : List Reg) (kind : PendKind) (h : Issuing i s k)
    (hb : body k (s.begun x i k) = (((s.begun x i k).post k ctr dests kind).2, true)) :
    ∃ t, issue x i s body = .next t ∧
      WordDone x i s k { s with nextId := s.nextId + 1 } (k.v.addPend (k.posted s ctr dests kind)) k.p none t :=
  issue_falls h hb ((Effect.begun h x).post ctr dests kind) h.sameClause

end Sys2Proof.Machine
end

