-- ==== Sys2Proof/Laws/PerInstr.lean ====
section
/-! SUPPORT. Facts about every instruction as syntax: an instruction word has exactly as many words as its form says. -/

namespace Sys2Proof.Laws.Words

/-- The encoder writes as many words as the form has, and none for a step that is no instruction word. -/
def Statement (i : Instr) : Prop := (encodeWords i).length = if i.isWord then i.words else 0

theorem nop (x : Bool) : Statement (.nop x) := rfl
theorem jmp (x : Bool) (o : BitVec 20) : Statement (.jmp x o) := rfl
theorem bany (x : Bool) (k : BitVec 3) (o : BitVec 20) : Statement (.bany x k o) := rfl
theorem ball (x : Bool) (k : BitVec 3) (o : BitVec 20) : Statement (.ball x k o) := rfl
theorem bnone (x : Bool) (k : BitVec 3) (o : BitVec 20) : Statement (.bnone x k o) := rfl
theorem split (x : Bool) (k : BitVec 3) (o : BitVec 20) : Statement (.split x k o) := rfl
theorem join (x : Bool) : Statement (.join x) := rfl
theorem call (x : Bool) (d : BitVec 6) (o : BitVec 18) : Statement (.call x d o) := rfl
theorem jind (x : Bool) (a : BitVec 6) : Statement (.jind x a) := rfl
theorem loop (x : Bool) (n : BitVec 2) (o : BitVec 20) : Statement (.loop x n o) := rfl
theorem loopx (x : Bool) (n : BitVec 2) (o : BitVec 20) : Statement (.loopx x n o) := rfl
theorem exit (x : Bool) : Statement (.exit x) := rfl
theorem bar (x : Bool) (n : BitVec 4) : Statement (.bar x n) := rfl
theorem barCohort (x : Bool) (n : BitVec 4) : Statement (.barCohort x n) := rfl
theorem tkwait (x : Bool) (n : BitVec 3) : Statement (.tkwait x n) := rfl
theorem tktake (x : Bool) (n : BitVec 3) : Statement (.tktake x n) := rfl
theorem wait (x : Bool) (w : BitVec 8) : Statement (.wait x w) := rfl
theorem sadd (x : Bool) (d : BitVec 6) (a : BitVec 6) (b : BitVec 6) : Statement (.sadd x d a b) := rfl
theorem ssub (x : Bool) (d : BitVec 6) (a : BitVec 6) (b : BitVec 6) : Statement (.ssub x d a b) := rfl
theorem sand (x : Bool) (d : BitVec 6) (a : BitVec 6) (b : BitVec 6) : Statement (.sand x d a b) := rfl
theorem sor (x : Bool) (d : BitVec 6) (a : BitVec 6) (b : BitVec 6) : Statement (.sor x d a b) := rfl
theorem sxor (x : Bool) (d : BitVec 6) (a : BitVec 6) (b : BitVec 6) : Statement (.sxor x d a b) := rfl
theorem sshl (x : Bool) (d : BitVec 6) (a : BitVec 6) (b : BitVec 6) : Statement (.sshl x d a b) := rfl
theorem sshr (x : Bool) (d : BitVec 6) (a : BitVec 6) (b : BitVec 6) : Statement (.sshr x d a b) := rfl
theorem ssra (x : Bool) (d : BitVec 6) (a : BitVec 6) (b : BitVec 6) : Statement (.ssra x d a b) := rfl
theorem smul (x : Bool) (d : BitVec 6) (a : BitVec 6) (b : BitVec 6) : Statement (.smul x d a b) := rfl
theorem smulh (x : Bool) (d : BitVec 6) (a : BitVec 6) (b : BitVec 6) : Statement (.smulh x d a b) := rfl
theorem smulhw (x : Bool) (d : BitVec 6) (a : BitVec 6) (b : BitVec 6) : Statement (.smulhw x d a b) := rfl
theorem sdiv (x : Bool) (d : BitVec 6) (a : BitVec 6) (b : BitVec 6) : Statement (.sdiv x d a b) := rfl
theorem sdivw (x : Bool) (d : BitVec 6) (a : BitVec 6) (b : BitVec 6) : Statement (.sdivw x d a b) := rfl
theorem srem (x : Bool) (d : BitVec 6) (a : BitVec 6) (b : BitVec 6) : Statement (.srem x d a b) := rfl
theorem sremw (x : Bool) (d : BitVec 6) (a : BitVec 6) (b : BitVec 6) : Statement (.sremw x d a b) := rfl
theorem saddi (x : Bool) (d : BitVec 6) (a : BitVec 6) (i : BitVec 12) : Statement (.saddi x d a i) := rfl
theorem sandi (x : Bool) (d : BitVec 6) (a : BitVec 6) (i : BitVec 12) : Statement (.sandi x d a i) := rfl
theorem sori (x : Bool) (d : BitVec 6) (a : BitVec 6) (i : BitVec 12) : Statement (.sori x d a i) := rfl
theorem sxori (x : Bool) (d : BitVec 6) (a : BitVec 6) (i : BitVec 12) : Statement (.sxori x d a i) := rfl
theorem sshli (x : Bool) (d : BitVec 6) (a : BitVec 6) (c : BitVec 6) : Statement (.sshli x d a c) := rfl
theorem sshri (x : Bool) (d : BitVec 6) (a : BitVec 6) (c : BitVec 6) : Statement (.sshri x d a c) := rfl
theorem ssrai (x : Bool) (d : BitVec 6) (a : BitVec 6) (c : BitVec 6) : Statement (.ssrai x d a c) := rfl
theorem smovi (x : Bool) (d : BitVec 6) (i : BitVec 18) : Statement (.smovi x d i) := rfl
theorem smovl (x : Bool) (d : BitVec 6) (i : BitVec 32) : Statement (.smovl x d i) := rfl
theorem smovh (x : Bool) (d : BitVec 6) (i : BitVec 32) : Statement (.smovh x d i) := rfl
theorem scmp (x : Bool) (f : BitVec 3) (d : BitVec 6) (a : BitVec 6) (b : BitVec 6) : Statement (.scmp x f d a b) := rfl
theorem smin (x : Bool) (d : BitVec 6) (a : BitVec 6) (b : BitVec 6) : Statement (.smin x d a b) := rfl
theorem smax (x : Bool) (d : BitVec 6) (a : BitVec 6) (b : BitVec 6) : Statement (.smax x d a b) := rfl
theorem sminw (x : Bool) (d : BitVec 6) (a : BitVec 6) (b : BitVec 6) : Statement (.sminw x d a b) := rfl
theorem smaxw (x : Bool) (d : BitVec 6) (a : BitVec 6) (b : BitVec 6) : Statement (.smaxw x d a b) := rfl
theorem spopc (x : Bool) (d : BitVec 6) (a : BitVec 6) : Statement (.spopc x d a) := rfl
theorem sclz (x : Bool) (d : BitVec 6) (a : BitVec 6) : Statement (.sclz x d a) := rfl
theorem sctz (x : Bool) (d : BitVec 6) (a : BitVec 6) : Statement (.sctz x d a) := rfl
theorem sld (x : Bool) (d : BitVec 6) (a : BitVec 6) (i : BitVec 12) : Statement (.sld x d a i) := rfl
theorem sst (x : Bool) (d : BitVec 6) (a : BitVec 6) (i : BitVec 12) : Statement (.sst x d a i) := rfl
theorem sldk (x : Bool) (d : BitVec 6) (i : BitVec 12) : Statement (.sldk x d i) := rfl
theorem rdsr (x : Bool) (d : BitVec 6) (i : BitVec 12) : Statement (.rdsr x d i) := rfl
theorem wrsr (x : Bool) (a : BitVec 6) (i : BitVec 12) : Statement (.wrsr x a i) := rfl
theorem mand (x : Bool) (d : BitVec 3) (a : BitVec 3) (b : BitVec 3) : Statement (.mand x d a b) := rfl
theorem mor (x : Bool) (d : BitVec 3) (a : BitVec 3) (b : BitVec 3) : Statement (.mor x d a b) := rfl
theorem mxor (x : Bool) (d : BitVec 3) (a : BitVec 3) (b : BitVec 3) : Statement (.mxor x d a b) := rfl
theorem mandn (x : Bool) (d : BitVec 3) (a : BitVec 3) (b : BitVec 3) : Statement (.mandn x d a b) := rfl
theorem mnot (x : Bool) (d : BitVec 3) (a : BitVec 3) : Statement (.mnot x d a) := rfl
theorem mmov (x : Bool) (d : BitVec 3) (a : BitVec 3) : Statement (.mmov x d a) := rfl
theorem mfroms (x : Bool) (d : BitVec 3) (r : BitVec 6) : Statement (.mfroms x d r) := rfl
theorem mtos (x : Bool) (a : BitVec 3) (r : BitVec 6) : Statement (.mtos x a r) := rfl
theorem mpopc (x : Bool) (a : BitVec 3) (r : BitVec 6) : Statement (.mpopc x a r) := rfl
theorem mffs (x : Bool) (a : BitVec 3) (r : BitVec 6) : Statement (.mffs x a r) := rfl
theorem mfls (x : Bool) (a : BitVec 3) (r : BitVec 6) : Statement (.mfls x a r) := rfl
theorem vadd (x : Bool) (t : BitVec 3) (d : BitVec 7) (a : BitVec 7) (b : BitVec 7) : Statement (.vadd x t d a b) := rfl
theorem vsub (x : Bool) (t : BitVec 3) (d : BitVec 7) (a : BitVec 7) (b : BitVec 7) : Statement (.vsub x t d a b) := rfl
theorem vmul (x : Bool) (t : BitVec 3) (d : BitVec 7) (a : BitVec 7) (b : BitVec 7) : Statement (.vmul x t d a b) := rfl
theorem vmulh (x : Bool) (t : BitVec 3) (d : BitVec 7) (a : BitVec 7) (b : BitVec 7) : Statement (.vmulh x t d a b) := rfl
theorem vmulhw (x : Bool) (t : BitVec 3) (d : BitVec 7) (a : BitVec 7) (b : BitVec 7) : Statement (.vmulhw x t d a b) := rfl
theorem vfma (x : Bool) (t : BitVec 3) (d : BitVec 7) (a : BitVec 7) (b : BitVec 7) : Statement (.vfma x t d a b) := rfl
theorem vfnma (x : Bool) (t : BitVec 3) (d : BitVec 7) (a : BitVec 7) (b : BitVec 7) : Statement (.vfnma x t d a b) := rfl
theorem vmin (x : Bool) (t : BitVec 3) (d : BitVec 7) (a : BitVec 7) (b : BitVec 7) : Statement (.vmin x t d a b) := rfl
theorem vmax (x : Bool) (t : BitVec 3) (d : BitVec 7) (a : BitVec 7) (b : BitVec 7) : Statement (.vmax x t d a b) := rfl
theorem vminw (x : Bool) (t : BitVec 3) (d : BitVec 7) (a : BitVec 7) (b : BitVec 7) : Statement (.vminw x t d a b) := rfl
theorem vmaxw (x : Bool) (t : BitVec 3) (d : BitVec 7) (a : BitVec 7) (b : BitVec 7) : Statement (.vmaxw x t d a b) := rfl
theorem vabs (x : Bool) (t : BitVec 3) (d : BitVec 7) (a : BitVec 7) : Statement (.vabs x t d a) := rfl
theorem vneg (x : Bool) (t : BitVec 3) (d : BitVec 7) (a : BitVec 7) : Statement (.vneg x t d a) := rfl
theorem vfmal (x : Bool) (t : BitVec 3) (d a b c : BitVec 7) : Statement (.vfmal x t d a b c) := rfl
theorem vmovl (x : Bool) (t : BitVec 3) (d : BitVec 7) (i : BitVec 32) : Statement (.vmovl x t d i) := rfl
theorem vaddsat (x : Bool) (t : BitVec 3) (d : BitVec 7) (a : BitVec 7) (b : BitVec 7) : Statement (.vaddsat x t d a b) := rfl
theorem vand (x : Bool) (t : BitVec 3) (d : BitVec 7) (a : BitVec 7) (b : BitVec 7) : Statement (.vand x t d a b) := rfl
theorem vor (x : Bool) (t : BitVec 3) (d : BitVec 7) (a : BitVec 7) (b : BitVec 7) : Statement (.vor x t d a b) := rfl
theorem vxor (x : Bool) (t : BitVec 3) (d : BitVec 7) (a : BitVec 7) (b : BitVec 7) : Statement (.vxor x t d a b) := rfl
theorem vnot (x : Bool) (t : BitVec 3) (d : BitVec 7) (a : BitVec 7) : Statement (.vnot x t d a) := rfl
theorem vshl (x : Bool) (t : BitVec 3) (d : BitVec 7) (a : BitVec 7) (b : BitVec 7) : Statement (.vshl x t d a b) := rfl
theorem vshr (x : Bool) (t : BitVec 3) (d : BitVec 7) (a : BitVec 7) (b : BitVec 7) : Statement (.vshr x t d a b) := rfl
theorem vsra (x : Bool) (t : BitVec 3) (d : BitVec 7) (a : BitVec 7) (b : BitVec 7) : Statement (.vsra x t d a b) := rfl
theorem vpopc (x : Bool) (t : BitVec 3) (d : BitVec 7) (a : BitVec 7) : Statement (.vpopc x t d a) := rfl
theorem vclz (x : Bool) (t : BitVec 3) (d : BitVec 7) (a : BitVec 7) : Statement (.vclz x t d a) := rfl
theorem vcmp (x : Bool) (t : BitVec 3) (c : BitVec 4) (m : BitVec 3) (a : BitVec 7) (b : BitVec 7) : Statement (.vcmp x t c m a b) := rfl
theorem vceq (x : Bool) (t : BitVec 3) (d : BitVec 7) (a : BitVec 7) (b : BitVec 7) : Statement (.vceq x t d a b) := rfl
theorem vclt (x : Bool) (t : BitVec 3) (d : BitVec 7) (a : BitVec 7) (b : BitVec 7) : Statement (.vclt x t d a b) := rfl
theorem vcle (x : Bool) (t : BitVec 3) (d : BitVec 7) (a : BitVec 7) (b : BitVec 7) : Statement (.vcle x t d a b) := rfl
theorem vcltw (x : Bool) (t : BitVec 3) (d : BitVec 7) (a : BitVec 7) (b : BitVec 7) : Statement (.vcltw x t d a b) := rfl
theorem vsel (x : Bool) (t : BitVec 3) (d : BitVec 7) (a : BitVec 7) (b : BitVec 7) : Statement (.vsel x t d a b) := rfl
theorem vmov (x : Bool) (t : BitVec 3) (d : BitVec 7) (a : BitVec 7) : Statement (.vmov x t d a) := rfl
theorem vdiv (x : Bool) (t : BitVec 3) (d : BitVec 7) (a : BitVec 7) (b : BitVec 7) : Statement (.vdiv x t d a b) := rfl
theorem vsqrt (x : Bool) (t : BitVec 3) (d : BitVec 7) (a : BitVec 7) : Statement (.vsqrt x t d a) := rfl
theorem vsfu (x : Bool) (t : BitVec 3) (d : BitVec 7) (a : BitVec 7) (f : BitVec 7) : Statement (.vsfu x t d a f) := rfl
theorem vround (x : Bool) (t : BitVec 3) (d : BitVec 7) (a : BitVec 7) (m : BitVec 3) : Statement (.vround x t d a m) := rfl
theorem vcvt (x : Bool) (d a : BitVec 7) (h : BitVec 3) (dfmt sfmt : BitVec 4) : Statement (.vcvt x d a h dfmt sfmt) := rfl
theorem vqnt (x : Bool) (d a b : BitVec 7) (h : BitVec 3) (k : BitVec 1) (qfmt sfmt : BitVec 4) : Statement (.vqnt x d a b h k qfmt sfmt) := rfl
theorem vdqnt (x : Bool) (t : BitVec 3) (d : BitVec 7) (a : BitVec 7) (h : BitVec 3) (k : BitVec 1) (q : BitVec 3) : Statement (.vdqnt x t d a h k q) := rfl
theorem vamax (x : Bool) (t : BitVec 3) (d : BitVec 7) (a : BitVec 7) (l : BitVec 1) (q : BitVec 3) : Statement (.vamax x t d a l q) := rfl
theorem vshf (x : Bool) (t : BitVec 3) (d : BitVec 7) (a : BitVec 7) (b : BitVec 7) : Statement (.vshf x t d a b) := rfl
theorem vbcst (x : Bool) (d : BitVec 7) (a : BitVec 7) (i : BitVec 7) : Statement (.vbcst x d a i) := rfl
theorem vext (x : Bool) (t : BitVec 3) (d : BitVec 7) (a : BitVec 7) (i : BitVec 7) : Statement (.vext x t d a i) := rfl
theorem vins (x : Bool) (t : BitVec 3) (d : BitVec 7) (a : BitVec 7) (i : BitVec 7) : Statement (.vins x t d a i) := rfl
theorem vmovm (x : Bool) (d : BitVec 7) (a : BitVec 7) (m : BitVec 3) : Statement (.vmovm x d a m) := rfl
theorem vidx (x : Bool) (t : BitVec 3) (d : BitVec 7) (a : BitVec 7) (i : BitVec 7) : Statement (.vidx x t d a i) := rfl
theorem vred (x : Bool) (t : BitVec 3) (d : BitVec 7) (a : BitVec 7) (o : BitVec 7) : Statement (.vred x t d a o) := rfl
theorem vscan (x : Bool) (t : BitVec 3) (d : BitVec 7) (a : BitVec 7) (o : BitVec 7) : Statement (.vscan x t d a o) := rfl
theorem vld (x : Bool) (t : BitVec 3) (d : BitVec 7) (a : BitVec 7) (b : BitVec 7) : Statement (.vld x t d a b) := rfl
theorem vst (x : Bool) (t : BitVec 3) (d : BitVec 7) (a : BitVec 7) (b : BitVec 7) : Statement (.vst x t d a b) := rfl
theorem vldsp (x : Bool) (t : BitVec 3) (d : BitVec 7) (a : BitVec 7) (b : BitVec 7) : Statement (.vldsp x t d a b) := rfl
theorem vstsp (x : Bool) (t : BitVec 3) (d : BitVec 7) (a : BitVec 7) (b : BitVec 7) : Statement (.vstsp x t d a b) := rfl
theorem vldacq (x : Bool) (t : BitVec 3) (d a b : BitVec 7) (scope : BitVec 3) (rem sp : BitVec 1) : Statement (.vldacq x t d a b scope rem sp) := rfl
theorem vstrel (x : Bool) (t : BitVec 3) (d a b : BitVec 7) (scope : BitVec 3) (sp : BitVec 1) : Statement (.vstrel x t d a b scope sp) := rfl
theorem fence (x : Bool) (r : BitVec 1) (s : BitVec 3) (k : BitVec 2) : Statement (.fence x r s k) := rfl
theorem vprf (x : Bool) (h : BitVec 7) (a : BitVec 7) (b : BitVec 7) : Statement (.vprf x h a b) := rfl
theorem vatom (x : Bool) (t : BitVec 3) (d a b : BitVec 7) (op : BitVec 4) (ord : BitVec 2) (scope : BitVec 3) (rem sp det : BitVec 1) : Statement (.vatom x t d a b op ord scope rem sp det) := rfl
theorem spclr (x : Bool) (a : BitVec 6) (n : BitVec 10) : Statement (.spclr x a n) := rfl
theorem spclrFill (x : Bool) (a : BitVec 6) (n : BitVec 10) : Statement (.spclrFill x a n) := rfl
theorem spwait (x : Bool) (a : BitVec 6) (n : BitVec 10) : Statement (.spwait x a n) := rfl
theorem starm (x : Bool) (a : BitVec 6) (b : BitVec 6) (c : BitVec 6) (p : BitVec 3) : Statement (.starm x a b c p) := rfl
theorem stwait (x : Bool) (d : BitVec 6) (a : BitVec 6) : Statement (.stwait x d a) := rfl
theorem tlwait (x : Bool) (c : BitVec 4) (a : BitVec 6) : Statement (.tlwait x c a) := rfl
theorem tlrd (x : Bool) (d : BitVec 6) (c : BitVec 4) : Statement (.tlrd x d c) := rfl
theorem cpy (x : Bool) (n : BitVec 3) (a : BitVec 6) : Statement (.cpy x n a) := rfl
theorem mgang (x : Bool) (n : BitVec 3) (k : BitVec 6) : Statement (.mgang x n k) := rfl
theorem mgangLeave (x : Bool) : Statement (.mgangLeave x) := rfl
theorem mres (x : Bool) (n : BitVec 3) (a : BitVec 6) : Statement (.mres x n a) := rfl
theorem mrel (x : Bool) (n : BitVec 3) : Statement (.mrel x n) := rfl
theorem mma (x : Bool) (d : BitVec 3) (a : BitVec 3) (b : BitVec 3) : Statement (.mma x d a b) := rfl
theorem mzero (x : Bool) (d : BitVec 3) : Statement (.mzero x d) := rfl
theorem mrd (x : Bool) (d : BitVec 7) (s : BitVec 3) (i : BitVec 6) : Statement (.mrd x d s i) := rfl
theorem mwr (x : Bool) (d : BitVec 3) (s : BitVec 7) (i : BitVec 6) : Statement (.mwr x d s i) := rfl
theorem mst (x : Bool) (c : BitVec 3) (a : BitVec 6) : Statement (.mst x c a) := rfl
theorem mld (x : Bool) (n : BitVec 3) (k : BitVec 32) : Statement (.mld x n k) := rfl
theorem rstat (x : Bool) (d : BitVec 7) (s : BitVec 3) : Statement (.rstat x d s) := rfl
theorem gateSig (x : Bool) (d : BitVec 3) (a : BitVec 3) : Statement (.gateSig x d a) := rfl
theorem gateTanh (x : Bool) (d : BitVec 3) (a : BitVec 3) : Statement (.gateTanh x d a) := rfl
theorem gateMul (x : Bool) (d : BitVec 3) (a : BitVec 3) (b : BitVec 3) : Statement (.gateMul x d a b) := rfl
theorem gateAdd (x : Bool) (d : BitVec 3) (a : BitVec 3) (b : BitVec 3) : Statement (.gateAdd x d a b) := rfl
theorem gateLerp (x : Bool) (d : BitVec 3) (a : BitVec 3) (b : BitVec 3) : Statement (.gateLerp x d a b) := rfl
theorem gateScale (x : Bool) (d : BitVec 3) (a : BitVec 3) (s : BitVec 6) : Statement (.gateScale x d a s) := rfl
theorem batonTake (x : Bool) : Statement (.batonTake x) := rfl
theorem batonPass (x : Bool) : Statement (.batonPass x) := rfl
theorem batonQuery (x : Bool) (d : BitVec 6) : Statement (.batonQuery x d) := rfl
theorem leave (x : Bool) (n : BitVec 2) (a : BitVec 7) (c : BitVec 4) : Statement (.leave x n a c) := rfl
theorem leaveClr (x : Bool) (n : BitVec 2) : Statement (.leaveClr x n) := rfl
theorem ecl (x : Bool) (m : BitVec 3) (d : BitVec 7) (k : BitVec 7) (t : BitVec 3) (c : BitVec 3) : Statement (.ecl x m d k t c) := rfl
theorem eclKeep (x : Bool) (m : BitVec 3) (d : BitVec 7) (k : BitVec 7) (t : BitVec 3) (c : BitVec 3) : Statement (.eclKeep x m d k t c) := rfl
theorem edrop (x : Bool) (t : BitVec 6) : Statement (.edrop x t) := rfl
theorem equery (x : Bool) (m : BitVec 3) (k : BitVec 7) (t : BitVec 3) : Statement (.equery x m k t) := rfl
theorem trap (x : Bool) (c : BitVec 16) : Statement (.trap x c) := rfl
theorem brk (x : Bool) (c : BitVec 16) : Statement (.brk x c) := rfl
theorem tnow (x : Bool) (d : BitVec 6) : Statement (.tnow x d) := rfl
theorem cyc (x : Bool) (d : BitVec 6) : Statement (.cyc x d) := rfl
theorem icount (x : Bool) (d : BitVec 6) : Statement (.icount x d) := rfl
theorem evsig (x : Bool) (e : BitVec 6) : Statement (.evsig x e) := rfl
theorem evwait (x : Bool) (d : BitVec 6) (e : BitVec 6) (n : BitVec 6) : Statement (.evwait x d e n) := rfl
theorem hwait (x : Bool) (d : BitVec 6) (h : BitVec 6) : Statement (.hwait x d h) := rfl
theorem hpoll (x : Bool) (d : BitVec 6) (h : BitVec 6) : Statement (.hpoll x d h) := rfl
theorem yield (x : Bool) : Statement (.yield x) := rfl
theorem evtime (x : Bool) (d e t : BitVec 6) (after : BitVec 1) : Statement (.evtime x d e t after) := rfl
theorem osend (x : Bool) (d n p : BitVec 6) (len : BitVec 11) : Statement (.osend x d n p len) := rfl
theorem osendAt (x : Bool) (d n p t : BitVec 6) (len : BitVec 11) : Statement (.osendAt x d n p t len) := rfl
theorem oatom (x : Bool) (d a b s : BitVec 6) (op : BitVec 4) (wide : BitVec 1) : Statement (.oatom x d a b s op wide) := rfl
theorem oatomAt (x : Bool) (d a b s t : BitVec 6) (op : BitVec 4) (wide : BitVec 1) : Statement (.oatomAt x d a b s t op wide) := rfl
theorem invk (x : Bool) (d n a : BitVec 6) : Statement (.invk x d n a) := rfl
theorem invh (x : Bool) (d h a : BitVec 6) : Statement (.invh x d h a) := rfl
theorem bermSwap (w : WaveRef) : Statement (.bermSwap w) := rfl
theorem yieldWindowEnd (w : WaveRef) (slot : Bool) : Statement (.yieldWindowEnd w slot) := rfl
theorem parkTimeout (p : ParkRef) : Statement (.parkTimeout p) := rfl
theorem barrierPhaseComplete (b : BarRef) : Statement (.barrierPhaseComplete b) := rfl
theorem ticketAdvance (lid : Nat) (k : BitVec 3) : Statement (.ticketAdvance lid k) := rfl
theorem loadReturn (w : WaveRef) (op : Nat) : Statement (.loadReturn w op) := rfl
theorem storeAck (sid : Nat) : Statement (.storeAck sid) := rfl
theorem sfuResult (w : WaveRef) (op : Nat) : Statement (.sfuResult w op) := rfl
theorem xlResult (w : WaveRef) (op : Nat) : Statement (.xlResult w op) := rfl
theorem ecComplete (w : WaveRef) (op : Nat) : Statement (.ecComplete w op) := rfl
theorem fbComplete (w : WaveRef) (op : Nat) : Statement (.fbComplete w op) := rfl
theorem launchRetire (lid : Nat) : Statement (.launchRetire lid) := rfl
theorem teamSeal (t : TeamRef) : Statement (.teamSeal t) := rfl
theorem prologueRepeat (pid : Nat) : Statement (.prologueRepeat pid) := rfl
theorem teamPlace (tenant : BitVec 4) (cores : List Nat) : Statement (.teamPlace tenant cores) := rfl
theorem waveBirth (w : WaveRef) : Statement (.waveBirth w) := rfl
theorem detOpEffect (d : DetRef) : Statement (.detOpEffect d) := rfl
theorem copyAccept (cid : Nat) : Statement (.copyAccept cid) := rfl
theorem copyArrival (cid : Nat) (piece : Nat) : Statement (.copyArrival cid piece) := rfl
theorem engineOpComplete (quad : Nat) (report : EngineReport) : Statement (.engineOpComplete quad report) := rfl
theorem faultEntryWrite (tenant : BitVec 4) : Statement (.faultEntryWrite tenant) := rfl
theorem killRecordWrite (lid : Nat) : Statement (.killRecordWrite lid) := rfl
theorem wheelFire (eid : Nat) : Statement (.wheelFire eid) := rfl
theorem spillwayRelease (tenant : BitVec 4) (wid : Nat) : Statement (.spillwayRelease tenant wid) := rfl
theorem eventWaitSlotRelease (slot : BitVec 6) : Statement (.eventWaitSlotRelease slot) := rfl
theorem tailWrite (src : BitVec 16) (q : BitVec 12) (value : BitVec 64) : Statement (.tailWrite src q value) := rfl
theorem queueSave (slot : BitVec 6) : Statement (.queueSave slot) := rfl
theorem queueLoadComplete (slot : BitVec 6) : Statement (.queueLoadComplete slot) := rfl
theorem launch (slot : BitVec 6) : Statement (.launch slot) := rfl
theorem launchIndirect (slot : BitVec 6) : Statement (.launchIndirect slot) := rfl
theorem eventSignal (slot : BitVec 6) : Statement (.eventSignal slot) := rfl
theorem eventWait (slot : BitVec 6) : Statement (.eventWait slot) := rfl
theorem eventAt (slot : BitVec 6) : Statement (.eventAt slot) := rfl
theorem copy (slot : BitVec 6) : Statement (.copy slot) := rfl
theorem estateDrop (slot : BitVec 6) : Statement (.estateDrop slot) := rfl
theorem invoke (slot : BitVec 6) : Statement (.invoke slot) := rfl
theorem complete (slot : BitVec 6) : Statement (.complete slot) := rfl
theorem preempt (slot : BitVec 6) : Statement (.preempt slot) := rfl
theorem faultResolved (slot : BitVec 6) : Statement (.faultResolved slot) := rfl
theorem faultResolvedKill (slot : BitVec 6) : Statement (.faultResolvedKill slot) := rfl
theorem faultResolvedInvalidate (slot : BitVec 6) : Statement (.faultResolvedInvalidate slot) := rfl
theorem queueControlHalt (slot : BitVec 6) : Statement (.queueControlHalt slot) := rfl
theorem queueControlResume (slot : BitVec 6) : Statement (.queueControlResume slot) := rfl
theorem queueControlDiscard (slot : BitVec 6) : Statement (.queueControlDiscard slot) := rfl
theorem queueControlSetPrio (slot : BitVec 6) : Statement (.queueControlSetPrio slot) := rfl
theorem teamSaveComplete (t : TeamRef) : Statement (.teamSaveComplete t) := rfl
theorem teamRestore (ts : List TeamRef) (cores : List Nat) : Statement (.teamRestore ts cores) := rfl
theorem tenantEnable (src : MgmtSrc) (t : BitVec 4) : Statement (.tenantEnable src t) := rfl
theorem tenantReset (src : MgmtSrc) (t : BitVec 4) : Statement (.tenantReset src t) := rfl
theorem contextCreate (src : MgmtSrc) (c : BitVec 10) : Statement (.contextCreate src c) := rfl
theorem contextDestroy (src : MgmtSrc) (c : BitVec 10) : Statement (.contextDestroy src c) := rfl
theorem queueEnable (src : MgmtSrc) (q : BitVec 12) : Statement (.queueEnable src q) := rfl
theorem queueDisable (src : MgmtSrc) (q : BitVec 12) : Statement (.queueDisable src q) := rfl
theorem portExcise (src : MgmtSrc) (p : BitVec 4) : Statement (.portExcise src p) := rfl
theorem portExciseClear (src : MgmtSrc) (p : BitVec 4) : Statement (.portExciseClear src p) := rfl
theorem nodeExcise (src : MgmtSrc) (k : BitVec 6) (node : BitVec 16) : Statement (.nodeExcise src k node) := rfl
theorem poisonFrameClear (src : MgmtSrc) (i : BitVec 10) : Statement (.poisonFrameClear src i) := rfl
theorem attestNonceWrite (src : MgmtSrc) (k : BitVec 3) (value : BitVec 64) : Statement (.attestNonceWrite src k value) := rfl
theorem mgmtRegisterWrite (src : MgmtSrc) (off : BitVec 32) (value : BitVec 64) : Statement (.mgmtRegisterWrite src off value) := rfl
theorem orderedPacketArrival (port : BitVec 4) (pk : Packet) : Statement (.orderedPacketArrival port pk) := rfl
theorem beaconArrival (port : BitVec 4) (wm : BitVec 64) : Statement (.beaconArrival port wm) := rfl
theorem beaconSend (port : BitVec 4) : Statement (.beaconSend port) := rfl
theorem routerForward (port : BitVec 4) : Statement (.routerForward port) := rfl
theorem culvertArrival (pk : Packet) : Statement (.culvertArrival pk) := rfl
theorem portStall (port : BitVec 4) : Statement (.portStall port) := rfl
theorem flitCrcError (port : BitVec 4) (sends : Nat) : Statement (.flitCrcError port sends) := rfl
theorem ptpMessage (m : PtpArrival) : Statement (.ptpMessage m) := rfl
theorem bringupPhaseComplete (r : PhaseReport) : Statement (.bringupPhaseComplete r) := rfl
theorem bringupPhaseTimeout (code : BitVec 8) : Statement (.bringupPhaseTimeout code) := rfl
theorem fabricMappedAccess (src : BitVec 16) (r : FabAccess) : Statement (.fabricMappedAccess src r) := rfl
theorem portLinkUp (port : BitVec 4) (peer : BitVec 16) (kind : BitVec 2) : Statement (.portLinkUp port peer kind) := rfl
theorem qschedDecision  : Statement (.qschedDecision) := rfl
theorem queueAgeing  : Statement (.queueAgeing) := rfl
theorem lockclkApply  : Statement (.lockclkApply) := rfl
theorem attestReportReady  : Statement (.attestReportReady) := rfl
theorem weirDeliver  : Statement (.weirDeliver) := rfl
theorem powerOn  : Statement (.powerOn) := rfl
theorem thermtrip  : Statement (.thermtrip) := rfl
theorem powerExcursion  : Statement (.powerExcursion) := rfl
theorem powerOff  : Statement (.powerOff) := rfl
theorem ptpSyncInterval  : Statement (.ptpSyncInterval) := rfl
theorem heldPacketInject  : Statement (.heldPacketInject) := rfl
theorem devreset  : Statement (.devreset) := rfl
theorem unassignedEncoding  : Statement (.unassignedEncoding) := rfl

end Sys2Proof.Laws.Words
end

