-- ==== Sys2Proof/Laws/Shared.lean ====
section
/-! SUPPORT. What some shared operations can do, each said once: how a step is paced, a place among the held packets, a queue's entry and its slot,
what a unit of the on-chip map keeps, the engine at a key. -/

namespace Sys2Proof.Machine

/-! ### The end of a step -/

/-- Only what the on-chip map keeps changes (R110). -/
theorem State.settleChip_eq (s : State) : ∃ c, s.settleChip = { s with chip := c } := by
  unfold State.settleChip
  split
  · exact ⟨s.chip, rfl⟩
  · exact ⟨_, rfl⟩

@[simp] theorem State.settleChip_mem (s : State) : s.settleChip.mem = s.mem := by obtain ⟨c, h⟩ := s.settleChip_eq; rw [h]
@[simp] theorem State.settleChip_wlog (s : State) : s.settleChip.wlog = s.wlog := by obtain ⟨c, h⟩ := s.settleChip_eq; rw [h]
@[simp] theorem State.settleChip_sound (s : State) : s.settleChip.sound = s.sound := by simp [State.sound]

/-- What every step of a fold changes alone, the fold changes alone. -/
theorem foldl_loopBufs {α : Type} (f : State → α → State) (h : ∀ s r, ∃ w b, f s r = { s with waves := w, loopBufs := b }) :
    ∀ (ls : List α) (s : State), ∃ w b, ls.foldl f s = { s with waves := w, loopBufs := b }
  | [], s => ⟨s.waves, s.loopBufs, rfl⟩
  | r :: rs, s => by
    obtain ⟨w, b, e⟩ := h s r
    obtain ⟨w', b', e'⟩ := foldl_loopBufs f h rs (f s r)
    exact ⟨w', b', by rw [List.foldl_cons, e', e]⟩

/-- Only loop buffers change hands (R198). -/
theorem State.grantLoops_eq (s : State) : ∃ w b, s.grantLoops = { s with waves := w, loopBufs := b } := by
  refine foldl_loopBufs _ (fun s r => ?_) s.loopWants s
  dsimp only
  repeat' split
  all_goals exact ⟨_, _, rfl⟩

@[simp] theorem State.grantLoops_mem (s : State) : s.grantLoops.mem = s.mem := by obtain ⟨w, b, h⟩ := s.grantLoops_eq; rw [h]
@[simp] theorem State.grantLoops_wlog (s : State) : s.grantLoops.wlog = s.wlog := by obtain ⟨w, b, h⟩ := s.grantLoops_eq; rw [h]
@[simp] theorem State.grantLoops_sound (s : State) : s.grantLoops.sound = s.sound := by simp [State.sound]
/-- With no `loop` of the cycle without a buffer, nothing changes. -/
theorem State.grantLoops_nil {s : State} (h : s.loopWants = []) : s.grantLoops = s := by simp [State.grantLoops, h]

/-- What a turn has answered stands, at its place in the cycle, or the turn was out of place. -/
theorem State.paced_cases (s : State) (t : Turn) (o : Host.Outcome State Fault Refusal) :
    (s.paced t o = .fault (.cannotOccur "ORDER")) ∨ (∃ u b, o = .next u ∧ s.paced t o = .next { u.settleChip.grantLoops with beat := b }) ∨
    ((∀ u, o ≠ .next u) ∧ s.paced t o = o) := by
  unfold State.paced
  split
  · cases o with
    | next u =>
      dsimp only
      split
      · exact .inr (.inl ⟨u, _, rfl, rfl⟩)
      · exact .inl rfl
    | fault f => exact .inr (.inr ⟨fun _ h => (nomatch h), rfl⟩)
    | refused r => exact .inr (.inr ⟨fun _ h => (nomatch h), rfl⟩)
  · exact .inl rfl

/-- A paced step is sound when the step is. -/
theorem State.paced_sound {s : State} {t : Turn} {o : Host.Outcome State Fault Refusal} (h : ∀ u, o = .next u → u.sound = true) {v : State}
    (hv : s.paced t o = .next v) : v.sound = true := by
  rcases s.paced_cases t o with e | ⟨u, b, ho, e⟩ | ⟨hn, e⟩
  · rw [e] at hv; cases hv
  · rw [e] at hv
    cases hv
    simpa [State.sound] using h u ho
  · exact absurd (e ▸ hv) (hn v)

/-! ### Places among the held packets (R170) -/

@[simp] theorem FabReq.goes_none (q : FabReq) (now : Nat) : q.goes now none = q := rfl
theorem FabReq.goes_far (q : FabReq) {now t : Nat} (h : now + 2 ^ 24 < t) : q.goes now (some t) = .done (q.refused 2) := if_pos h
theorem FabReq.goes_near (q : FabReq) {now t : Nat} (h : ¬now + 2 ^ 24 < t) : q.goes now (some t) = q := if_neg h
@[simp] theorem State.noPlace_none (s : State) : s.noPlace none = false := rfl

/-! ### Queues (R314, R326) -/

theorem State.entryOf_some {s : State} {q : Nat} {k : Queue} (h : s.queue? q = some k) : s.entryOf q = k := by simp [State.entryOf, h]
theorem State.entryOf_none {s : State} {q : Nat} (h : s.queue? q = none) : s.entryOf q = Queue.ofImage 0 0 0 := by simp [State.entryOf, h]
@[simp] theorem Queue.giveUp_slot (k : Queue) (st : QueueSt) : (k.giveUp st).slot = none := rfl
@[simp] theorem Queue.giveUp_st (k : Queue) (st : QueueSt) : (k.giveUp st).st = st := rfl
@[simp] theorem Queue.giveUp_head (k : Queue) (st : QueueSt) : (k.giveUp st).head = k.head := rfl
theorem Queue.giveUp_age_held {k : Queue} {n : Nat} (h : k.slot = some n) (st : QueueSt) : (k.giveUp st).age = k.prio := by simp [Queue.giveUp, h]
theorem Queue.giveUp_age_free {k : Queue} (h : k.slot = none) (st : QueueSt) : (k.giveUp st).age = k.age := by simp [Queue.giveUp, h]

/-! ### Engines and the clock -/

/-- A key below 768 is its own quad (R8). -/
theorem State.quadAt_of_lt (s : State) {q : Nat} (h : q < 768) : s.quadAt q = q := by simp [State.quadAt, h]

/-- A LOCKCLK that is due applies (R410). -/
theorem Device.lockDue_due {d : Device} {v : Bool} {t now : Nat} (h : d.lockNext = some (v, t)) (ht : t ≤ now) :
    d.lockDue now = { d with lockclk := v, lockNext := none } := by simp [Device.lockDue, h, ht]
theorem Device.lockDue_not {d : Device} {v : Bool} {t now : Nat} (h : d.lockNext = some (v, t)) (ht : now < t) : d.lockDue now = d := by
  simp [Device.lockDue, h, Nat.not_le.mpr ht]
@[simp] theorem Device.lockDue_none {d : Device} {now : Nat} (h : d.lockNext = none) : d.lockDue now = d := by simp [Device.lockDue, h]

/-! ### Stores that a load has before it (R118) -/

/-- With nothing on its way a load sees its home. -/
@[simp] theorem State.ahead_empty {s : State} (hq : s.queue = []) (hb : s.buffer = []) (w : WaveRef) (core op : Nat) (l : Loc) (n : Nat) :
    s.ahead w core op l n = [] := by simp [State.ahead, hq, hb]

end Sys2Proof.Machine
end

