-- ==== Sys2Proof/Tests/Slice0.lean ====
section
/-! SUPPORT. Tests of the model: words of the spec decoded, ill-formed fields refused, single steps with results worked out from the rules, and
for each statement states that meet its hypotheses. -/

namespace Sys2Proof.Tests
open Sys2Proof.Machine

set_option Elab.async false

/-! ### Words written out from the encodings (R199 to R203 and each entry's example) -/

theorem test_decode_nop : decodeWords 0x80000000 0 = some (.nop true) := by decide
theorem test_decode_sadd : decodeWords 0b00010000000000011000001000010000 0 = some (.sadd false 3 1 2) := by decide
theorem test_decode_sdiv : decodeWords 0x11630E40 0 = some (.sdiv false 6 7 8) := by decide
theorem test_decode_saddi : decodeWords 0x12103100 0 = some (.saddi false 4 3 256) := by decide
theorem test_decode_sshli : decodeWords 0x16010418 0 = some (.sshli false 2 2 3) := by decide
theorem test_decode_smovi : decodeWords 0x170BFFFB 0 = some (.smovi false 2 (-5)) := by decide
theorem test_decode_smovl : decodeWords 0x70140000 0x12345678 = some (.smovl false 5 0x12345678) := by decide
theorem test_decode_scmp : decodeWords 0x18408418 0 = some (.scmp false 2 1 2 3) := by decide
theorem test_decode_smaxw : decodeWords 0x19600020 0 = some (.smaxw false 0 0 4) := by decide
theorem test_decode_sctz : decodeWords 0x1A409200 0 = some (.sctz false 1 9) := by decide
theorem test_decode_rdsr : decodeWords 0x1E080002 0 = some (.rdsr false 2 2) := by decide
theorem test_decode_wrsr : decodeWords 0x1F003020 0 = some (.wrsr false 3 0x020) := by decide
theorem test_decode_mand : decodeWords 0x20088000 0 = some (.mand false 2 1 0) := by decide
theorem test_decode_mfroms : decodeWords 0x20CC0240 0 = some (.mfroms false 3 9) := by decide
theorem test_decode_mpopc : decodeWords 0x21008100 0 = some (.mpopc false 1 4) := by decide
theorem test_decode_vaddsat : decodeWords 0x3F40C082 0 = some (.vaddsat false 2 3 1 2) := by decide
theorem test_decode_vbcst : decodeWords 0x4700C085 0 = some (.vbcst false 3 1 5) := by decide
theorem test_decode_vround : decodeWords 0x4EA0C081 0 = some (.vround false 5 3 1 1) := by decide
theorem test_decode_vmovl : decodeWords 0x7BA08000 0x3F800000 = some (.vmovl false 5 2 0x3F800000) := by decide
theorem test_decode_fence : decodeWords 0x540000B0 0 = some (.fence false 1 3 0) := by decide
theorem test_decode_wait : decodeWords 0x0F000009 0 = some (.wait false 9) := by decide
theorem test_decode_loopx : decodeWords 0x0A000005 0 = some (.loopx false 0 5) := by decide
theorem test_decode_trap : decodeWords 0x6F00002A 0 = some (.trap false 0x2A) := by decide
theorem test_decode_icount : decodeWords 0x6F20A000 0 = some (.icount false 5) := by decide
theorem test_decode_hwait : decodeWords 0x6F38C280 0 = some (.hwait false 6 5) := by decide
/-- Major 0x6B, N 1, A 3, C 2, U 0 (R36). -/
theorem test_decode_leave : decodeWords 0b01101011010000011001000000000000 0 = some (.leave false 1 3 2) := by decide
theorem test_decode_bytes : decode [0x10, 0x82, 0x01, 0x10, 0xFF] = some (.sadd false 3 1 2, [0xFF]) := by decide
theorem test_decode_fields_must_be_zero : decodeWords 0x10018211 0 = none := by decide
theorem test_decode_unassigned : decodeWords 0x7F000000 0 = none := by decide

/-! ### Ill-formed fields, one for each check (R199 to R203) -/

theorem test_wf_good : ([.vadd false 5 95 118 112, .scmp false 5 0 0 0, .sldk false 0 4088, .osend false 0 0 0 1024, .fence false 1 4 3] : List Instr).all
    Instr.wf = true := by decide
theorem test_wf_refused : ([.loop false 3 5, .loop false 0 0, .loopx false 3 5, .scmp false 6 0 0 0, .sldk false 0 4, .rdsr false 0 9, .wrsr false 0 0,
    .vadd false 0 96 0 0, .vadd false 0 0 119 0, .vmulh false 5 0 0 0, .vpopc false 4 0 0, .vnot false 0 0 119, .vfmal false 5 0 0 0 119, .vmovl false 0 96 0,
    .vcmp false 5 6 0 0 0, .vcmp false 0 10 0 0 0, .vdiv false 0 0 0 0, .vsqrt false 1 0 0, .vsfu false 4 0 0 0, .vsfu false 5 0 0 8, .vround false 5 0 0 5,
    .vcvt false 0 0 0 6 0, .vcvt false 0 0 7 1 1, .vqnt false 0 0 0 0 0 0 1, .vdqnt false 5 0 0 0 0 5, .vamax false 5 0 0 0 5, .vshf false 0 0 96 0,
    .vbcst false 0 0 32, .vext false 0 64 0 0, .vins false 0 0 64 0, .vmovm false 96 0 0, .vidx false 5 0 0 0, .vred false 0 0 0 6, .vscan false 0 0 0 3,
    .vldacq false 0 0 0 0 5 0 0, .vldacq false 0 0 0 0 1 1 0, .vstrel false 0 0 0 0 5 0, .fence false 1 2 0, .fence false 1 3 1, .vprf false 2 0 0,
    .vatom false 0 0 0 0 0 0 3 1 0 0, .vatom false 2 0 0 0 0 0 0 0 0 0, .vatom false 0 0 0 95 9 0 0 0 0 0, .mgang false 0 0, .mrd false 96 0 0, .mwr false 0 96 0,
    .rstat false 94 0, .leave false 0 95 1, .ecl false 0 95 0 0 1, .equery false 0 119 0, .osend false 0 0 0 4, .osend false 0 0 0 12, .oatom false 0 0 63 0 9 0,
    .loadReturn ⟨0, 0, 0⟩ 0] : List Instr).any Instr.wf = false := by decide

/-! ### Small states -/

/-- A path of 32 lanes in a clause of one word of the class. -/
def inClause (i : Instr) : Path :=
  { pid := 1, pc := 68, mask := 0xFFFFFFFF, age := 0, srec := none, hdr := 64, cls := classOf i, count := i.words, inClause := true, waits := 0,
    park := .none, since := 0, yielded := none, owed := [], parkOff := 0 }

/-- Its wave, otherwise as at birth. -/
def waveAt (i : Instr) : Wave := { placedWave with slot0 := some (inClause i) }

/-- One launch of one team of one wave, which is at the issue of a word; memory lists nothing. -/
def small (i : Instr) : State :=
  { State.reset.placed 64 0 with
    mem := [], agenda := [], cur := some (⟨1, 0, 0⟩, 1), waves := [(⟨1, 0, 0⟩, waveAt i)] }

/-- The small state with its wave, its team, its launch changed. -/
def small' (i : Instr) (f : Wave → Wave) (g : Team → Team) (h : Launch → Launch) : State :=
  { small i with waves := [(⟨1, 0, 0⟩, f (waveAt i))], teams := [(⟨1, 0⟩, g placedTeam)], launches := [(1, h placedLaunch)] }

def noSite : Site := { w := ⟨0, 0, 0⟩, pid := 0, v := placedWave, p := inClause (.nop false), l := placedLaunch }
/-- The path at its issue. -/
def siteOf (s : State) : Site := s.site?.getD noSite

/-- The hypotheses of `Issuing`, as a computation. -/
def issues (i : Instr) (s : State) : Bool :=
  let k := siteOf s
  s.site?.isSome && k.free s && k.p.inClause && (decodeCheck i k).isNone && !issueHeld i k s && !(touches i).any k.v.outstanding &&
    !k.consumesPoison i && s.wlog.isEmpty

theorem issuing_of {i : Instr} {s : State} (h : issues i s = true) : Issuing i s (siteOf s) := by
  simp only [issues, Bool.and_eq_true, Bool.not_eq_true', List.isEmpty_iff, Option.isNone_iff_eq_none] at h
  obtain ⟨⟨⟨⟨⟨⟨⟨h1, h2⟩, h3⟩, h4⟩, h5⟩, h6⟩, h7⟩, h8⟩ := h
  obtain ⟨k, hk⟩ := Option.isSome_iff_exists.mp h1
  have : siteOf s = k := by simp [siteOf, hk]
  exact ⟨by rw [hk, this], h2, h3, h4, h5, h6, h7, h8⟩

theorem all_issue {l : List Instr} (h : (l.all fun i => issues i (small i)) = true) : ∀ i ∈ l, Issuing i (small i) (siteOf (small i)) :=
  fun i hi => issuing_of (List.all_eq_true.mp h i hi)


/-! ### Results worked out from the rules and the spec's own examples -/

def reg (s : State) (d : Nat) : Option Nat := (s.wave? ⟨1, 0, 0⟩).map fun v => (v.sregs.getD d 0).toNat
def row (s : State) (d l : Nat) : Option Nat := (s.wave? ⟨1, 0, 0⟩).map fun v => ((v.vreg d).lane l).toNat
def flags (s : State) : Option Nat := (s.wave? ⟨1, 0, 0⟩).map (·.fstat.toNat)
/-- The state after a word with s1 and s2 as given. -/
def ran2 (i : Instr) (a b : Nat) : State := match exec i (small' i (fun v => (v.setS 1 (BitVec.ofNat 64 a)).setS 2 (BitVec.ofNat 64 b)) id id) with | .next t => t | _ => State.reset
/-- The state after a word with lane 31 of v1 and v2 as given. -/
def ranV (i : Instr) (a b : Nat) : State :=
  match exec i (small' i (fun v => { v with vregs := setAt (setAt v.vregs 1 (VReg.zero.setLane 31 (BitVec.ofNat 64 a) 0)) 2 (VReg.zero.setLane 31 (BitVec.ofNat 64 b) 0) }) id id) with | .next t => t | _ => State.reset

/-- R223: modulo 2^64. -/
theorem test_sadd_wraps : reg (ran2 (.sadd false 3 1 2) (2 ^ 64 - 1) 2) 3 = some 1 := by decide +kernel
/-- R223: a source that is the destination is read first. -/
theorem test_ssub_same : reg (ran2 (.ssub false 1 2 1) 5 3) 1 = some (2 ^ 64 - 2) := by decide +kernel
/-- R224: truncation toward zero, the sign of the dividend, and the corners of the table. -/
theorem test_sdiv : reg (ran2 (.sdiv false 3 1 2) (2 ^ 64 - 7) 2) 3 = some (2 ^ 64 - 3) ∧ reg (ran2 (.sdiv false 3 1 2) 5 0) 3 = some (2 ^ 64 - 1) ∧ reg (ran2 (.sdiv false 3 1 2) (2 ^ 63) (2 ^ 64 - 1)) 3 = some (2 ^ 63) := by
  decide +kernel
theorem test_srem : reg (ran2 (.srem false 3 1 2) (2 ^ 64 - 7) 2) 3 = some (2 ^ 64 - 1) ∧ reg (ran2 (.srem false 3 1 2) 5 0) 3 = some 5 := by decide +kernel
/-- R225: the constant is sign-extended. -/
theorem test_saddi_negative : reg (ran2 (.saddi false 3 1 0xFFF) 0 0) 3 = some (2 ^ 64 - 1) := by decide +kernel
/-- R227: only the high half is written. -/
theorem test_smovh_high : reg (ran2 (.smovh false 1 0xFFFFFFFF) 0x300000007 0) 1 = some 0xFFFFFFFF00000007 := by decide +kernel
/-- R228: signed and unsigned orders. -/
theorem test_scmp_orders : reg (ran2 (.scmp false 2 3 1 2) (2 ^ 63) 0) 3 = some 1 ∧ reg (ran2 (.scmp false 4 3 1 2) (2 ^ 63) 0) 3 = some 0 := by decide +kernel
/-- R230: 64 zeros. -/
theorem test_sclz_zero : reg (ran2 (.sclz false 3 1) 0 0) 3 = some 64 ∧ reg (ran2 (.sctz false 3 1) 0x100 0) 3 = some 8 := by decide +kernel
/-- R257: lanes holding 0x7FF0 and 0x0020 give 0x7FFF. -/
theorem test_vaddsat_example : row (ranV (.vaddsat false 2 3 1 2) 0x7FF0 0x0020) 3 31 = some 0x7FFF := by decide +kernel
/-- R78: sub-elements do not carry into each other. -/
theorem test_vadd_bytes : row (ranV (.vadd false 3 3 1 2) 0x01FF 0x0001) 3 31 = some 0x0100 := by decide +kernel
/-- The worked conversions of the numbers chapter, from f32: bf16, f16, e5m2, e4m3, i8 with their flags. -/
theorem test_conversions : ([(2, 0x43808000), (2, 0x7F7FFFFF), (3, 0x45001000), (3, 0x4788B800), (3, 0x33000000), (5, 0x40B00000), (5, 0x4788B800), (4, 0x43E50000), (4, 0x43FA0000), (4, 0x3B400000), (11, 0xC06CCCCD),
    (11, 0x43960000)].map fun x => let r := cvtElem noModes x.1 1 x.2; (r.bits, r.flags)) =
    [(0x4380, 16), (0x7F80, 20), (0x6800, 16), (0x7C00, 20), (0, 24), (0x46, 16), (0x7C, 20), (0x7E, 16), (0x7F, 20), (0x02, 24), (0xFC, 16), (0x7F, 1)] := by decide +kernel
/-- R80: a step's exact sum counts: 0.5 + 0.5 added to 3 is 4. -/
theorem test_kStepInt_halves : (kStepInt 3 [(.fin false 1 0, .fin false 1 (-1)), (.fin false 1 0, .fin false 1 (-1))]).bits = 4 := by decide +kernel
/-- R190, R241: a `brk` in the last word of its clause parks its path at the header of the next. -/
theorem test_brk_falls : (match exec (.brk false 7) { small (.brk false 7) with ctxs := [(0, { raw := 2, en := true, voids := [], seq := 0, copyTl := List.replicate 16 Timeline.zero })] } with
    | .next t => (t.wave? ⟨1, 0, 0⟩).bind (·.path? 1) | _ => none).map (fun p : Path => (p.pc, p.inClause, p.park, p.parkOff)) = some (72, false, Park.fault (small (.brk false 7)).nextId, 68) := by decide +kernel
/-- R247: what the same cycle has set stands after a clear. -/
theorem test_wrsr_same_cycle : (match exec (.wrsr false 1 1) (small' (.wrsr false 1 1) (fun v => { v with fstat := 3, newF := 1, sregs := setAt v.sregs 1 (BitVec.ofNat 64 (2 ^ 32 - 1)) }) id id) with
    | .next t => flags t | _ => none) = some 1 := by decide +kernel

/-! ### States that meet the hypotheses of the statements about words -/

theorem witness_ScalarSumsShifts : ∀ i ∈ ([.sadd false 3 1 2, .ssub true 0 63 63, .sand false 3 1 2, .sor false 3 1 2, .sxor false 3 1 2, .saddi false 3 1 0x800,
    .sandi false 3 1 0x7FF, .sori false 3 1 1, .sxori false 3 1 1, .sshl false 3 1 2, .sshli false 3 1 63, .sshr false 3 1 2, .sshri false 3 1 0, .ssra false 3 1 2,
    .ssrai false 3 1 63] : List Instr), Issuing i (small i) (siteOf (small i)) := all_issue (by decide +kernel)

theorem witness_ScalarProductsDivisions : ∀ i ∈ ([.smul false 3 1 2, .smulh false 3 1 2, .smulhw false 3 1 2, .sdiv false 3 1 2, .sdivw false 3 1 2, .srem false 3 1 2,
    .sremw false 3 1 2] : List Instr), Issuing i (small i) (siteOf (small i)) := all_issue (by decide +kernel)

theorem witness_ScalarConstantsCompares : (∀ i ∈ ([.smovi false 3 0x20000, .smovl false 3 0x80000000, .smovh false 3 1, .scmp false 0 1 2 3, .scmp false 5 1 2 3, .smin false 3 1 2,
    .smax false 3 1 2, .sminw false 3 1 2, .smaxw false 3 1 2] : List Instr), Issuing i (small i) (siteOf (small i))) ∧
    (∀ p q : Word, ((0 : BitVec 3) = 0 ∧ (p = q ↔ p = q)) ∧ ((5 : BitVec 3) = 5 ∧ (p.toNat ≤ q.toNat ↔ p.toNat ≤ q.toNat)) ∧
      (p.toInt ≤ p.toInt ∧ p.toInt ≤ p.toInt)) := ⟨all_issue (by decide +kernel), fun _ _ => ⟨⟨rfl, Iff.rfl⟩, ⟨rfl, Iff.rfl⟩, ⟨Int.le_refl _, Int.le_refl _⟩⟩⟩

/-- Zero has 64 leading and trailing zeros, a set bit 63 none; the highest of 32 one bits is bit 31. -/
theorem witness_CountsAndMasks : (∀ i ∈ ([.spopc false 3 1, .sclz false 3 1, .sctz false 3 1, .mpopc false 0 3, .mffs false 0 3, .mfls false 1 3, .mfls false 0 3, .mand false 3 1 2,
    .mor false 3 1 2, .mxor false 3 1 2, .mandn false 3 1 2, .mnot false 3 1, .mmov false 3 1, .mfroms false 3 1, .mtos false 1 3] : List Instr),
      Issuing i (small i) (siteOf (small i))) ∧
    (∀ j, (0 : Word).getLsbD j = false) ∧ ((0x8000000000000000 : Word).getLsbD 63 = true) ∧ (siteOf (small (.nop false))).v.mask 1 = 0 ∧
    ((siteOf (small (.nop false))).v.mask 0).getLsbD 31 = true := ⟨all_issue (by decide +kernel), by simp, by decide, by decide +kernel, by decide +kernel⟩

theorem witness_StatusRegisters : ∀ i ∈ ([.rdsr false 3 0, .rdsr false 3 1, .rdsr false 3 2, .rdsr false 3 3, .rdsr false 3 4, .rdsr false 3 5, .rdsr false 3 6, .rdsr false 3 7,
    .rdsr false 3 8, .rdsr false 3 0x010, .rdsr false 3 0x013, .rdsr false 3 0x020, .rdsr false 3 0x022, .tnow false 3, .cyc false 3, .icount false 3, .hpoll false 3 4,
    .wrsr false 3 1, .wrsr false 3 2, .wrsr false 3 0x010, .wrsr false 3 0x020, .wrsr false 3 0x022] : List Instr), Issuing i (small i) (siteOf (small i)) :=
  all_issue (by decide +kernel)

theorem witness_VectorArithmetic : ∀ i ∈ ([.vadd false 4 0 1 2, .vsub false 5 0 1 2, .vmul false 0 0 1 2, .vmulh false 1 0 1 2, .vmulhw false 2 0 1 2, .vfma false 7 0 1 2, .vfnma false 3 95 1 2,
    .vmin false 6 0 1 2, .vmax false 6 0 1 2, .vminw false 0 0 1 2, .vmaxw false 0 0 1 2, .vaddsat false 3 0 1 2, .vabs false 4 0 1, .vneg false 3 0 1, .vfmal false 5 0 1 2 3] : List Instr),
      Issuing i (small i) (siteOf (small i)) := all_issue (by decide +kernel)

theorem witness_VectorBits : ∀ i ∈ ([.vand false 0 0 1 2, .vor false 0 0 1 2, .vxor false 0 0 1 2, .vnot false 3 0 1, .vshl false 2 0 1 2, .vshr false 2 0 1 2, .vsra false 2 0 1 2,
    .vpopc false 3 0 1, .vclz false 0 0 1, .vmov false 0 0 118, .vsel false 0 0 1 2, .vceq false 5 0 1 2, .vclt false 5 0 1 2, .vcle false 0 0 1 2, .vcltw false 1 0 1 2] : List Instr),
      Issuing i (small i) (siteOf (small i)) := all_issue (by decide +kernel)

theorem witness_VectorMoves : (∀ i ∈ ([.vmovl false 4 0 1, .vround false 5 0 1 4, .vround false 7 0 1 0, .vcvt false 0 1 0 0 1, .vidx false 3 0 1 127, .vcmp false 5 0 1 2 3, .vcmp false 0 9 1 2 3] : List Instr),
      Issuing i (small i) (siteOf (small i))) ∧ floatFormat 5 = some 1 ∧ floatFormat 7 = some 3 := ⟨all_issue (by decide +kernel), by decide, by decide⟩

theorem witness_SpecialFunctions : (∀ i ∈ ([.vdiv false 4 0 1 2, .vsqrt false 5 0 1, .vsfu false 7 0 1 7, .vqnt false 0 1 2 0 0 5 1, .vqnt false 0 1 120 0 1 11 1, .vdqnt false 5 0 1 0 0 0, .vamax false 5 0 1 0 0,
    .vred false 4 0 1 5, .vscan false 0 0 1 2] : List Instr), Issuing i (small i) (siteOf (small i))) ∧ floatFormat 4 = some 0 ∧ floatFormat 5 = some 1 ∧ floatFormat 7 = some 3 :=
  ⟨all_issue (by decide +kernel), by decide, by decide, by decide⟩

theorem witness_CrossLaneAndArguments : ∀ i ∈ ([.vshf false 3 0 1 2, .vbcst false 0 1 31, .vext false 3 63 1 127, .vext false 3 5 1 0, .vins false 0 1 63 31, .vmovm false 0 1 7, .sldk false 3 4088,
    .tlrd false 3 15] : List Instr), Issuing i (small i) (siteOf (small i)) := all_issue (by decide +kernel)

theorem witness_EstateInstructions : ∀ i ∈ ([.leave false 3 80 15, .leaveClr false 0, .ecl false 1 88 2 7 7, .eclKeep false 1 0 2 7 0, .equery false 7 118 3, .edrop false 63] : List Instr),
      Issuing i (small i) (siteOf (small i)) := all_issue (by decide +kernel)

/-- Mask 0 names every lane, mask 1 none. A code of 12 bytes: 64 and 72 are its first and last words, 76 is past it. -/
theorem witness_BranchesAndCalls :
    let at' := fun n : Nat => small' (.jind false 3) (fun v => v.setS 3 (BitVec.ofNat 64 n)) id id
    (∀ i ∈ ([.jmp false 0, .bany false 0 1, .bany false 1 1, .ball false 0 1, .ball false 1 1, .bnone false 0 1, .bnone false 1 1, .call false 3 1] : List Instr), Issuing i (small i) (siteOf (small i))) ∧
    (∃ l, (siteOf (small (.bany false 0 1))).p.mask.getLsbD l = true ∧ ((siteOf (small (.bany false 0 1))).v.mask 0).getLsbD l = true) ∧
    (siteOf (small (.bany false 1 1))).v.mask 1 = 0 ∧
    (∀ n, n = 64 ∨ n = 72 → Issuing (.jind false 3) (at' n) (siteOf (at' n)) ∧ ((siteOf (at' n)).s 3).toNat = n ∧ n % 4 = 0 ∧ 64 ≤ n ∧ n < 64 + (siteOf (at' n)).l.hdr.codelen) ∧
    (∀ n, n = 65 ∨ n = 60 ∨ n = 76 → Issuing (.jind false 3) (at' n) (siteOf (at' n)) ∧ ((siteOf (at' n)).s 3).toNat = n ∧ (n % 4 ≠ 0 ∨ n < 64 ∨ 64 + (siteOf (at' n)).l.hdr.codelen ≤ n)) := by
  refine ⟨all_issue (by decide +kernel), ⟨0, by decide +kernel, by decide +kernel⟩, by decide +kernel, ?_, ?_⟩
  · rintro n (rfl | rfl) <;> exact ⟨issuing_of (by decide +kernel), by decide +kernel⟩
  · rintro n (rfl | rfl | rfl) <;> exact ⟨issuing_of (by decide +kernel), by decide +kernel⟩

/-- The state at a loop with a zero counter: another path waits for a counter that is not zero. -/
theorem witness_CountedLoops :
    let i := Instr.loop false 2 1
    let one := small' i (fun v => v.setLc 2 1) id id
    let zero := { small' i (fun v => { (v.incr 0) with slot1 := some { inClause i with pid := 2, waits := 1 } }) id id with mem := mwriteAll (placedBytes 32 0xC5000001) [] }
    let x := Instr.loopx false 0 1
    (Issuing i one (siteOf one) ∧ (siteOf one).v.loopc 2 ≠ 0) ∧ (Issuing i zero (siteOf zero) ∧ (siteOf zero).v.loopc 2 = 0 ∧ zero.fetchWord ⟨1, 0, 0⟩ placedLaunch 68 = .word 0xC5000001 ∧ goodHeader 0xC5000001 = true ∧
      (∀ p ∈ (siteOf zero).v.pend, p.id ≠ zero.nextId) ∧ ∀ p ∈ (siteOf zero).v.paths, p.waits ≠ 0 → p.waits.testBit 0 = true ∧ (siteOf zero).v.ctr.getD 0 0 ≠ 0) ∧ Issuing x (small x) (siteOf (small x)) :=
  ⟨⟨issuing_of (by decide +kernel), by decide +kernel⟩, ⟨issuing_of (by decide +kernel), by decide +kernel⟩, issuing_of (by decide +kernel)⟩
/-- A split record that waits for so many paths. -/
def aRecord (n : Nat) : SplitRec := { rid := 7, parent := none, pending := n, merged := 0, resume := 0, hdr := 0, cls := 0, count := 0 }

/-- Mask 1 names no lane, mask 0 every lane, mask 2 the low sixteen; a berm of 511 records has room for one path, one of 512 has none. -/
theorem witness_SplitPaths :
    let i := fun m : BitVec 3 => Instr.split false m 1
    let berm := fun n : Nat => small' (i 2) (fun v => { v.setM 2 0xFFFF with recs := List.replicate n (aRecord 2) }) id id
    (∀ w ∈ [i 1, i 0], Issuing w (small w) (siteOf (small w))) ∧ (siteOf (small (i 1))).v.mask 1 = 0 ∧ (siteOf (small (i 0))).v.mask 0 = 0xFFFFFFFF ∧
    (∀ n, n = 511 ∨ n = 512 → Issuing (i 2) (berm n) (siteOf (berm n)) ∧ (siteOf (berm n)).p.mask &&& (siteOf (berm n)).v.mask 2 ≠ 0 ∧
      (siteOf (berm n)).p.mask &&& ~~~(siteOf (berm n)).v.mask 2 ≠ 0 ∧ (siteOf (berm n)).v.recs.length + (siteOf (berm n)).v.spilled.length + 1 = n + 1 ∧
      (siteOf (berm n)).pid ≠ (siteOf (berm n)).v.nextId + 1) := by
  refine ⟨all_issue (by decide +kernel), by decide +kernel, by decide +kernel, ?_⟩
  rintro n (rfl | rfl) <;> exact ⟨issuing_of (by decide +kernel), by decide +kernel⟩

/-- The record of a path that is at its `join`, under a parent or none, and that parent. -/
def ownRecord (pending : Nat) (parent : Option Nat) : SplitRec := { aRecord pending with parent := parent.map fun _ => 8 }
def parentRecord (pending : Nat) : SplitRec := { aRecord pending with rid := 8, merged := 0xF0 }
/-- A wave at a `join` with these records; its path has these lanes. -/
def joining (mask : W32) (pending : Nat) (parent : Option Nat) : State :=
  small' (.join false) (fun v => { v with slot0 := some { inClause (.join false) with mask := mask, srec := some 7 },
                                          recs := ownRecord pending parent :: (parent.map parentRecord).toList }) id id

/-- No record; one of two paths; the last one with lanes, and without under no parent, under one of one path and of two. -/
theorem witness_JoinPaths :
    (let s := small (.join false); Issuing (.join false) s (siteOf s) ∧ s.unpoisoned ∧ (siteOf s).p.srec = none) ∧
    (∀ x ∈ ([(0, 1, none), (1, 1, none), (1, 2, none), (0, 1, some 1), (0, 1, some 2)] : List (W32 × Nat × Option Nat)), let s := joining x.1 x.2.1 x.2.2
      Issuing (.join false) s (siteOf s) ∧ s.unpoisoned ∧ (siteOf s).p.srec = some 7 ∧ (siteOf s).v.recs.find? (·.rid = 7) = some (ownRecord x.2.1 x.2.2) ∧
        ((ownRecord x.2.1 x.2.2).merged ||| (siteOf s).p.mask = 0 ↔ x.1 = 0)) ∧
    (∀ n ∈ [1, 2], ((siteOf (joining 0 1 (some n))).v.recs.filter (·.rid ≠ 7)).find? (·.rid = 8) = some (parentRecord n) ∧ (parentRecord n).pending = n ∧
      (parentRecord n).merged ≠ 0 ∧ (parentRecord n).resume ≠ (parentRecord n).hdr + 4 + 4 * (parentRecord n).count) := by
  refine ⟨⟨issuing_of (by decide +kernel), ⟨rfl, rfl, by decide +kernel⟩, by decide +kernel⟩, fun x hx => ?_, by decide +kernel⟩
  have h : ∀ x ∈ ([(0, 1, none), (1, 1, none), (1, 2, none), (0, 1, some 1), (0, 1, some 2)] : List (W32 × Nat × Option Nat)), let s := joining x.1 x.2.1 x.2.2
      issues (.join false) s = true ∧ s.device.frames = [] ∧ ((siteOf s).p.srec = some 7 ∧ (siteOf s).v.recs.find? (·.rid = 7) = some (ownRecord x.2.1 x.2.2) ∧
        ((ownRecord x.2.1 x.2.2).merged ||| (siteOf s).p.mask = 0 ↔ x.1 = 0)) := by decide +kernel
  obtain ⟨h₁, h₂, h₃⟩ := h x hx
  exact ⟨issuing_of h₁, ⟨rfl, rfl, h₂⟩, h₃⟩

/-- The small state's context, with DEBUG as given. -/
def theCtx (debug : Bool) : Ctx := { raw := BitVec.ofNat 512 (0x4000 * 2 ^ 192 + 8192 * 2 ^ 64 + if debug then 2 else 0), en := true, voids := [], seq := 0, copyTl := List.replicate 16 Timeline.zero }

/-- `State.quiet`, as a computation. -/
def quietB (s : State) : Bool :=
  (s.waves.all fun e => (e.2.paths.all fun p => p.park == .none) && e.2.pend.all fun p => match p.kind with | .mem _ todo _ _ => todo.isEmpty | _ => true) &&
    s.teams.all fun e => e.2.stages.isEmpty

theorem quiet_of {s : State} (h : quietB s = true) : s.quiet := by
  simp only [quietB, Bool.and_eq_true, List.all_eq_true, beq_iff_eq, List.isEmpty_iff] at h
  refine ⟨fun e he => ⟨(h.1 e he).1, fun p hp r todo ps n hk => ?_⟩, h.2⟩
  simpa [hk] using (h.1 e he).2 p hp

/-- A wave at an `exit` of these lanes; of its four slots the last marks v95, and the reserve has this many bytes. -/
def leaving (mask marked : W32) (bytes : Nat) : State :=
  { small' (.exit false) (fun v => { v with slot0 := some { inClause (.exit false) with mask := mask },
                                            leave := setAt v.leave 3 { first := 95, count := 1, mask := marked } }) id id with
    ctxs := [(0, { theCtx false with raw := BitVec.ofNat 512 (0x4000 * 2 ^ 192 + 8192 * 2 ^ 64 + bytes * 2 ^ 320) })] }

/-- Lanes are left; none is left, with nothing marked; with a mark, room for one granule; and with no room. -/
theorem witness_ExitLanes : ∀ x ∈ ([(1, 0, 0), (0xFFFFFFFF, 0, 0), (0xFFFFFFFF, 0x80000000, 288), (0xFFFFFFFF, 0x80000000, 287)] : List (W32 × W32 × Nat)),
    let s := leaving x.1 x.2.1 x.2.2
    let k := siteOf s
    let gone := k.v.exited ||| k.p.mask
    Issuing (.exit false) s k ∧ s.unpoisoned ∧ s.quiet ∧ (k.v.live &&& ~~~gone = 0 ↔ x.1 = 0xFFFFFFFF) ∧
      ((bequests { k.v with exited := gone }).length = 1 ↔ x.2.1 ≠ 0) ∧ (s.ctx? k.l.ctx).map (fun c => c.ressize / 288) = some (if x.2.2 = 288 then 1 else 0) ∧
      s.granules = [] ∧ k.v.leave[3]? = some { first := 95, count := 1, mask := x.2.1 } := by
  intro x hx
  have h : ∀ x ∈ ([(1, 0, 0), (0xFFFFFFFF, 0, 0), (0xFFFFFFFF, 0x80000000, 288), (0xFFFFFFFF, 0x80000000, 287)] : List (W32 × W32 × Nat)),
      let s := leaving x.1 x.2.1 x.2.2
      let k := siteOf s
      let gone := k.v.exited ||| k.p.mask
      issues (.exit false) s = true ∧ s.device.frames = [] ∧ quietB s = true ∧ ((k.v.live &&& ~~~gone = 0 ↔ x.1 = 0xFFFFFFFF) ∧
        ((bequests { k.v with exited := gone }).length = 1 ↔ x.2.1 ≠ 0) ∧ (s.ctx? k.l.ctx).map (fun c => c.ressize / 288) = some (if x.2.2 = 288 then 1 else 0) ∧
        s.granules = [] ∧ k.v.leave[3]? = some { first := 95, count := 1, mask := x.2.1 }) := by decide +kernel
  obtain ⟨h₁, h₂, h₃, h₄⟩ := h x hx
  exact ⟨issuing_of h₁, ⟨rfl, rfl, h₂⟩, quiet_of h₃, h₄⟩

theorem witness_BarriersAndTickets :
    (∀ i ∈ ([.bar false 0, .bar false 15, .barCohort false 15, .tkwait false 7, .tktake false 7] : List Instr), Issuing i (small i) (siteOf (small i)) ∧
      ∃ k, (small i).team? (siteOf (small i)).w.teamRef = some k ∧ k.taken.getLsbD 7 = false ∧ (siteOf (small i)).l.tickets.getD 7 0 = (siteOf (small i)).w.team) ∧
    (let i := Instr.tkwait false 7
     let s := small' i id id fun l => { l with tickets := List.replicate 8 1 }
     Issuing i s (siteOf s) ∧ (siteOf s).l.tickets.getD 7 0 ≠ (siteOf s).w.team) ∧
    (let i := Instr.tktake false 7
     let s := small' i id (fun t => { t with taken := 0x80 }) id
     Issuing i s (siteOf s) ∧ ∃ k, s.team? (siteOf s).w.teamRef = some k ∧ k.taken.getLsbD 7 = true) := by
  refine ⟨fun i hi => ⟨all_issue (l := [.bar false 0, .bar false 15, .barCohort false 15, .tkwait false 7, .tktake false 7]) (by decide +kernel) i hi, placedTeam, ?_⟩, ?_, ?_⟩
  · revert i; decide +kernel
  · exact ⟨issuing_of (by decide +kernel), by decide +kernel⟩
  · exact ⟨issuing_of (by decide +kernel), { placedTeam with taken := 0x80 }, by decide +kernel, by decide +kernel⟩

theorem witness_WaitAndYield :
    (∀ i ∈ ([.nop true, .wait false 0xFF, .wait false 0, .yield false] : List Instr), Issuing i (small i) (siteOf (small i))) ∧
    (∀ c, c < 8 → (siteOf (small (.wait false 0xFF))).v.ctr.getD c 0 = 0) ∧
    (let s := small' (.wait false 0x80) (fun v => v.incr 7) id id
     Issuing (.wait false 0x80) s (siteOf s) ∧ ¬∀ c, c < 8 → (0x80 : BitVec 8).getLsbD c = true → (siteOf s).v.ctr.getD c 0 = 0) ∧
    (let i := Instr.yield false
     let others := fun s : State => ((s.begun false i (siteOf s)).eligible 0).filter fun o => !(o.w == (siteOf s).w && o.pid == (siteOf s).pid)
     let second := fun park : Park => small' i (fun v => { v with slot1 := some { inClause i with pid := 2 }, spilled := [{ inClause i with pid := 3, age := 9, park := park }] }) id id
     let p : Path := { inClause i with pid := 3, age := 9 }
     (siteOf (small i)).v.spilled = [] ∧ others (small i) = [] ∧
     (Issuing i (second .none) (siteOf (second .none)) ∧ oldest (siteOf (second .none)).v.spilled (fun p => !p.isParked) = some p ∧ (second .none).unpoisoned ∧
       (siteOf (second .none)).v.path? 3 = some p ∧ ∀ a ∈ (siteOf (second .none)).v.spilled, a.pid ≠ (siteOf (second .none)).pid) ∧
     (Issuing i (second .baton) (siteOf (second .baton)) ∧ (∀ a ∈ (siteOf (second .baton)).v.spilled, a.park ≠ .none) ∧ (others (second .baton)).map (·.pid) = [2])) :=
  ⟨all_issue (by decide +kernel), by decide +kernel, ⟨issuing_of (by decide +kernel), by decide +kernel⟩, by decide +kernel, by decide +kernel,
    ⟨issuing_of (by decide +kernel), by decide +kernel, ⟨rfl, rfl, by decide +kernel⟩, by decide +kernel, by decide +kernel⟩, issuing_of (by decide +kernel), by decide +kernel, by decide +kernel⟩

/-- R245, R23: the oldest spilled path takes the place of the one that yields, which enters the berm with age zero; with none, it is excluded for 64 cycles. -/
theorem test_yield : (match exec (.yield false) (small' (.yield false) (fun v => { v with spilled := [{ inClause (.yield false) with pid := 3, age := 9 }] }) id id) with
      | .next t => (t.wave? ⟨1, 0, 0⟩).map fun v => (v.slot0.map (·.pid), v.spilled.map fun p => (p.pid, p.age)) | _ => none) = some (some 3, [(1, 0)]) ∧
    (match exec (.yield false) (small' (.yield false) (fun v => { v with slot1 := some { inClause (.yield false) with pid := 2 } }) id id) with
      | .next t => (t.wave? ⟨1, 0, 0⟩).bind (·.slot0) | _ => none).map (fun p : Path => (p.yielded, p.owed)) = some (some 64, [(⟨1, 0, 0⟩, 2)]) := by decide +kernel

/-! ### Memory words -/

/-- The kernel's page is mapped at 0x10000; s1 holds an address. -/
def mapped (i : Instr) (a : Nat) : State := { small' i (fun v => v.setS 1 (BitVec.ofNat 64 a)) id id with
    mem := mwriteAll (placedBytes 32 0xC5000001) [], tlb := [{ ofCore := true, unit := 0, ctx := 0, page := 0x10000, size := 0x4000, leaf := 0x10007 }] }

def noAsk : Asked := { x := false, ctr := 0, aligned := false, r := { op := .load, sp := false, w := 8, fmt := 0, dst := none, acq := none, rel := none, remote := false, det := false, pid := 0, sw := false }, qs := [] }
/-- What the word asks for. -/
def asked (i : Instr) (s : State) : Asked := ((siteOf s).asks i).getD noAsk

theorem asked_eq {i : Instr} {s : State} (h : ((siteOf s).asks i).isSome = true) : (siteOf s).asks i = some (asked i s) := by
  obtain ⟨q, hq⟩ := Option.isSome_iff_exists.mp h
  simp [asked, hq]

/-- The checks of addresses and alignment, as a computation. -/
def saneB (q : Asked) : Bool := !q.qs.any (laneBad q.aligned q.r) && (!q.aligned || !q.qs.any (laneMisaligned q.r))

theorem sane_of {q : Asked} (h : saneB q = true) : q.sane := by
  simp only [saneB, Bool.and_eq_true, Bool.or_eq_true, Bool.not_eq_true'] at h
  exact ⟨h.1, fun ha => h.2.resolve_left (by simp [ha])⟩

theorem starts_of {q : Asked} {s : State} {k : Site} (h : saneB q = true) (ht : (s.startLanes k.w q.r q.qs).todo = []) (hk : (s.startLanes k.w q.r q.qs).kill = none) :
    q.starts s k := ⟨sane_of h, ht, hk⟩

/-- In device memory and in a scratchpad, with nothing on its way. -/
theorem witness_LoadsAndAtomics : (∀ i : Instr, (mapped i 0x11000).queue = [] ∧ (mapped i 0x11000).buffer = [] ∧ (mapped i 0x11000).waves.map (·.2.pend) = [[]]) ∧ ∀ i ∈ ([.sld false 3 1 0x7F8, .vld false 0 3 97 112, .vldsp false 3 3 113 112, .vldacq false 0 3 97 112 3 1 0, .vatom false 1 3 97 3 9 3 4 0 0 1, .vldacq false 0 3 97 112 1 0 1, .vatom false 1 3 97 3 0 0 0 0 1 0] : List Instr),
    let s := mapped i 0x11000
    (siteOf s).asks i = some (asked i s) ∧ (asked i s).r.op ≠ .store ∧ Issuing i s (siteOf s) ∧ (asked i s).starts s (siteOf s) := by
  refine ⟨fun i => ⟨rfl, rfl, rfl⟩, fun i hi => ?_⟩
  have h : ∀ i ∈ ([.sld false 3 1 0x7F8, .vld false 0 3 97 112, .vldsp false 3 3 113 112, .vldacq false 0 3 97 112 3 1 0, .vatom false 1 3 97 3 9 3 4 0 0 1, .vldacq false 0 3 97 112 1 0 1, .vatom false 1 3 97 3 0 0 0 0 1 0] : List Instr),
      let s := mapped i 0x11000
      ((siteOf s).asks i).isSome = true ∧ (asked i s).r.op ≠ .store ∧ issues i s = true ∧ saneB (asked i s) = true ∧
        (s.startLanes (siteOf s).w (asked i s).r (asked i s).qs).todo = [] ∧ (s.startLanes (siteOf s).w (asked i s).r (asked i s).qs).kill = none := by decide +kernel
  obtain ⟨h₁, h₂, h₃, h₄, h₅, h₆⟩ := h i hi
  exact ⟨asked_eq h₁, h₂, issuing_of h₃, starts_of h₄ h₅ h₆⟩

theorem witness_Stores : ∀ i ∈ ([.sst false 3 1 0x800, .vst false 0 3 97 112, .vstsp false 3 3 113 112, .vstrel false 0 3 97 112 4 0] : List Instr),
    let s := mapped i 0x11000
    (siteOf s).asks i = some (asked i s) ∧ (asked i s).r.op = .store ∧ Issuing i s (siteOf s) ∧ (asked i s).starts s (siteOf s) := by
  intro i hi
  have h : ∀ i ∈ ([.sst false 3 1 0x800, .vst false 0 3 97 112, .vstsp false 3 3 113 112, .vstrel false 0 3 97 112 4 0] : List Instr),
      let s := mapped i 0x11000
      ((siteOf s).asks i).isSome = true ∧ (asked i s).r.op = .store ∧ issues i s = true ∧ saneB (asked i s) = true ∧
        (s.startLanes (siteOf s).w (asked i s).r (asked i s).qs).todo = [] ∧ (s.startLanes (siteOf s).w (asked i s).r (asked i s).qs).kill = none := by decide +kernel
  obtain ⟨h₁, h₂, h₃, h₄, h₅, h₆⟩ := h i hi
  exact ⟨asked_eq h₁, h₂, issuing_of h₃, starts_of h₄ h₅ h₆⟩

/-- The last byte at 2^52; an acquire at an odd address; a poisoned page table; an unmapped page; an absent line. -/
theorem witness_MemoryStops :
    let ld := Instr.sld false 3 1 0
    let acq := Instr.vldacq false 0 3 97 112 0 0 0
    let sp := Instr.vldsp false 0 3 97 112
    let bad := mapped ld (2 ^ 52 - 7)
    let odd := mapped acq 0x11001
    let poisoned := { mapped ld 0x11000 with mempoison := [0x4000 / 32], tlb := [] }
    let unmapped := mapped ld 0x14000
    let absent := { mapped sp 0 with teams := [(⟨1, 0⟩, { placedTeam with absent := [0] })] }
    let started := fun (i : Instr) (s : State) => s.startLanes (siteOf s).w (asked i s).r (asked i s).qs
    let issued := fun (i : Instr) (s : State) => (siteOf s).asks i = some (asked i s) ∧ Issuing i s (siteOf s)
    (issued ld bad ∧ (asked ld bad).qs.any (laneBad (asked ld bad).aligned (asked ld bad).r) = true) ∧
    (issued acq odd ∧ (asked acq odd).qs.any (laneBad (asked acq odd).aligned (asked acq odd).r) = false ∧ (asked acq odd).aligned = true ∧ (asked acq odd).qs.any (laneMisaligned (asked acq odd).r) = true) ∧
    (issued ld poisoned ∧ (asked ld poisoned).sane ∧ (started ld poisoned).kill = some 0x0E) ∧
    (issued ld unmapped ∧ (asked ld unmapped).sane ∧ (started ld unmapped).kill = none ∧ (started ld unmapped).todo ≠ [] ∧ (started ld unmapped).fault = some (0x14000, 0, 3)) ∧
    (issued sp absent ∧ (asked sp absent).sane ∧ (started sp absent).kill = none ∧ (started sp absent).todo ≠ [] ∧ (started sp absent).fault = none) := by
  refine ⟨⟨⟨asked_eq ?_, issuing_of ?_⟩, ?_⟩, ⟨⟨asked_eq ?_, issuing_of ?_⟩, ?_⟩, ⟨⟨asked_eq ?_, issuing_of ?_⟩, sane_of ?_, ?_⟩, ⟨⟨asked_eq ?_, issuing_of ?_⟩, sane_of ?_, ?_⟩, ⟨asked_eq ?_, issuing_of ?_⟩, sane_of ?_, ?_⟩
    <;> decide +kernel
theorem quiet_small (i : Instr) : (small i).quiet := by
  refine ⟨fun e he => ?_, by simp [small, State.placed, placedTeam]⟩
  simp only [small, List.mem_singleton] at he
  subst he
  exact ⟨by simp [Wave.paths, waveAt, placedWave, Wave.unborn, inClause], by simp [waveAt, placedWave, Wave.unborn]⟩

theorem noStores_of {s : State} (h : s.queue = [] ∧ s.buffer = []) : s.noStores := by simp [State.noStores, State.spadStores, h.1, h.2]

/-- A scratchpad of one line, present or absent. -/
theorem witness_PresenceInstructions :
    (∀ i ∈ ([.spclr false 0 1023, .spclrFill false 0 0, .spwait false 0 0] : List Instr), Issuing i (small i) (siteOf (small i)) ∧ (small i).noStores ∧
      (small i).quiet ∧ (small i).team? (siteOf (small i)).w.teamRef = some placedTeam ∧ (siteOf (small i)).l.hdr.spadP = 128 ∧ 0 ∉ placedTeam.absent) ∧
    (let i := Instr.spwait false 0 0
     let s := small' i id (fun t => { t with absent := [0] }) id
     Issuing i s (siteOf s) ∧ s.team? (siteOf s).w.teamRef = some { placedTeam with absent := [0] }) := by
  refine ⟨fun i hi => ?_, issuing_of (by decide +kernel), by decide +kernel⟩
  have h : ∀ i ∈ ([.spclr false 0 1023, .spclrFill false 0 0, .spwait false 0 0] : List Instr), issues i (small i) = true ∧
      (small i).team? (siteOf (small i)).w.teamRef = some placedTeam ∧ (siteOf (small i)).l.hdr.spadP = 128 ∧ 0 ∉ placedTeam.absent := by decide +kernel
  exact ⟨issuing_of (h i hi).1, noStores_of ⟨rfl, rfl⟩, quiet_small i, (h i hi).2⟩

/-- No slot armed, and slot 7 armed for one byte that has not come. -/
theorem witness_StageInstructions :
    let arm := Instr.starm false 0 1 2 7
    let wait := Instr.stwait false 3 0
    let t := placedTeam.putSlot 0 7 { expect := 1, delivered := 0, rank := 0, armed := true, forfeit := false }
    let unmet := small' wait id (fun _ => t) id
    let askedOf := fun s : State => State.forfeits { s with teams := tmod ⟨1, 0⟩ (fun u => { u with stages := sins 0 u.stages }) s.teams }
    (∀ i ∈ [arm, wait], Issuing i (small i) (siteOf (small i)) ∧ (small i).noStores ∧
      (small i).spadLoc (siteOf (small i)).w.teamRef (((siteOf (small i)).s 0).toNat % 2 ^ 32 / 128 * 128) = .spad ⟨1, 0⟩ 0) ∧
    (∀ e ∈ (small arm).waves, ∀ p ∈ e.2.paths, p.park = .none) ∧
    (∃ k, (askedOf (small wait)).team? ⟨1, 0⟩ = some k ∧ k.stageMet 0 = true) ∧
    Issuing wait unmet (siteOf unmet) ∧ unmet.noStores ∧ (∃ k, (askedOf unmet).team? ⟨1, 0⟩ = some k ∧ k.stageMet 0 = false) := by
  refine ⟨fun i hi => ?_, by decide +kernel, ⟨{ placedTeam with stages := [0] }, by decide +kernel, by decide +kernel⟩, issuing_of (by decide +kernel), noStores_of ⟨rfl, rfl⟩,
    ⟨{ placedTeam.putSlot 0 7 { expect := 1, delivered := 0, rank := 0, armed := true, forfeit := false } with stages := [0] }, by decide +kernel, by decide +kernel⟩⟩
  have h : ∀ i ∈ [Instr.starm false 0 1 2 7, .stwait false 3 0], issues i (small i) = true ∧
      (small i).spadLoc (siteOf (small i)).w.teamRef (((siteOf (small i)).s 0).toNat % 2 ^ 32 / 128 * 128) = .spad ⟨1, 0⟩ 0 := by decide +kernel
  exact ⟨issuing_of (h i hi).1, noStores_of ⟨rfl, rfl⟩, (h i hi).2⟩

theorem witness_TimelinesCopiesPrefetches :
    let w := Instr.tlwait false 15 1
    let ahead := small' w (fun v => v.setS 1 1) id id
    (∀ i ∈ ([.tlwait false 15 1, .cpy false 7 1, .vprf false 0 1 2, .vprf false 1 1 2] : List Instr), Issuing i (small i) (siteOf (small i))) ∧
    ((siteOf (small w)).s 1).toNat ≤ ((siteOf (small w)).l.timelines.getD 15 Timeline.zero).value ∧
    Issuing w ahead (siteOf ahead) ∧ ((siteOf ahead).l.timelines.getD 15 Timeline.zero).value < ((siteOf ahead).s 1).toNat :=
  ⟨all_issue (by decide +kernel), by decide +kernel, issuing_of (by decide +kernel), by decide +kernel⟩

theorem witness_Fences : ∀ i ∈ ([.fence false 0 0 0, .fence false 1 4 3, .fence false 0 1 1] : List Instr), Issuing i (small i) (siteOf (small i)) ∧
    (siteOf (small i)).v.pend = [] ∧ (siteOf (small i)).v.fences = [] ∧ (small i).queue = [] ∧ (small i).buffer = [] ∧
    ∀ k, (small i).team? (siteOf (small i)).w.teamRef = some k → k.escrow = none := by
  intro i hi
  have h : ∀ i ∈ ([.fence false 0 0 0, .fence false 1 4 3, .fence false 0 1 1] : List Instr), issues i (small i) = true ∧ (siteOf (small i)).v.pend = [] ∧ (siteOf (small i)).v.fences = [] ∧
      (small i).team? (siteOf (small i)).w.teamRef = some placedTeam := by decide +kernel
  obtain ⟨h₁, h₂, h₃, h₄⟩ := h i hi
  refine ⟨issuing_of h₁, h₂, h₃, rfl, rfl, fun k hk => ?_⟩
  rw [h₄] at hk
  cases hk
  rfl

/-! ### System words -/

/-- The small state's tenant, with a share of handles from slot 0 and an allotment of the wheel. -/
def theTenant (handles wheel : Nat) : Tenant :=
  { raw := BitVec.ofNat 256 (2 ^ 16 + (2 ^ 32 - 1) * 2 ^ 32 + wheel * 2 ^ 76 + handles * 2 ^ 108), en := true, st := 1, events := [], faultSeq := 0, deficit := 0 }

theorem witness_TrapsAndBreakpoints : ∀ d, ∀ i ∈ ([.trap false 0xFFFF, .brk false 0xFFFF] : List Instr),
    let s := { small i with ctxs := [(0, theCtx d)] }
    Issuing i s (siteOf s) ∧ s.ctx? (siteOf s).l.ctx = some (theCtx d) ∧ (theCtx d).debug = d := by
  intro d i hi
  have h : ∀ d, ∀ i ∈ ([.trap false 0xFFFF, .brk false 0xFFFF] : List Instr),
      let s := { small i with ctxs := [(0, theCtx d)] }
      issues i s = true ∧ s.ctx? (siteOf s).l.ctx = some (theCtx d) ∧ (theCtx d).debug = d := by decide +kernel
  exact ⟨issuing_of (h d i hi).1, (h d i hi).2⟩

/-- A store of the wave on its way. -/
def aStore : StoreRec := { sid := 0, op := 0, lane := 0, w := ⟨1, 0, 0⟩, core := 0, loc := .home 0x11000, bytes := [1], rel := none, tso := false, held := false, escrowed := false, whole := false }

/-- A handle table entry of slot 0, in a state. -/
def anEntry (st : Nat) : HandleEnt := { parent := 0, lid := 0, status := 0, location := 0, ctx := 0, lfinal := true, gen := 1, flags := 0, reason := 0, st := st, doneTime := 0, order := 0 }

theorem witness_EventInstructions :
    let sig := Instr.evsig false 1
    let held := { small sig with queue := [aStore] }
    let wait := fun n : Nat => Instr.evwait false 3 1 (BitVec.ofNat 6 n)
    let ahead := small' (wait 4) (fun v => v.setS 4 1) id id
    let hw := Instr.hwait false 3 4
    let handle := fun st : Nat => { small' hw (fun v => v.setS 4 (mkHandle 0 0 1 0)) id id with fabric := { Fabric.reset with handles := [(0, anEntry st)] } }
    ((small sig).ctx? (siteOf (small sig)).l.ctx = some (theCtx false) ∧ (small sig).tenant? (theCtx false).tenant = some (theTenant 0 0)) ∧
    (Issuing sig (small sig) (siteOf (small sig)) ∧ (small sig).waiters = [] ∧ (small sig).released (siteOf (small sig)).w (small sig).nextId 3 = true) ∧
    (Issuing sig held (siteOf held) ∧ held.released (siteOf held).w held.nextId 3 = false) ∧
    (Issuing (wait 4) (small (wait 4)) (siteOf (small (wait 4))) ∧ ((siteOf (small (wait 4))).s 4).toNat = 0) ∧ (Issuing (wait 4) ahead (siteOf ahead) ∧ ((siteOf ahead).s 4).toNat = 1) ∧
    (∀ st, st < 4 → Issuing hw (handle st) (siteOf (handle st)) ∧ (handle st).handleAnswer ((siteOf (handle st)).s 4) % 256 = st) := by
  refine ⟨by decide +kernel, ⟨issuing_of (by decide +kernel), rfl, by decide +kernel⟩, ⟨issuing_of (by decide +kernel), by decide +kernel⟩, ⟨issuing_of (by decide +kernel), by decide +kernel⟩,
    ⟨issuing_of (by decide +kernel), by decide +kernel⟩, fun st hst => ?_⟩
  have h : ∀ st, st < 4 → let s := { small' (.hwait false 3 4) (fun v => v.setS 4 (mkHandle 0 0 1 0)) id id with fabric := { Fabric.reset with handles := [(0, anEntry st)] } }
      issues (.hwait false 3 4) s = true ∧ s.handleAnswer ((siteOf s).s 4) % 256 = st := by decide +kernel
  exact ⟨issuing_of (h st hst).1, (h st hst).2⟩

/-- Times 0 (come), 1 and 2^40 (rounded up to at most 2^40 ahead), 2^40 + 1 (too far), with an allotment of one entry, free or used. -/
theorem witness_TimedSignals :
    let i := Instr.evtime false 3 1 2 1
    let s := fun (t : Nat) (used : Bool) => { small' i (fun v => v.setS 2 (BitVec.ofNat 64 t)) id id with
      tenants := [(0, theTenant 0 1)], wheel := if used then [{ eid := 0, tenant := 0, ev := 0, time := 1024, rel := none }] else [] }
    let at' := fun t : Nat => (t + 1023) / 1024 * 1024
    (∀ t, t = 0 ∨ t = 1 ∨ t = 2 ^ 40 ∨ t = 2 ^ 40 + 1 → Issuing i (s t false) (siteOf (s t false)) ∧ (s t false).tenant? 0 = some (theTenant 0 1) ∧ ((siteOf (s t false)).s 2).toNat = t) ∧
    (at' 0 ≤ 0 ∧ 0 < at' 1 ∧ at' (2 ^ 40) ≤ 2 ^ 40 ∧ 2 ^ 40 < at' (2 ^ 40 + 1)) ∧ (s 0 false).waiters = [] ∧ (s 0 false).released ⟨1, 0, 0⟩ ((s 0 false).nextId + 1) 3 = true ∧
    (Issuing i (s 1 true) (siteOf (s 1 true)) ∧ (theTenant 0 1).wheel ≤ ((s 1 true).wheel.filter (·.tenant == 0)).length) := by
  refine ⟨?_, by decide, rfl, by decide +kernel, issuing_of (by decide +kernel), by decide +kernel⟩
  rintro t (rfl | rfl | rfl | rfl) <;> exact ⟨issuing_of (by decide +kernel), by decide +kernel⟩
/-! ### Fabric and engine words -/

/-- Lengths 8 and 1,024; the payload's line present, poisoned, absent; a stamp too far ahead. -/
theorem witness_OrderedSends :
    let s := fun (i : Instr) (t : Team) => small' i id (fun _ => t) id
    let ls := fun (z : State) (n : Nat) => (List.range n).map fun j => z.spadAt ⟨1, 0⟩ 0 j
    (∀ i ∈ ([.osend false 3 1 0 8, .osend false 3 1 0 1024, .osendAt false 3 1 0 2 8] : List Instr), ∀ t ∈ [placedTeam, { placedTeam with spoison := [0] }, { placedTeam with absent := [0] }],
      Issuing i (s i t) (siteOf (s i t)) ∧ (s i t).noStores ∧ ((siteOf (s i t)).s 0).toNat % 2 ^ 32 = 0) ∧
    (let z := s (.osend false 3 1 0 8) placedTeam; (∀ l ∈ ls z 8, z.lineAbsent l = false) ∧ ∀ l ∈ ls z 8, (z.readLoc l).2 = false) ∧
    (let z := s (.osend false 3 1 0 8) { placedTeam with spoison := [0] }; (∀ l ∈ ls z 8, z.lineAbsent l = false) ∧ ∃ l ∈ ls z 8, (z.readLoc l).2 = true) ∧
    (let z := s (.osend false 3 1 0 8) { placedTeam with absent := [0] }; ∃ l ∈ ls z 8, z.lineAbsent l = true) ∧
    (let z := fun i : Instr => small' i (fun v => v.setS 2 (BitVec.ofNat 64 (2 ^ 24 + 1))) id id
     ∀ i ∈ ([.osendAt false 3 1 0 2 8, .oatomAt false 3 1 4 6 2 0 1] : List Instr), Issuing i (z i) (siteOf (z i)) ∧ (z i).fabric.now + 2 ^ 24 < ((siteOf (z i)).s 2).toNat) := by
  refine ⟨fun i hi t ht => ?_, by decide +kernel, by decide +kernel, by decide +kernel, fun i hi => ?_⟩
  case refine_2 =>
    have h : ∀ i ∈ ([.osendAt false 3 1 0 2 8, .oatomAt false 3 1 4 6 2 0 1] : List Instr), let z := small' i (fun v => v.setS 2 (BitVec.ofNat 64 (2 ^ 24 + 1))) id id
      issues i z = true ∧ z.fabric.now + 2 ^ 24 < ((siteOf z).s 2).toNat := by decide +kernel
    exact ⟨issuing_of (h i hi).1, (h i hi).2⟩
  have h : ∀ i ∈ ([.osend false 3 1 0 8, .osend false 3 1 0 1024, .osendAt false 3 1 0 2 8] : List Instr), ∀ t ∈ [placedTeam, { placedTeam with spoison := [0] }, { placedTeam with absent := [0] }],
      issues i (small' i id (fun _ => t) id) = true ∧ ((siteOf (small' i id (fun _ => t) id)).s 0).toNat % 2 ^ 32 = 0 := by decide +kernel
  exact ⟨issuing_of (h i hi t ht).1, noStores_of ⟨rfl, rfl⟩, (h i hi t ht).2⟩

/-- An aligned word of the mapped page; the address 2^52; an odd address; a poisoned table; an unmapped page. -/
theorem witness_OrderedAtomics : ∀ i ∈ ([.oatom false 3 1 4 6 9 1, .oatomAt false 3 1 4 6 2 0 1] : List Instr), ∀ a : Nat, a = 0x11000 ∨ a = 2 ^ 52 ∨ a = 0x11004 ∨ a = 0x14000 →
    let s := mapped i a
    let bad := badVA (BitVec.ofNat 64 a)
    Issuing i s (siteOf s) ∧ (siteOf s).s 1 = BitVec.ofNat 64 a ∧ (bad = true ↔ a = 2 ^ 52) ∧ (a % 8 ≠ 0 ↔ a = 0x11004) ∧
    (a = 0x11000 → s.translate true (s.coreOf (siteOf s).w.teamRef) 0 .atomic a = .ok 0x11000 false 0 false ∧
      State.translate { s with mempoison := [0x4000 / 32], tlb := [] } true (s.coreOf (siteOf s).w.teamRef) 0 .atomic a = .poison) ∧
    (a = 0x14000 → s.translate true (s.coreOf (siteOf s).w.teamRef) 0 .atomic a = .fault 0 3) := by
  intro i hi a ha
  have h : ∀ i ∈ ([.oatom false 3 1 4 6 9 1, .oatomAt false 3 1 4 6 2 0 1] : List Instr), ∀ a ∈ [0x11000, 2 ^ 52, 0x11004, 0x14000],
      let s := mapped i a
      let bad := badVA (BitVec.ofNat 64 a)
      issues i s = true ∧ (siteOf s).s 1 = BitVec.ofNat 64 a ∧ (bad = true ↔ a = 2 ^ 52) ∧ (a % 8 ≠ 0 ↔ a = 0x11004) ∧
      (a = 0x11000 → s.translate true (s.coreOf (siteOf s).w.teamRef) 0 .atomic a = .ok 0x11000 false 0 false ∧
        State.translate { s with mempoison := [0x4000 / 32], tlb := [] } true (s.coreOf (siteOf s).w.teamRef) 0 .atomic a = .poison) ∧
      (a = 0x14000 → s.translate true (s.coreOf (siteOf s).w.teamRef) 0 .atomic a = .fault 0 3) := by decide +kernel
  obtain ⟨h₁, h₂⟩ := h i hi a (by simpa using ha)
  exact ⟨issuing_of h₁, h₂⟩

/-- A record of one item and no argument at 0x11000, one of no item at 0x11040; no slot, then one; the parent handle 0, and 1; a page that is not mapped; a poisoned record; an address past the space. -/
theorem witness_Invocations : ∀ i ∈ ([.invk false 3 2 1, .invh false 3 2 1] : List Instr), ∀ en : Bool,
    let at' := fun a : Nat => { mapped i a with
      mem := mwriteAll (placedBytes 32 0xC5000001 ++ word8 0x11010 0x100000000) [], fabric := { Fabric.reset with htEn := en, htBase := 0x2000000 }, tenants := [(0, theTenant 1 0)] }
    let held := fun a : Nat => { at' a with waves := (small' i (fun v => (v.setS 1 (BitVec.ofNat 64 a)).setS 2 1) id id).waves }
    let read := fun s : State => readInvocation (s.loadVA (siteOf s).w (s.coreOf (siteOf s).w.teamRef) (siteOf s).l.ctx s.nextId) ((siteOf s).s 1)
    (∀ s ∈ [at' 0x11000, at' 0x14000, at' (2 ^ 52), held 0x11000, at' 0x11040], Issuing i s (siteOf s)) ∧ (∃ r, read (at' 0x11040) = .ok r [] ∧ r.malformed = true) ∧ handleOf ((siteOf (at' 0x11000)).s 2) = 0 ∧ (at' 0x11000).fabric.heldInv = [] ∧
    (at' 0x11040).handleSlotFor ((at' 0x11040).tenantOfCtx 0) = (if en then some (0, 1) else none) ∧
    (∃ r, read (at' 0x11000) = .ok r [] ∧ r.malformed = false) ∧ (held 0x11000).handleSlotFor ((held 0x11000).tenantOfCtx 0) = (if en then some (0, 1) else none) ∧
    (siteOf (held 0x11000)).s 2 ≠ 0 ∧ mwf (held 0x11000).mem = true ∧ read (at' 0x14000) = .stop (.fault 0x14000 0 3) ∧ read (at' (2 ^ 52)) = .stop .bad ∧
    read { at' 0x11000 with mempoison := [0x11000 / 32] } = .stop .poison := by
  intro i hi en
  have h : ∀ i ∈ ([.invk false 3 2 1, .invh false 3 2 1] : List Instr), ∀ en : Bool,
      let at' := fun a : Nat => { mapped i a with
        mem := mwriteAll (placedBytes 32 0xC5000001 ++ word8 0x11010 0x100000000) [], fabric := { Fabric.reset with htEn := en, htBase := 0x2000000 }, tenants := [(0, theTenant 1 0)] }
      let held := fun a : Nat => { at' a with waves := (small' i (fun v => (v.setS 1 (BitVec.ofNat 64 a)).setS 2 1) id id).waves }
      let read := fun s : State => readInvocation (s.loadVA (siteOf s).w (s.coreOf (siteOf s).w.teamRef) (siteOf s).l.ctx s.nextId) ((siteOf s).s 1)
      let r : InvRec := { kernel := 0, argaddr := 0, arglen := 0, items := 1, fmode := 0, estate := false, malformed := false }
      (∀ s ∈ [at' 0x11000, at' 0x14000, at' (2 ^ 52), held 0x11000, at' 0x11040], issues i s = true) ∧
      (read (at' 0x11040) = .ok { r with items := 0, malformed := true } [] ∧ handleOf ((siteOf (at' 0x11000)).s 2) = 0 ∧ (at' 0x11000).fabric.heldInv = [] ∧ (at' 0x11040).handleSlotFor ((at' 0x11040).tenantOfCtx 0) = (if en then some (0, 1) else none)) ∧
      read (at' 0x11000) = .ok r [] ∧ (held 0x11000).handleSlotFor ((held 0x11000).tenantOfCtx 0) = (if en then some (0, 1) else none) ∧
      (siteOf (held 0x11000)).s 2 ≠ 0 ∧ mwf (held 0x11000).mem = true ∧ read (at' 0x14000) = .stop (.fault 0x14000 0 3) ∧ read (at' (2 ^ 52)) = .stop .bad ∧
      read { at' 0x11000 with mempoison := [0x11000 / 32] } = .stop .poison := by decide +kernel
  obtain ⟨h₁, ⟨h₄, h₅, h₆, h₇⟩, h₂, h₃⟩ := h i hi en
  exact ⟨fun s hs => issuing_of (h₁ s hs), ⟨_, h₄, rfl⟩, h₅, h₆, h₇, ⟨_, h₂, rfl⟩, h₃⟩

/-- The state after a step that goes on. -/
def after (i : Instr) (s : State) : State := match exec i s with | .next t => t | _ => s
/-- The step answers a next state. -/
def goes (i : Instr) (s : State) : Bool := match exec i s with | .next _ => true | _ => false
/-- The wave of the small states. -/
def w0 : WaveRef := ⟨1, 0, 0⟩

/-- A gang of the wave and another, with a turn and a holder. -/
def aGang (turn : Nat) (holder : Option Nat) : Gang := { lid := 1, key := 0, n := 2, members := [(⟨1, 0, 0⟩, true), (⟨1, 1, 0⟩, true)], turn := turn, holder := holder }
/-- The wave at the issue of a word, with the quad's engine as given. -/
def ganged (i : Instr) (g : Option Gang) : State := { small i with quads := [(0, { Quad.reset with gang := g })] }

/-- Another wave of the team, waiting to join, and the wave of the small states beside it. -/
def joining2 (i : Instr) : State :=
  let s := small i
  { s with waves := s.waves ++ [(⟨1, 0, 1⟩, { placedWave with slot0 := some { inClause i with park := .mgang } })],
           quads := [(0, { Quad.reset with joins := [{ w := ⟨1, 0, 1⟩, pid := 1, key := 0, n := 2, clk := 5 }] })] }

/-- Members already, a busy engine, gangs of one and of two; no gang; leaving with another's baton, one's own turn, one's own baton, as the last member, with a wave at the sluice. -/
theorem witness_Gangs :
    let i := fun n : BitVec 3 => Instr.mgang false n 1
    let out := Instr.mgangLeave false
    let other : Gang := { lid := 1, key := 5, n := 1, members := [(⟨1, 1, 0⟩, true)], turn := 0, holder := none }
    let two := joining2 (i 2)
    let a : Arrival := { w := ⟨1, 0, 1⟩, pid := 1, instr := .mzero false 0, scalar := 0, off := 68, op := 0, clk := 0 }
    let last : Gang := { aGang 0 none with members := [(w0, true), (⟨1, 1, 0⟩, false)] }
    let leaves := fun (g : Gang) (as : List Arrival) => { ganged out none with quads := [(0, { Quad.reset with gang := some g, arrivals := as })] }
    (Issuing (i 2) (ganged (i 2) (some (aGang 0 none))) (siteOf (ganged (i 2) (some (aGang 0 none)))) ∧ ((ganged (i 2) (some (aGang 0 none))).memberOf 0 ⟨1, 0, 0⟩).isSome = true) ∧
    (Issuing (i 6) (ganged (i 6) (some other)) (siteOf (ganged (i 6) (some other))) ∧ badJoin (siteOf (ganged (i 6) (some other))) (ganged (i 6) (some other)) 0 6 0 = false) ∧
    (Issuing (i 1) (small (i 1)) (siteOf (small (i 1))) ∧ ((small (i 1)).quad 0).gang = none ∧ ((small (i 1)).quad 0).joins = [] ∧ ((small (i 1)).quad 0).ops = [] ∧ 0 ∉ (small (i 1)).device.fencedQuads) ∧
    (Issuing out (small out) (siteOf (small out)) ∧ (small out).memberOf 0 ⟨1, 0, 0⟩ = none) ∧
    (Issuing (i 2) two (siteOf two) ∧ badJoin (siteOf two) two 0 2 0 = false ∧ (two.quad 0).gang = none ∧ (two.quad 0).ops = [] ∧ (two.quad 0).joins.length + 1 = 2 ∧
      (∀ c ∈ (two.quad 0).joins, c.w.lid = 1 ∧ c.key = 0 ∧ c.n = 2 ∧ two.sameScope (siteOf two).l c.w w0 = true ∧ (two.team? c.w.teamRef).map (·.st) = some .resident) ∧ goes (i 2) two = true) ∧
    (∀ x ∈ [(aGang 1 (some 1), []), (aGang 0 none, []), (aGang 0 (some 0), []), (last, []), (aGang 0 none, [a])], let s := leaves x.1 x.2
     Issuing out s (siteOf s) ∧ s.memberOf 0 w0 = some (x.1, 0) ∧ (s.quad 0).arrivals = x.2 ∧ (s.quad 0).joins = [] ∧ ((setAt x.1.members 0 (w0, false)).any (·.2) = true ↔ x.1 ≠ last) ∧
       (∀ e ∈ s.waves, ∀ p ∈ e.2.paths, p.park ≠ .baton) ∧ goes out s = true) := by
  have h : ∀ x ∈ [(aGang 1 (some 1), []), (aGang 0 none, []), (aGang 0 (some 0), []), ({ aGang 0 none with members := [(w0, true), (⟨1, 1, 0⟩, false)] }, []), (aGang 0 none, [({ w := ⟨1, 0, 1⟩, pid := 1, instr := .mzero false 0, scalar := 0, off := 68, op := 0, clk := 0 } : Arrival)])],
     let s := { ganged (.mgangLeave false) none with quads := [(0, { Quad.reset with gang := some x.1, arrivals := x.2 })] }
     issues (.mgangLeave false) s = true ∧ s.memberOf 0 w0 = some (x.1, 0) ∧ (s.quad 0).arrivals = x.2 ∧ (s.quad 0).joins = [] ∧ ((setAt x.1.members 0 (w0, false)).any (·.2) = true ↔ x.1 ≠ { aGang 0 none with members := [(w0, true), (⟨1, 1, 0⟩, false)] }) ∧
       (∀ e ∈ s.waves, ∀ p ∈ e.2.paths, p.park ≠ .baton) ∧ goes (.mgangLeave false) s = true := by decide +kernel
  refine ⟨⟨issuing_of ?_, ?_⟩, ⟨issuing_of ?_, ?_⟩, ⟨issuing_of ?_, ?_⟩, ⟨issuing_of ?_, ?_⟩, ⟨issuing_of ?_, ?_⟩, fun x hx => ⟨issuing_of (h x hx).1, (h x hx).2⟩⟩ <;> decide +kernel

/-- Holder none, the wave, the other; the wave's own turn, and the other's. -/
theorem witness_Batons : ∀ i ∈ ([.batonTake false, .batonPass false, .batonQuery false 63] : List Instr), ∀ g ∈ [aGang 0 none, aGang 0 (some 0), aGang 0 (some 1), aGang 1 none],
    let s := ganged i (some g)
    Issuing i s (siteOf s) ∧ s.memberOf 0 ⟨1, 0, 0⟩ = some (g, 0) ∧ (s.quad 0).arrivals = [] ∧ (∀ e ∈ s.waves, ∀ p ∈ e.2.paths, p.park ≠ .baton) ∧ (g.turn ≠ 0 → g.members[g.turn]? = some (⟨1, 1, 0⟩, true)) ∧
      goes i s = true ∧ Issuing i (small i) (siteOf (small i)) ∧ (small i).memberOf 0 ⟨1, 0, 0⟩ = none := by
  intro i hi g hg
  have h : ∀ i ∈ ([.batonTake false, .batonPass false, .batonQuery false 63] : List Instr), ∀ g ∈ [aGang 0 none, aGang 0 (some 0), aGang 0 (some 1), aGang 1 none],
      let s := ganged i (some g)
      issues i s = true ∧ (s.memberOf 0 ⟨1, 0, 0⟩ = some (g, 0) ∧ (s.quad 0).arrivals = [] ∧ (∀ e ∈ s.waves, ∀ p ∈ e.2.paths, p.park ≠ .baton) ∧ (g.turn ≠ 0 → g.members[g.turn]? = some (⟨1, 1, 0⟩, true)) ∧ goes i s = true) ∧
        issues i (small i) = true ∧ (small i).memberOf 0 ⟨1, 0, 0⟩ = none := by decide +kernel
  obtain ⟨h₁, ⟨h₂, h₃, h₄, h₅, h₆⟩, h₇, h₈⟩ := h i hi g hg
  exact ⟨issuing_of h₁, h₂, h₃, h₄, h₅, h₆, issuing_of h₇, h₈⟩

/-- The words that pass the sluice. -/
def sluiceWords : List Instr := [.mres false 7 1, .mrel false 7, .mma false 0 1 2, .mzero false 7, .mst false 0 1, .gateSig false 0 1, .gateTanh false 0 1, .gateMul false 0 1 2,
  .gateAdd false 0 1 2, .gateLerp false 0 1 2, .gateScale false 0 1 2]
/-- Another member's arrival at the sluice. -/
def arrived (i : Instr) : Arrival := { w := ⟨1, 1, 0⟩, pid := 1, instr := i, scalar := 7, off := 72, op := 0, clk := 0 }

/-- No gang; the baton held by the wave and by the other; a gang of one live member; two live members, of whom the other is missing, and of whom it has arrived; an arrival of another word. -/
theorem witness_SluiceInstructions : ∀ i ∈ sluiceWords, ∀ x ∈ [(none, []), (some (aGang 0 (some 0)), []), (some (aGang 0 (some 1)), []), (some { aGang 0 none with members := [(⟨1, 0, 0⟩, true)] }, []), (some (aGang 0 none), []),
      (some (aGang 0 none), [arrived i]), (some (aGang 0 (some 1)), [arrived (.trap false 0)])],
    let s := { small i with quads := [(0, { Quad.reset with gang := x.1, arrivals := x.2 })] }
    Issuing i s (siteOf s) ∧ s.memberOf 0 ⟨1, 0, 0⟩ = x.1.map (·, 0) ∧ (s.quad 0).arrivals = x.2 ∧ ((x.2.map (·.w)).Nodup) ∧
      (∀ g, x.1 = some g → ((g.members.filter (·.2)).map (·.1)).Nodup ∧ ∀ c ∈ x.2, c.w ∈ (g.members.filter (·.2)).map (·.1) ∧ c.w ≠ w0) ∧ goes i s = true := by
  intro i hi x hx
  have h : ∀ i ∈ sluiceWords, ∀ x ∈ [(none, []), (some (aGang 0 (some 0)), []), (some (aGang 0 (some 1)), []), (some { aGang 0 none with members := [(⟨1, 0, 0⟩, true)] }, []), (some (aGang 0 none), []),
        (some (aGang 0 none), [arrived i]), (some (aGang 0 (some 1)), [arrived (.trap false 0)])],
      let s := { small i with quads := [(0, { Quad.reset with gang := x.1, arrivals := x.2 })] }
      issues i s = true ∧ s.memberOf 0 ⟨1, 0, 0⟩ = x.1.map (·, 0) ∧ (s.quad 0).arrivals = x.2 ∧ ((x.2.map (·.w)).Nodup) ∧
        (x.1.all fun g => decide (((g.members.filter (·.2)).map (·.1)).Nodup ∧ ∀ c ∈ x.2, c.w ∈ (g.members.filter (·.2)).map (·.1) ∧ c.w ≠ w0)) = true ∧ goes i s = true := by decide +kernel
  obtain ⟨h₁, h₂, h₃, h₄, h₅, h₆⟩ := h i hi x hx
  exact ⟨issuing_of h₁, h₂, h₃, h₄, fun g hg => by simpa [hg] using h₅, h₆⟩

theorem witness_MemberInstructions : ∀ i ∈ ([.mrd false 95 7 1, .mwr false 7 95 1, .mld false 7 0xFFFFFFFF, .rstat false 93 7] : List Instr), ∀ g ∈ [none, some (aGang 0 (some 1))],
    let s := ganged i g
    Issuing i s (siteOf s) ∧ (s.memberOf 0 ⟨1, 0, 0⟩).isSome = g.isSome := by
  intro i hi g hg
  have h : ∀ i ∈ ([.mrd false 95 7 1, .mwr false 7 95 1, .mld false 7 0xFFFFFFFF, .rstat false 93 7] : List Instr), ∀ g ∈ [none, some (aGang 0 (some 1))],
      let s := ganged i g
      issues i s = true ∧ (s.memberOf 0 ⟨1, 0, 0⟩).isSome = g.isSome := by decide +kernel
  exact ⟨issuing_of (h i hi g hg).1, (h i hi g hg).2⟩
/-! ### States that meet the hypotheses of the statements about steps -/

/-- A path of the small states with changes. -/
def path (n age : Nat) (f : Path → Path) : Path := f { inClause (.nop false) with pid := n, age := age }

/-- A spilled path of age 4,096, the default threshold; a `yield` window at its end; paths and an operation parked for one tick more than 10,000 µs. -/
theorem witness_PathSteps :
    let wave := fun f : Wave → Wave => small' (.nop false) f id id
    let late := fun p : Path => { p with park := .baton, since := 160000001 }
    let swap := wave fun v => { v with slot1 := some (path 2 5 id), spilled := [path 3 4096 id] }
    let win := wave fun v => { v with slot1 := some (path 2 0 fun p => { p with yielded := some 0 }) }
    let stuck := wave fun v => { v with slot1 := some (path 2 0 late), spilled := [path 3 0 late] }
    let op : EngOp := { instr := .mzero false 0, members := [(w0, 1, 68)], scalar := 0, row := 0, stall := none, stalled := 160000001, data := [], flags := 0, noted := [] }
    let engine := { small (.nop false) with quads := [(0, { Quad.reset with ops := [op] })] }
    (∃ v, swap.wave? w0 = some v ∧ swap.running w0 = true ∧ swap.unpoisoned ∧ swap.wlog = [] ∧ oldest v.spilled (fun p => !p.isParked && 4096 ≤ p.age) = some (path 3 4096 id) ∧
      v.victim = some (path 1 0 id) ∧ v.path? 1 = some (path 1 0 id) ∧ v.path? 3 = some (path 3 4096 id)) ∧
    (∃ v p, win.wave? w0 = some v ∧ v.slot1 = some p ∧ p.yielded = some 0) ∧
    (∃ v p, stuck.wave? w0 = some v ∧ v.slot1 = some p ∧ p.park ≠ .none ∧ stuck.present w0 = true ∧ stuck.parkLimit 1 < p.since) ∧
    (∃ v p, stuck.wave? w0 = some v ∧ v.spilled[0]? = some p ∧ p.park ≠ .none ∧ stuck.parkLimit 1 < p.since) ∧
    (engine.quad 0).ops = [op] ∧ engine.parkLimit 1 < op.stalled ∧
    ([(Instr.bermSwap w0, swap), (.yieldWindowEnd w0 true, win), (.parkTimeout (.slot w0 true), stuck), (.parkTimeout (.berm w0 0), stuck), (.parkTimeout (.engine 0), engine)].all fun x => goes x.1 x.2) = true := by
  refine ⟨⟨_, rfl, ?_, ⟨rfl, rfl, ?_⟩, rfl, ?_, ?_, ?_, ?_⟩, ⟨_, _, rfl, rfl, rfl⟩, ⟨_, _, rfl, rfl, ?_, ?_, ?_⟩, ⟨_, _, rfl, rfl, ?_, ?_⟩, ?_, ?_, ?_⟩ <;> decide +kernel
/-- A team barrier at which the only wave has arrived; a cohort's in a deterministic launch; a drop, a claim and an atomic held for their turn; a take whose team's turn it is. -/
theorem witness_BarrierTicketSteps :
    let det := fun (l : Launch) => { l with hdr := { l.hdr with det := true } }
    let team := after (.bar false 15) (small (.bar false 15))
    let cohort := after (.barCohort false 15) (small' (.barCohort false 15) id id det)
    let drop := after (.edrop false 1) (small' (.edrop false 1) (fun v => v.setS 1 5) id det)
    let take := after (.tktake false 7) (small (.tktake false 7))
    let p : Pend := { id := 1, ctr := 6, off := 68, dests := [], kind := .edrop 5, clk := 0, held := true }
    let req : MemReq := { op := .atom 0, sp := false, w := 8, fmt := 0, dst := some (.v 3), acq := none, rel := none, remote := false, det := true, pid := 1, sw := false }
    let part : Part := { lane := 31, pos := 0, loc := .home 0x11000, n := 8, tso := false, d0 := 7, d1 := 0, val := none }
    let held := fun (kind : PendKind) => small' (.nop false) (fun v => v.addPend { p with id := 0, kind := kind }) id det
    let tk : PendTake := { k := 7, w := w0, op := 1, whole := false }
    (team.wlog = [] ∧ team.phaseReady (.team ⟨1, 0⟩ 15) = true ∧ team.phaseDet (.team ⟨1, 0⟩ 15) = true) ∧
    (cohort.wlog = [] ∧ cohort.phaseReady (.cohort 1 0 15) = true ∧ cohort.phaseDet (.cohort 1 0 15) = true ∧ (cohort.launch? 1).map (·.hdr.det) = some true) ∧
    (drop.wlog = [] ∧ (drop.wave? w0).bind (·.pend? 1) = some p ∧ (drop.wave? w0).map (·.pend) = some [p] ∧ drop.detClear 1 0 (logicalId w0) (· == w0) = true ∧
      (drop.wave? w0).map (·.estateTurn 1) = some true) ∧
    (∀ s ∈ [held (.ecl 3 4 1 false 5 [(0, 9)]), held (.mem req [] [part] 0)], s.sound = true ∧ s.mempoison = [] ∧ s.lasting = [] ∧ s.device.frames = [] ∧ s.queue = [] ∧ s.buffer = [] ∧ (s.wave? w0).map (·.seen) = some [] ∧ s.detClear 1 0 (logicalId w0) (· == w0) = true ∧
      (s.wave? w0).map (·.estateTurn 0) = some true ∧ goes (.detOpEffect (.op w0 0)) s = true) ∧
    (let s := (held (.mem req [] [part] 0)).modWave w0 fun v => v.modPend 0 fun x => { x with held := false }
     s.canPerform w0 { p with id := 0, kind := .mem req [] [part] 0, held := false } 0 = true) ∧
    (take.wlog = [] ∧ take.takes = [tk] ∧ take.takeReady tk = true ∧ (take.launch? 1).map (fun l => (l.tickets.length, l.marked, l.tickets.getD 7 0)) = some (8, [], 0)) ∧
    ([(Instr.barrierPhaseComplete (.team ⟨1, 0⟩ 15), team), (.barrierPhaseComplete (.cohort 1 0 15), cohort), (.detOpEffect (.phase 1 0 15), cohort), (.detOpEffect (.op w0 1), drop),
      (.ticketAdvance 1 7, take)].all fun x => goes x.1 x.2) = true := by decide +kernel

/-- The wave with one outstanding operation. -/
def pending (ctr : Nat) (dests : List Reg) (kind : PendKind) : State :=
  small' (.nop false) (fun v => v.addPend { id := 0, ctr := ctr, off := 68, dests := dests, kind := kind, clk := 0, held := false }) id id

/-- Each kind of result; a load, an atomic of one lane and one of two lanes of one location, to be performed at home; a claim of two keys. -/
theorem witness_ResultSteps :
    let res := fun c => pending c [.s 3] (.result [.s 3 9] 0)
    let req : MemReq := { op := .load, sp := false, w := 8, fmt := 0, dst := some (.v 3), acq := none, rel := none, remote := false, det := false, pid := 1, sw := false }
    let part : Part := { lane := 31, pos := 0, loc := .home 0x11000, n := 8, tso := false, d0 := 0, d1 := 0, val := none }
    let load := pending 0 [.v 3] (.mem req [] [part] 0)
    let back := fun bad : Bool => pending 0 [.s 3] (.mem { req with dst := some (.s 3) } [] [{ part with val := some (List.replicate 8 (1, bad)) }] 0)
    let query := pending 6 [.m 3] (.equery 3 5 [(0, 9)])
    let send := fun (n : Nat) (t : Option Nat) => { pending 5 [.s 3] (.fab (.osend 3 n 0 0 [1] t) false) with fabric := { Fabric.reset with highest := 1 } }
    let first := fun s : State => (s.wave? w0).bind (·.pend? 0)
    let claim := fun keep : Bool => pending 6 [.m 3, .v 4] (.ecl 3 4 1 keep 5 [(0, 9), (31, 40)])
    let atom : MemReq := { req with op := .atom 0, w := 4 }
    let lane := fun l : Nat => { part with lane := l, n := 4, d0 := 7 }
    let one := pending 0 [.v 3] (.mem atom [] [lane 31] 0)
    let both := pending 0 [.v 3] (.mem atom [] [lane 0, lane 31] 0)
    let perf := both.perform w0 { id := 0, ctr := 0, off := 68, dests := [.v 3], kind := .mem atom [] [lane 0, lane 31] 0, clk := 0, held := false } 0
    ((res 0).wlog = [] ∧ ((first (res 0)).map (·.ctr), (first (res 2)).map (·.ctr), (first (res 7)).map (·.ctr), (first (res 6)).map (·.ctr)) = (some 0, some 2, some 7, some 6)) ∧
    (load.canPerform w0 { id := 0, ctr := 0, off := 68, dests := [.v 3], kind := .mem req [] [part] 0, clk := 0, held := false } 0 = true ∧ load.queue = [] ∧ load.buffer = [] ∧ load.cache = [] ∧
      load.mempoison = [] ∧ load.lasting = [] ∧ load.device.frames = [] ∧ (load.wave? w0).map (·.seen) = some []) ∧
    ((back true).launch? 1).map (·.st) = some .running ∧ (query.wave? w0).map (·.estateTurn 0) = some true ∧
    (((send 0 (some 0)).wave? w0).map (·.firstToLeave 0) = some true ∧ (send 0 (some 0)).fabReleased w0 0 = true ∧ (send 1 none).fabReleased w0 0 = true ∧ (send 0 none).fabReleased w0 0 = true ∧ 0 < (send 0 (some 0)).floorF ∧ (send 1 none).reachable 1 = false ∧ (send 0 none).fabric.future = [] ∧ (send 1 none).fabric.future = [] ∧ (send 0 (some 0)).fabric.future = [] ∧
      (send 0 none).fabric.node = 0 ∧ (send 0 none).excisedNode 0 = false) ∧
    (∀ keep, ((claim keep).wave? w0).map (·.estateTurn 0) = some true ∧ (claim keep).mempoison = [] ∧ (claim keep).lasting = [] ∧ (claim keep).device.frames = [] ∧ goes (.ecComplete w0 0) (claim keep) = true) ∧
    (one.canPerform w0 { id := 0, ctr := 0, off := 68, dests := [.v 3], kind := .mem atom [] [lane 31] 0, clk := 0, held := false } 0 = true ∧
      both.canPerform w0 { id := 0, ctr := 0, off := 68, dests := [.v 3], kind := .mem atom [] [lane 0, lane 31] 0, clk := 0, held := false } 0 = true ∧
      (((perf.wave? w0).bind (·.pend? 0)).map fun p => perf.canPerform w0 p 1) = some true ∧ one.sound = true ∧ both.sound = true ∧ (∀ s ∈ [one, both], s.queue = [] ∧ s.buffer = [] ∧ (s.wave? w0).map (·.seen) = some [] ∧
        s.mempoison = [] ∧ s.lasting = [] ∧ s.device.frames = [] ∧ goes (.loadReturn w0 0) s = true)) ∧
    ([(Instr.loadReturn w0 0, res 0), (.sfuResult w0 0, res 2), (.xlResult w0 0, res 7), (.ecComplete w0 0, res 6), (.loadReturn w0 0, pending 0 [.s 3] (.tlread 3 15)), (.loadReturn w0 0, load),
      (.loadReturn w0 0, back false), (.loadReturn w0 0, back true), (.ecComplete w0 0, query), (.fbComplete w0 0, pending 5 [.s 3] (.fab (.done [.s 3 0]) false)), (.fbComplete w0 0, send 0 (some 0)),
      (.fbComplete w0 0, send 1 none), (.fbComplete w0 0, send 0 none)].all fun x => goes x.1 x.2) = true := by decide +kernel

theorem witness_StoreAcknowledged :
    let s := fun (l : Loc) => { small (.nop false) with buffer := [{ aStore with loc := l }] }
    (∀ l ∈ [Loc.home 0x11000, .spad ⟨1, 0⟩ 127], (s l).sound = true ∧ (s l).queue = [] ∧ (s l).buffer.find? (·.sid == 0) = some { aStore with loc := l } ∧
      (s l).canPerformStore { aStore with loc := l } = true ∧ aStore.escrowed = false ∧ goes (.storeAck 0) (s l) = true) ∧
    (s (.spad ⟨1, 0⟩ 127)).team? ⟨1, 0⟩ = some placedTeam ∧ placedTeam.alive = true ∧ placedTeam.st ≠ .saved := by decide +kernel

theorem witness_LaunchEnds :
    let ended := after (.exit false) (small (.exit false))
    let sealing := after (.exit false) (small' (.exit false) id id fun l => { l with hdr := { l.hdr with seals := [false, false, false, true] } })
    let dead := after (.trap false 1) (small (.trap false 1))
    ((ended.launch? 1).map (ended.canRetire 1) = some true) ∧
    ((dead.launch? 1).map (·.st) = some .killed ∧ dead.storesAcked (·.lid == 1) = true) ∧
    ((sealing.team? ⟨1, 0⟩).map (fun k => (k.st, k.isSealed)) = some (.retired, false) ∧ (sealing.launch? 1).map (fun l => (l.st, l.hdr.seals.any id)) = some (.running, true) ∧
      sealing.allReleased (·.teamRef == ⟨1, 0⟩) = true) ∧
    ([(Instr.launchRetire 1, ended), (.killRecordWrite 1, dead), (.teamSeal ⟨1, 0⟩, sealing)].all fun x => goes x.1 x.2) = true := by decide +kernel

/-! ### Teams, copies, engines, faults -/

theorem pick_of {s : State} {t : Nat} {ok : Nat → Launch → Bool} {a : Nat} (h : (s.pick t ok).map (·.1) = some a) : ∃ z, s.pick t ok = some (a, z) := by
  obtain ⟨⟨b, z⟩, hz, rfl⟩ := Option.map_eq_some_iff.mp h
  exact ⟨z, hz⟩

/-- A launch with its one team unplaced; a wave unborn; a team that halts; a team saved out. -/
theorem witness_TeamSteps :
    let fresh := { State.reset.placed 64 0 with teams := [], waves := [], launches := [(1, { placedLaunch with nextTeam := 0 })] }
    let unborn := small' (.nop false) (fun _ => Wave.unborn placedLaunch 0xFFFFFFFF) (fun k => { k with st := .placed }) id
    let halting := small' (.nop false) id (fun k => { k with st := .halting, imgBlocks := [0] }) id
    let saved := { small' (.nop false) id (fun k => { k with st := .saved, imgBlocks := [0], image := [0] }) id with issued := [] }
    (fresh.launch? 1 = some { placedLaunch with nextTeam := 0 } ∧ fresh.restores 1 { placedLaunch with nextTeam := 0 } = false ∧
      fresh.placeNext 1 { placedLaunch with nextTeam := 0 } [0] = some (0, placedLaunch) ∧ (placedLaunch.unitTeams 0)[0]? = some 0 ∧
      (placedLaunch.unitTeams 0).any (fresh.claimsBad 1 { placedLaunch with nextTeam := 0 }) = false) ∧
    (∃ z, fresh.pick 0 fresh.wants = some (1, z)) ∧
    (∃ v k, unborn.wave? w0 = some v ∧ unborn.team? w0.teamRef = some k ∧ v.born = false ∧ v.live ≠ 0 ∧ k.st = .placed ∧ k.imgBlocks = []) ∧
    (∃ k, halting.team? ⟨1, 0⟩ = some k ∧ k.st = .halting ∧ ∀ e ∈ halting.waves, e.1.teamRef = ⟨1, 0⟩ → ∀ p ∈ e.2.pend, p.lands = false) ∧
    halting.faults = [] ∧ halting.imageTable 0 .store [0] = false ∧
    (saved.unpoisoned ∧ saved.quiet ∧ (∃ z, saved.pick 0 saved.wants = some (1, z)) ∧ saved.tenantOfCtx 0 = 0 ∧ saved.restores 1 placedLaunch = true ∧
      (saved.savedUnits 1 placedLaunch).contains [⟨1, 0⟩] = true ∧ saved.restoreFits 1 placedLaunch [⟨1, 0⟩] [0] = true ∧ saved.imageStands ⟨1, 0⟩ = true) ∧
    ([(Instr.teamPlace 0 [0], fresh), (.waveBirth w0, unborn), (.teamSaveComplete ⟨1, 0⟩, halting), (.teamRestore [⟨1, 0⟩] [0], saved)].all fun x => goes x.1 x.2) = true := by
  refine ⟨?_, pick_of ?_, ⟨_, _, rfl, rfl, ?_⟩, ⟨_, rfl, ?_⟩, ?_, ?_, ⟨⟨rfl, rfl, rfl⟩, quiet_of ?_, pick_of ?_, ?_⟩, ?_⟩ <;> decide +kernel

/-- A copy of the wave, handed to channel 0. -/
def aCopy : Copy :=
  { cid := 1, cluster := 0, chan := 0, lid := some 1, packet := none, ctx := 0, w := w0, op := 0, off := 68, param := 0, index := 0, accepted := false,
    tmpl := Template.blank, trec := TensorRec.blank, num := 0, tl := 0, pieces := [], uncounted := [], stall := none, status := 0 }

/-- A table of one template at 0x11000, of one element to offset 0 of the scratchpad or to row 3 of the wave; its record at 0x11040, its bytes at 0x11080. -/
def copying (row : Bool) : State :=
  { small' (.nop false) id id fun l => { l with tmplAddr := 0x11000, ntempl := 1 } with
    copies := [aCopy], tlb := [{ ofCore := false, unit := 0, ctx := 0, page := 0x10000, size := 0x4000, leaf := 0x10007 }],
    mem := mwriteAll (word8 0x11000 0x11040 ++ word8 0x11018 (if row then 3 else 0) ++ word8 0x11028 0x10001 ++ word8 0x11038 (if row then 8 else 0) ++
      word8 0x11040 0x11080 ++ word8 0x11080 0x11) [] }

/-- An operand of one f32 at the start of the scratchpad, as A or as B. -/
def anOperand (roleB : Bool) : OperRec :=
  { roleB := roleB, space := true, blk := 0, fmt := 1, nb := 0, k := 1, stride := 0, cbaddr := 0, scaleaddr := 0, addr := 0, team := ⟨1, 0⟩ }
/-- The engine of quad 767, at row 63 of an operation whose record, at 0x11000, is given. -/
def engineAt (i : Instr) (ranges : List (Nat × OperRec)) (record : Nat) : State :=
  { small (.nop false) with
    quads := [(767, { Quad.reset with
      gang := some (aGang 0 none), ranges := ranges, ops := [{
        instr := i, members := [(w0, 1, 68)], scalar := 0x11000, row := 63, stall := none, stalled := 0, data := [(31, 0)], flags := 0, noted := [] }] })],
    tlb := [{ ofCore := false, unit := 15, ctx := 0, page := 0x10000, size := 0x4000, leaf := 0x10007 }],
    mem := mwriteAll ((leBytes 64 record).zipIdx.map fun p => (0x11000 + p.2, p.1)) [] }

/-- An index past an empty table; a template and a record that pass, with a line that has room and one that counts 15; the piece of a scratchpad line, of a register row and of device memory; each engine operation: `mma` of ranges that pair, of none, and of one
whose page is not mapped; `mres` of a record that is good, that is not, and that finds no room; `mst` through a record of one element. -/
theorem witness_CopyAndEngineSteps :
    let past := { small (.nop false) with copies := [aCopy] }
    let l1 := { placedLaunch with tmplAddr := 0x11000, ntempl := 1 }
    let full := fun row : Bool => { copying row with teams := [(⟨1, 0⟩, { placedTeam with counts := [(0, 15)], absent := [0] })] }
    let unmapped := { anOperand true with space := false, addr := 0x40000 }
    let large := { anOperand true with k := 65536 }
    let good := 2 ^ 224
    let tensor := 2 ^ 320
    let head := fun s : State => ((s.quad 767).ops.head?).getD { instr := .nop false, members := [], scalar := 0, row := 0, stall := none, stalled := 0, data := [], flags := 0, noted := [] }
    (past.copies.find? (·.cid == 1) = some aCopy ∧ past.launch? 1 = some placedLaunch ∧ past.channel 0 0 = [] ∧ (∀ e ∈ past.teams, e.2.st ≠ .saved) ∧ goes (.copyAccept 1) past = true) ∧
    (∀ row, let s := copying row
      let bs := mreadN 0x11000 64 s.mem
      let rs := mreadN 0x11040 64 s.mem
      let m := Template.ofNat (leNat bs)
      let r := TensorRec.ofNat (leNat rs)
      s.launch? 1 = some l1 ∧ s.readVA false 0 0 .load 0x11000 64 = .ok bs ∧ m.bad (leNat bs) = false ∧ m.srcrec = 0x11040 ∧ s.readVA false 0 0 .load m.srcrec 64 = .ok rs ∧
        r.bad (leNat rs) m.srcrec = false ∧ s.badTarget { aCopy with tmpl := m, trec := r } = false ∧ goes (.copyAccept 1) s = true ∧
        (m.dkind = 0 ↔ row = false) ∧ (row = false → ({ aCopy with tmpl := m, trec := r }).keys s = [(some ⟨1, 0⟩, 0)] ∧ placedTeam.alive = true ∧ goes (.copyAccept 1) (full row) = true ∧
          ((after (.copyAccept 1) (full row)).copies.map (·.uncounted)) = [[0]] ∧ ((after (.copyAccept 1) s).copies.map (·.uncounted)) = [[]])) ∧
    (∀ kind ∈ [0, 1, 2], let c := { aCopy with
        tmpl := { Template.blank with srcrec := 0x11040, rows := 1, cols := 1, dkind := kind, dest := if kind = 2 then 3 else if kind = 1 then 0x11100 else 0 }, trec := { TensorRec.blank with base := 0x11080 },
        accepted := true, num := 1, pieces := [0] }
      let t := { copying (kind == 2) with copies := [c], teams := [(⟨1, 0⟩, { placedTeam with counts := [(0, 2)], absent := [0] })] }
      let key := (c.keys t).getD 0 (none, 0)
      let places := (t.pieceBytes c key).1.map (t.placeAt c)
      (∃ e ∈ (t.channel 0 0).take 4, e.cid = 1) ∧ quietB t = true ∧ t.sound = true ∧ (∀ e ∈ t.teams, e.2.st ≠ .saved) ∧ (t.wave? w0).map (·.ended) = some false ∧ (kind = 2 → c.tmpl.target 1 = (w0, 3)) ∧
      (match (t.pieceBytes c key).2 with | .ok _ => true | _ => false) = true ∧ (places.all fun x => match x with | .at _ => true | _ => false) = true ∧
      (kind = 0 → key = (some ⟨1, 0⟩, 0) ∧ places = ((List.range 8).map fun j => .at (.spad ⟨1, 0⟩ j)) ∧ places.Nodup ∧ mwf placedTeam.spad = true) ∧ (kind = 1 → places = ((List.range 8).map fun j => .at (.home (0x11100 + j))) ∧ places.Nodup) ∧ goes (.copyArrival 1 0) t = true) ∧
    (∀ x ∈ [(Instr.mzero false 7, [], 0), (.mrd false 3 7 1, [], 0), (.mwr false 7 3 1, [], 0), (.mma false 7 0 1, [], 0), (.mma false 7 0 1, [(0, anOperand false), (1, anOperand true)], 0), (.mma false 7 0 1, [(0, anOperand false), (1, unmapped)], 0),
        (.mres false 0 1, [], 0), (.mres false 0 1, [], good), (.mres false 0 1, [(1, large), (2, large)], good), (.mrel false 0, [(0, large)], 0), (.mld false 0 1, [], 0), (.mst false 7 1, [], tensor), (.mst false 7 1, [], 3 * 2 ^ 324), (.rstat false 3 7, [], 0)],
      let s := engineAt x.1 x.2.1 x.2.2
      let u := s.quad 767
      s.sound = true ∧ u.ops = [head s] ∧ (head s).stall = none ∧ s.running w0 = true ∧ u.gang.isSome = true ∧ 767 ∉ s.device.fencedQuads ∧ u.consumesPoison (head s) = false ∧ (u.row 7 63).length = 32 ∧ (u.row 7 (0x11000 % 64)).length = 32 ∧
        u.tags.length = 8 ∧ s.launch? 1 = some placedLaunch ∧ (s.wave? w0).map (·.ended) = some false ∧ goes (.engineOpComplete 767 .clean) s = true) ∧
    (let s := engineAt (.mma false 7 0 1) [(0, anOperand false), (1, anOperand true)] 0
     pairing 1 1 = some (0, 1) ∧ (match s.operTile 15 0 (s.fmOf w0) (anOperand true) 64 7 with | .ok _ es => es.isEmpty | _ => false) = true ∧ (match s.operRow 15 0 (s.fmOf w0) (anOperand false) 63 1 7 with | .ok _ es => es.isEmpty | _ => false) = true ∧
       (match s.operTile 15 0 (s.fmOf w0) unmapped 64 7 with | .stop (.fault va _ _) => va == 0x40000 | _ => false) = true) ∧
    ((TensorRec.ofNat (3 * 2 ^ 324)).blk ≠ 0 ∧ ∀ n ∈ [0, good, tensor, 3 * 2 ^ 324], (engineAt (.mres false 0 1) [] n).engRecord 15 0 0x11000 = .inr n) ∧
    ((OperRec.ofNat good ⟨1, 0⟩).k = 1 ∧ (OperRec.ofNat good ⟨1, 0⟩).blk = 0 ∧ (OperRec.ofNat good ⟨1, 0⟩).fmt = 0 ∧ (OperRec.ofNat 0 ⟨1, 0⟩).k = 0 ∧ large.size = 32768) ∧
    (let r := TensorRec.ofNat tensor
     let s := engineAt (.mst false 7 1) [] tensor
     r.bad tensor 0x11000 = false ∧ r.blk = 0 ∧ r.fmt = 1 ∧ (s.quad 767).tag 7 = 0 ∧ s.mstStores 15 0 ((s.quad 767).mstRow (s.fmOf w0) r 7 63) = (none, []) ∧ s.land [] = s) ∧
    (∀ i ∈ ([.gateSig false 7 1, .gateTanh false 7 1, .gateMul false 7 1 2, .gateAdd false 7 1 2, .gateLerp false 7 1 2, .gateScale false 7 1 2] : List Instr), let s := engineAt i [] 0
      (s.quad 767).consumesPoison (head s) = false ∧ (s.quad 767).tags.length = 8 ∧ ((s.quad 767).row 2 0).length = 32) := by
  refine ⟨?_, ?_, ?_, ?_, ?_, ?_, ?_, ?_, ?_⟩ <;> decide +kernel

/-- An entry of the first tenant not yet written. -/
def aFault : FaultRec :=
  { fid := 1, tenant := 0, seq := 64, core := 0, cycle := 0, written := false, resolved := false, va := 0x11000, lid := 1, lanes := 1, off := 68, ctx := 0, unit := 0, cause := 0, wr := false, level := 3, holder := .nothing }

/-- Sequence 64 in a queue of 64 entries, with sequence 0 resolved; a wheel entry due now, and a later one; a path parked on an event that has come. -/
theorem witness_FaultAndEventSteps :
    let b := { small (.nop false) with tenants := [(0, theTenant 0 2)], cycles := 1 }
    let full := { b with faults := [{ aFault with fid := 0, seq := 0, written := true, resolved := true }, aFault] }
    let e : WheelEnt := { eid := 3, tenant := 0, ev := 0xFFFF, time := 0, rel := none }
    let wheel := { b with wheel := [{ e with eid := 4 }, e, { e with eid := 1, time := 1 }] }
    let a : Waiter := { wid := 2, tenant := 0, ev := 5, value := 1, who := .path w0 1, inl := false, ready := some 1 }
    let spill := { small' (.nop false) (fun v => { v with slot0 := some (path 1 0 fun p => { p with park := .event 2 63 }) }) id id with waiters := [a] }
    (full.sound = true ∧ (full.faults.filter fun g => g.tenant == 0 && !g.written) = [aFault] ∧ full.tenant? 0 = some (theTenant 0 2) ∧ full.waiters = [] ∧ aFault.cycle < full.cycles ∧
      (∀ g ∈ full.faults, g.tenant = 0 → g.seq + 2 ^ ((theTenant 0 2).fqlog + 6) = aFault.seq → g.resolved = true) ∧
      ∃ g ∈ full.faults, g.seq + 2 ^ ((theTenant 0 2).fqlog + 6) = aFault.seq) ∧
    (wheel.sound = true ∧ wheel.wheel.find? (·.eid == 3) = some e ∧ e.time ≤ wheel.fabric.now ∧ wheel.waiters = [] ∧
      ∀ x ∈ wheel.wheel, x.time ≤ wheel.fabric.now → e.time < x.time ∨ (e.time = x.time ∧ e.eid ≤ x.eid)) ∧
    (spill.sound = true ∧ spill.waiters.find? (fun b => b.wid == 2 && b.tenant == 0) = some a ∧ ((spill.wave? w0).bind (·.path? 1)).map (·.park) = some (.event 2 63)) ∧
    ([(Instr.faultEntryWrite 0, full), (.wheelFire 3, wheel), (.spillwayRelease 0 2, spill)].all fun x => goes x.1 x.2) = true := by
  refine ⟨?_, ?_, ?_, ?_⟩ <;> decide +kernel

/-! ### Queues and packets -/

/-- Queue 5, resident in slot 63, with a ring of 64 units at 0x300000. -/
def aQueue : Queue :=
  { qcbAddr := 0x200000, tenant := 0, en := true, ringBase := 0x300000, tail := 1, head := 0, deficit := 0, waitVal := 0, waitEv := 0, feeder := 0, quantum := 1, ctx := 0, ringLog := 0,
    st := .resident, age := 15, prio := 7, badTail := 0, slot := some 63, loading := false, since := 0, saveReq := false, wasOff := false, waitSince := 0, tailWas := (0, 0) }
/-- The small state with this queue. -/
def queued (k : Queue) : State := { small (.nop false) with queues := [(5, k)] }

/-- Tails at both ends of what is allowed, past them, a smaller one second in a cycle, before READY, and of a queue that is off; a save of a queue that stays
enabled, was disabled, and was enabled again; a load. -/
theorem witness_QueueSteps :
    let idle := queued { aQueue with st := .idle, slot := none }
    let second := queued { aQueue with tail := 60, tailWas := (1, 1) }
    let off := queued { aQueue with en := false }
    let early := { idle with device := { idle.device with phase := 5 } }
    let good := fun (floor v : Nat) => floor ≤ v ∧ v ≤ aQueue.head + 2 ^ (aQueue.ringLog + 6)
    let saved := fun was en : Bool => queued { aQueue with saveReq := true, wasOff := was, en := en }
    let load := queued { aQueue with st := .pending, loading := true }
    (∀ s ∈ [idle, second, off, early, saved false true, saved true false, saved true true, load], s.sound = true ∧ (s.queue? 5).isSome = true) ∧
    (idle.device.phase = 6 ∧ (∃ tn, idle.tenant? 0 = some tn ∧ tn.st ≠ 2) ∧ aQueue.feeder = 0 ∧ good 1 1 ∧ good 1 64 ∧ ¬good 1 0 ∧ ¬good 1 65 ∧ second.cycles + 1 = 1) ∧
    (∀ was en, (saved was en).slotQueue 63 = some (5, { aQueue with saveReq := true, wasOff := was, en := en }) ∧ (saved was en).inParse 5 = false ∧ goes (.queueSave 63) (saved was en) = true) ∧
    (load.slotQueue 63 = none ∧ (load.queues.find? fun p => p.2.slot == some 63 && p.2.loading) = some (5, { aQueue with st := .pending, loading := true }) ∧ goes (.queueLoadComplete 63) load = true) ∧
    ([(Instr.tailWrite 0 5 1, idle), (.tailWrite 0 5 64, queued aQueue), (.tailWrite 0 5 65, idle), (.tailWrite 0 5 0, idle), (.tailWrite 1 5 1, idle), (.tailWrite 0 5 1, second), (.tailWrite 0 5 1, off),
      (.tailWrite 0 5 1, early), (.tailWrite 0 6 1, idle)].all fun x => goes x.1 x.2) = true := by
  refine ⟨?_, ?_, ?_, ?_, ?_⟩ <;> decide +kernel

/-- R316: of two tail writes accepted in one cycle the larger stands, whichever is taken second. -/
theorem test_tailWrite_largest : ((after (.tailWrite 0 5 9) (after (.tailWrite 0 5 64) (queued aQueue))).queue? 5).map (fun k => (k.tail, k.badTail)) = some (64, 0) := by decide +kernel

/-- A decision and an ageing that are due, with a PENDING queue; a wait of exactly 100 µs. -/
theorem witness_QueueTurns :
    let pending := { queued { aQueue with st := .pending, slot := none } with schedDue := true }
    let ageing := { pending with fabric := { Fabric.reset with now := 800000 } }
    let waited := { queued { aQueue with st := .waiting } with fabric := { Fabric.reset with now := 1600000 } }
    (pending.sound = true ∧ pending.ageingDue = false ∧ pending.decisionDue = true ∧ pending.queues = [(5, { aQueue with st := .pending, slot := none })] ∧ (∃ tn, pending.tenant? 0 = some tn ∧ tn.st ≠ 2) ∧
      (pending.queues.map (·.1)).Nodup) ∧
    (ageing.sound = true ∧ ageing.ageingDue = true ∧ aQueue.en = true ∧ aQueue.tenant < 16) ∧
    (waited.sound = true ∧ waited.slotQueue 63 = some (5, { aQueue with st := .waiting }) ∧ aQueue.waitSince + 1600000 ≤ waited.fabric.now) ∧
    ([(Instr.qschedDecision, pending), (.queueAgeing, ageing), (.eventWaitSlotRelease 63, waited)].all fun x => goes x.1 x.2) = true := by
  refine ⟨?_, ?_, ?_, ?_⟩ <;> decide +kernel

/-- The queue with these units in its ring. The page at 0x10000 holds the header of a kernel of three words. -/
def fed (units : List Nat) : State :=
  { queued { aQueue with tail := units.length } with
    tlb := [{ ofCore := false, unit := 0, ctx := 0, page := 0x10000, size := 0x4000, leaf := 0x10007 }],
    mem := mwriteAll (word8 0x10000 (0x004B4853 + 3 * 2 ^ 32 + 96 * 2 ^ 40 + 64 * 2 ^ 48 + 2 ^ 56) ++ word8 0x10008 128 ++ word8 0x10010 (64 + 12 * 2 ^ 32) ++
      (units.flatMap (leBytes 64)).zipIdx.map fun p => (0x300000 + p.2, p.1)) [] }
/-- What the lane of slot 63 sees of them. -/
def packetOf (units : List Nat) : Front := { slot := 63, q := 5, k := { aQueue with tail := units.length }, n := units.headD 0, more := units.tail, bad := false }

/-- The hypotheses of `Takes`, as a computation. -/
def takesB (s : State) (f : Front) : Bool := s.front 63 == some f && s.myTurn f && !s.badForm f && s.queue? f.q == some f.k && s.packets.isEmpty && s.lasting.isEmpty && s.sound

theorem takes_of {s : State} {f : Front} (h : takesB s f = true) : Takes 63 s f := by
  simp only [takesB, Bool.and_eq_true, beq_iff_eq, Bool.not_eq_true', List.isEmpty_iff] at h
  obtain ⟨⟨⟨⟨⟨⟨h1, h2⟩, h3⟩, h4⟩, h5⟩, h6⟩, h7⟩ := h
  exact ⟨h1, h2, h3, h4, h5, h6, h7⟩

/-- LAUNCH, or LAUNCH_INDIRECT of one word, of a kernel with ITEMS threads. -/
def launchUnit (op kernel items : Nat) : Nat := op + (if op = 2 then 2 ^ 24 + 2 ^ 386 else 0) + kernel * 2 ^ 192 + items * 2 ^ 480

/-- Its ring: the command, and the words of its prologue, one `nop`. -/
def launchUnits (op kernel items : Nat) : List Nat := launchUnit op kernel items :: if op = 2 then [0] else []
/-- The prologue of a packet before its first run. -/
def firstRun (f : Front) : Prologue := { regs := proInit (BitVec.ofNat 512 f.n), words := f.words, rep := 0, rerun := false }
/-- What the reads at the start of the packet's launch come to. -/
def loadOf (op kernel items : Nat) : LoadRes :=
  let s := fed (launchUnits op kernel items)
  let f := packetOf (launchUnits op kernel items)
  let fields := launchFields (BitVec.ofNat 512 f.n) (if op = 2 then (match s.proEnd 0 (firstRun f) with | .launch p => some p | _ => none) else none)
  s.loadImage (Launch.entered 0 (some 5) (some s.nextId) fields [] 0 none) (some (fields.argAddr, fields.arglen))
def launchInstr (op : Nat) : Instr := if op = 2 then .launchIndirect 63 else .launch 63

/-- A launch that its lane holds, of a kernel that is good and of one that is unmapped; a kernel that is good, misaligned, unmapped; a prologue that launches and one that launches no thread; one that stops at its last run, and one that launches at a later run. -/
theorem witness_LaunchPackets :
    let p : Packet0 := { pid := 1, q := 5, ctx := 0, order := 1, compl := 0, utag := 0, body := 0, prologue := some { regs := proInit 0, words := [0], rep := 65535, rerun := true }, lid := 1,
                         saving := [], savedLid := 0, started := true }
    let z := { queued aQueue with packets := [p], launches := [(1, { placedLaunch with st := .closed })] }
    (∀ op ∈ [1, 2], ∀ k ∈ [0x10000, 0x40000],
      let o : Packet0 := { p with body := BitVec.ofNat 512 (launchUnit op k 1), started := false, prologue := none }
      let l := { Launch.entered 0 (some 5) (some 1) (launchFields o.body none) [] 0 none with order := 1 }
      let z := { queued aQueue with packets := [o], launches := [(1, { placedLaunch with st := .running }), (2, l)], tlb := (fed []).tlb, mem := (fed []).mem }
      z.slotQueue 63 = some (5, aQueue) ∧ z.queue? 5 = some aQueue ∧ o.op = op ∧ z.startingOf 1 = some (2, l) ∧ z.launch? 2 = some l ∧ l.st = .starting ∧ l.nteams = 0 ∧ z.startFault 2 = false ∧ z.lasting = [] ∧ z.sound = true ∧
        (match z.loadImage l (z.argsAt l) with | .ok h _ _ => k == 0x10000 && h.itag == 0 && !h.istrict && (l.items + h.threads - 1) / h.threads != 0 | .refuse _ => false | .fault .. => k == 0x40000) = true ∧
        goes (launchInstr op) z = true) ∧
    (∀ op ∈ [1, 2], ∀ k ∈ [0x10000, 0x10020, 0x40000], takesB (fed (launchUnits op k 1)) (packetOf (launchUnits op k 1)) = true ∧ (packetOf (launchUnits op k 1)).op = op ∧
      (fed (launchUnits op k 1)).faults = [] ∧ goes (launchInstr op) (fed (launchUnits op k 1)) = true) ∧
    (∀ op ∈ [1, 2], ∀ k ∈ [0x10000, 0x10020, 0x40000], (match loadOf op k 1 with
      | .ok h _ _ => k == 0x10000 && h.itag == 0 && !h.istrict && (1 + h.threads - 1) / h.threads != 0 | .refuse _ => k == 0x10020 | .fault .. => k == 0x40000) = true) ∧
    (let f := packetOf (launchUnits 2 0 0)
     takesB (fed (launchUnits 2 0 0)) f = true ∧ f.op = 2 ∧ (fed (launchUnits 2 0 0)).proEnd 0 (firstRun f) = .stop 5 0 ∧ goes (.launchIndirect 63) (fed (launchUnits 2 0 0)) = true) ∧
    (z.startingOf 1 = none ∧ z.launch? 1 = some { placedLaunch with st := .closed } ∧ z.proEnd 0 { regs := proInit 0, words := [0], rep := 65535, rerun := true } = .stop 5 0 ∧
      goes (.prologueRepeat 1) z = true) ∧
    (∀ k ∈ [0x10000, 0x10020, 0x40000], let pro : Prologue := { regs := setAt (setAt (proInit 0) 0 1) 3 (BitVec.ofNat 64 k), words := [0], rep := 1, rerun := true }
      let z := { fed (launchUnits 2 k 1) with packets := [{ p with prologue := some pro }], launches := [(1, { placedLaunch with st := .closed })], nextLid := 2 }
      let ran : Prologue := { pro with regs := setAt pro.regs 7 1, rep := 2, rerun := false }
      let new := Launch.entered 0 (some 5) (some 1) (launchFields 0 (some ran)) [] 0 none
      z.startingOf 1 = none ∧ z.launch? 1 = some { placedLaunch with st := .closed } ∧ z.proEnd 0 pro = .launch ran ∧ z.faults = [] ∧ z.lasting = [] ∧ z.sound = true ∧
      (match z.loadImage new (some (0, 0)) with
        | .ok h _ _ => k == 0x10000 && h.itag == 0 && !h.istrict && (new.items + h.threads - 1) / h.threads != 0 | .refuse _ => k == 0x10020 | .fault .. => k == 0x40000) = true ∧
      goes (.prologueRepeat 1) z = true) := by
  refine ⟨?_, ?_, ?_, ?_, ?_, ?_⟩ <;> decide +kernel

/-- The ring with one packet, in a part whose tenant has one handle and one wheel entry, with room in the context for a save image; a record of one item at 0x11000. -/
def ordered (n : Nat) : State :=
  let s := fed [n]
  { s with
    tenants := [(0, theTenant 1 1)], ctxs := [(0, { theCtx false with raw := BitVec.ofNat 512 (0x4000 * 2 ^ 192 + 65536 * 2 ^ 64) })],
    fabric := { Fabric.reset with htEn := true, htBase := 0x2000000 }, mem := mwriteAll (word8 0x11010 0x100000000) s.mem }
def orderOf (n : Nat) : Front := packetOf [n]

/-- Each command; event counts met and not met; times 1 and 2^40; records that are mapped and not, with a slot and without; launches that do not run, and one with a team. -/
theorem witness_CommandPackets :
    let unit := fun (op event dword : Nat) => op + event * 2 ^ 128 + dword * 2 ^ 192
    let still := fun s : State => { s with launches := [] }
    let none' := fun s : State => { s with tenants := [(0, theTenant 0 1)] }
    let taken := fun s : State => State.startPacket { s with round := s.inRound.filter (· ≠ 63), nextId := s.nextId + 1, packets := [(orderOf (unit 8 0 0x11000)).packet s.nextId] } s.nextId
    let inv := unit 8 0 0x11000
    let lost := unit 8 0 0x40000
    (∀ x ∈ [(3, Instr.eventSignal 63, unit 3 0xFFFF 0), (4, .eventWait 63, unit 4 0xFFFF 0), (4, .eventWait 63, unit 4 0 1), (5, .eventAt 63, unit 5 0 1), (5, .eventAt 63, unit 5 0 (2 ^ 40)),
        (6, .copy 63, unit 6 0 0x11000 + 15 * 2 ^ 304), (7, .estateDrop 63, unit 7 1 0), (8, .invoke 63, inv), (8, .invoke 63, lost), (9, .complete 63, 9), (0x0A, .preempt 63, 0x0A), (0x0A, .preempt 63, unit 0x0A 1 0)],
      takesB (ordered x.2.2) (orderOf x.2.2) = true ∧ (orderOf x.2.2).op = x.1 ∧ (ordered x.2.2).tenant? 0 = some (theTenant 1 1) ∧ (ordered x.2.2).waiters = [] ∧ goes x.2.1 (ordered x.2.2) = true) ∧
    (wheelTime 1 = 1024 ∧ wheelTime (2 ^ 40) = 2 ^ 40 ∧ (ordered (unit 5 0 1)).wheel.length < (theTenant 1 1).wheel ∧ (theTenant 1 1).wheel = 1) ∧
    ((match readInvocation ((taken (ordered lost)).readVA false 0 0 .load) 0x40000 with | .stop _ => true | _ => false) = true ∧
     (match readInvocation ((taken (ordered inv)).readVA false 0 0 .load) 0x11000 with | .ok r _ => !r.malformed | _ => false) = true ∧
      ((ordered inv).handleSlotFor 0).isSome = true ∧ (ordered inv).reachable 0 = true ∧ (ordered inv).fabric.heldInv = [] ∧
      (none' (ordered inv)).handleSlotFor 0 = none ∧ takesB (none' (ordered inv)) (orderOf inv) = true ∧ goes (.invoke 63) (none' (ordered inv)) = true) ∧
    (takesB (still (ordered 0x0A)) (orderOf 0x0A) = true ∧ goes (.preempt 63) (still (ordered 0x0A)) = true) ∧
    ((ordered 0x0A).launches = [(1, placedLaunch)] ∧ (ordered 0x0A).teams = [(⟨1, 0⟩, placedTeam)] ∧ ((ordered 0x0A).freeBlocks 0 (((ordered 0x0A).imgBytes ⟨1, 0⟩ + 8191) / 8192)).isSome = true) := by
  refine ⟨?_, ?_, ?_, ?_, ?_⟩ <;> decide +kernel

/-- Entries resolved, of each holder, killed (of a page fault, of a breakpoint), and all translations; a load whose page is mapped by then, and one whose page is not; each action on another queue in the states that it changes. -/
theorem witness_FaultAndQueuePackets :
    let e : FaultRec := { fid := 1, tenant := 0, seq := 1, core := 0, cycle := 0, written := true, resolved := false, va := 0x11000, lid := 1, lanes := 1, off := 68, ctx := 0, unit := 0, cause := 0, wr := false, level := 3, holder := .nothing }
    let resolve := fun (kill : Bool) (entry unit : Nat) => { fed [0x0B + entry * 2 ^ 128 + if kill then 2 ^ 192 else 0] with faults := [{ e with unit := unit }] }
    let order := fun (kill : Bool) (entry : Nat) => packetOf [0x0B + entry * 2 ^ 128 + if kill then 2 ^ 192 else 0]
    let req : MemReq := { op := .load, sp := false, w := 8, fmt := 0, dst := some (.v 3), acq := none, rel := none, remote := false, det := false, pid := 1, sw := false, lanes := [] }
    let word := fun (op va : Nat) => ({ id := op, ctr := 0, off := 68, dests := [.v 3], kind := .mem req [{ lane := 0, addr := BitVec.ofNat 64 va, d0 := 0, d1 := 0 }] [] 0, clk := 0, held := false } : Pend)
    let held := fun (h : Holder) (unit : Nat) =>
      let s := resolve false 1 unit
      { s with faults := [{ e with unit := unit, holder := h }], copies := [{ aCopy with stall := some 1 }], launches := s.launches ++ [(2, { placedLaunch with st := .starting, queue := some 5, nteams := 0 })],
               waves := [(w0, ((waveAt (.nop false)).addPend (word 9 0x11000)).addPend (word 8 0x40000))],
               mem := mwriteAll (word8 0x4000 0x4001 ++ word8 0x4020 0x10007) s.mem }
    let k : Queue := { aQueue with st := .idle, slot := none, head := 1, tail := 2 }
    let control := fun (a : Nat) (k : Queue) => let s := fed [0x0C + 7 * 2 ^ 128 + a * 2 ^ 140 + if a = 3 then 7 * 2 ^ 144 else 0]; { s with queues := s.queues ++ [(7, k)] }
    let told := fun a : Nat => packetOf [0x0C + 7 * 2 ^ 128 + a * 2 ^ 140 + if a = 3 then 7 * 2 ^ 144 else 0]
    (∀ x ∈ [(false, 1, 0, Instr.faultResolved 63), (true, 1, 0, .faultResolvedKill 63), (true, 1, 5, .faultResolvedKill 63), (false, 0, 0, .faultResolvedInvalidate 63)],
      let s := resolve x.1 x.2.1 x.2.2.1
      let f := order x.1 x.2.1
      takesB s f = true ∧ f.op = 0x0B ∧ f.kill = x.1 ∧ f.entry = x.2.1 ∧ (x.2.1 = 1 → s.openFaults f.k.tenant f.entry = [{ e with unit := x.2.2.1 }]) ∧ s.launch? 1 = some placedLaunch ∧ goes x.2.2.2 s = true) ∧
    (∀ x ∈ [(Holder.copy 1, 0), (.engine 0, 0), (.brk w0 1, 5), (.path w0 1 none, 1), (.path w0 1 (some 9), 0), (.path w0 1 (some 8), 0), (.launch 2, 0)],
      let s := held x.1 x.2
      let f := order false 1
      takesB s f = true ∧ f.op = 0x0B ∧ f.kill = false ∧ f.entry = 1 ∧ s.openFaults f.k.tenant f.entry = [{ e with unit := x.2, holder := x.1 }] ∧ s.running w0 = true ∧ ((s.wave? w0).bind (·.path? 1)).isSome = true ∧
        ((s.launch? 2).map (fun l => (l.queue.isSome, l.st)) = some (true, .starting)) ∧ goes (.faultResolved 63) s = true) ∧
    (let z := after (.faultResolved 63) (held (.path w0 1 (some 9)) 0)
     let y := after (.faultResolved 63) (held (.path w0 1 (some 8)) 0)
     ((z.wave? w0).bind (·.path? 1)).map (·.park) = some .none ∧ ((y.wave? w0).bind (·.path? 1)).map (·.park) = some (.fault (z.nextId)) ∧ (y.faults.map (·.va)) = [0x11000, 0x40000] ∧
     (((after (.faultResolved 63) (held (.path w0 1 none) 1)).wave? w0).bind (·.path? 1)).map (·.park) = some .none) ∧
    (∀ x ∈ [(0, Instr.queueControlHalt 63, k), (1, .queueControlResume 63, { k with st := .halted }), (1, .queueControlResume 63, { k with st := .error }), (2, .queueControlDiscard 63, k),
        (2, .queueControlDiscard 63, { k with st := .error }), (3, .queueControlSetPrio 63, k)],
      let s := control x.1 x.2.2
      takesB s (told x.1) = true ∧ (told x.1).op = 0x0C ∧ (told x.1).action = x.1 ∧ (told x.1).qnum = 7 ∧ s.queue? 7 = some x.2.2 ∧ goes x.2.1 s = true) := by
  refine ⟨?_, ?_⟩ <;> decide +kernel

/-! ### The register space, the fabric, the device -/

/-- READY, node 0 being the system's; its port 15 as given. -/
def managed (q : Port) : State :=
  let s := small (.nop false)
  { s with device := { s.device with sysv := true }, fabric := { Fabric.reset with ports := setAt Fabric.reset.ports 15 q } }

/-- The system's node may write each register, another may not; a tenant that is off and one that is on; a context that may be made and one whose PARKLIMIT is too small; a queue
that is off, waiting for a slot, and in one. -/
theorem witness_ManagementSteps :
    let s := managed Port.reset
    let off := { s with tenants := [(15, { theTenant 0 0 with en := false, st := 0, raw := 0 })] }
    let gone := fun raw : Nat => { s with ctxs := [(1023, { theCtx false with en := false, raw := BitVec.ofNat 512 raw })] }
    let queue := fun k : Queue => { s with queues := [(4095, k)] }
    let handle := { s with fabric := { s.fabric with handles := [(0, { anEntry 0 with location := 3 })] } }
    (∀ r ∈ [MgmtReg.tenant 0 1, .tenant 15 1, .ctx 0 0, .ctx 1023 0, .queue 4095 1, .port 15 0, .excised 63, .frame 1023, .nonce 7, .nonce 0, .fabric 4], s.sound = true ∧
      (queue aQueue).writeOk (.node 0) r = true ∧ (queue aQueue).writeOk (.node 1) r = false) ∧
    ((off.tenantBlock 15).en = false ∧ off.tenantOk 15 (off.tenantBlock 15) = true ∧ s.tenantBlock 0 = theTenant 0 0) ∧
    ((∀ raw ∈ [8192 * 2 ^ 64, 8192 * 2 ^ 64 + 100 * 2 ^ 160], (gone raw).createOk ((gone raw).ctxBlock 1023) = true) ∧ (gone (8192 * 2 ^ 64 + 99 * 2 ^ 160)).createOk ((gone (8192 * 2 ^ 64 + 99 * 2 ^ 160)).ctxBlock 1023) = false ∧
      (s.ctxBlock 0).en = true) ∧
    ((s.entryOf 4095).en = false ∧ (s.entryOf 4095).slot = none ∧ s.poisonedRange (s.entryOf 4095).qcbAddr 256 = false) ∧
    ((queue { aQueue with en := false, slot := none }).queues.filter fun p => p.2.tenant == 0 && p.2.en).length < 1024 ∧ s.poisonedRange aQueue.qcbAddr 256 = false ∧ tget 0 handle.fabric.handles = some { anEntry 0 with location := 3 } ∧
    mgmtReg 0x300020 = some (.fabric 4) ∧ mgmtReg 0xFFFFFFFF = none ∧
    ([(Instr.tenantEnable (.node 0) 15, off), (.tenantEnable (.node 1) 15, off), (.tenantReset (.node 0) 0, s), (.contextCreate (.node 0) 1023, gone (8192 * 2 ^ 64)), (.contextDestroy (.node 0) 0, s),
      (.queueEnable (.node 0) 4095, queue { aQueue with en := false, slot := none }), (.queueEnable (.node 0) 4095, s), (.queueDisable (.node 0) 4095, queue { aQueue with slot := none, st := .pending }), (.queueDisable (.node 0) 4095, queue aQueue),
      (.portExciseClear (.node 0) 15, s), (.nodeExcise (.node 0) 63 3, handle), (.poisonFrameClear (.node 0) 1023, s), (.attestNonceWrite .sideband 7 1, s), (.mgmtRegisterWrite (.node 0) 0x300020 1, s),
      (.mgmtRegisterWrite (.node 0) 0xFFFFFFFF 1, s)].all fun x => goes x.1 x.2) = true := by
  decide +kernel

/-- A watermark at the stamp of the last delivery, above it and below it. -/
theorem witness_PortExcise : ∀ wm ∈ [4, 5, 6], let q : Port := { Port.reset with wm := wm, excise := true }
    let s := { managed q with fabric := { (managed q).fabric with dlvStamp := 5 } }
    s.sound = true ∧ s.writeOk (.node 0) (.port 15 0) = true ∧ s.fabric.ports[15]? = some q ∧ (s.fabric.dlvStamp < q.wm ↔ wm = 6) ∧
      goes (.portExcise (.node 0) 15) s = true ∧ goes (.portExciseClear (.node 0) 15) s = true := by decide +kernel

/-- The part with a port as given and packets held at the weir, at tick 2^20. -/
def onFabric (q : Port) (held : List Packet) : State :=
  let s := managed q
  { s with fabric := { s.fabric with now := 2 ^ 20, held := held } }
/-- A port with a peer and its link up. -/
def aPort : Port := { Port.reset with up := true, peer := 1, peerKind := 1 }
/-- A packet of node 1. -/
def aPacket (stamp dst : Nat) (body : Payload) : Packet := { stamp := stamp, src := 1, seq := 65535, dst := BitVec.ofNat 16 dst, late := false, body := body }

/-- Each clause: a port that the injector alone feeds and a router's output; errors of 0, 1, 15 and 16 retries, a port towards the grandmaster, both kinds of peer, parents that run and that have retired; late packets of each kind, in transit, dropped and delivered. -/
theorem witness_FabricSteps :
    let mail := fun dst => aPacket 5 dst (.osend 0 0 [1])
    let s := onFabric aPort []
    let before := { s with device := { s.device with phase := 5 } }
    let merged := onFabric { aPort with merge := [mail 1] } []
    let routed := { merged with fabric := { merged.fabric with ports := setAt merged.fabric.ports 14 { aPort with wm := 6 } } }
    let slave := onFabric { aPort with ptp := { announced := some 1, origin := some 10, arrived := some 20, asked := some 30 } } []
    let h := mkHandle 0 0 1 0
    let inv := aPacket 5 0 (.invoke 0 0x10000 1 0 false [] 0 h)
    let parent := fun (st : LaunchSt) => { s with launches := [(1, { placedLaunch with handle := h, st := st })] }
    let behind := { aPort with blocked := some 0 }
    let stalled := { (onFabric behind [mail 0]) with fabric := { (onFabric behind [mail 0]).fabric with stall := 1 } }
    let f : Future := { pid := 9, stamp := 2 ^ 20, dst := 0, body := .osend 0 0 [1], w := w0, op := 0 }
    let future := { s with fabric := { s.fabric with future := [f] } }
    let atom := fun wide : Bool => aPacket 5 0 (.oatom 0x12000 0 wide 1 0 0 w0 0)
    let weir := fun pk => onFabric { aPort with wm := 6 } [pk]
    let down := onFabric Port.reset []
    let lately := fun (dst : Nat) (b : Payload) => { aPacket 5 dst b with late := true }
    let box := fun drops : Bool => { s with
      ctxs := [(0, { theCtx false with raw := BitVec.ofNat 512 (0x11000 * 2 ^ 448 + 0x4000 * 2 ^ 192 + 8192 * 2 ^ 64 + if drops then 4 else 0) })],
      tlb := [{ ofCore := false, unit := 0, ctx := 0, page := 0x10000, size := 0x4000, leaf := 0x10007 }], mem := mwriteAll (word8 0x11000 0x12000 ++ word8 0x11008 (6 + 256)) [] }
    let through := { s with fabric := { s.fabric with routes := [(5, [14])], ports := setAt s.fabric.ports 14 aPort } }
    let noted := { s with fabric := { s.fabric with handles := [(0, anEntry 0)] } }
    let past := { onFabric { aPort with excise := true } [] with fabric := { (onFabric { aPort with excise := true } []).fabric with dlvAny := true, dlvStamp := 6 } }
    let freeInv := Payload.invoke 0 0x10000 1 0 false [] 0 0
    (∀ z ∈ [s, before, merged, routed, slave, parent .running, parent .closed, stalled, future, weir (atom true), weir (atom false), down], z.sound = true) ∧
    (aPort.up = true ∧ aPort.excise = false ∧ (s.fabric.ports[15]? = some aPort) ∧ aPort.lastSent + 16 * s.fabric.beacon ≤ s.fabric.now) ∧
    (leastPacket [mail 1] = some (mail 1) ∧ merged.isRouter 15 = false ∧ routed.isRouter 15 = true ∧ (mail 1).stamp < routed.feedWM 15 ∧ s.isRouter 15 = false) ∧
    (slave.fabric.slavePort = some 15 ∧ s.fabric.slavePort = none) ∧
    (pkParent inv = h ∧ h ≠ 0 ∧ (parent .running).parentState h = .open ∧ (parent .closed).parentState h = .retired 0 1 ∧ (parent .running).fabric.culvertIn = [] ∧ (parent .running).fabric.waitingInv = []) ∧
    (behind.stalled = false ∧ stalled.keepsBack 15 = true ∧ 16000 * stalled.fabric.stall ≤ stalled.fabric.now) ∧ s.device.powered = true ∧ future.excisedNode f.dst = false ∧
    (∀ wide, leastPacket [atom wide] = some (atom wide) ∧ (atom wide).stamp < (weir (atom wide)).minWM none ∧ rangeDevice 0x12000 (if wide then 8 else 4) = true) ∧
    rangeDevice 0x12000 32 = true ∧ Port.reset.up = false ∧
    (∀ drops, (box drops).sound = true ∧ (((box drops).ctx? 0).any (·.latepol)) = drops ∧ ((box drops).mailbox 0 0).map (fun m => (bits m.2.2 64 4, bits m.2.2 68 4, bits m.2.2 128 128)) = some (6, 0, 0) ∧
      ((box drops).writeVA 0 0x12000 (List.replicate 33 1)).isSome = true ∧ goes (.orderedPacketArrival 15 (lately 0 (.osend 0 0 [1]))) (box drops) = true ∧
      goes (.orderedPacketArrival 15 (lately 0 (.oatom 0x12000 0 true 1 0 0 w0 0))) (box drops) = true) ∧
    (through.portTo 5 = some 14 ∧ through.fabric.ports[14]? = some aPort ∧ through.sound = true ∧ goes (.orderedPacketArrival 15 (lately 5 (.osend 0 0 [1]))) through = true) ∧
    (s.mailbox 0 1 = none ∧ pkParent (lately 0 freeInv) = 0 ∧ tget 0 noted.fabric.handles = some (anEntry 0) ∧ noted.fabric.heldInv = [] ∧ past.fabric.dlvAny = true ∧ 5 < past.fabric.dlvStamp ∧
      goes (.orderedPacketArrival 15 (lately 0 (.osend 0 1 [1]))) s = true ∧ goes (.orderedPacketArrival 15 (lately 0 freeInv)) s = true ∧ goes (.orderedPacketArrival 15 (lately 0 (.notice 0 1 .resolved))) noted = true ∧
      goes (.orderedPacketArrival 15 (mail 0)) past = true) ∧
    (5 ≤ routed.feedWM 15 ∧ (mail 1).stamp = 5) ∧
    ([(Instr.orderedPacketArrival 15 (mail 0), s), (.orderedPacketArrival 15 (mail 0), before), (.beaconArrival 15 7, s), (.beaconSend 15, s), (.beaconSend 15, routed), (.routerForward 15, merged), (.routerForward 15, routed), (.culvertArrival inv, parent .running),
      (.culvertArrival inv, parent .closed), (.portStall 15, stalled), (.flitCrcError 15 0, s), (.flitCrcError 15 1, s), (.flitCrcError 15 15, s), (.flitCrcError 15 16, s), (.ptpMessage ⟨15, .announce 1⟩, s), (.ptpMessage ⟨15, .sync none⟩, slave),
      (.ptpMessage ⟨15, .followUp 10⟩, slave), (.ptpMessage ⟨15, .delayReq⟩, s), (.ptpMessage ⟨15, .delayResp 40⟩, slave),
      (.ptpSyncInterval, s), (.heldPacketInject, future), (.weirDeliver, weir (atom true)), (.weirDeliver, weir (atom false)), (.weirDeliver, weir (mail 0)), (.fabricMappedAccess 1 (.store 0x12000 [1]), s),
      (.fabricMappedAccess 1 (.load 0x12000 32), s), (.portLinkUp 15 1 1, down), (.portLinkUp 15 1 2, down)].all fun x => goes x.1 x.2) = true := by
  decide +kernel

/-- R390: the request left at 30 and came at 33, the `sync` left at 10 and came at 20: the clock is ahead by (10 − 3) / 2, rounded down. -/
theorem test_ptp_offset :
    (after (.ptpMessage ⟨15, .delayResp 33⟩) (onFabric { aPort with ptp := { announced := some 1, origin := some 10, arrived := some 20, asked := some 30 } } [])).fabric.offset = 3 := by decide +kernel

/-- The phases and their ends, each at its boundary; the wrong word of a long form in the last word of its clause, and a word that is none. -/
theorem witness_DeviceSteps :
    let on := fun (phase n : Nat) => { State.reset with device := { Device.reset with powered := true, phase := phase, phaseTime := n }, fabric := { Fabric.reset with timing := decide (n = 0) } }
    let d := fun f : Device → Device => { State.reset with device := f { Device.reset with powered := true, phase := 6 } }
    let good : PhaseReport := { code := 0, cores := [], quads := [], clusters := [] }
    let late := 2 ^ 60
    let nonce := List.replicate 64 (1 : Byte)
    let bad := fun w : Nat => { small (.nop false) with mem := mwriteAll (placedBytes 32 w) [] }
    let locked := d fun d => { d with lockNext := some (false, 0) }
    (∀ p, p < 6 → (on p 0).sound = true ∧ (on p 0).device.late = false ∧ (on p 0).reportOk good = true ∧ (on p late).device.late = true ∧ goes (.bringupPhaseComplete good) (on p 0) = true) ∧
    ((on 0 0).reportOk { good with code := 2 } = true ∧ goes (.bringupPhaseComplete { good with code := 2 }) (on 0 0) = true) ∧
    ((∀ x ∈ [(0, 1), (1, 0x17), (2, 0), (3, 0x20), (4, 0x38), (5, 0)], (on x.1 late).lateCode x.2 = true ∧ goes (.bringupPhaseTimeout (BitVec.ofNat 8 x.2)) (on x.1 late) = true)) ∧
    ([(Instr.powerOn, State.reset), (.powerOff, on 0 0), (.thermtrip, on 6 0), (.powerExcursion, on 6 0), (.powerExcursion, d fun d => { d with lockclk := false }), (.devreset, on 6 0),
      (.devreset, d fun d => { d with phase := 4, thermtrip := true }), (.lockclkApply, locked), (.attestReportReady, d fun d => { d with atNonce := some nonce })].all fun x => x.2.sound && goes x.1 x.2) = true ∧
    (∀ x ∈ [(0x70140001, true), (0x7F000000, false)], let s := bad x.1
      s.site? = some (siteOf s) ∧ (siteOf s).free s = true ∧ s.wordAt (siteOf s) = .word none x.1 s ∧ isLongMajor x.1 = x.2 ∧ (siteOf s).p.fall < (siteOf s).p.pc + 8 ∧ goes .unassignedEncoding s = true) := by
  refine ⟨?_, ?_, ?_, ?_, ?_⟩ <;> decide +kernel

/-! ### The whole part -/

/-- A word placed where the next step fetches. -/
def placedWord (w : Nat) : State := State.reset.placed 64 w
/-- The one path of core 0 that may issue. -/
def onlySite (s : State) : Site := ((s.eligiblePaths 0)[0]?).getD noSite

/-- A path at a good header, at a bad one, at a header that waits; in its clause at a word, a long form, a word that is none; a step of the part. -/
theorem witness_StepRunsDecoded :
    let moved := fun (s : State) (p : Path) => { s with waves := [(⟨1, 0, 0⟩, { placedWave with slot0 := some p })] }
    let inside := fun (w n : Nat) => moved (placedWord w) { inClause (.nop false) with count := n }
    let header := fun h : Nat => { placedWord 0 with mem := mwriteAll (word8 0x10040 h) (placedWord 0).mem }
    let waits := { header 0xC5010001 with waves := [(⟨1, 0, 0⟩, placedWave.incr 0)] }
    let event := { placedWord 0 with agenda := [.event .powerExcursion] }
    (∀ s ∈ [placedWord 0x10018210, header 0, waits, inside 0x10018210 1, inside (0x70140000 + 0x12345678 * 2 ^ 32) 2, inside 0x7F000000 1, inside 0x70140000 1], let k := onlySite s
      s.device.powered = true ∧ s.device.thermtrip = false ∧ s.agenda = [.core 0] ∧ 0 ∉ s.issued ∧ s.eligiblePaths 0 = [k] ∧ s.wave? k.w = some k.v ∧ k.v.path? k.pid = some k.p ∧ (step s matches .next _) = true) ∧
    ((placedWord 0).fetchWord ⟨1, 0, 0⟩ placedLaunch 64 = .word 0xC5000001 ∧ goodHeader 0xC5000001 = true ∧ goodHeader 0 = false ∧ (header 0).fetchWord ⟨1, 0, 0⟩ placedLaunch 64 = .word 0 ∧
      ((onlySite waits).p.enter (onlySite waits).v 0xC5010001).waits ≠ 0 ∧ goodHeader 0xC5010001 = true) ∧
    ((inside 0x10018210 1).fetchWord ⟨1, 0, 0⟩ placedLaunch 68 = .word 0x10018210 ∧ isLongMajor 0x70140000 = true ∧ (inside 0x70140000 2).fetchWord ⟨1, 0, 0⟩ placedLaunch 72 = .word 0 ∧
      decodeCheck (.sadd false 3 1 2) (onlySite (inside 0x10018210 1)) = none ∧ issueHeld (.sadd false 3 1 2) (onlySite (inside 0x10018210 1)) (inside 0x10018210 1) = false) ∧
    event.agenda = [.event .powerExcursion] := by
  refine ⟨?_, ?_, ?_, rfl⟩ <;> decide +kernel

/-- A parked path; a word of another class, a long form in the last word; a full counter; a register that awaits a result, in a strict launch and not; a poisoned address. -/
theorem witness_IssueChecks :
    let add := Instr.sadd false 63 3 1
    let ld := Instr.vld false 0 3 5 112
    let parked := small' add (fun v => { v with slot0 := some { inClause add with park := .baton } }) id id
    let wrong := fun i : Instr => small' i (fun v => { v with slot0 := some (inClause (.nop false)) }) id id
    let full := small' ld (fun v => { v with ctr := setAt v.ctr 0 63 }) id id
    let awaits := fun strict : Bool => small' add (fun v => v.addPend { id := 0, ctr := 0, off := 68, dests := [.s 3], kind := .result [.s 3 9] 0, clk := 0, held := false }) id fun l =>
      { l with hdr := { l.hdr with strict := strict } }
    let bad := small' ld (fun v => { v with vregs := setAt v.vregs 5 { VReg.zero with poison := 2 ^ 63 } }) id id
    let checked := fun (i : Instr) (s : State) => i.isWord = true ∧ s.site?.isSome = true ∧ s.wlog = [] ∧ goes i s = true
    (checked add parked ∧ (siteOf parked).free parked = false) ∧
    (∀ i ∈ [Instr.sld false 3 1 0, .smovl false 5 0], checked i (wrong i) ∧ (siteOf (wrong i)).free (wrong i) = true ∧ decodeCheck i (siteOf (wrong i)) = some 9) ∧
    (checked ld full ∧ (siteOf full).free full = true ∧ decodeCheck ld (siteOf full) = none ∧ issueHeld ld (siteOf full) full = true) ∧
    (∀ strict, checked add (awaits strict) ∧ (siteOf (awaits strict)).free (awaits strict) = true ∧ decodeCheck add (siteOf (awaits strict)) = none ∧ issueHeld add (siteOf (awaits strict)) (awaits strict) = false ∧
      (touches add).any (siteOf (awaits strict)).v.outstanding = true ∧ (siteOf (awaits strict)).l.hdr.strict = strict) ∧
    (checked ld bad ∧ (siteOf bad).free bad = true ∧ decodeCheck ld (siteOf bad) = none ∧ issueHeld ld (siteOf bad) bad = false ∧ (touches ld).any (siteOf bad).v.outstanding = false ∧
      (siteOf bad).consumesPoison ld = true) := by
  refine ⟨?_, ?_, ?_, ?_, ?_⟩ <;> decide +kernel

/-- Each integer type, with the ends of its range; both widths of an atomic. -/
theorem witness_IntegerArithmetic : (∀ t ∈ ([0, 1, 2, 3] : List (BitVec 3)), let w := typeWidth t
    floatFormat t = none ∧ ∀ x ∈ [-2 ^ (w - 1), 2 ^ (w - 1) - 1], -2 ^ (w - 1) ≤ x ∧ x < (2 ^ (w - 1) : Int) ∧ (((x % (2 ^ w : Nat)).toNat : Int) - x) % (2 ^ w : Nat) = 0) ∧
    (4 = 4 ∨ (4 : Nat) = 8) ∧ ((4 : Nat) = 4 ∨ 8 = 8) ∧ elemValue noModes 11 128 = .fin true 128 0 ∧ (∀ n ∈ [4, 8], atomOp 1 n 0 noModes (2 ^ (8 * n - 1)) 1 0 = 2 ^ (8 * n - 1) ∧ atomOp 3 n 0 noModes (2 ^ (8 * n - 1)) 1 0 = 1) := by decide +kernel

/-- Every format and rounding; a value that overflows, one that fits and one that is tiny; NaNs, infinities and finite values of each format; a type, an integer format and a row of the accumulators. -/
theorem witness_FloatArithmetic :
    (∀ f ∈ [0, 1, 2, 3, 4, 5], ∀ rm ∈ [0, 1, 2, 3], f ≤ 5 ∧ rm ≤ 3 ∧ (towardZero rm false ↔ rm = 1 ∨ rm = 3) ∧ (awayFromZero rm false ↔ rm = 2)) ∧
    (∀ f ∈ [0, 1, 2, 3, 4, 5], let nan := infBits f + 1
      noModes.flushR.testBit (flushClass f) = false ∧ (255).testBit (flushClass f) = true ∧ (fdecode f (if f = 4 then 0x7F else nan)).isNaN = true ∧ (f = 4 ∨ fdecode f (infBits f) = .inf false) ∧
      (fdecode f (maxFinite f)).isFin = true ∧ isSubnormal f 1 = true ∧ (fread noModes f 1).isFin = true) ∧
    (fmul (.inf false) (.fin false 0 0) = none ∧ fmul (.fin false 3 0) (.fin true 5 1) = some (.fin true 15 1) ∧ fmul (.inf true) (.inf true) = some (.inf false) ∧ floatFormat 4 = some 0 ∧ floatFormat 5 = some 1 ∧
      floatFormat 6 = some 2 ∧ floatFormat 7 = some 3) ∧ (rowElems 32 [0x3F80000000000000]).map (fun b => (fread noModes 1 b).isFin) = [true, true] := by
  simp only [towardZero, awayFromZero]
  refine ⟨?_, ?_, ?_, ?_⟩ <;> decide +kernel

/-- The largest f32 and half a unit above it: not above the range, and above it; half the least normal value is tiny. -/
theorem witness_Overflows : ¬Overflows 0 1 false ((2 ^ 24 - 1 : Nat) * twoPow 104) ∧ Overflows 0 1 false ((2 ^ 24 - 1 : Nat) * twoPow 104 + twoPow 103) ∧ Tiny 0 1 false (twoPow (-127)) ∧ RoundsToWhole 0 false (5 / 2) 2 true := by
  simp only [Overflows, Tiny, RoundsToWhole, towardZero, awayFromZero]
  refine ⟨?_, ?_, ?_, ?_⟩ <;> decide +kernel

/-- A sound state with a step: power comes. -/
theorem witness_SoundKept : let s := { State.reset with agenda := [.event .powerOn] }
    s.sound = true ∧ (step s matches .next _) = true := by decide +kernel
theorem witness_DecodeEncode : ([.vfmal false 1 2 3 4 5, .mgang false 1 0, .mgangLeave false] : List Instr).all Instr.wf = true ∧ (Instr.mgang false 0 0).wf = false := by decide

/-! ### A save image that software has written (R382) -/

/-- A saved team with s3 = 7, its image in block 1 of private memory, which lies at 0x20000. Of the image the first 160 bytes are looked at; memory holds 9 where the part wrote s3. -/
theorem test_image_restored_as_it_stands :
    let saved := { small' (.nop false) (fun v => v.setS 3 7) (fun k => { k with st := .saved, imgBlocks := [1], image := List.replicate 152 0 ++ leBytes 8 7 }) (fun l => { l with hdr := { l.hdr with vregs := 8 } }) with
      mem := mwriteAll (word8 (0x22000 + 128 + 24) 9) [], tlb := [{ ofCore := false, unit := 0, ctx := 0, page := 0, size := 0x4000, leaf := 0x20007 }] }
    let t := after (.teamRestore [⟨1, 0⟩] [0]) saved
    saved.imageStands ⟨1, 0⟩ = false ∧ reg t 3 = some 9 ∧ (t.wave? w0).map (·.masks.getD 0 0) = some 0xFFFFFFFF := by decide +kernel

end Sys2Proof.Tests
end

section
/-! SUPPORT. A kill and the table of launches (R373): every operation that a kill is made of keeps the table, except the one that records the
first cause of death. -/

namespace Sys2Proof.Machine

/-- A fold whose every step keeps the table of launches keeps it. -/
theorem foldl_launches {α : Type} {f : State → α → State} (h : ∀ s a, (f s a).launches = s.launches) (l : List α) (s : State) :
    (l.foldl f s).launches = s.launches := by
  induction l generalizing s with
  | nil => rfl
  | cons a l ih => rw [List.foldl_cons, ih, h]

/-! ### Memory -/

@[simp] theorem State.writeHome_launches (s : State) (a : Nat) (bs : List Byte) : (s.writeHome a bs).launches = s.launches := rfl

@[simp] theorem State.markFrame_launches (s : State) (a : Nat) : (s.markFrame a).launches = s.launches := by
  unfold State.markFrame
  split
  · rfl
  · cases freeFrame s.device.frames <;> rfl

@[simp] theorem State.countError_launches (s : State) (kind unit which : Nat) : (s.countError kind unit which).launches = s.launches := rfl

@[simp] theorem State.noteRead_launches (s : State) (a n : Nat) : (s.noteRead a n).launches = s.launches := by
  refine foldl_launches (fun s i => ?_) _ s
  dsimp only
  split
  · rw [State.countError_launches, State.markFrame_launches]
  · rfl

@[simp] theorem State.noteWalk_launches (s : State) (c : Bool) (u x : Nat) (k : AccKind) (va : Nat) :
    (s.noteWalk c u x k va).launches = s.launches := by
  unfold State.noteWalk
  split
  · rfl
  · exact foldl_launches (fun s a => s.noteRead_launches a 8) _ s

@[simp] theorem State.noteWalks_launches (s : State) (x : Nat) (k : AccKind) (va : Word) (n : Nat) :
    (s.noteWalks x k va n).launches = s.launches := by
  unfold State.noteWalks
  split
  · rfl
  · refine foldl_launches (fun s i => ?_) _ s
    dsimp only
    split
    · rfl
    · exact s.noteWalk_launches false 0 x k _

theorem State.writeVA_launches {s t : State} {x : Nat} {va : Word} {bs : List Byte} (h : s.writeVA x va bs = some t) :
    t.launches = s.launches := by
  simp only [State.writeVA] at h
  split at h
  · cases h
  · rw [← Option.some.inj h]
    refine foldl_launches (fun s p => ?_) _ _
    repeat' split
    all_goals rfl

/-! ### Estates -/

@[simp] theorem State.writeReserve_launches (s : State) (x slot : Nat) (bs : List Byte) :
    (s.writeReserve x slot bs).launches = s.launches := by
  unfold State.writeReserve
  split
  · dsimp only
    cases h : State.writeVA _ _ _ _ with
    | none => exact s.noteWalks_launches x .store _ _
    | some t => exact (State.writeVA_launches h).trans (s.noteWalks_launches x .store _ _)
  · rfl

@[simp] theorem State.putGranules_launches (s : State) (gs : List Granule) : (s.putGranules gs).launches = s.launches := by
  refine (foldl_launches (fun s g => ?_) _ _).trans (foldl_launches (fun s g => ?_) _ _)
  all_goals
    split
    · exact s.writeReserve_launches _ _ _
    · rfl

@[simp] theorem State.voidEstates_launches (s : State) (lid : Nat) (tags : List Nat) : (s.voidEstates lid tags).launches = s.launches :=
  s.putGranules_launches _

@[simp] theorem State.freeHeld_launches (s : State) (lid : Nat) : (s.freeHeld lid).launches = s.launches := s.putGranules_launches _

/-! ### Packets and handles -/

@[simp] theorem State.modPort_launches (s : State) (p : Nat) (f : Port → Port) : (s.modPort p f).launches = s.launches := by
  unfold State.modPort
  split <;> rfl

@[simp] theorem State.sendOrdered_launches (s : State) (stamp dst : Nat) (b : Payload) : (s.sendOrdered stamp dst b).launches = s.launches := by
  simp only [State.sendOrdered]
  repeat' split
  · rfl
  · exact State.modPort_launches _ _ _
  · rfl

@[simp] theorem State.releaseFuture_launches (s : State) (f : Future) : (s.releaseFuture f).launches = s.launches := by
  simp only [State.releaseFuture, State.modWave_launches]
  split
  · exact State.sendOrdered_launches _ _ _ _
  · rfl

@[simp] theorem State.flushFuture_launches (n : Nat) (s : State) : (State.flushFuture n s).launches = s.launches := by
  induction n generalizing s with
  | zero => rfl
  | succ n ih =>
    unfold State.flushFuture
    repeat' split
    · exact (ih _).trans (s.releaseFuture_launches _)
    all_goals rfl

@[simp] theorem State.inject_launches (s : State) (stamp dst : Nat) (b : Payload) : (s.inject stamp dst b).launches = s.launches :=
  (State.sendOrdered_launches _ _ _ _).trans (State.flushFuture_launches _ s)

@[simp] theorem State.notify_launches (s : State) (h : Word) (e : NoticeEvent) : (s.notify h e).launches = s.launches := by
  unfold State.notify
  split
  · rfl
  · exact s.inject_launches _ _ _

@[simp] theorem State.finishHandle_launches (s : State) (w : WaveRef) (pid d a : Nat) : (s.finishHandle w pid d a).launches = s.launches := by
  simp only [State.finishHandle, State.modWave_launches]
  split <;> rfl

@[simp] theorem State.wakeHandles_launches (s : State) : s.wakeHandles.launches = s.launches := by
  refine foldl_launches (fun s e => ?_) _ s
  refine foldl_launches (fun s p => ?_) _ s
  repeat' split
  · exact s.finishHandle_launches _ _ _ _
  all_goals rfl

@[simp] theorem State.culvert_launches (s : State) (pk : Packet) (loc : Nat) : (s.culvert pk loc).launches = s.launches := by
  simp only [State.culvert]
  split
  · exact s.notify_launches _ _
  · rw [State.notify_launches]
    split <;> rfl

theorem State.forwardInvoke_launches {s t : State} {pk : Packet} (h : s.forwardInvoke pk = some t) : t.launches = s.launches := by
  unfold State.forwardInvoke at h
  repeat' split at h
  all_goals cases h
  · exact s.notify_launches _ _
  · exact s.culvert_launches _ _
  · exact s.notify_launches _ _

@[simp] theorem State.settleHeld_launches (s : State) : s.settleHeld.launches = s.launches := by
  refine foldl_launches (fun s pk => ?_) _ s
  dsimp only
  cases h : s.forwardInvoke pk with
  | some t => exact (State.forwardInvoke_launches h : t.launches = s.launches)
  | none => rfl

@[simp] theorem State.breakHandle_launches (s : State) (slot reason status : Nat) : (s.breakHandle slot reason status).launches = s.launches := by
  unfold State.breakHandle
  repeat' split
  · rfl
  · simp [State.putHandle]
  · rfl

@[simp] theorem breakUnsent_launches (s : State) (v : Wave) : (breakUnsent s v).launches = s.launches := by
  refine foldl_launches (fun s p => ?_) _ s
  split
  · exact s.breakHandle_launches _ _ _
  · rfl

/-! ### Gangs and loop buffers -/

@[simp] theorem State.raiseClock_launches (s : State) (w : WaveRef) (c : Nat) : (s.raiseClock w c).launches = s.launches := by
  unfold State.raiseClock
  repeat' split
  all_goals rfl

@[simp] theorem State.formGang_launches (s : State) (q : Nat) : (s.formGang q).launches = s.launches := by
  simp only [State.formGang]
  split
  · rfl
  split
  · rfl
  · rw [foldl_launches fun s j => by simp, State.setQuad_launches]

@[simp] theorem State.wakeBaton_launches (s : State) (q : Nat) : (s.wakeBaton q).launches = s.launches := by
  simp only [State.wakeBaton]
  split
  · rfl
  split
  · rw [apply_ite State.launches]
    refine ite_eq_iff'.mpr ⟨fun _ => rfl, fun _ => ?_⟩
    exact (foldl_launches (fun s p => State.modWave_launches s _ _) _ _).trans (s.setQuad_launches q _)
  · rfl

@[simp] theorem State.leaveGang_launches (s : State) (q : Nat) (w : WaveRef) : (s.leaveGang q w).launches = s.launches := by
  simp only [State.leaveGang]
  split
  · rfl
  split
  · rfl
  · rw [apply_ite State.launches]
    simp only [State.wakeBaton_launches, State.formGang_launches, State.setQuad_launches]
    refine ite_eq_iff'.mpr ⟨fun _ => ?_, fun _ => ?_⟩ <;> exact foldl_launches (fun s a => State.modWave_launches s _ _) _ _

@[simp] theorem State.dropLoopBufs_launches (s : State) (w : WaveRef) (ns : List Nat) : (s.dropLoopBufs w ns).launches = s.launches := by
  rw [(s.dropLoopBufs_spec w ns).rest]

/-! ### Accounts -/

@[simp] theorem State.updQueue_launches (s : State) (q : Nat) (f : Queue → Queue) : (s.updQueue q f).launches = s.launches := by
  simp only [State.updQueue, State.syncQueue]
  repeat' split
  all_goals rfl

@[simp] theorem State.modAccount_launches (s : State) (lid : Nat) (f : Int → Int) : (s.modAccount lid f).launches = s.launches := by
  unfold State.modAccount
  repeat' split
  · exact s.updQueue_launches _ _
  all_goals rfl

@[simp] theorem State.settleAccount_launches (s : State) (lid : Nat) : (s.settleAccount lid).launches = s.launches := by
  simp only [State.settleAccount]
  repeat' split
  · rfl
  · exact s.modAccount_launches lid _
  · rfl

/-! ### The kill -/

/-- A launch that is killed while it lives takes the cause as its first cause of death. -/
theorem State.killLaunch_launch {s : State} {lid : Nat} {l : Launch} (h : s.launch? lid = some l) (hl : l.st ≠ .killed) (hc : l.st ≠ .closed)
    (status off code : Nat) :
    ((s.killLaunch lid status off code).launch? lid).map (fun l => (l.st, l.kill)) = some (.killed, some (status, off, code)) := by
  have hlive : (l.st == .killed || l.st == .closed) = false := by simp [hl, hc]
  rw [State.launch?] at h
  simp [State.killLaunch, State.launch?, h, hlive, foldl_launches]

end Sys2Proof.Machine
end

section
/-! SUPPORT. The fields of a word and its decoding (R199), below the switch marker and the major opcode. -/

namespace Sys2Proof

theorem fixed_eq (w lo n v : Nat) : fixed w lo n v = decide (w / 2 ^ lo % 2 ^ n = v) := by
  rw [fixed, Nat.shiftRight_eq_div_pow]; rfl

/-- A field of a word is the value that its bits have. -/
theorem fld_eq {n w lo : Nat} {v : BitVec n} (h : w / 2 ^ lo % 2 ^ n = v.toNat) : fld n w lo = v := by
  apply BitVec.eq_of_toNat_eq
  rw [fld, BitVec.toNat_ofNat, Nat.shiftRight_eq_div_pow, h]

/-- The major opcode of a word below its switch marker. -/
theorem major_sw (x : Bool) {m r : Nat} (hm : m < 128) (hr : r < 2 ^ 24) : (sw x m + r) >>> 24 % 128 = m := by
  rw [Nat.shiftRight_eq_div_pow]
  cases x <;> simp only [sw, Bool.false_eq_true, if_false, if_true] <;> omega

/-- The switch marker of a word. -/
theorem marker_sw (x : Bool) {m r : Nat} (hm : m < 128) (hr : r < 2 ^ 24) : ((sw x m + r) >>> 31 % 2 == 1) = x := by
  rw [Nat.shiftRight_eq_div_pow]
  cases x <;> simp only [sw, Bool.false_eq_true, if_false, if_true, beq_eq_false_iff_ne, beq_iff_eq] <;> omega

/-- A field below the major opcode does not see the bits above it. -/
theorem field_sw (x : Bool) (m r : Nat) {lo n : Nat} (h : lo + n ≤ 24) : (sw x m + r) / 2 ^ lo % 2 ^ n = r / 2 ^ lo % 2 ^ n := by
  obtain ⟨c, hc⟩ : ∃ c, sw x m = 2 ^ 24 * c := ⟨(if x then 128 else 0) + m, by cases x <;> simp [sw] <;> omega⟩
  have e : sw x m = 2 ^ lo * (2 ^ n * (2 ^ (24 - lo - n) * c)) := by
    rw [hc, ← Nat.mul_assoc, ← Nat.mul_assoc, ← Nat.pow_add, ← Nat.pow_add, show lo + n + (24 - lo - n) = 24 by omega]
  rw [e, Nat.add_comm, Nat.add_mul_div_left _ _ (Nat.two_pow_pos lo), Nat.add_mul_mod_self_left]

theorem fld_sw (x : Bool) (m r : Nat) {lo n : Nat} (h : lo + n ≤ 24) : fld n (sw x m + r) lo = fld n r lo := by
  apply BitVec.eq_of_toNat_eq
  simp only [fld, BitVec.toNat_ofNat, Nat.shiftRight_eq_div_pow, field_sw x m r h]

theorem fixed_sw (x : Bool) (m r v : Nat) {lo n : Nat} (h : lo + n ≤ 24) : fixed (sw x m + r) lo n v = fixed r lo n v := by
  rw [fixed_eq, fixed_eq, field_sw x m r h]

theorem isLongMajor_sw (x : Bool) {m r : Nat} (hm : m < 112) (hr : r < 2 ^ 24) : isLongMajor (sw x m + r) = false := by
  rw [isLongMajor, major_sw x (by omega) hr]
  simp; omega

section
variable (x : Bool) {r : Nat} (y : Nat) (hr : r < 2 ^ 24)
include hr

/-- A word of a major opcode is decoded by its fields alone. -/
theorem decodeWords_major19 : decodeWords (sw x 0x19 + r) y = dec19 x r := by
  simp [decodeWords, major_sw x _ hr, marker_sw x _ hr, dec19, fld_sw, fixed_sw]
theorem decodeWords_major1A : decodeWords (sw x 0x1A + r) y = dec1A x r := by
  simp [decodeWords, major_sw x _ hr, marker_sw x _ hr, dec1A, fld_sw, fixed_sw]
theorem decodeWords_major6F : decodeWords (sw x 0x6F + r) y = dec6F x r := by
  simp [decodeWords, major_sw x _ hr, marker_sw x _ hr, dec6F, fld_sw, fixed_sw]

end

/-! ### The formats SI and SS, and major 0x6F -/

/-- The fields of format SI: D, A and a constant. -/
def fieldsSI (d a : BitVec 6) (i : BitVec 12) : Nat := d.toNat * 2 ^ 18 + a.toNat * 2 ^ 12 + i.toNat

/-- The fields of format SS: F, D, A and B. -/
def fieldsSS (f : Nat) (d a : BitVec 6) (b : Nat) : Nat := f * 2 ^ 21 + d.toNat * 2 ^ 15 + a.toNat * 2 ^ 9 + b * 2 ^ 3

/-- The fields of a word of major 0x6F with one register: SUB, D and the bits below. -/
def fieldsSub (sub : Nat) (d : BitVec 6) (low : Nat) : Nat := sub * 2 ^ 19 + d.toNat * 2 ^ 13 + low

section SI
variable (d a : BitVec 6) (i : BitVec 12)

theorem fieldsSI_lt : fieldsSI d a i < 2 ^ 24 := by unfold fieldsSI; omega
@[simp] theorem fld_fieldsSI_d : fld 6 (fieldsSI d a i) 18 = d := fld_eq (by unfold fieldsSI; omega)
@[simp] theorem fld_fieldsSI_a : fld 6 (fieldsSI d a i) 12 = a := fld_eq (by unfold fieldsSI; omega)
@[simp] theorem fld_fieldsSI_i : fld 12 (fieldsSI d a i) 0 = i := fld_eq (by unfold fieldsSI; omega)

end SI

section SS
variable {f b : Nat} (d a : BitVec 6) (hf : f < 8) (hb : b < 64)

include hf hb in
theorem fieldsSS_lt : fieldsSS f d a b < 2 ^ 24 := by unfold fieldsSS; omega
include hb in
theorem fld_fieldsSS_d : fld 6 (fieldsSS f d a b) 15 = d := fld_eq (by unfold fieldsSS; omega)
include hb in
theorem fld_fieldsSS_a : fld 6 (fieldsSS f d a b) 9 = a := fld_eq (by unfold fieldsSS; omega)
theorem fld_fieldsSS_b (b : BitVec 6) : fld 6 (fieldsSS f d a b.toNat) 3 = b := fld_eq (by unfold fieldsSS; omega)
include hf hb in
theorem fixed_fieldsSS_f (v : Nat) : fixed (fieldsSS f d a b) 21 3 v = decide (f = v) := by
  rw [fixed_eq]; unfold fieldsSS; congr 2; omega
theorem fixed_fieldsSS_low : fixed (fieldsSS f d a b) 0 3 0 = true := by
  rw [fixed_eq]; unfold fieldsSS; simp; omega
include hb in
theorem fixed_fieldsSS_b : fixed (fieldsSS f d a b) 0 9 0 = decide (b = 0) := by
  rw [fixed_eq]; unfold fieldsSS; congr 1; simp; omega

end SS

/-- Major 0x19 with its fields (R229). -/
theorem dec19_fieldsSS (x : Bool) {f : Nat} (hf : f < 8) (d a b : BitVec 6) :
    dec19 x (fieldsSS f d a b.toNat) = if f = 0 then some (.smin x d a b) else if f = 1 then some (.smax x d a b)
      else if f = 2 then some (.sminw x d a b) else if f = 3 then some (.smaxw x d a b) else none := by
  have hb := b.isLt
  simp [dec19, fixed_fieldsSS_f d a hf hb, fixed_fieldsSS_low, fld_fieldsSS_d d a hb, fld_fieldsSS_a d a hb, fld_fieldsSS_b]

/-- Major 0x1A with its fields: B is zero (R230). -/
theorem dec1A_fieldsSS (x : Bool) {f b : Nat} (hf : f < 8) (hb : b < 64) (d a : BitVec 6) :
    dec1A x (fieldsSS f d a b) = if b = 0 then if f = 0 then some (.spopc x d a) else if f = 1 then some (.sclz x d a)
      else if f = 2 then some (.sctz x d a) else none else none := by
  by_cases h : b = 0
  · subst h
    simp [dec1A, fixed_fieldsSS_f d a hf hb, fixed_fieldsSS_b d a hb, fld_fieldsSS_d d a hb, fld_fieldsSS_a d a hb]
  · simp [dec1A, fixed_fieldsSS_b d a hb, h]

theorem fieldsSub_lt {sub low : Nat} (hs : sub < 32) (hl : low < 2 ^ 13) (d : BitVec 6) : fieldsSub sub d low < 2 ^ 24 := by
  unfold fieldsSub; omega

/-- Major 0x6F, SUB 2 to 4, with its fields: the bits below D are zero (R242). -/
theorem dec6F_fieldsSub (x : Bool) {sub low : Nat} (h₂ : 2 ≤ sub) (h₄ : sub ≤ 4) (hl : low < 2 ^ 13) (d : BitVec 6) :
    dec6F x (fieldsSub sub d low) = if low = 0 then some (if sub = 2 then .tnow x d else if sub = 3 then .cyc x d else .icount x d)
      else none := by
  have hd : fld 6 (fieldsSub sub d low) 13 = d := fld_eq (by unfold fieldsSub; omega)
  have hsub : ∀ v, fixed (fieldsSub sub d low) 19 5 v = decide (sub = v) := fun v => by
    rw [fixed_eq]; unfold fieldsSub; congr 2; omega
  have hlow : fixed (fieldsSub sub d low) 0 13 0 = decide (low = 0) := by
    rw [fixed_eq]; unfold fieldsSub; congr 1; simp; omega
  have hyield : fixed (fieldsSub sub d low) 0 24 4718592 = false := by
    rw [fixed_eq]; unfold fieldsSub; simp; omega
  have hevsig : fixed (fieldsSub sub d low) 13 11 320 = false := by
    rw [fixed_eq]; unfold fieldsSub; simp; omega
  have htrap : fixed (fieldsSub sub d low) 16 8 0 = false := by
    rw [fixed_eq]; unfold fieldsSub; simp; omega
  have hbrk : fixed (fieldsSub sub d low) 16 8 8 = false := by
    rw [fixed_eq]; unfold fieldsSub; simp; omega
  obtain rfl | rfl | rfl : sub = 2 ∨ sub = 3 ∨ sub = 4 := by omega
  all_goals simp [dec6F, hd, hsub, hlow, hyield, hevsig, htrap, hbrk]

/-- Majors 0x12 to 0x15 are the fields of format SI (R225). -/
theorem decodeWords_SI (x : Bool) (d a : BitVec 6) (i : BitVec 12) (y : Nat) :
    decodeWords (sw x 0x12 + fieldsSI d a i) y = some (.saddi x d a i) ∧ decodeWords (sw x 0x13 + fieldsSI d a i) y = some (.sandi x d a i) ∧
    decodeWords (sw x 0x14 + fieldsSI d a i) y = some (.sori x d a i) ∧ decodeWords (sw x 0x15 + fieldsSI d a i) y = some (.sxori x d a i) := by
  have hr := fieldsSI_lt d a i
  simp [decodeWords, major_sw x _ hr, marker_sw x _ hr, dec12, dec13, dec14, dec15, fld_sw]

section
variable (x : Bool) {sub : Nat} (h₂ : 2 ≤ sub) (h₄ : sub ≤ 4) (d : BitVec 6) (y : Nat)
include h₂ h₄

/-- `tnow`, `cyc` and `icount` are SUB 2, 3 and 4 of major 0x6F with D alone (R242). -/
theorem decodeWords_sub : decodeWords (sw x 0x6F + sub * 2 ^ 19 + d.toNat * 2 ^ 13) y =
    some (if sub = 2 then .tnow x d else if sub = 3 then .cyc x d else .icount x d) := by
  have h := decodeWords_major6F x y (fieldsSub_lt (low := 0) (show sub < 32 by omega) (by decide) d)
  rwa [dec6F_fieldsSub x h₂ h₄ (by decide), if_pos rfl, fieldsSub, Nat.add_zero, ← Nat.add_assoc] at h

/-- A bit below D leaves no instruction (R199, R242). -/
theorem decodeWords_sub_low {low : Nat} (h₀ : 0 < low) (hl : low < 2 ^ 13) :
    decodeWords (sw x 0x6F + sub * 2 ^ 19 + d.toNat * 2 ^ 13 + low) y = none := by
  have h := decodeWords_major6F x y (fieldsSub_lt (show sub < 32 by omega) hl d)
  rwa [dec6F_fieldsSub x h₂ h₄ hl, if_neg h₀.ne', fieldsSub, ← Nat.add_assoc, ← Nat.add_assoc] at h

end

end Sys2Proof
end

section
/-! SUPPORT. Words that are no instruction (R203). -/

namespace Sys2Proof.Machine

/-- The launch of a path that may issue is running. -/
theorem Site.running_of_free {k : Site} {s : State} (h : k.free s = true) : k.l.st = .running := by
  unfold Site.free at h
  exact beq_iff_eq.mp (Bool.and_eq_true_iff.mp h).2

/-- A word of one-word form that decodes to nothing, at its issue, kills its launch with ILLOP. -/
theorem execUnassignedEncoding_short {s z : State} {k : Site} {w : Nat} (hk : s.site? = some k) (hf : k.free s = true)
    (hw : s.wordAt k = .word none w z) (hs : isLongMajor w = false) :
    exec .unassignedEncoding s = done s (State.killLaunch { s with cur := none } k.w.lid 8 k.p.pc 0) := by
  show execUnassignedEncoding s = _
  simp [execUnassignedEncoding, hk, hw, hf, hs]

/-- A word of one-word form that decodes to nothing, whatever follows it, raises ILLOP. -/
theorem raisesIllop_of_undecodable {w : Nat} (hn : ∀ y, decodeWords w y = none) (hs : isLongMajor w = false) : RaisesIllop w := by
  refine ⟨hn, fun s k z _ hk hf hw => ⟨_, execUnassignedEncoding_short hk hf hw hs, ?_⟩⟩
  obtain ⟨-, -, hl, -⟩ := State.site?_spec hk
  have hr := Site.running_of_free hf
  exact State.killLaunch_launch (s := { s with cur := none }) hl (by simp [hr]) (by simp [hr]) 8 k.p.pc 0

end Sys2Proof.Machine
end

section
/-! SUPPORT. What the functions of the scalar and mask words compute (R222 to R233), as numbers and as bits. -/

namespace Sys2Proof.Machine

/-! ### Shifts as products and quotients (R223, R226) -/

theorem regCount_eq (b : Word) : regCount b = (b.extractLsb' 0 6).toNat := by
  simp [regCount, BitVec.extractLsb'_toNat]

theorem shiftL_eq (a : Word) (c : Nat) : shiftL a c = BitVec.ofNat 64 (a.toNat * 2 ^ c) := by
  apply BitVec.eq_of_toNat_eq
  rw [shiftL, BitVec.toNat_shiftLeft, BitVec.toNat_ofNat, Nat.shiftLeft_eq]

theorem shiftR_eq (a : Word) (c : Nat) : shiftR a c = BitVec.ofNat 64 (a.toNat / 2 ^ c) := by
  apply BitVec.eq_of_toNat_eq
  have h : a.toNat / 2 ^ c < 2 ^ 64 := lt_of_le_of_lt (Nat.div_le_self _ _) a.isLt
  rw [shiftR, BitVec.toNat_ushiftRight, BitVec.toNat_ofNat, Nat.shiftRight_eq_div_pow, Nat.mod_eq_of_lt h]

theorem shiftA_eq (a : Word) (c : Nat) : shiftA a c = BitVec.ofInt 64 (a.toInt / 2 ^ c) := by
  rw [shiftA, BitVec.sshiftRight, Int.shiftRight_eq_div_pow, Int.natCast_pow]; rfl

/-! ### Compares, constants, minimum and maximum (R227 to R229) -/

/-- `scmp` holds exactly where the relation that F selects does (R228). -/
theorem scalarCond_iff {f : BitVec 3} {p q : Word} {c : Prop}
    (h : (f = 0 ∧ (c ↔ p = q)) ∨ (f = 1 ∧ (c ↔ p ≠ q)) ∨ (f = 2 ∧ (c ↔ p.toInt < q.toInt)) ∨ (f = 3 ∧ (c ↔ p.toInt ≤ q.toInt)) ∨
      (f = 4 ∧ (c ↔ p.toNat < q.toNat)) ∨ (f = 5 ∧ (c ↔ p.toNat ≤ q.toNat))) : scalarCond f.toNat p q = true ↔ c := by
  rcases h with ⟨rfl, h⟩ | ⟨rfl, h⟩ | ⟨rfl, h⟩ | ⟨rfl, h⟩ | ⟨rfl, h⟩ | ⟨rfl, h⟩ <;> simp [scalarCond, h]

/-- The high half of `smovh`, above the low half that stays (R227). -/
theorem append_low_eq (j : BitVec 32) (v : Word) : (j ++ v.setWidth 32 : BitVec 64) = BitVec.ofNat 64 (j.toNat * 2 ^ 32 + v.toNat % 2 ^ 32) := by
  apply BitVec.eq_of_toNat_eq
  have hlow : v.toNat % 2 ^ 32 < 2 ^ 32 := Nat.mod_lt _ (by decide)
  have hall : j.toNat * 2 ^ 32 + v.toNat % 2 ^ 32 < 2 ^ 64 := by omega
  rw [BitVec.toNat_append, BitVec.toNat_setWidth, ← Nat.shiftLeft_add_eq_or_of_lt hlow, Nat.shiftLeft_eq, BitVec.toNat_ofNat,
    Nat.mod_eq_of_lt hall]

section
variable {v p q : Word} (hv : v = p ∨ v = q)
include hv

/-- The one of two registers that is below both is the least (R229); in each order alike. -/
theorem minS_eq (hp : v.toInt ≤ p.toInt) (hq : v.toInt ≤ q.toInt) : minS p q = v := by
  unfold minS; apply BitVec.eq_of_toInt_eq; grind
theorem maxS_eq (hp : p.toInt ≤ v.toInt) (hq : q.toInt ≤ v.toInt) : maxS p q = v := by
  unfold maxS; apply BitVec.eq_of_toInt_eq; grind
theorem minU_eq (hp : v.toNat ≤ p.toNat) (hq : v.toNat ≤ q.toNat) : minU p q = v := by
  unfold minU; apply BitVec.eq_of_toNat_eq; grind
theorem maxU_eq (hp : p.toNat ≤ v.toNat) (hq : q.toNat ≤ v.toNat) : maxU p q = v := by
  unfold maxU; apply BitVec.eq_of_toNat_eq; grind

end

/-! ### Counts of bits (R230, R233) -/

/-- The one bits of a word are counted one by one. -/
theorem popc_toNat (w : Nat) (p : BitVec w) : popc w p.toNat = (List.range w).countP fun j => p.getLsbD j :=
  List.countP_eq_length_filter.symm

/-- The leading zeros of a word: as many as there are above its highest one bit (R230). -/
theorem clz_eq {w n : Nat} {p : BitVec w} (hn : n ≤ w) (hz : ∀ j, w - n ≤ j → p.getLsbD j = false)
    (ho : n < w → p.getLsbD (w - 1 - n) = true) : clz w p.toNat = n := by
  have hlt : p.toNat < 2 ^ (w - n) := Nat.lt_pow_two_of_testBit _ fun j hj => hz j hj
  rcases Nat.lt_or_ge n w with h | h
  · have hge : 2 ^ (w - 1 - n) ≤ p.toNat := Nat.ge_two_pow_of_testBit (ho h)
    have hpos : p.toNat ≠ 0 := (lt_of_lt_of_le (Nat.two_pow_pos _) hge).ne'
    have hlog : p.toNat.log2 = w - 1 - n := (Nat.log2_eq_iff hpos).mpr ⟨hge, by rwa [show w - 1 - n + 1 = w - n by omega]⟩
    rw [clz, if_neg hpos, hlog]; omega
  · obtain rfl : n = w := by omega
    have hzero : p.toNat = 0 := by simpa using hlt
    rw [clz, if_pos hzero]

/-- The trailing zeros of a word: as many as there are below its lowest one bit (R230, R233). -/
theorem ctz_eq {w n : Nat} {p : BitVec w} (hn : n ≤ w) (hz : ∀ j, j < n → p.getLsbD j = false) (ho : n < w → p.getLsbD n = true) :
    ctz w p.toNat = n := by
  unfold ctz
  rcases Nat.lt_or_ge n w with h | h
  · have hfind : ((List.range w).find? fun i => p.toNat.testBit i) = some n :=
      List.find?_range_eq_some.mpr ⟨ho h, List.mem_range.mpr h, fun j hj => (Bool.not_eq_true' _).mpr (hz j hj)⟩
    rw [hfind]; rfl
  · obtain rfl : n = w := by omega
    have hfind : ((List.range n).find? fun i => p.toNat.testBit i) = none :=
      List.find?_eq_none.mpr fun j hj => Bool.eq_false_iff.mp (hz j (List.mem_range.mp hj))
    rw [hfind]; rfl

/-- The index of the highest one bit of a mask (R233). -/
theorem highestBit_eq {q : W32} {n : Nat} (ho : q.getLsbD n = true) (hz : ∀ j, n < j → q.getLsbD j = false) : highestBit q = n := by
  have hge : 2 ^ n ≤ q.toNat := Nat.ge_two_pow_of_testBit ho
  have hlt : q.toNat < 2 ^ (n + 1) := Nat.lt_pow_two_of_testBit _ fun j hj => hz j hj
  have hpos : q.toNat ≠ 0 := (lt_of_lt_of_le (Nat.two_pow_pos _) hge).ne'
  rw [highestBit, if_neg (mt (congrArg BitVec.toNat) hpos)]
  exact (Nat.log2_eq_iff hpos).mpr ⟨hge, hlt⟩

end Sys2Proof.Machine
end

section
/-! SUPPORT. Words whose whole effect is on their own wave: one register, or what a write of a status register changes. -/

namespace Sys2Proof.Machine

variable {x : Bool} {i : Instr} {s : State} {k : Site}

/-- A word that writes one scalar register at its issue completes with the value it forms (R223 to R230). -/
theorem completes_setS {n : Nat} {g : Site → Word} {v : Word} (hi : exec i s = issueWave x i s fun k u => u.setS n (g k)) (hv : g k = v)
    (h : Issuing i s k) : Completes x i s k s (k.v.setS n v) k.p none := by
  subst hv
  rw [Completes, hi]
  exact issueWave_done h _ (fun _ => rfl) fun _ => rfl

/-- A word that writes one mask at its issue completes with the mask it forms (R233). -/
theorem completes_setM {n : Nat} {g : Site → W32} {v : W32} (hi : exec i s = issueWave x i s fun k u => u.setM n (g k)) (hv : g k = v)
    (h : Issuing i s k) : Completes x i s k s (k.v.setM n v) k.p none := by
  subst hv
  rw [Completes, hi]
  exact issueWave_done h _ (fun _ => rfl) fun _ => rfl

/-! ### Status registers (R235 to R238, R247) -/

/-- An entry of ELOG is put alike into every wave that is this one but for its count, its marker and its paths. -/
theorem putElog_counted (k : Site) (x : Bool) (u v : Wave) (e : Word) :
    Wave.putElog ((k.counted x u).withPaths v) e = (k.counted x (u.putElog e)).withPaths v := by
  have hlog : ((k.counted x u).withPaths v).elog = u.elog := rfl
  unfold Wave.putElog
  rw [hlog]
  cases u.elog.findIdx? (fun y => !y.getLsbD 63) <;> rfl

theorem foldl_putElog_counted (k : Site) (x : Bool) (v : Wave) (es : List Word) (u : Wave) :
    es.foldl Wave.putElog ((k.counted x u).withPaths v) = (k.counted x (es.foldl Wave.putElog u)).withPaths v := by
  induction es generalizing u with
  | nil => rfl
  | cons e es ih => rw [List.foldl_cons, putElog_counted, ih]; rfl

/-- No entry of ELOG moves a path. -/
theorem path?_putElog (v : Wave) (e : Word) (n : Nat) : (v.putElog e).path? n = v.path? n := by
  unfold Wave.putElog
  split <;> rfl

theorem path?_foldl_putElog (es : List Word) (v : Wave) (n : Nat) : (es.foldl Wave.putElog v).path? n = v.path? n := by
  induction es generalizing v with
  | nil => rfl
  | cons e es ih => rw [List.foldl_cons, ih, path?_putElog]

/-- A write of a status register that only the wave itself sees completes with the wave that it gives. -/
theorem completes_wrsr {x : Bool} {a : BitVec 6} {i : BitVec 12} {s : State} {k : Site} {u : Wave}
    (hu : ∀ v : Wave, statusWrite ((k.counted x k.v).withPaths v) i.toNat (k.s a) = (k.counted x u).withPaths v)
    (hp : ∀ n, u.path? n = k.v.path? n) (h : Issuing (.wrsr x a i) s k) : Completes x (.wrsr x a i) s k s u k.p none :=
  issueWave_done (f := fun k v => statusWrite v i.toNat (k.s a)) h u hu hp

theorem statusRead_elog (k : Site) {n : Nat} (h : n < 4) : statusRead k (BitVec.ofNat 12 (0x010 + n)).toNat = k.v.elog.getD n 0 := by
  obtain rfl | rfl | rfl | rfl : n = 0 ∨ n = 1 ∨ n = 2 ∨ n = 3 := by omega
  all_goals rfl

theorem statusRead_lc (k : Site) {n : Nat} (h : n < 3) :
    statusRead k (BitVec.ofNat 12 (0x020 + n)).toNat = (k.v.lc.getD n 0).setWidth 64 := by
  obtain rfl | rfl | rfl : n = 0 ∨ n = 1 ∨ n = 2 := by omega
  all_goals rfl

theorem statusWrite_lc (v : Wave) (y : Word) {n : Nat} (h : n < 3) :
    statusWrite v (BitVec.ofNat 12 (0x020 + n)).toNat y = v.setLc n (BitVec.ofNat 32 y.toNat) := by
  obtain rfl | rfl | rfl : n = 0 ∨ n = 1 ∨ n = 2 := by omega
  all_goals rfl

end Sys2Proof.Machine
end

section
/-! Scalar words and status registers: the statements (R222 to R242). -/

namespace Sys2Proof.Machine

/-- Major 0x19 with F 4 to 7 is no instruction (R229). -/
theorem raisesIllop_major19 (x : Bool) (d a b : BitVec 6) {n : Nat} (h₄ : 4 ≤ n) (h₈ : n < 8) :
    RaisesIllop (sw x 0x19 + fieldsSS n d a b.toNat) := by
  have hr := fieldsSS_lt d a h₈ b.isLt
  refine raisesIllop_of_undecodable (fun y => ?_) (isLongMajor_sw x (by decide) hr)
  rw [decodeWords_major19 x y hr, dec19_fieldsSS x h₈]
  simp only [show n ≠ 0 by omega, show n ≠ 1 by omega, show n ≠ 2 by omega, show n ≠ 3 by omega, if_false]

/-- Major 0x1A with F 3 to 7, or with a B that is not zero, is no instruction (R199, R230). -/
theorem raisesIllop_major1A (x : Bool) (d a : BitVec 6) {n b : Nat} (hn : n < 8) (hb : b < 64) (h : 3 ≤ n ∨ 0 < b) :
    RaisesIllop (sw x 0x1A + fieldsSS n d a b) := by
  have hr := fieldsSS_lt d a hn hb
  refine raisesIllop_of_undecodable (fun y => ?_) (isLongMajor_sw x (by decide) hr)
  rw [decodeWords_major1A x y hr, dec1A_fieldsSS x hn hb]
  split
  · simp only [show n ≠ 0 by omega, show n ≠ 1 by omega, show n ≠ 2 by omega, if_false]
  · rfl

/-- Settles O1: each word is one register write at issue, each form with a constant is its fields in format SI, and shifts are products and
quotients. -/
theorem scalarSumsShifts : Obligations.ScalarSumsShifts := by
  refine ⟨fun x d a b i s k => ?_, fun x d a i y => ?_, fun x d a b c s k => ?_⟩
  · exact ⟨completes_setS rfl rfl, completes_setS rfl rfl, completes_setS rfl rfl, completes_setS rfl rfl, completes_setS rfl rfl,
      completes_setS rfl rfl, completes_setS rfl rfl, completes_setS rfl rfl, completes_setS rfl rfl⟩
  · obtain ⟨hadd, hand, hor, hxor⟩ := decodeWords_SI x d a i y
    simp only [fieldsSI, ← Nat.add_assoc] at hadd hand hor hxor
    exact ⟨⟨hadd, rfl, rfl⟩, ⟨hand, rfl, rfl⟩, ⟨hor, rfl, rfl⟩, ⟨hxor, rfl, rfl⟩⟩
  · have hn := regCount_eq (k.s b)
    exact ⟨completes_setS rfl (hn ▸ shiftL_eq _ _), completes_setS rfl (shiftL_eq _ _), completes_setS rfl (hn ▸ shiftR_eq _ _),
      completes_setS rfl (shiftR_eq _ _), completes_setS rfl (hn ▸ shiftA_eq _ _), completes_setS rfl (shiftA_eq _ _)⟩

/-- Settles O3: constants and compares are one register write at issue, the chosen register is the least or the greatest, and major 0x19 is
decoded by F. -/
theorem scalarConstantsCompares : Obligations.ScalarConstantsCompares := by
  intro x d a b i j f s k res p q
  refine ⟨completes_setS rfl rfl, completes_setS rfl rfl, completes_setS rfl (append_low_eq j (k.s d)), fun c hc => ?_, fun v hv => ?_, ?_⟩
  · have hcond := scalarCond_iff hc
    exact ⟨fun h => completes_setS rfl (congrArg Word.ofBool (hcond.mpr h)),
      fun h => completes_setS rfl (congrArg Word.ofBool (Bool.eq_false_iff.mpr (mt hcond.mp h)))⟩
  · exact ⟨fun h => completes_setS rfl (minS_eq hv h.1 h.2), fun h => completes_setS rfl (maxS_eq hv h.1 h.2),
      fun h => completes_setS rfl (minU_eq hv h.1 h.2), fun h => completes_setS rfl (maxU_eq hv h.1 h.2)⟩
  · intro word coded
    have hword : ∀ n, word n = sw x 0x19 + fieldsSS n d a b.toNat := fun n => by simp [word, fieldsSS, Nat.add_assoc]
    have hdec : ∀ n, n < 8 → ∀ y, decodeWords (word n) y = dec19 x (fieldsSS n d a b.toNat) := fun n hn y => by
      rw [hword, decodeWords_major19 x y (fieldsSS_lt d a hn b.isLt)]
    refine ⟨⟨fun y => ?_, rfl, rfl⟩, ⟨fun y => ?_, rfl, rfl⟩, ⟨fun y => ?_, rfl, rfl⟩, ⟨fun y => ?_, rfl, rfl⟩, fun n h₄ h₈ => ?_⟩
    · rw [hdec 0 (by decide), dec19_fieldsSS x (by decide)]; rfl
    · rw [hdec 1 (by decide), dec19_fieldsSS x (by decide)]; rfl
    · rw [hdec 2 (by decide), dec19_fieldsSS x (by decide)]; rfl
    · rw [hdec 3 (by decide), dec19_fieldsSS x (by decide)]; rfl
    · rw [hword]; exact raisesIllop_major19 x d a b h₄ h₈

/-- Settles O4: each word is one register or mask write at issue; the counts are those of the bits, and major 0x1A is decoded by F with B zero. -/
theorem countsAndMasks : Obligations.CountsAndMasks := by
  refine ⟨fun x d a m s k => ?_, fun x d a => ?_, fun x d a b r s k => ?_⟩
  · refine ⟨completes_setS rfl (congrArg _ (popc_toNat 64 _)), fun n hn hz ho => completes_setS rfl (congrArg _ (clz_eq hn hz ho)),
      fun n hn hz ho => completes_setS rfl (congrArg _ (ctz_eq hn hz ho)), completes_setS rfl (congrArg _ (popc_toNat 32 _)),
      fun n hn hz ho => completes_setS rfl (congrArg _ (ctz_eq hn hz ho)), fun h => completes_setS rfl (congrArg _ (if_pos h)),
      fun n ho hz => completes_setS rfl (congrArg _ (highestBit_eq ho hz))⟩
  · intro word coded
    have hword : ∀ n b, word n + b * 2 ^ 3 = sw x 0x1A + fieldsSS n d a b := fun n b => by simp [word, fieldsSS, Nat.add_assoc]
    have hdec : ∀ n, n < 8 → ∀ y, decodeWords (word n) y = dec1A x (fieldsSS n d a 0) := fun n hn y => by
      rw [← decodeWords_major1A x y (fieldsSS_lt d a hn (by decide)), ← hword n 0]; rfl
    refine ⟨⟨fun y => ?_, rfl, rfl⟩, ⟨fun y => ?_, rfl, rfl⟩, ⟨fun y => ?_, rfl, rfl⟩, fun n h₃ h₈ => ?_, fun n b hn hb hlt => ?_⟩
    · rw [hdec 0 (by decide), dec1A_fieldsSS x (by decide) (by decide)]; rfl
    · rw [hdec 1 (by decide), dec1A_fieldsSS x (by decide) (by decide)]; rfl
    · rw [hdec 2 (by decide), dec1A_fieldsSS x (by decide) (by decide)]; rfl
    · have h := raisesIllop_major1A x d a (b := 0) h₈ (by decide) (.inl h₃)
      rwa [← hword] at h
    · rw [hword]; exact raisesIllop_major1A x d a hn hlt (.inr hb)
  · exact ⟨completes_setM rfl rfl, completes_setM rfl rfl, completes_setM rfl rfl, completes_setM rfl rfl, completes_setM rfl rfl,
      completes_setM rfl rfl, completes_setM rfl rfl, completes_setS rfl (BitVec.ofNat_toNat 64 _).symm⟩

/-- Settles O5: each read is one register write at issue with the register's value; each write is a change of the wave alone, and what the cycle
has set is put back after the clear. -/
theorem statusRegisters : Obligations.StatusRegisters := by
  refine ⟨fun x d h s k => ?_, fun x d => ?_, fun x a s k => ?_⟩
  · exact ⟨completes_setS rfl rfl, completes_setS rfl rfl, completes_setS rfl rfl, completes_setS rfl rfl, completes_setS rfl rfl,
      completes_setS rfl rfl, completes_setS rfl rfl, completes_setS rfl rfl, completes_setS rfl rfl,
      fun n hn => completes_setS rfl (statusRead_elog k hn), fun n hn => completes_setS rfl (statusRead_lc k hn),
      completes_setS rfl rfl, completes_setS rfl rfl, completes_setS rfl rfl, completes_setS rfl rfl⟩
  · refine ⟨⟨decodeWords_sub x (by decide) (by decide) d, rfl, ?_⟩, ⟨decodeWords_sub x (by decide) (by decide) d, rfl, ?_⟩,
      ⟨decodeWords_sub x (by decide) (by decide) d, rfl, ?_⟩⟩
    all_goals exact fun low h₀ hl y => decodeWords_sub_low x (by decide) (by decide) d y h₀ hl
  · exact ⟨completes_wrsr (fun v => rfl) fun n => rfl, completes_wrsr (fun v => rfl) fun n => rfl,
      completes_wrsr (fun v => foldl_putElog_counted k x v k.v.newE { k.v with elog := [0, 0, 0, 0] }) fun n => path?_foldl_putElog k.v.newE _ n,
      fun n hn => completes_wrsr (fun v => statusWrite_lc _ _ hn) fun m => rfl⟩

end Sys2Proof.Machine
end

section
/-! SUPPORT. The ports of the fabric, the minima over their watermarks (R392, R393), and a write to a port's block (R395, R402). -/

namespace Sys2Proof.Machine

/-! ### Lists of ports -/

/-- The model's change of one element is the library's. -/
theorem setAt_eq_set {α : Type} (l : List α) (n : Nat) (v : α) : setAt l n v = l.set n v := by
  induction l generalizing n with
  | nil => rfl
  | cons x l ih =>
    cases n with
    | zero => rfl
    | succ n => exact congrArg (x :: ·) (ih n)

/-- An element that a filter drops may become another that it drops. -/
theorem filter_zipIdx_set {α : Type} {P : α × Nat → Bool} {l : List α} {n k : Nat} {a b : α} (hn : l[n]? = some a)
    (ha : P (a, k + n) = false) (hb : P (b, k + n) = false) : ((l.set n b).zipIdx k).filter P = (l.zipIdx k).filter P := by
  induction l generalizing n k with
  | nil => rfl
  | cons x l ih =>
    cases n with
    | zero =>
      obtain rfl : x = a := by simpa using hn
      rw [Nat.add_zero] at ha hb
      simp [ha, hb]
    | succ n =>
      have htail := ih (k := k + 1) (by simpa using hn) (by rwa [Nat.add_right_comm]) (by rwa [Nat.add_right_comm])
      simp only [List.set_cons_succ, List.zipIdx_cons, List.filter_cons, htail]

/-! ### One port changes -/

section
variable {s : State} {p : Nat} {q : Port} {f : Port → Port} (hq : s.fabric.ports[p]? = some q)
include hq

theorem State.modPort_eq : s.modPort p f = { s with fabric := { s.fabric with ports := s.fabric.ports.set p (f q) } } := by
  rw [State.modPort, hq, ← setAt_eq_set]

/-- The port that is changed reads back changed. -/
theorem State.modPort_port : (s.modPort p f).fabric.ports[p]? = some (f q) := by
  obtain ⟨hlt, -⟩ := List.getElem?_eq_some_iff.mp hq
  rw [State.modPort_eq hq]
  exact List.getElem?_set_self hlt

/-- A change that leaves its port as it is changes nothing. -/
theorem State.modPort_of_fixed (hf : f q = q) : s.modPort p f = s := by
  obtain ⟨hlt, rfl⟩ := List.getElem?_eq_some_iff.mp hq
  rw [State.modPort_eq hq, hf, List.set_getElem_self]

end

/-! ### A port that does not count in a minimum -/

theorem Port.counts_of_excise {q : Port} (h : q.excise = true) : q.counts = false := by
  rw [Port.counts, h, Bool.not_true, Bool.and_false]

/-- The minimum of an output, by the inputs that feed it; those of a port that there is not are none. -/
theorem State.feedWM_eq (s : State) (out : Nat) :
    s.feedWM out = (s.fabric.ports.zipIdx.filter fun x => x.1.counts && x.2 != out &&
      (s.fabric.ports[out]?.elim 0 Port.feeds).getLsbD x.2).foldl (fun m x => min m x.1.wm) s.floorF := by
  unfold State.feedWM
  cases s.fabric.ports[out]? <;> rfl

section
variable {s : State} {p : Nat} {q : Port} {f : Port → Port} (hq : s.fabric.ports[p]? = some q) (hc : q.counts = false)
  (hfc : (f q).counts = false)
include hq hc hfc

/-- What becomes of a port that is left out of the count does not move the weir's minimum (R393). -/
theorem State.minWM_modPort (but : Option Nat) : (s.modPort p f).minWM but = s.minWM but := by
  rw [State.modPort_eq hq]
  unfold State.minWM
  rw [filter_zipIdx_set hq (by simp [hc]) (by simp [hfc])]
  rfl

/-- What becomes of a port that is left out of the count, while its output keeps its inputs, does not move an output's minimum (R392). -/
theorem State.feedWM_modPort (hfeeds : (f q).feeds = q.feeds) (out : Nat) : (s.modPort p f).feedWM out = s.feedWM out := by
  have hout : (s.modPort p f).fabric.ports[out]?.elim 0 Port.feeds = s.fabric.ports[out]?.elim 0 Port.feeds := by
    by_cases ho : p = out
    · subst ho
      rw [State.modPort_port hq, hq]
      exact hfeeds
    · rw [State.modPort_eq hq, List.getElem?_set_ne ho]
  rw [State.feedWM_eq, State.feedWM_eq, hout, State.modPort_eq hq, filter_zipIdx_set hq (by simp [hc]) (by simp [hfc])]
  rfl

end

/-! ### EXCISE is written -/

section
variable {s : State} {p : Nat} {q : Port} (hq : s.fabric.ports[p]? = some q)
include hq

theorem State.writeExcise_true_port : (s.writeExcise p true).fabric.ports[p]? = some { q with excise := true } :=
  State.modPort_port hq

/-- Above the stamp of DLV the write of 0 is accepted. -/
theorem State.writeExcise_false_port (h : s.fabric.dlvStamp < q.wm) :
    (s.writeExcise p false).fabric.ports[p]? = some { q with excise := false } := by
  rw [State.writeExcise, State.modPort_port hq, if_neg Bool.false_ne_true, if_pos h]

/-- At the stamp of DLV and below, the write of 0 is ignored. -/
theorem State.writeExcise_false_ignored (h : q.wm ≤ s.fabric.dlvStamp) : s.writeExcise p false = s :=
  State.modPort_of_fixed hq (by rw [if_neg Bool.false_ne_true, if_neg h.not_gt])

end

/-! ### A step that accepts a write, or changes nothing -/

theorem mgmt_of_writeOk {src : MgmtSrc} {r : MgmtReg} {s : State} (h : s.writeOk src r = true) (write : State → State) :
    mgmt src r s write = .next (s.commit (write s)) := by
  rw [mgmt, if_pos h, done]

section
variable {src : MgmtSrc} {p : BitVec 4} {s : State} (h : s.writeOk src (.port p.toNat 0) = true)
include h

theorem exec_portExcise : exec (.portExcise src p) s = .next (s.commit (s.writeExcise p.toNat true)) :=
  mgmt_of_writeOk h fun s => s.writeExcise p.toNat true

theorem exec_portExciseClear : exec (.portExciseClear src p) s = .next (s.commit (s.writeExcise p.toNat false)) :=
  mgmt_of_writeOk h fun s => s.writeExcise p.toNat false

end

/-- A step that changes nothing leaves a sound state as it is. -/
theorem State.commit_self {s : State} (h : s.sound = true) : s.commit s = s := by
  have hlog : s.wlog = [] := List.isEmpty_iff.mp (Bool.and_eq_true_iff.mp h).2
  have hmem : mwriteAll s.wlog.reverse s.mem = s.mem := by rw [hlog]; rfl
  rw [State.commit, hmem, ← hlog]

end Sys2Proof.Machine
end

section
/-! The fabric: the statements (R395). -/

namespace Sys2Proof.Machine

/-- Settles O50: an excised port is left out of both minima whatever its watermark, and EXCISE = 0 is written only above the stamp of DLV. -/
theorem portExcise : Obligations.PortExcise := by
  intro src p s q hsound hok hq
  refine ⟨⟨_, exec_portExcise hok, ?_⟩, ⟨_, exec_portExciseClear hok, fun habove => State.writeExcise_false_port hq habove, fun hbelow => ?_⟩⟩
  · have hset : (s.commit (s.writeExcise p.toNat true)).fabric.ports[p.toNat]? = some { q with excise := true } :=
      State.writeExcise_true_port hq
    have hout (wm : Nat) : Port.counts { q with excise := true, wm := wm } = false := Port.counts_of_excise rfl
    exact ⟨hset, fun but wm => ⟨State.minWM_modPort hset (hout q.wm) (hout wm) but,
      fun out => State.feedWM_modPort hset (hout q.wm) (hout wm) rfl out⟩⟩
  · have hsame : s.commit (s.writeExcise p.toNat false) = s := by
      rw [State.writeExcise_false_ignored hq hbelow, State.commit_self hsound]
    rw [hsame]
    exact ⟨hq, rfl⟩

end Sys2Proof.Machine
end
